-- ==== Sys2Proof/Word.lean ====
section
/-! DEFINITION. The words of the 2400's serial links and the fixed-size banks its blocks keep. -/
namespace Sys2Proof

/-- One byte of a serial link. -/
abbrev Byte := BitVec 8
/-- A two-byte field, most significant byte first on every link (00_scope, Numbers). -/
abbrev Half := BitVec 16
/-- A three-byte field, most significant byte first on every link (00_scope, Numbers). -/
abbrev Tri := BitVec 24

/-- A bank of exactly `n` like records (eight outlets, four presenters, ...). -/
structure Bank (n : Nat) (α : Type) where
  data : List α
  size : data.length = n
  deriving DecidableEq, Repr

namespace Bank
variable {n : Nat} {α : Type}

/-- Record `i` of the bank. -/
def get (b : Bank n α) (i : Fin n) : α := b.data[i.val]'(by rw [b.size]; exact i.isLt)
/-- The bank with record `i` replaced. -/
def set (b : Bank n α) (i : Fin n) (a : α) : Bank n α := ⟨b.data.set i.val a, by simp [b.size]⟩
/-- The bank with record `i` changed by `f`. -/
def modify (b : Bank n α) (i : Fin n) (f : α → α) : Bank n α := b.set i (f (b.get i))
/-- The bank with every record changed by `f`. -/
def map {β : Type} (f : α → β) (b : Bank n α) : Bank n β := ⟨b.data.map f, by simp [b.size]⟩
/-- `n` equal records. -/
def replicate (n : Nat) (a : α) : Bank n α := ⟨List.replicate n a, by simp⟩

end Bank
end Sys2Proof
end

