-- ==== Sys2Proof/Syntax.lean ====
section
/-! DEFINITION. The commands of the 2400: one constructor of `Instr` for each row of spec/opcode_table.json.
A request carries the fields of its body as 11.1 lays them out, undecoded; an event of a line or of a block's own
timing carries the record it happens at. -/
namespace Sys2Proof

/-- The body of INSERT_ITEM, 17 + n bytes (11.1). -/
structure InsertBody where
  key : Half
  after : Half
  endAction : Byte
  presenters : Byte
  p : Tri
  presence : Byte
  l : Tri
  hard : Tri
  slug : List Byte
  deriving DecidableEq, Repr

/-- The body of MODIFY_ITEM, 22 + n bytes (11.1). -/
structure ModifyBody where
  key : Half
  indSlug : Byte
  indP : Byte
  indL : Byte
  indLead : Byte
  indEnd : Byte
  indHard : Byte
  indPresenters : Byte
  p : Tri
  l : Tri
  lead : Byte
  endAction : Byte
  hard : Tri
  presenters : Byte
  slug : List Byte
  deriving DecidableEq, Repr

/-- The body of ADD_EVENT, 11 bytes (11.1). -/
structure AddEventBody where
  owner : Half
  number : Byte
  outlet : Byte
  action : Byte
  anchor : Byte
  offset : Half
  payload : Half
  flags : Byte
  deriving DecidableEq, Repr

/-- The body of MODIFY_EVENT, 12 bytes (11.1). -/
structure ModifyEventBody where
  owner : Half
  number : Byte
  setMask : Byte
  outlet : Byte
  action : Byte
  anchor : Byte
  offset : Half
  payload : Half
  flags : Byte
  deriving DecidableEq, Repr

/-- The eight store changes that a batch stages (R169). -/
inductive StoreChange where
  | insertItem (b : InsertBody)
  | modifyItem (b : ModifyBody)
  | moveItem (key after : Half)
  | markItem (key : Half) (mask selector : Byte)
  | addEvent (b : AddEventBody)
  | modifyEvent (b : ModifyEventBody)
  | removeEvent (owner : Half) (number : Byte)
  | retireItem (key : Half)
  deriving DecidableEq, Repr

/-- The boundary work of the blocks other than the Timebase and the Show Controller. The manual gives these actions
no order among themselves at one boundary (R44), so a boundary names those taken before the Show Controller's judging
(R64), and each of the others is taken at its own row of the table or when the boundary's work is settled. -/
inductive BoundaryPart where
  /-- the boundary's forming of the sheet (R79) -/
  | sheet
  /-- the firing of the boundary's wheel slot (R104) -/
  | wheelSlot
  /-- horizon arming (R102) -/
  | horizon
  /-- the expiry of the lead start timeout (R135) -/
  | leadTimeout
  /-- the end of an outlet's reset hold (R138) -/
  | resetHold (outlet : Fin 8)
  /-- the judging of r for the OVER notice (R70) -/
  | overReached
  /-- the lowering of a presenter's hail (R149) -/
  | hail (position : Fin 4)
  /-- the pattern advance of a presenter (R146) -/
  | lampStep (position : Fin 4)
  /-- the lowering of a panel input's quiet (R159) -/
  | quiet (input : Fin 4)
  /-- the raising of a trap slot's count (R165) -/
  | trapWait (input : Fin 4)
  deriving DecidableEq, Repr

/-- A write transaction (R175): the bytes the processor sends. It ends, and the request it carries arrives, `gap` reference ticks after
the last timed event (log entry 2). -/
structure Write where
  gap : Nat
  bytes : List Byte
  deriving DecidableEq, Repr

/-- The commands, one constructor per row of spec/opcode_table.json, in the table's order. -/
inductive Instr where
  | writeTransaction (w : Write)
  | readTransaction (clocked : Nat)
  | getItem (key : Half)
  | getItemAt (position : Half)
  | walk
  | seek (selector : Byte) (value : Half)
  | getEvents (key : Half)
  | insertItem (b : InsertBody)
  | modifyItem (b : ModifyBody)
  | moveItem (key after : Half)
  | markItem (key : Half) (mask selector : Byte)
  | addEvent (b : AddEventBody)
  | modifyEvent (b : ModifyEventBody)
  | removeEvent (owner : Half) (number : Byte)
  | retireItem (key : Half)
  | clearRundown
  | recycle (adopt : Byte) (keys : List Half)
  | openBatch
  | commitBatch
  | abandonBatch
  | openShow
  | take
  | setNext (key : Half)
  | hold
  | closeShow
  | abortShow
  | setVector (vector : Byte) (key : Half)
  | setShowEnd (indication : Byte) (time : Tri)
  | setWrap (seconds : Byte)
  | getShow
  | getSheet (page : Byte)
  | configureOutlet (outlet kind enabled : Byte) (preRoll : Half) (rate : Byte)
  | resetOutlet (outlet : Byte)
  | ackOutlet (outlet mask : Byte)
  | getOutlet (outlet : Byte)
  | setPattern (lamp : Byte) (pattern : Half) (stepLength : Byte)
  | hailPresenter (position : Byte) (length : Half)
  | getPresenter (position : Byte)
  | setPanelMode (input mode lapse : Byte)
  | verdict (input trap decision : Byte)
  | setStandard (standard : Byte)
  | setTime (frames : Tri)
  | setTrim (trim : Half)
  | setReference (selection : Byte)
  | getTimebase
  | readNotices (selector : Byte)
  | ackNotices (classes : Byte)
  | setNoticeEnables (classes : Byte)
  | restart
  | resetAsserted
  | resetReleased
  /-- the boundary parts taken before the Show Controller's judging -/
  | frameBoundary (early : List BoundaryPart)
  /-- `gap` reference ticks after the last timed event (log entry 2) -/
  | houseSyncPulse (gap : Nat) (early : List BoundaryPart)
  | lossLimit (early : List BoundaryPart)
  | overReached
  | horizonArming
  | wheelSlotFiring
  | lampStepAdvance (position : Fin 4)
  | hailRunOut (position : Fin 4)
  | displaySendCompletion
  | sendCompletion (outlet : Fin 8)
  | readyFall (outlet : Fin 8)
  | readyRise (outlet : Fin 8)
  | tallyRise (outlet : Fin 8)
  | tallyFall (outlet : Fin 8)
  | leadStartTimeout
  | resetHoldEnd (outlet : Fin 8)
  | panelLineChange (input : Fin 4) (level : Bool)
  | quietExpiry (input : Fin 4)
  | lapse (input : Fin 4)
  deriving DecidableEq, Repr

end Sys2Proof
end

