-- ==== Sys2Proof/WellFormed.lean ====
section
/-! DEFINITION. Which commands a request frame can carry (R177, R192): the variable-length bodies must fit a frame. -/
namespace Sys2Proof

/-- The longest body of a request frame (R177). -/
def maxBody : Nat := 250

/-- A command whose body length its layout permits (11.1): a slug that fits the 250-byte body beside the fixed fields, and
1 to 32 keys for RECYCLE. Every other row has a fixed layout. -/
def Instr.wellFormed : Instr → Bool
  | .insertItem b => decide (17 + b.slug.length ≤ maxBody)
  | .modifyItem b => decide (22 + b.slug.length ≤ maxBody)
  | .recycle _ keys => decide (1 ≤ keys.length) && decide (keys.length ≤ 32)
  | _ => true

end Sys2Proof
end

