-- ==== Sys2Proof/Decode.lean ====
section
/-! DEFINITION. From bytes to commands: the table's words, of which the 2400 has none, and the request frames of the port
(R177, R192, 11.1), with the frame each request is written as. -/
namespace Sys2Proof

/-- No row of spec/opcode_table.json gives bits, so no word spells a command. -/
def decodeTableWord (_nbits _w : Nat) : Option Instr := none

/-! ## Fields, most significant byte first (00_scope, Numbers) -/

def half (a b : Byte) : Half := a ++ b
def tri (a b c : Byte) : Tri := a ++ b ++ c
/-- The bytes of a two-byte field. -/
def halfBytes (h : Half) : List Byte := [h.extractLsb' 8 8, h.extractLsb' 0 8]
/-- The bytes of a three-byte field. -/
def triBytes (t : Tri) : List Byte := [t.extractLsb' 16 8, t.extractLsb' 8 8, t.extractLsb' 0 8]

/-- The two-byte keys of a RECYCLE body; none when a byte is left over. -/
def decodeKeys : List Byte → Option (List Half)
  | [] => some []
  | [_] => none
  | a :: b :: rest => (decodeKeys rest).map (half a b :: ·)

/-- A slug with its length byte in front. -/
def decodeSlug : List Byte → Option (List Byte)
  | n :: slug => if n.toNat = slug.length then some slug else none
  | [] => none

/-- The command of a request code with a body its layout permits (11.1); none when no request has the code or the body's length
is not one the layout permits. -/
def decodeBody (code : Byte) (body : List Byte) : Option Instr :=
  match code.toNat, body with
  | 0x10, [a, b] => some (.getItem (half a b))
  | 0x11, [a, b] => some (.getItemAt (half a b))
  | 0x12, [] => some .walk
  | 0x13, [s, a, b] => some (.seek s (half a b))
  | 0x14, [a, b] => some (.getEvents (half a b))
  | 0x20, k1 :: k0 :: a1 :: a0 :: e :: ps :: p2 :: p1 :: p0 :: pr :: l2 :: l1 :: l0 :: h2 :: h1 :: h0 :: rest =>
    (decodeSlug rest).map fun slug =>
      .insertItem ⟨half k1 k0, half a1 a0, e, ps, tri p2 p1 p0, pr, tri l2 l1 l0, tri h2 h1 h0, slug⟩
  | 0x21, k1 :: k0 :: i0 :: i1 :: i2 :: i3 :: i4 :: i5 :: i6 :: p2 :: p1 :: p0 :: l2 :: l1 :: l0 :: ld :: e :: h2 :: h1 :: h0
      :: ps :: rest =>
    (decodeSlug rest).map fun slug =>
      .modifyItem ⟨half k1 k0, i0, i1, i2, i3, i4, i5, i6, tri p2 p1 p0, tri l2 l1 l0, ld, e, tri h2 h1 h0, ps, slug⟩
  | 0x22, [k1, k0, a1, a0] => some (.moveItem (half k1 k0) (half a1 a0))
  | 0x23, [k1, k0, m, s] => some (.markItem (half k1 k0) m s)
  | 0x24, [k1, k0, n, o, ac, an, o1, o0, p1, p0, f] =>
    some (.addEvent ⟨half k1 k0, n, o, ac, an, half o1 o0, half p1 p0, f⟩)
  | 0x25, [k1, k0, n, m, o, ac, an, o1, o0, p1, p0, f] =>
    some (.modifyEvent ⟨half k1 k0, n, m, o, ac, an, half o1 o0, half p1 p0, f⟩)
  | 0x26, [k1, k0, n] => some (.removeEvent (half k1 k0) n)
  | 0x27, [k1, k0] => some (.retireItem (half k1 k0))
  | 0x28, [] => some .clearRundown
  | 0x29, a :: rest =>
    match decodeKeys rest with
    | some keys => if 1 ≤ keys.length ∧ keys.length ≤ 32 then some (.recycle a keys) else none
    | none => none
  | 0x2C, [] => some .openBatch
  | 0x2D, [] => some .commitBatch
  | 0x2E, [] => some .abandonBatch
  | 0x30, [] => some .openShow
  | 0x31, [] => some .take
  | 0x32, [k1, k0] => some (.setNext (half k1 k0))
  | 0x33, [] => some .hold
  | 0x34, [] => some .closeShow
  | 0x35, [] => some .abortShow
  | 0x36, [v, k1, k0] => some (.setVector v (half k1 k0))
  | 0x37, [i, t2, t1, t0] => some (.setShowEnd i (tri t2 t1 t0))
  | 0x38, [w] => some (.setWrap w)
  | 0x39, [] => some .getShow
  | 0x40, [p] => some (.getSheet p)
  | 0x50, [o, k, e, p1, p0, r] => some (.configureOutlet o k e (half p1 p0) r)
  | 0x51, [o] => some (.resetOutlet o)
  | 0x52, [o, m] => some (.ackOutlet o m)
  | 0x53, [o] => some (.getOutlet o)
  | 0x60, [l, p1, p0, n] => some (.setPattern l (half p1 p0) n)
  | 0x61, [p, n1, n0] => some (.hailPresenter p (half n1 n0))
  | 0x62, [p] => some (.getPresenter p)
  | 0x70, [i, m, l] => some (.setPanelMode i m l)
  | 0x71, [i, t, d] => some (.verdict i t d)
  | 0x80, [s] => some (.setStandard s)
  | 0x81, [t2, t1, t0] => some (.setTime (tri t2 t1 t0))
  | 0x82, [t1, t0] => some (.setTrim (half t1 t0))
  | 0x83, [s] => some (.setReference s)
  | 0x84, [] => some .getTimebase
  | 0x90, [s] => some (.readNotices s)
  | 0x91, [c] => some (.ackNotices c)
  | 0x92, [c] => some (.setNoticeEnables c)
  | 0x9F, [] => some .restart
  | _, _ => none

/-- The request a write transaction's bytes carry; none when the frame is malformed (R177). -/
def decodeFrame : List Byte → Option Instr
  | first :: code :: len :: body =>
    if first = 0x01 ∧ len.toNat ≤ maxBody ∧ body.length = len.toNat then decodeBody code body else none
  | _ => none

/-- A request's code and body (11.1); none for the commands that are no request. -/
def encodeBody : Instr → Option (Byte × List Byte)
  | .getItem k => some (0x10, halfBytes k)
  | .getItemAt p => some (0x11, halfBytes p)
  | .walk => some (0x12, [])
  | .seek s v => some (0x13, s :: halfBytes v)
  | .getEvents k => some (0x14, halfBytes k)
  | .insertItem b =>
    some (0x20, halfBytes b.key ++ halfBytes b.after ++ [b.endAction, b.presenters] ++ triBytes b.p ++ [b.presence]
      ++ triBytes b.l ++ triBytes b.hard ++ [BitVec.ofNat 8 b.slug.length] ++ b.slug)
  | .modifyItem b =>
    some (0x21, halfBytes b.key ++ [b.indSlug, b.indP, b.indL, b.indLead, b.indEnd, b.indHard, b.indPresenters]
      ++ triBytes b.p ++ triBytes b.l ++ [b.lead, b.endAction] ++ triBytes b.hard ++ [b.presenters]
      ++ [BitVec.ofNat 8 b.slug.length] ++ b.slug)
  | .moveItem k a => some (0x22, halfBytes k ++ halfBytes a)
  | .markItem k m s => some (0x23, halfBytes k ++ [m, s])
  | .addEvent b =>
    some (0x24, halfBytes b.owner ++ [b.number, b.outlet, b.action, b.anchor] ++ halfBytes b.offset ++ halfBytes b.payload
      ++ [b.flags])
  | .modifyEvent b =>
    some (0x25, halfBytes b.owner ++ [b.number, b.setMask, b.outlet, b.action, b.anchor] ++ halfBytes b.offset
      ++ halfBytes b.payload ++ [b.flags])
  | .removeEvent k n => some (0x26, halfBytes k ++ [n])
  | .retireItem k => some (0x27, halfBytes k)
  | .clearRundown => some (0x28, [])
  | .recycle a keys => some (0x29, a :: keys.flatMap halfBytes)
  | .openBatch => some (0x2C, [])
  | .commitBatch => some (0x2D, [])
  | .abandonBatch => some (0x2E, [])
  | .openShow => some (0x30, [])
  | .take => some (0x31, [])
  | .setNext k => some (0x32, halfBytes k)
  | .hold => some (0x33, [])
  | .closeShow => some (0x34, [])
  | .abortShow => some (0x35, [])
  | .setVector v k => some (0x36, v :: halfBytes k)
  | .setShowEnd i t => some (0x37, i :: triBytes t)
  | .setWrap w => some (0x38, [w])
  | .getShow => some (0x39, [])
  | .getSheet p => some (0x40, [p])
  | .configureOutlet o k e p r => some (0x50, [o, k, e] ++ halfBytes p ++ [r])
  | .resetOutlet o => some (0x51, [o])
  | .ackOutlet o m => some (0x52, [o, m])
  | .getOutlet o => some (0x53, [o])
  | .setPattern l p n => some (0x60, [l] ++ halfBytes p ++ [n])
  | .hailPresenter p n => some (0x61, p :: halfBytes n)
  | .getPresenter p => some (0x62, [p])
  | .setPanelMode i m l => some (0x70, [i, m, l])
  | .verdict i t d => some (0x71, [i, t, d])
  | .setStandard s => some (0x80, [s])
  | .setTime t => some (0x81, triBytes t)
  | .setTrim t => some (0x82, halfBytes t)
  | .setReference s => some (0x83, [s])
  | .getTimebase => some (0x84, [])
  | .readNotices s => some (0x90, [s])
  | .ackNotices c => some (0x91, [c])
  | .setNoticeEnables c => some (0x92, [c])
  | .restart => some (0x9F, [])
  | .writeTransaction _ => none
  | .readTransaction _ => none
  | .resetAsserted => none
  | .resetReleased => none
  | .frameBoundary _ => none
  | .houseSyncPulse _ _ => none
  | .lossLimit _ => none
  | .overReached => none
  | .horizonArming => none
  | .wheelSlotFiring => none
  | .lampStepAdvance _ => none
  | .hailRunOut _ => none
  | .displaySendCompletion => none
  | .sendCompletion _ => none
  | .readyFall _ => none
  | .readyRise _ => none
  | .tallyRise _ => none
  | .tallyFall _ => none
  | .leadStartTimeout => none
  | .resetHoldEnd _ => none
  | .panelLineChange _ _ => none
  | .quietExpiry _ => none
  | .lapse _ => none

/-- The bytes of the write transaction that carries a request (11.1). -/
def encodeFrame (i : Instr) : Option (List Byte) :=
  (encodeBody i).map fun x => 0x01 :: x.1 :: BitVec.ofNat 8 x.2.length :: x.2

end Sys2Proof
end

