-- ==== Sys2Proof/Config.lean ====
section
/-! DEFINITION. The part's fixed capacities, and the values its manual leaves open. -/
namespace Sys2Proof.Config

/-- A byte the manual gives no value for: a byte shifted out during a write after the status byte (R175), and a response
byte of an absent record's field for which R193 names no absent code. `k` numbers the occasion and `j` the byte within it
(log entry 5). -/
opaque freeByte (k j : Nat) : Byte

/-- Entries of the item table (R9). -/
def tableSize : Nat := 256
/-- Records of the event pool (R11). -/
def poolSize : Nat := 1024
/-- Events of one item (R9). -/
def listSize : Nat := 16
/-- Staged changes of one batch (R168). -/
def batchSize : Nat := 32
/-- Frames of one outlet queue (R124). -/
def queueSize : Nat := 8
/-- Entries of one waiting list (R124). -/
def waitingSize : Nat := 4
/-- Slots of the firing wheel, and entries of one slot (R103). -/
def wheelSlots : Nat := 64
def slotSize : Nat := 2
/-- The largest frame count of a duration, a clip length or an actual duration (R1). -/
def maxDuration : Nat := 1048575
/-- The limit of a saturating counter (00_scope, Counters). -/
def counterMax : Nat := 65535

end Sys2Proof.Config
end

