-- ==== Sys2Proof/Machine/State.lean ====
section
/-! DEFINITION. The state of the 2400, block by block (00_scope, Block diagram), as plain data, and its value right after
reset. What a rule derives (E, a position, an outlet's state, the sheet, a lamp line's level, the attention line) is not
stored: it is computed where it is read. -/
namespace Sys2Proof.Machine

/-! ## Timebase (chapter 02) -/

/-- The frame standard (R33). -/
inductive Standard where
  | s25 | s30 | s30D
  deriving DecidableEq, Repr

/-- The reference state (chapter 02, 2.2). -/
inductive RefState where
  | freeRun | acquiring | locked | holdover
  deriving DecidableEq, Repr

/-- The Timebase's state (chapter 02, opening list). Instants are reference ticks since reset. -/
structure Timebase where
  standard : Standard
  pendingStandard : Option Standard
  /-- the pending load's value (R45, R46) -/
  load : Option Nat
  ref : RefState
  /-- the running period, in ticks -/
  runPeriod : Nat
  /-- the measured period, in ticks -/
  measured : Nat
  trim : Int
  houseTime : Nat
  /-- the instant of the last boundary -/
  lastBoundary : Nat
  /-- the instant of the last accepted pulse (R40) -/
  lastAccepted : Option Nat
  /-- the previous pulse of acquisition, none when no pulse is held (R37) -/
  acqPulse : Option Nat
  acqCount : Nat
  glitches : Nat
  /-- the instant of the last timed event (the model's own clock, log entry 2) -/
  now : Nat
  /-- a pulse was driven out on the frame sync line at the last boundary (R34) -/
  pulseOut : Bool
  deriving DecidableEq, Repr

/-! ## Rundown Store (chapter 01) -/

inductive EndAction where
  | manual | auto
  deriving DecidableEq, Repr

inductive EndReason where
  | take | auto | autoEarly | covered | closed | aborted
  deriving DecidableEq, Repr

/-- An item's state with the show fields present in it (R1). -/
inductive Airing where
  | pending
  | onAir (takeFrame : Nat)
  | done (takeFrame actual : Nat) (reason : EndReason)
  deriving DecidableEq, Repr

/-- An event's action: it sends a SHOW or a CLEAR frame (R7). -/
inductive EventAction where
  | showFrame | clearFrame
  deriving DecidableEq, Repr

inductive EventAnchor where
  | start | finish
  deriving DecidableEq, Repr

/-- The state of an event in its owner's current airing (R97). -/
inductive EventState where
  | idle | pending | armed | fired | skipped | missed
  deriving DecidableEq, Repr

/-- An event record (R7); its owner is the item that holds it. -/
structure Event where
  num : Fin 16
  outlet : Fin 8
  action : EventAction
  anchor : EventAnchor
  offset : Nat
  payload : Half
  clearAtEnd : Bool
  required : Bool
  state : EventState
  cued : Bool
  due : Option Nat
  lateness : Nat
  deriving DecidableEq, Repr

/-- An item record with its event list (R1, R11). -/
structure Item where
  key : Nat
  slug : List Byte
  p : Nat
  l : Option Nat
  lead : Option (Fin 16)
  endAction : EndAction
  hard : Option Nat
  presenters : BitVec 4
  floated : Bool
  airing : Airing
  degraded : Bool
  held : Bool
  airCount : Nat
  revision : Nat
  events : List Event
  deriving DecidableEq, Repr

/-- An event named by its owner's key and its number (R11). -/
structure EventRef where
  owner : Nat
  num : Fin 16
  deriving DecidableEq, Repr

/-- The walk cursor (R29). -/
inductive Cursor where
  | top | finish
  | item (key : Nat)
  deriving DecidableEq, Repr

/-! ## Show Controller (chapter 03) -/

inductive ShowState where
  | closed | armed | live | last
  deriving DecidableEq, Repr

/-- The kind of an ordinary take (R60). -/
inductive TakeKind where
  | manual | automatic
  deriving DecidableEq, Repr

inductive FaultVector where
  | leadLost | underrun
  deriving DecidableEq, Repr

/-- The cover part of the take-pending record (R61). -/
structure CoverPart where
  vector : FaultVector
  key : Nat
  deriving DecidableEq, Repr

/-- The phase of the lead record (R68). -/
inductive LeadPhase where
  | none | waiting | shown | running | ended | lost
  deriving DecidableEq, Repr

/-- The Show Controller's state (chapter 03, opening table). -/
structure ShowCtl where
  state : ShowState
  onAir : Option Nat
  next : Option Nat
  pinned : Bool
  anchor : Option Nat
  ordinary : Option TakeKind
  cover : Option CoverPart
  phase : LeadPhase
  leadEnd : Option Nat
  takenByVector : Bool
  underrunRaised : Bool
  overReached : Bool
  leadLostKey : Option Nat
  underrunKey : Option Nat
  showEnd : Option Nat
  wrap : Nat
  deriving DecidableEq, Repr

/-! ## Firing Unit (chapter 05) -/

/-- What a wheel entry or a PENDING event's next action does (R100, R103). -/
inductive ActionKind where
  | cue | fire
  deriving DecidableEq, Repr

/-- An entry of the firing wheel (R103); it stands in slot `fireFrame % 64`. -/
structure WheelEntry where
  ref : EventRef
  kind : ActionKind
  actionFrame : Nat
  fireFrame : Nat
  /-- frames tried before the fire frame (R103) -/
  spill : Nat
  deriving DecidableEq, Repr

/-- The chosen next action of a PENDING event and its action distance (R100). -/
structure Planned where
  ref : EventRef
  kind : ActionKind
  distance : Nat
  deriving DecidableEq, Repr

/-! ## Outlet Interface (chapter 06) -/

inductive OutletKind where
  | clip | graphics
  deriving DecidableEq, Repr

inductive LinkRate where
  | b9600 | b38400 | b115200
  deriving DecidableEq, Repr

/-- An outlet's derived state (R122). -/
inductive OutletState where
  | disabled | offline | idle | cued | playing
  deriving DecidableEq, Repr

/-- The command of an outlet frame (R124). -/
inductive Command where
  | cue | showFrame | clear | uncue
  deriving DecidableEq, Repr

/-- A queued frame (R124). -/
structure Frame where
  command : Command
  payload : Half
  event : Option EventRef
  leadMark : Bool
  deriving DecidableEq, Repr

/-- A held cue: the event, the order key of its request and the payload of its CUE frame (R121). -/
structure CuedRef where
  ref : EventRef
  key : Nat
  payload : Half
  deriving DecidableEq, Repr

/-- An entry of a waiting list (R121). -/
structure Waiting where
  ref : EventRef
  key : Nat
  deriving DecidableEq, Repr

/-- An outlet record (R121). Its state is derived (R122). -/
structure Outlet where
  kind : OutletKind
  enabled : Bool
  preRoll : Nat
  rate : LinkRate
  ready : Bool
  tally : Bool
  cued : Option CuedRef
  playing : Option EventRef
  queue : List Frame
  /-- the rate the frame at the head of the queue is being sent at, none while the line is free (R125) -/
  sending : Option LinkRate
  waiting : List Waiting
  resetHold : Bool
  readyChanged : Bool
  tallyChanged : Bool
  overflow : Bool
  fireCount : Nat
  deriving DecidableEq, Repr

/-- The stage of an open lead watch (R134). -/
inductive WatchStage where
  | queued | sent | running
  deriving DecidableEq, Repr

/-- An open lead watch (R134); `left` counts the boundaries to the start timeout (R135). -/
structure LeadWatch where
  outlet : Fin 8
  ref : EventRef
  stage : WatchStage
  left : Nat
  deriving DecidableEq, Repr

/-! ## Cue Unit (chapter 07) -/

inductive Lamp where
  | dark | standby | on | wrap | over | hailed
  deriving DecidableEq, Repr

inductive DisplayMode where
  | blank | countdown | overrun | nextIn | hail | showOver | showUnder | tod
  deriving DecidableEq, Repr

/-- A display's mode and value (R150). -/
structure Shown where
  mode : DisplayMode
  h : Nat
  m : Nat
  s : Nat
  f : Nat
  deriving DecidableEq, Repr

/-- An entry of the lamp pattern table (R145). -/
structure Pattern where
  bits : BitVec 16
  length : Nat
  deriving DecidableEq, Repr

/-- A presenter record (R142). -/
structure Presenter where
  lamp : Lamp
  step : Fin 16
  frames : Nat
  restartMark : Option Nat
  hail : Nat
  shown : Shown
  lastSent : Option Shown
  deriving DecidableEq, Repr

/-- The Cue Unit's state: presenter records, pattern table with its pending entries, and the display line (R142, R145,
R150, R155). -/
structure CueUnit where
  presenters : Bank 4 Presenter
  patterns : Bank 6 Pattern
  pendingPatterns : Bank 6 (Option Pattern)
  slots : Bank 6 (Option Shown)
  /-- last sent of addresses 4 and 5, held by the line (R150) -/
  clockSent : Option Shown
  todSent : Option Shown
  /-- the address and content of the frame being sent -/
  sending : Option (Fin 6 × Shown)
  deriving DecidableEq, Repr

/-! ## Panel Interface (chapter 08) -/

inductive PanelMode where
  | act | off | trap
  deriving DecidableEq, Repr

inductive LapseMode where
  | act | drop
  deriving DecidableEq, Repr

inductive EndedCause where
  | withdrawn | lapsedAct | lapsedDrop
  deriving DecidableEq, Repr

/-- A trapped press (R158). -/
structure Trap where
  num : Nat
  frame : Nat
  waited : Nat
  deriving DecidableEq, Repr

/-- A panel input record (R158) and the level of its line. -/
structure Input where
  mode : PanelMode
  lapse : LapseMode
  accepted : Bool
  quiet : Nat
  trap : Option Trap
  nextTrap : Nat
  /-- the last press that left its slot without a verdict -/
  ended : Option (Nat × EndedCause)
  line : Bool
  deriving DecidableEq, Repr

/-! ## Request Port (chapter 10) -/

/-- The result codes (R181, 11.1). -/
inductive ResultCode where
  | ok | badRequest | badField | noSuchItem | noSuchEvent | duplicateKey | duplicateEvent | tableFull | poolFull
  | listFull | onAir | showState | noNext | notDone | batchOpen | noBatch | batchFull | batchFailed | nothingTrapped
  | tooLate
  deriving DecidableEq, Repr

/-- Hours, minutes, seconds and frames. -/
structure Timecode where
  h : Nat
  m : Nat
  s : Nat
  f : Nat
  deriving DecidableEq, Repr

/-- A response: result code and body (R181). GET_SHEET's answer also gives, for each entry of its page in order, the timecode of the
estimated start (R82); 11.2's 25-byte entry has no bytes for it, so the port shifts out the code and the body alone (log entry 25). -/
structure Response where
  code : ResultCode
  body : List Byte
  starts : List Timecode
  deriving DecidableEq, Repr

/-- The port status with what is present in it (R176): the request in hand while WORKING, the held response while
READY. -/
inductive PortState where
  | idle
  | working (request : Instr)
  | ready (held : Response)
  deriving DecidableEq, Repr

inductive TakeOutcome where
  | taken | cover | closed | dropped
  deriving DecidableEq, Repr

/-- The last take record (R65). -/
structure TakeRecord where
  outcome : Option TakeOutcome
  frame : Option Nat
  incoming : Nat
  outgoing : Nat
  reason : Option EndReason
  deriving DecidableEq, Repr

inductive Disposition where
  | requested | coalesced | noCover
  deriving DecidableEq, Repr

/-- The last vector record (R187); absent before the first VECTOR notice. -/
structure VectorRecord where
  vector : FaultVector
  frame : Nat
  onAir : Nat
  cover : Nat
  disposition : Disposition
  deriving DecidableEq, Repr

/-- The Request Port's notices and summary (R182, R186). A class set is the byte the processor reads and writes
(11.1: bit 0 SHOW ... bit 7 OVER). -/
structure Notices where
  pending : Byte
  enables : Byte
  lastTake : TakeRecord
  lastVector : Option VectorRecord
  late : Nat
  skipped : Nat
  missed : Nat
  coalesced : Nat
  panelIgnored : Nat
  deriving DecidableEq, Repr

/-! ## The whole part -/

/-- The state of the 2400. -/
structure State where
  tb : Timebase
  /-- the item table in running order; the key index and the pool's free count are computed from it (R9 to R11) -/
  items : List Item
  cursor : Cursor
  /-- the staged list while the staging area is open (R168) -/
  batch : Option (List StoreChange)
  ctl : ShowCtl
  sheetCount : Nat
  wheel : List WheelEntry
  planned : List Planned
  outlets : Bank 8 Outlet
  watch : Option LeadWatch
  cue : CueUnit
  panel : Bank 4 Input
  port : PortState
  discard : Bool
  notices : Notices
  /-- the bytes shifted out in the last transaction (R175, R179) -/
  dataOut : List Byte
  /-- the Reset line is asserted (R189) -/
  inReset : Bool
  /-- boundary work the blocks have still to take (the model's own, log entry 1) -/
  owed : List BoundaryPart
  /-- the item whose revision the Firing Unit's boundary action has raised at this boundary (R119; the model's own) -/
  fuCounted : Option Nat
  /-- numbers the occasions of free bytes (the model's own, log entry 5) -/
  freeIndex : Nat
  /-- the commands waiting, first in first out -/
  pending : List Instr
  deriving DecidableEq, Repr

/-- Why the part stops. The 2400 describes no event that stops it, so no command raises a fault. -/
inductive Fault : Type where
  deriving DecidableEq

/-- Why a command has no meaning in this model. -/
inductive Refusal where
  /-- Raised by an arm of `exec` for a command this model gives no meaning (safe: nothing is claimed of it). No arm
  raises it now. -/
  | notModelled (mnemonic : String)
  deriving DecidableEq, Repr

/-! ## Reset values -/

/-- The Timebase at reset (R50). -/
def Timebase.reset : Timebase where
  standard := .s25
  pendingStandard := none
  load := none
  ref := .freeRun
  runPeriod := 1080000
  measured := 1080000
  trim := 0
  houseTime := 0
  lastBoundary := 0
  lastAccepted := none
  acqPulse := none
  acqCount := 0
  glitches := 0
  now := 0
  pulseOut := false

/-- The Show Controller at reset (R78). -/
def ShowCtl.reset : ShowCtl where
  state := .closed
  onAir := none
  next := none
  pinned := false
  anchor := none
  ordinary := none
  cover := none
  phase := .none
  leadEnd := none
  takenByVector := false
  underrunRaised := false
  overReached := false
  leadLostKey := none
  underrunKey := none
  showEnd := none
  wrap := 10

/-- An outlet at reset, its lines at the given levels (R141). -/
def Outlet.reset (ready tally : Bool) : Outlet where
  kind := .clip
  enabled := false
  preRoll := 0
  rate := .b38400
  ready := ready
  tally := tally
  cued := none
  playing := none
  queue := []
  sending := none
  waiting := []
  resetHold := false
  readyChanged := false
  tallyChanged := false
  overflow := false
  fireCount := 0

/-- A blank display (R150). -/
def Shown.blank : Shown := ⟨.blank, 0, 0, 0, 0⟩

/-- A presenter at reset (R157). -/
def Presenter.reset : Presenter where
  lamp := .dark
  step := 0
  frames := 0
  restartMark := none
  hail := 0
  shown := .blank
  lastSent := none

/-- The lamp pattern table at reset (R145). -/
def Pattern.table : Bank 6 Pattern :=
  ⟨[⟨0x0000, 1⟩, ⟨0xF0F0, 4⟩, ⟨0xFFFF, 1⟩, ⟨0xCCCC, 2⟩, ⟨0xAAAA, 1⟩, ⟨0xFF00, 2⟩], rfl⟩

/-- The Cue Unit while reset is held (R157): every slot filled, the line free. -/
def CueUnit.reset : CueUnit where
  presenters := .replicate 4 .reset
  patterns := Pattern.table
  pendingPatterns := .replicate 6 none
  slots := ⟨[some .blank, some .blank, some .blank, some .blank, some .blank, some ⟨.tod, 0, 0, 0, 0⟩], rfl⟩
  clockSent := none
  todSent := none
  sending := none

/-- The Cue Unit as the part starts to run from reset: the free line starts at once with address 0 (R157, R155). -/
def CueUnit.started : CueUnit :=
  { CueUnit.reset with
    presenters := CueUnit.reset.presenters.modify 0 fun p => { p with lastSent := some .blank }
    slots := CueUnit.reset.slots.set 0 none
    sending := some (0, .blank) }

/-- A panel input at reset, its line at the given level (R167). -/
def Input.reset (line : Bool) : Input where
  mode := .act
  lapse := .act
  accepted := line
  quiet := 0
  trap := none
  nextTrap := 1
  ended := none
  line := line

/-- The notices at reset (R191). -/
def Notices.reset : Notices where
  pending := 0
  enables := 0xFF
  lastTake := ⟨none, none, 0, 0, none⟩
  lastVector := none
  late := 0
  skipped := 0
  missed := 0
  coalesced := 0
  panelIgnored := 0

/-- The part right after reset, every outside line low (log entry 4): the values of R32, R50, R78, R96, R120, R141, R157,
R167 and R191, with the display line's first frame started (R157). -/
def State.reset : State where
  tb := .reset
  items := []
  cursor := .top
  batch := none
  ctl := .reset
  sheetCount := 0
  wheel := []
  planned := []
  outlets := .replicate 8 (.reset false false)
  watch := none
  cue := .started
  panel := .replicate 4 (.reset false)
  port := .idle
  discard := false
  notices := .reset
  dataOut := []
  inReset := false
  owed := []
  fuCounted := none
  freeIndex := 0
  pending := []

end Sys2Proof.Machine
end

