-- ==== Sys2Proof/Machine/Clock.lean ====
section
/-! DEFINITION. Frame standards, house-time arithmetic, timecode and display seconds (chapters 02 and 04). -/
namespace Sys2Proof.Machine

/-- The nominal frame period in reference ticks (R33). -/
def Standard.nominal : Standard → Nat
  | .s25 => 1080000
  | .s30 => 900000
  | .s30D => 900900

/-- The day length D in frames (R33). -/
def Standard.day : Standard → Nat
  | .s25 => 2160000
  | .s30 => 2592000
  | .s30D => 2589408

/-- The rate used for seconds (R33). -/
def Standard.rate : Standard → Nat
  | .s25 => 25
  | .s30 => 30
  | .s30D => 30

/-- The half period: half the nominal period (R33). -/
def Standard.half (st : Standard) : Nat := st.nominal / 2
/-- The loss limit: one and a half nominal periods (R33). -/
def Standard.lossLimit (st : Standard) : Nat := st.nominal + st.nominal / 2
/-- An interval lies in the acquisition window: the nominal period ±1%, both ends included (R33). -/
def Standard.inWindow (st : Standard) (interval : Nat) : Bool :=
  decide (st.nominal - st.nominal / 100 ≤ interval) && decide (interval ≤ st.nominal + st.nominal / 100)

/-- The free-running period: the nominal period plus the trim (R34). -/
def freePeriod (st : Standard) (trim : Int) : Nat := ((st.nominal : Int) + trim).toNat

/-- (a − b) mod D, in 0..D − 1 also when the difference is negative (00_scope, Frames and house time). -/
def subMod (d a b : Nat) : Nat := (((a : Int) - (b : Int)) % (d : Int)).toNat

/-- House time's advance by one frame, wrapping from D − 1 to 0 (R44). -/
def nextHouse (d h : Nat) : Nat := if h + 1 < d then h + 1 else 0

/-- Timecode by plain division (R47). -/
def plainTimecode (rate n : Nat) : Timecode :=
  ⟨n / rate / 3600, n / rate / 60 % 60, n / rate % 60, n % rate⟩

/-- The adjusted count of drop-frame labelling (R48, steps 1 to 3). -/
def dropAdjusted (n : Nat) : Nat :=
  n + 18 * (n / 17982) + (if n % 17982 ≥ 2 then 2 * ((n % 17982 - 2) / 1798) else 0)

/-- House time as timecode under a standard (R47, R48). -/
def timecode (st : Standard) (n : Nat) : Timecode :=
  match st with
  | .s25 => plainTimecode 25 n
  | .s30 => plainTimecode 30 n
  | .s30D => plainTimecode 30 (dropAdjusted n)

/-- Countdown seconds, rounded up (R91). -/
def countdownSeconds (st : Standard) (x : Nat) : Nat :=
  match st with
  | .s25 => (x + 24) / 25
  | .s30 => (x + 29) / 30
  | .s30D => (x * 1001 + 29999) / 30000

/-- Count-up and over/under seconds, rounded down (R92, R93). -/
def floorSeconds (st : Standard) (x : Nat) : Nat :=
  match st with
  | .s25 => x / 25
  | .s30 => x / 30
  | .s30D => x * 1001 / 30000

/-- Display seconds as a display value; above 86,399 it shows 23:59:59, and F is 0 (R94, R150). -/
def secondsShown (mode : DisplayMode) (sec : Nat) : Shown :=
  let s := min sec 86399
  ⟨mode, s / 3600, s / 60 % 60, s % 60, 0⟩

/-- The time-of-day display of a house time (R153). -/
def todShown (st : Standard) (n : Nat) : Shown :=
  let c := timecode st n
  ⟨.tod, c.h, c.m, c.s, c.f⟩

/-- The day length in force. -/
def State.day (s : State) : Nat := s.tb.standard.day
/-- House time. -/
def State.house (s : State) : Nat := s.tb.houseTime

end Sys2Proof.Machine
end

