-- ==== Sys2Proof/Machine/Flags.lean ====
section
/-! DEFINITION. The flags of the part: notice classes and the attention line (R182 to R184), saturating counters
(00_scope, Counters), latches (R123) and an outlet's derived state (R122). -/
namespace Sys2Proof.Machine

/-- A counter's next value, saturating at `cap`. -/
def satSucc (cap n : Nat) : Nat := if n < cap then n + 1 else n

/-- A five-counter increment, saturating at 65,535 (R186). -/
def countUp (n : Nat) : Nat := satSucc Config.counterMax n

/-! ## Notice classes (R182; the bits of 11.1) -/

def classShow : Byte := 0x01
def classTake : Byte := 0x02
def classOutlet : Byte := 0x04
def classPanel : Byte := 0x08
def classTimebase : Byte := 0x10
def classFiring : Byte := 0x20
def classVector : Byte := 0x40
def classOver : Byte := 0x80

/-- A class joins the pending set (R182). -/
def State.raise (cls : Byte) (s : State) : State :=
  { s with notices := { s.notices with pending := s.notices.pending ||| cls } }

/-- The attention line (R184, R189): asserted while a pending class is enabled, released while reset is held. -/
def State.attention (s : State) : Bool := !s.inReset && (s.notices.pending &&& s.notices.enables != 0)

/-- One more event FIRED late (R118). -/
def State.countLate (s : State) : State :=
  { s with notices := { s.notices with late := countUp s.notices.late } }
/-- One more counted skip, with its FIRING notice (R118). -/
def State.countSkipped (s : State) : State :=
  ({ s with notices := { s.notices with skipped := countUp s.notices.skipped } } : State).raise classFiring
/-- One more counted miss, with its FIRING notice (R118). -/
def State.countMissed (s : State) : State :=
  ({ s with notices := { s.notices with missed := countUp s.notices.missed } } : State).raise classFiring
/-- One more coalesced take request (R61). -/
def State.countCoalesced (s : State) : State :=
  { s with notices := { s.notices with coalesced := countUp s.notices.coalesced } }
/-- One more ignored press (R160). -/
def State.countIgnored (s : State) : State :=
  { s with notices := { s.notices with panelIgnored := countUp s.notices.panelIgnored } }

/-! ## Outlets -/

/-- The outlet's state: the first line of R122's table that applies. -/
def Outlet.state (o : Outlet) : OutletState :=
  if o.enabled = false then .disabled
  else if o.ready = false ∨ o.resetHold = true then .offline
  else if o.tally = true then .playing
  else if o.cued.isSome = true then .cued
  else .idle

/-- The outlet can hold a cue (R127). -/
def Outlet.canHold (o : Outlet) : Bool :=
  o.enabled && !o.resetHold && o.ready && o.cued.isNone && decide (o.queue.length < Config.queueSize)
    && (o.kind == .graphics || !o.tally)

/-- The three latches as the latch mask lays them out (11.1). -/
def Outlet.latchByte (o : Outlet) : Byte :=
  (if o.readyChanged then 0x01 else 0) ||| (if o.tallyChanged then 0x02 else 0) ||| (if o.overflow then 0x04 else 0)

/-! ## Lamps -/

/-- The level of a presenter's lamp line: the bit of the step in force, step 0 the most significant (R146). -/
def Pattern.lit (p : Pattern) (step : Fin 16) : Bool := p.bits.getLsbD (15 - step.val)

/-- A lamp state's entry in the pattern table (R145). -/
def Lamp.index : Lamp → Fin 6
  | .dark => 0
  | .standby => 1
  | .on => 2
  | .wrap => 3
  | .over => 4
  | .hailed => 5

/-- Presenter lamp line `i`: dark while reset is held (R195). -/
def State.lampLine (s : State) (i : Fin 4) : Bool :=
  !s.inReset && (s.cue.patterns.get (s.cue.presenters.get i).lamp.index).lit (s.cue.presenters.get i).step

/-- The frame sync line is an output: in FREE_RUN, and while reset is held (chapter 02, 2.2; R195). -/
def State.syncIsOutput (s : State) : Bool := s.inReset || s.tb.ref == .freeRun

end Sys2Proof.Machine
end

