-- ==== Sys2Proof/Machine/Operands.lean ====
section
/-! DEFINITION. The values carried in request fields: the code fields of 11.1 with the codes that name nothing (R192), the
clamped fields (R3, R35, R76, R137, R145, R148), and the record numbers. -/
namespace Sys2Proof.Machine

/-- An item key of a request that names an item: 1..65,534 (00_scope, Keys). -/
def validKey (k : Half) : Bool := k != 0 && k != 0xFFFF

/-- The after-key that means "top" (00_scope, Keys). -/
def topKey : Nat := 65535

def outletOf (b : Byte) : Option (Fin 8) := if h : b.toNat < 8 then some ⟨b.toNat, h⟩ else none
def positionOf (b : Byte) : Option (Fin 4) := if h : b.toNat < 4 then some ⟨b.toNat, h⟩ else none
def eventNumberOf (b : Byte) : Option (Fin 16) := if h : b.toNat < 16 then some ⟨b.toNat, h⟩ else none

def endActionOf (b : Byte) : Option EndAction :=
  if b = 0 then some .manual else if b = 1 then some .auto else none
def eventActionOf (b : Byte) : Option EventAction :=
  if b = 0 then some .showFrame else if b = 1 then some .clearFrame else none
def eventAnchorOf (b : Byte) : Option EventAnchor :=
  if b = 0 then some .start else if b = 1 then some .finish else none
def outletKindOf (b : Byte) : Option OutletKind :=
  if b = 0 then some .clip else if b = 1 then some .graphics else none
/-- A yes/no byte of a request; another value names nothing (log entry 12). -/
def flagOf (b : Byte) : Option Bool := if b = 0 then some false else if b = 1 then some true else none
def rateOf (b : Byte) : Option LinkRate :=
  if b = 0 then some .b9600 else if b = 1 then some .b38400 else if b = 2 then some .b115200 else none
def lampOf (b : Byte) : Option Lamp :=
  if b = 0 then some .dark else if b = 1 then some .standby else if b = 2 then some .on else if b = 3 then some .wrap
  else if b = 4 then some .over else if b = 5 then some .hailed else none
def panelModeOf (b : Byte) : Option PanelMode :=
  if b = 0 then some .act else if b = 1 then some .off else if b = 2 then some .trap else none
def lapseModeOf (b : Byte) : Option LapseMode := if b = 0 then some .act else if b = 1 then some .drop else none
def standardOf (b : Byte) : Option Standard :=
  if b = 0 then some .s25 else if b = 1 then some .s30 else if b = 2 then some .s30D else none
def vectorOf (b : Byte) : Option FaultVector := if b = 1 then some .leadLost else if b = 2 then some .underrun else none

/-- A presenter set: bits 4..7 name no position (R5, R192). -/
def presentersOf (b : Byte) : Option (BitVec 4) := if b.toNat < 16 then some (b.setWidth 4) else none

/-- What a MODIFY_ITEM indication asks of a field (R19, 11.1). -/
inductive Indication where
  | left | set | removed
  deriving DecidableEq, Repr

def indicationOf (b : Byte) : Option Indication :=
  if b = 0 then some .left else if b = 1 then some .set else if b = 2 then some .removed else none

/-- A duration as stored: clamped to 1,048,575 (R3). -/
def durationOf (t : Tri) : Nat := min t.toNat Config.maxDuration

/-- A slug as stored (R2): its first 16 characters, each outside 0x20..0x7E replaced by "?". -/
def slugOf (bs : List Byte) : List Byte :=
  (bs.take 16).map fun c => if 0x20 ≤ c.toNat ∧ c.toNat ≤ 0x7E then c else 0x3F

/-- The trim as stored: clamped to ±127 (R35). -/
def trimOf (t : Half) : Int := max (-127) (min 127 t.toInt)
/-- The pre-roll as stored: clamped to 250 (R137). -/
def preRollOf (p : Half) : Nat := min p.toNat 250
/-- The wrap window as stored: clamped to 60 seconds (R76). -/
def wrapOf (w : Byte) : Nat := min w.toNat 60
/-- A pattern step length as stored: 0 as 1, above 15 as 15 (R145). -/
def stepLengthOf (n : Byte) : Nat := max 1 (min n.toNat 15)
/-- A hail length as stored: clamped to 1,000 (R148). -/
def hailOf (n : Half) : Nat := min n.toNat 1000

end Sys2Proof.Machine
end

