-- ==== Sys2Proof/Machine/Ops.lean ====
section
/-! DEFINITION. The named operations over the part's records: reading and changing items, events and outlets, the
revision rule (R12, R119), the take-pending record (R61), and a request's passage through the port (R176). -/
namespace Sys2Proof.Machine

/-! ## Items and events -/

/-- The item with a key (R9). -/
def findItem (items : List Item) (k : Nat) : Option Item := items.find? fun i => i.key == k

/-- An item's running-order position, 1 for the first, 0 when no item has the key (R10). -/
def positionIn : List Item → Nat → Nat
  | [], _ => 0
  | i :: rest, k => if i.key = k then 1 else match positionIn rest k with | 0 => 0 | n + 1 => n + 2

/-- The item at a running-order position (R16). -/
def itemAt (items : List Item) (pos : Nat) : Option Item := if pos = 0 then none else items[pos - 1]?

/-- Change the item with a key. -/
def changeItem (k : Nat) (f : Item → Item) (items : List Item) : List Item :=
  items.map fun i => if i.key = k then f i else i

/-- The effective duration E (R6). -/
def Item.effective (i : Item) : Nat :=
  match i.lead, i.l with
  | some _, some l => l
  | _, _ => i.p

/-- The take frame, present while ON_AIR and DONE (R1). -/
def Item.takeFrame (i : Item) : Option Nat :=
  match i.airing with
  | .pending => none
  | .onAir t => some t
  | .done t _ _ => some t

/-- The item is ON_AIR. -/
def Item.isOnAir (i : Item) : Bool := match i.airing with | .onAir _ => true | _ => false
/-- The item is DONE. -/
def Item.isDone (i : Item) : Bool := match i.airing with | .done _ _ _ => true | _ => false

/-- An item of an event list by number (R11). -/
def Item.event (i : Item) (n : Fin 16) : Option Event := i.events.find? fun e => e.num == n

/-- The revision's next value, wrapping from 65,535 to 0 (R12). -/
def nextRevision (r : Nat) : Nat := (r + 1) % 65536

/-- The item with its revision raised by one change (R12). -/
def Item.bump (i : Item) : Item := { i with revision := nextRevision i.revision }

/-- Change the items. -/
def State.withItems (items : List Item) (s : State) : State := { s with items := items }
/-- Change the item with a key. -/
def State.onItem (k : Nat) (f : Item → Item) (s : State) : State := s.withItems (changeItem k f s.items)
/-- The item with a key. -/
def State.item (s : State) (k : Nat) : Option Item := findItem s.items k
/-- The on-air item (R51). -/
def State.onAirItem (s : State) : Option Item := s.ctl.onAir.bind s.item

/-- Change one event of an item. -/
def Item.onEvent (n : Fin 16) (f : Event → Event) (i : Item) : Item :=
  { i with events := i.events.map fun e => if e.num = n then f e else e }
/-- Change one event. -/
def State.onEvent (r : EventRef) (f : Event → Event) (s : State) : State := s.onItem r.owner (Item.onEvent r.num f)
/-- The event a reference names. -/
def State.event (s : State) (r : EventRef) : Option Event := (s.item r.owner).bind fun i => i.event r.num

/-- The firing fields of an event (R7). -/
def Event.firing (e : Event) : EventState × Bool × Option Nat × Nat := (e.state, e.cued, e.due, e.lateness)

/-- The firing fields of an item's events, by number. -/
def State.firingOf (s : State) (k : Nat) : List (Fin 16 × EventState × Bool × Option Nat × Nat) :=
  match s.item k with
  | some i => i.events.map fun e => (e.num, e.firing)
  | none => []

/-- Raise an item's revision by one (R12). -/
def State.bump (k : Nat) (s : State) : State := s.onItem k Item.bump

/-- One action of the Firing Unit on item `k`: when it alters a firing field of the item's events, the item's revision
rises by 1 (R119). -/
def State.firingAction (k : Nat) (f : State → State) (s : State) : State :=
  let s' := f s
  if s'.firingOf k = s.firingOf k then s' else s'.bump k

/-! ## Outlets, links and the watch -/

/-- Change one outlet record. -/
def State.onOutlet (o : Fin 8) (f : Outlet → Outlet) (s : State) : State := { s with outlets := s.outlets.modify o f }
/-- One outlet record. -/
def State.outlet (s : State) (o : Fin 8) : Outlet := s.outlets.get o
/-- The outlet numbers in order. -/
def outletNumbers : List (Fin 8) := [0, 1, 2, 3, 4, 5, 6, 7]
/-- The presenter positions, and the panel inputs, in order. -/
def fours : List (Fin 4) := [0, 1, 2, 3]

/-- A free link with a queued frame starts to send it, at the link rate of that moment (R125). -/
def Outlet.sendStart (o : Outlet) : Outlet :=
  if o.sending = none ∧ o.queue ≠ [] then { o with sending := some o.rate } else o

/-- A flush: the queue is emptied and a frame being sent is cut short (R125). -/
def Outlet.flush (o : Outlet) : Outlet := { o with queue := [], sending := none }

/-- The queue holds 8 frames (R124). -/
def Outlet.full (o : Outlet) : Bool := decide (Config.queueSize ≤ o.queue.length)

/-- A frame joins the queue at the back; on a full queue it is not queued, the OVERFLOW latch is set and an OUTLET notice
raised (R124). -/
def State.queueFrame (o : Fin 8) (fr : Frame) (s : State) : State :=
  if (s.outlet o).full then (s.onOutlet o fun x => { x with overflow := true }).raise classOutlet
  else s.onOutlet o fun x => ({ x with queue := x.queue ++ [fr] } : Outlet).sendStart

/-- A CLEAR frame with payload 0 that carries no event (R124). -/
def clearFrame : Frame := ⟨.clear, 0, none, false⟩

/-- Change the Show Controller's state. -/
def State.onCtl (f : ShowCtl → ShowCtl) (s : State) : State := { s with ctl := f s.ctl }
/-- Change the Timebase's state. -/
def State.onTb (f : Timebase → Timebase) (s : State) : State := { s with tb := f s.tb }
/-- Change one panel input record. -/
def State.onInput (n : Fin 4) (f : Input → Input) (s : State) : State := { s with panel := s.panel.modify n f }
/-- Change one presenter record. -/
def State.onPresenter (p : Fin 4) (f : Presenter → Presenter) (s : State) : State :=
  { s with cue := { s.cue with presenters := s.cue.presenters.modify p f } }
/-- Change the Cue Unit's state. -/
def State.onCue (f : CueUnit → CueUnit) (s : State) : State := { s with cue := f s.cue }

/-! ## Responses and the port -/

/-- An OK answer. -/
def okBody (body : List Byte) : Response := ⟨.ok, body, []⟩
/-- A refusal whose body says more (R171, R28). -/
def refusalWith (c : ResultCode) (body : List Byte) : Response := ⟨c, body, []⟩

/-- A refusal with an empty body (R181). -/
def refusal (c : ResultCode) : Response := refusalWith c []

/-- The owner takes request `i` and the port holds its answer (R176, R180); a frame whose body length its layout does not
permit reaches no block and is answered BAD_REQUEST (R177). -/
def takenRequest (i : Instr) (answer : State → State × Response) (s : State) : State :=
  if i.wellFormed then { (answer s).1 with port := .ready (answer s).2 }
  else { s with port := .ready (refusal .badRequest) }

/-- A request at the port. IDLE takes it; WORKING with this very request in hand takes it; any other write is discarded and
the discard flag is set (R176, R178). While the Reset line is asserted the port takes nothing (R189). -/
def request (i : Instr) (answer : State → State × Response) (s : State) : State :=
  if s.inReset then s
  else
    match s.port with
    | .idle => takenRequest i answer s
    | .working j => if j = i then takenRequest i answer s else { s with discard := true }
    | .ready _ => { s with discard := true }

end Sys2Proof.Machine
end

