-- ==== Sys2Proof/Machine/Store.lean ====
section
/-! DEFINITION. The Rundown Store's changes as functions of the item list alone (chapter 01): one test-and-apply for each of
the eight staged requests, used for the live store and for the staged view alike (R15, R170, R171). -/
namespace Sys2Proof.Machine

/-! ## The running order and the pool -/

/-- Place an item directly after the item with a key (R10). -/
def insertAfter (k : Nat) (it : Item) : List Item → List Item
  | [] => [it]
  | x :: rest => if x.key = k then x :: it :: rest else x :: insertAfter k it rest

/-- Place an item after a key, or first for the top key (R10). -/
def placeItem (after : Nat) (it : Item) (items : List Item) : List Item :=
  if after = topKey then it :: items else insertAfter after it items

/-- Remove the item with a key from the running order (R10). -/
def removeItem (k : Nat) (items : List Item) : List Item := items.filter fun i => i.key != k

/-- Event records in use (R11). -/
def poolUsed (items : List Item) : Nat := (items.map fun i => i.events.length).sum
/-- The pool's free count (R11). -/
def freeCount (items : List Item) : Nat := Config.poolSize - poolUsed items

/-- Place an event in its list's ascending number order (R11). -/
def insertEvent (e : Event) : List Event → List Event
  | [] => [e]
  | x :: rest => if e.num.val < x.num.val then e :: x :: rest else x :: insertEvent e rest

/-- The item that precedes a key in running order (R14). -/
def predecessor (k : Nat) : List Item → Option Nat
  | a :: b :: rest => if b.key = k then some a.key else predecessor k (b :: rest)
  | _ => none

/-- The item that follows a key in running order (R14). -/
def successor (k : Nat) : List Item → Option Nat
  | a :: b :: rest => if a.key = k then some b.key else successor k (b :: rest)
  | _ => none

/-- Raise the revision of each item a change altered (R12): its record differs from the one it had under its key. -/
def bumpAltered (before after : List Item) : List Item :=
  after.map fun i =>
    match findItem before i.key with
    | none => i
    | some b => if i = b then i else i.bump

/-! ## Field tests (R3 to R5, R7, R192) -/

/-- A hard time under day length `d`: refused at D or above (R4). -/
def hardOk (d : Nat) (t : Tri) : Bool := decide (t.toNat < d)

/-- INSERT_ITEM's field tests (R18, first test). -/
def insertFieldsOk (d : Nat) (b : InsertBody) : Bool :=
  validKey b.key && b.after != 0 && (endActionOf b.endAction).isSome && (presentersOf b.presenters).isSome
    && decide (b.presence.toNat < 4) && (!b.presence.getLsbD 1 || hardOk d b.hard)

/-- The item INSERT_ITEM creates (R1, R18). -/
def newItem (b : InsertBody) : Item where
  key := b.key.toNat
  slug := slugOf b.slug
  p := durationOf b.p
  l := if b.presence.getLsbD 0 then some (durationOf b.l) else none
  lead := none
  endAction := (endActionOf b.endAction).getD .manual
  hard := if b.presence.getLsbD 1 then some b.hard.toNat else none
  presenters := (presentersOf b.presenters).getD 0
  floated := false
  airing := .pending
  degraded := false
  held := false
  airCount := 0
  revision := 0
  events := []

/-- INSERT_ITEM on an item list (R18). -/
def applyInsert (d : Nat) (b : InsertBody) (items : List Item) : Except ResultCode (List Item) :=
  if !insertFieldsOk d b then .error .badField
  else if b.after.toNat ≠ topKey ∧ (findItem items b.after.toNat).isNone then .error .noSuchItem
  else if Config.tableSize ≤ items.length then .error .tableFull
  else if (findItem items b.key.toNat).isSome then .error .duplicateKey
  else .ok (placeItem b.after.toNat (newItem b) items)

/-- An indication allowed on a field that is always present: left or set (R19). -/
def indSet (b : Byte) : Bool := indicationOf b == some .left || indicationOf b == some .set

/-- MODIFY_ITEM's field tests (R19, first test). -/
def modifyFieldsOk (d : Nat) (b : ModifyBody) : Bool :=
  validKey b.key && indSet b.indSlug && indSet b.indP && (indicationOf b.indL).isSome && (indicationOf b.indLead).isSome
    && indSet b.indEnd && (indicationOf b.indHard).isSome && indSet b.indPresenters
    && (b.indLead != 1 || (eventNumberOf b.lead).isSome) && (b.indEnd != 1 || (endActionOf b.endAction).isSome)
    && (b.indHard != 1 || hardOk d b.hard) && (b.indPresenters != 1 || (presentersOf b.presenters).isSome)

/-- An always-present field after MODIFY_ITEM. -/
def setField {α : Type} (ind : Byte) (new old : α) : α := if ind = 1 then new else old
/-- An optional field after MODIFY_ITEM: left, set or removed (R19). -/
def optField {α : Type} (ind : Byte) (new : α) (old : Option α) : Option α :=
  if ind = 1 then some new else if ind = 2 then none else old

/-- The written fields MODIFY_ITEM leaves an item with (R19). -/
def modifiedItem (b : ModifyBody) (i : Item) : Item :=
  { i with
    slug := setField b.indSlug (slugOf b.slug) i.slug
    p := setField b.indP (durationOf b.p) i.p
    l := optField b.indL (durationOf b.l) i.l
    lead := optField b.indLead ((eventNumberOf b.lead).getD 0) i.lead
    endAction := setField b.indEnd ((endActionOf b.endAction).getD .manual) i.endAction
    hard := optField b.indHard b.hard.toNat i.hard
    presenters := setField b.indPresenters ((presentersOf b.presenters).getD 0) i.presenters }

/-- MODIFY_ITEM on an item list (R19, R5). -/
def applyModify (d : Nat) (b : ModifyBody) (items : List Item) : Except ResultCode (List Item) :=
  if !modifyFieldsOk d b then .error .badField
  else
    match findItem items b.key.toNat with
    | none => .error .noSuchItem
    | some i =>
      let done := .ok (changeItem b.key.toNat (modifiedItem b) items)
      if b.indLead = 1 then
        match i.event ((eventNumberOf b.lead).getD 0) with
        | none => .error .noSuchEvent
        | some e => if e.action = .clearFrame then .error .badField else done
      else done

/-- MOVE_ITEM on an item list (R21); a move that changes the item's position is a change of the item (R12). -/
def applyMove (key after : Half) (items : List Item) : Except ResultCode (List Item) :=
  if !validKey key || after == 0 || after == key then .error .badField
  else
    match findItem items key.toNat with
    | none => .error .noSuchItem
    | some i =>
      if after.toNat ≠ topKey ∧ (findItem items after.toNat).isNone then .error .noSuchItem
      else if i.isOnAir then .error .onAir
      else
        let moved := placeItem after.toNat i (removeItem key.toNat items)
        if moved = items then .ok items else .ok (changeItem key.toNat Item.bump moved)

/-- The flags MARK_ITEM leaves an item with (R22; mask bits of 11.1). -/
def markedItem (mask : Byte) (on : Bool) (i : Item) : Item :=
  { i with
    floated := if mask.getLsbD 0 then on else i.floated
    held := if mask.getLsbD 1 then on else i.held
    degraded := if mask.getLsbD 2 then on else i.degraded }

/-- MARK_ITEM on an item list (R22). -/
def applyMark (key : Half) (mask selector : Byte) (items : List Item) : Except ResultCode (List Item) :=
  if !validKey key || mask == 0 || decide (8 ≤ mask.toNat) || decide (2 ≤ selector.toNat) then .error .badField
  else
    match findItem items key.toNat with
    | none => .error .noSuchItem
    | some i =>
      if i.isOnAir && (mask.getLsbD 0 || (selector == 0 && mask.getLsbD 2)) then .error .onAir
      else if !i.isOnAir && (mask.getLsbD 1 || mask.getLsbD 2) then .error .badField
      else .ok (changeItem key.toNat (markedItem mask (selector == 1)) items)

/-- ADD_EVENT's field tests (R23, first test). -/
def addFieldsOk (b : AddEventBody) : Bool :=
  validKey b.owner && (eventNumberOf b.number).isSome && (outletOf b.outlet).isSome && (eventActionOf b.action).isSome
    && (eventAnchorOf b.anchor).isSome && decide (b.flags.toNat < 4)

/-- The event ADD_EVENT creates (R8). -/
def newEvent (b : AddEventBody) : Event where
  num := (eventNumberOf b.number).getD 0
  outlet := (outletOf b.outlet).getD 0
  action := (eventActionOf b.action).getD .showFrame
  anchor := (eventAnchorOf b.anchor).getD .start
  offset := b.offset.toNat
  payload := b.payload
  clearAtEnd := b.flags.getLsbD 0
  required := b.flags.getLsbD 1
  state := .idle
  cued := false
  due := none
  lateness := 0

/-- ADD_EVENT on an item list (R23). -/
def applyAddEvent (b : AddEventBody) (items : List Item) : Except ResultCode (List Item) :=
  if !addFieldsOk b then .error .badField
  else
    match findItem items b.owner.toNat with
    | none => .error .noSuchItem
    | some i =>
      if Config.listSize ≤ i.events.length then .error .listFull
      else if freeCount items = 0 then .error .poolFull
      else if (i.event (newEvent b).num).isSome then .error .duplicateEvent
      else .ok (changeItem b.owner.toNat (fun i => { i with events := insertEvent (newEvent b) i.events }) items)

/-- MODIFY_EVENT's field tests: the fields named by its set mask (R24, R192). -/
def modifyEventFieldsOk (b : ModifyEventBody) : Bool :=
  validKey b.owner && (eventNumberOf b.number).isSome && decide (b.setMask.toNat < 128)
    && (!b.setMask.getLsbD 0 || (outletOf b.outlet).isSome) && (!b.setMask.getLsbD 1 || (eventActionOf b.action).isSome)
    && (!b.setMask.getLsbD 2 || (eventAnchorOf b.anchor).isSome)
    && (!(b.setMask.getLsbD 5 || b.setMask.getLsbD 6) || decide (b.flags.toNat < 4))

/-- The written fields MODIFY_EVENT leaves an event with (R24; mask bits of 11.1). -/
def modifiedEvent (b : ModifyEventBody) (e : Event) : Event :=
  { e with
    outlet := if b.setMask.getLsbD 0 then (outletOf b.outlet).getD 0 else e.outlet
    action := if b.setMask.getLsbD 1 then (eventActionOf b.action).getD .showFrame else e.action
    anchor := if b.setMask.getLsbD 2 then (eventAnchorOf b.anchor).getD .start else e.anchor
    offset := if b.setMask.getLsbD 3 then b.offset.toNat else e.offset
    payload := if b.setMask.getLsbD 4 then b.payload else e.payload
    clearAtEnd := if b.setMask.getLsbD 5 then b.flags.getLsbD 0 else e.clearAtEnd
    required := if b.setMask.getLsbD 6 then b.flags.getLsbD 1 else e.required }

/-- MODIFY_EVENT on an item list (R24). -/
def applyModifyEvent (b : ModifyEventBody) (items : List Item) : Except ResultCode (List Item) :=
  if !modifyEventFieldsOk b then .error .badField
  else
    match findItem items b.owner.toNat with
    | none => .error .noSuchItem
    | some i =>
      let n := (eventNumberOf b.number).getD 0
      match i.event n with
      | none => .error .noSuchEvent
      | some _ =>
        if i.lead = some n ∧ b.setMask.getLsbD 1 = true ∧ eventActionOf b.action = some .clearFrame then .error .badField
        else .ok (changeItem b.owner.toNat (Item.onEvent n (modifiedEvent b)) items)

/-- An item without one of its events; a lead that named it becomes absent (R25 steps 3 and 4, R5). -/
def Item.withoutEvent (n : Fin 16) (i : Item) : Item :=
  { i with
    events := i.events.filter fun e => e.num != n
    lead := if i.lead = some n then none else i.lead }

/-- REMOVE_EVENT on an item list (R25). -/
def applyRemoveEvent (owner : Half) (number : Byte) (items : List Item) : Except ResultCode (List Item) :=
  if !validKey owner then .error .badField
  else
    match eventNumberOf number with
    | none => .error .badField
    | some n =>
      match findItem items owner.toNat with
      | none => .error .noSuchItem
      | some i =>
        if (i.event n).isNone then .error .noSuchEvent
        else .ok (changeItem owner.toNat (Item.withoutEvent n) items)

/-- RETIRE_ITEM on an item list (R26). -/
def applyRetire (key : Half) (items : List Item) : Except ResultCode (List Item) :=
  if !validKey key then .error .badField
  else
    match findItem items key.toNat with
    | none => .error .noSuchItem
    | some i => if i.isOnAir then .error .onAir else .ok (removeItem key.toNat items)

/-- One store change on an item list under day length `d`: its tests in order, then the list it leaves, before the revisions
are raised. -/
def testChange (d : Nat) (items : List Item) : StoreChange → Except ResultCode (List Item)
  | .insertItem b => applyInsert d b items
  | .modifyItem b => applyModify d b items
  | .moveItem key after => applyMove key after items
  | .markItem key mask selector => applyMark key mask selector items
  | .addEvent b => applyAddEvent b items
  | .modifyEvent b => applyModifyEvent b items
  | .removeEvent owner number => applyRemoveEvent owner number items
  | .retireItem key => applyRetire key items

/-- The revisions a change raises (R12): of each item whose record it altered; a move raises its item's own (R21). -/
def settleRevisions (c : StoreChange) (before after : List Item) : List Item :=
  match c with
  | .moveItem _ _ => after
  | _ => bumpAltered before after

/-- One store change applied to an item list, revisions raised (R12). -/
def applyChange (d : Nat) (c : StoreChange) (items : List Item) : Except ResultCode (List Item) :=
  match testChange d items c with
  | .error e => .error e
  | .ok after => .ok (settleRevisions c items after)

/-- The staged view: the listed changes applied in order, a change that would itself be refused left out (R170). -/
def stagedView (d : Nat) (items : List Item) (changes : List StoreChange) : List Item :=
  changes.foldl (fun v c => match applyChange d c v with | .ok v' => v' | .error _ => v) items

/-- The first change of a list that its own rule refuses against the store with the changes before it applied, with its
staged index and code (R171). -/
def firstFailure (d : Nat) (idx : Nat) (items : List Item) : List StoreChange → Option (Nat × ResultCode)
  | [] => none
  | c :: rest =>
    match applyChange d c items with
    | .error e => some (idx, e)
    | .ok items' => firstFailure d (idx + 1) items' rest

/-- RECYCLE's effect on one item: back to PENDING, P written from A under ADOPT, its events IDLE (R28). -/
def recycledItem (adopt : Bool) (i : Item) : Item :=
  { i with
    p := match i.airing with | .done _ a _ => if adopt then a else i.p | _ => i.p
    airing := .pending
    degraded := false
    held := false
    events := i.events.map fun e => { e with state := .idle, cued := false, due := none, lateness := 0 } }

/-- The index of the first key that names no item or an item that is not DONE (R28). -/
def firstNotDone (items : List Item) (idx : Nat) : List Half → Option Nat
  | [] => none
  | k :: rest =>
    match findItem items k.toNat with
    | some i => if i.isDone then firstNotDone items (idx + 1) rest else some idx
    | none => some idx

/-- The keys of a list, each once (R28). -/
def distinctKeys (keys : List Half) : List Nat := (keys.map (·.toNat)).dedup

/-- RECYCLE on an item list (R28): one change of each listed item. -/
def recycleItems (adopt : Bool) (keys : List Half) (items : List Item) : List Item :=
  bumpAltered items (items.map fun i => if (distinctKeys keys).contains i.key then recycledItem adopt i else i)

end Sys2Proof.Machine
end

