-- ==== Sys2Proof/Machine/Sheet.lean ====
section
/-! DEFINITION. The timing sheet as functions of the current inputs (chapter 04, R79): every offset exact, clamped only
where it is reported (R90). -/
namespace Sys2Proof.Machine

/-- The item is eligible: PENDING and not floated (R56). -/
def Item.eligible (i : Item) : Bool := i.airing == .pending && !i.floated

/-- The items that stand after a key in running order. -/
def itemsAfter (k : Nat) : List Item → List Item
  | [] => []
  | x :: rest => if x.key = k then rest else itemsAfter k rest

/-- Elapsed time e of the on-air item (R80). -/
def State.elapsed (s : State) : Option Nat :=
  s.onAirItem.bind fun i => i.takeFrame.map fun t => subMod s.day s.house t

/-- Remaining time r (R80): 0 in ARMED, E − e with an item on air, absent in CLOSED. -/
def State.remaining (s : State) : Option Int :=
  match s.ctl.state with
  | .closed => none
  | .armed => some 0
  | _ => s.onAirItem.bind fun i => s.elapsed.map fun e => (i.effective : Int) - (e : Int)

/-- The timing list: NEXT and every eligible item after it (R81). -/
def State.timingList (s : State) : List Item :=
  match s.ctl.next with
  | none => []
  | some k =>
    match s.item k with
    | none => []
    | some i => i :: (itemsAfter k s.items).filter Item.eligible

/-- NEXT's front offset, max(r, 0) (R82). -/
def State.frontBase (s : State) : Nat := ((s.remaining).getD 0).toNat

/-- The mark offset of a house time: its nearest occurrence (R84). -/
def markOffset (d now h : Nat) : Int :=
  let x := subMod d h now
  if x > d / 2 then (x : Int) - (d : Int) else (x : Int)

/-- A hard time that is a mark: present and below D (R83). -/
def markTime (d : Nat) (h : Option Nat) : Option Nat := h.filter fun t => t < d

/-- One line of the sheet (R95), exact. -/
structure SheetEntry where
  key : Nat
  effective : Nat
  front : Int
  back : Option Int
  mark : Option Int
  outOfDay : Bool
  deriving DecidableEq, Repr

/-- The front offsets of a list whose first item starts at `f` (R82). -/
def fronts (f : Nat) : List Item → List Nat
  | [] => []
  | i :: rest => f :: fronts (f + i.effective) rest

/-- The back offsets of a list, `atEnd` being the show end mark's offset (R85): a mark item's own d, else the following
item's less E. -/
def backs (d now : Nat) (atEnd : Option Int) : List Item → List (Option Int)
  | [] => []
  | i :: rest =>
    let later := backs d now atEnd rest
    let following := match later with | [] => atEnd | b :: _ => b
    (match markTime d i.hard with
      | some h => some (markOffset d now h)
      | none => following.map fun b => b - (i.effective : Int)) :: later

/-- The show end mark's offset, in every state but CLOSED and while it lies within the day (R83, R87). -/
def State.endOffset (s : State) : Option Int :=
  if s.ctl.state = .closed then none else (markTime s.day s.ctl.showEnd).map (markOffset s.day s.house)

/-- The entries of the sheet (R81 to R86). -/
def State.sheetEntries (s : State) : List SheetEntry :=
  let list := s.timingList
  let fb := (fronts s.frontBase list).zip (backs s.day s.house s.endOffset list)
  (list.zip fb).map fun x =>
    { key := x.1.key
      effective := x.1.effective
      front := (x.2.1 : Int)
      back := x.2.2
      mark := (markTime s.day x.1.hard).map (markOffset s.day s.house)
      outOfDay := x.1.hard.isSome && (markTime s.day x.1.hard).isNone }

/-- The over/under of a mark item, u = f − d (R86). -/
def SheetEntry.overUnder (e : SheetEntry) : Option Int := e.mark.map fun d => e.front - d

/-- A list item's estimated start: the house time (now + f) mod D, from the exact f (R82). -/
def State.estimatedStart (s : State) (e : SheetEntry) : Nat := (s.house + e.front.toNat) % s.day

/-- The timecode of a list item's estimated start under the standard in force (R82, R47, R48). -/
def State.startTimecode (s : State) (e : SheetEntry) : Timecode := timecode s.tb.standard (s.estimatedStart e)

/-- The forecast end of the list: the last item's f + E, or max(r, 0) for an empty list (R87). -/
def State.forecastEnd (s : State) : Int :=
  match s.sheetEntries.getLast? with
  | some e => e.front + (e.effective : Int)
  | none => (s.frontBase : Int)

/-- The show end's over/under (R87). -/
def State.endOverUnder (s : State) : Option Int := s.endOffset.map fun d => s.forecastEnd - d

/-- Where the headline comes from (R88). -/
inductive HeadSource where
  | none | mark (key : Nat) | showEnd
  deriving DecidableEq, Repr

/-- The headline with its source: the first mark item's u, else the show end's, else absent (R88). -/
def State.headline (s : State) : Option Int × HeadSource :=
  match s.sheetEntries.find? fun e => e.mark.isSome with
  | some e => (e.overUnder, .mark e.key)
  | none =>
    match s.endOverUnder with
    | some u => (some u, .showEnd)
    | none => (none, .none)

/-- A reported offset: clamped to ±8,388,607 (R90). -/
def clampOffset (x : Int) : Int := max (-8388607) (min 8388607 x)
/-- A reported offset was clamped (R90). -/
def saturated (x : Int) : Bool := clampOffset x != x

end Sys2Proof.Machine
end

