-- ==== Sys2Proof/Machine/Links.lean ====
section
/-! DEFINITION. The Outlet Interface's cues and references (chapter 06, 6.3 and 6.4). -/
namespace Sys2Proof.Machine

/-- The order of two waiting entries: lower key first, then the earlier owner in running order, then the lower number
(R109, R128). -/
def Waiting.before (items : List Item) (a b : Waiting) : Bool :=
  if a.key ≠ b.key then decide (a.key < b.key)
  else if positionIn items a.ref.owner ≠ positionIn items b.ref.owner then
    decide (positionIn items a.ref.owner < positionIn items b.ref.owner)
  else decide (a.ref.num.val < b.ref.num.val)

/-- The head of a waiting list as the running order stands (R128). -/
def waitingHead (items : List Item) : List Waiting → Option Waiting
  | [] => none
  | w :: rest =>
    match waitingHead items rest with
    | none => some w
    | some h => if Waiting.before items h w then some h else some w

/-- The list without an event's entry. -/
def dropWaiting (r : EventRef) (ws : List Waiting) : List Waiting := ws.filter fun w => w.ref != r

/-- The waiting list in head-first order (R140). -/
def headFirst (items : List Item) : Nat → List Waiting → List Waiting
  | 0, _ => []
  | n + 1, ws =>
    match waitingHead items ws with
    | none => []
    | some h => h :: headFirst items n (dropWaiting h.ref ws)

/-- The cued reference becomes absent. -/
def Outlet.dropCue (x : Outlet) : Outlet := { x with cued := none }
/-- The waiting list is emptied. -/
def Outlet.clearWaiting (x : Outlet) : Outlet := { x with waiting := [] }

/-- Hold a cue: a CUE frame with the event's payload is queued, the cued reference names the event (R127 step 2), and the
event's cued flag becomes yes (R109, R114). -/
def State.holdCue (o : Fin 8) (w : Waiting) (s : State) : State :=
  let payload := ((s.event w.ref).map (·.payload)).getD 0
  ((s.queueFrame o ⟨.cue, payload, some w.ref, false⟩).onOutlet o fun x => { x with cued := some ⟨w.ref, w.key, payload⟩ }).onEvent
    w.ref fun e => { e with cued := true }

/-- An outlet able to hold a cue cues the head of its waiting list (R128). The cue report is a change of the head's owner
(R119), unless it answers a cue request made within an action on that owner, `own` (log entry 13). -/
def State.serveHead (own : Option Nat) (o : Fin 8) (s : State) : State :=
  if (s.outlet o).canHold then
    match waitingHead s.items (s.outlet o).waiting with
    | none => s
    | some w =>
      let cue := fun s : State => (s.onOutlet o fun x => { x with waiting := dropWaiting w.ref x.waiting }).holdCue o w
      if own = some w.ref.owner then cue s else s.firingAction w.ref.owner cue
  else s

/-- Every outlet able to hold a cue cues its head: R128's judging, which the model makes at every outlet and not at the freed one alone
(log entry 31). Each cue report is a change of its owner (R119). -/
def State.serveAll (s : State) : State := outletNumbers.foldl (fun s o => s.serveHead none o) s

/-- The outlet holds a cue for the event. -/
def Outlet.holds (o : Outlet) (r : EventRef) : Bool := match o.cued with | some c => c.ref == r | none => false
/-- The event stands in the outlet's waiting list. -/
def Outlet.lists (o : Outlet) (r : EventRef) : Bool := o.waiting.any fun w => w.ref == r

/-- A cue request at an outlet (R127): PRESENT, HELD, LISTED (the head then cued at once where the outlet can hold), or
UNLISTED. -/
def State.cueRequest (own : Option Nat) (r : EventRef) (o : Fin 8) (key : Nat) (s : State) : State :=
  let x := s.outlet o
  if x.holds r || x.lists r then s
  else if x.canHold && x.waiting.isEmpty then s.holdCue o ⟨r, key⟩
  else if x.waiting.length < Config.waitingSize then
    (s.onOutlet o fun x => { x with waiting := x.waiting ++ [⟨r, key⟩] }).serveHead own o
  else s

/-- Withdraw a held cue at an outlet: an UNCUE with the cue's payload is queued, the cued reference becomes absent and the
event's cued flag no (R113, R129). -/
def State.uncue (o : Fin 8) (c : CuedRef) (s : State) : State :=
  ((s.queueFrame o ⟨.uncue, c.payload, some c.ref, false⟩).onOutlet o Outlet.dropCue).onEvent c.ref
    fun e => { e with cued := false }

/-- Withdraw an event's cue or its waiting entry at one outlet, without serving the list (R129). -/
def State.withdrawAt (r : EventRef) (s : State) (o : Fin 8) : State :=
  let s1 := s.onOutlet o fun x => { x with waiting := dropWaiting r x.waiting }
  match (s1.outlet o).cued with
  | some c => if c.ref = r then s1.uncue o c else s1
  | none => s1

/-- Withdraw an event's cue or waiting entry wherever it stands: the outlet its cue was requested on (R113). -/
def State.withdrawCue (r : EventRef) (s : State) : State := outletNumbers.foldl (fun s o => s.withdrawAt r o) s

/-- Release an event's cue (R113, R129); an outlet freed by it cues the head of its list (R128). -/
def State.releaseCue (r : EventRef) (s : State) : State := (s.withdrawCue r).serveAll

/-- Remove the waiting entries of an item's events from every list. -/
def State.unlistItem (k : Nat) (s : State) : State :=
  { s with outlets := s.outlets.map fun x => { x with waiting := x.waiting.filter fun w => w.ref.owner != k } }

/-- The references of an item's events, in ascending number. -/
def Item.refs (i : Item) : List EventRef := i.events.map fun e => ⟨i.key, e.num⟩

/-- The references of the events of the item with a key. -/
def State.refsOf (s : State) (k : Nat) : List EventRef := match s.item k with | some i => i.refs | none => []

/-- An event that no longer exists: frames still queued for it and playing references lose it (R25 step 2, R124). -/
def Outlet.forget (r : EventRef) (x : Outlet) : Outlet :=
  { x with
    playing := if x.playing = some r then none else x.playing
    queue := x.queue.map fun f => if f.event = some r then { f with event := none } else f }

/-- Every outlet's cue is released and every list emptied at once, `uncue` saying whether UNCUE frames are queued; the cued
flags of the events concerned become no on the outlets' reports (R53, R55, R113, R114). -/
def State.dropCuesAt (uncue : Bool) (s : State) (o : Fin 8) : State :=
  let s1 := s.onOutlet o Outlet.clearWaiting
  match (s1.outlet o).cued with
  | none => s1
  | some c =>
    let s2 := if uncue then s1.queueFrame o ⟨.uncue, c.payload, some c.ref, false⟩ else s1
    (s2.onOutlet o Outlet.dropCue).firingAction c.ref.owner
      (State.onEvent c.ref fun e => { e with cued := false })

def State.dropCues (uncue : Bool) (s : State) : State := outletNumbers.foldl (State.dropCuesAt uncue) s

end Sys2Proof.Machine
end

