-- ==== Sys2Proof/Machine/ShowRecord.lean ====
section
/-! DEFINITION. The Show Controller's records between boundaries (chapter 03): the take-pending record, the fault vectors, the
lead record, the end condition, OVER, hold, NEXT with its standby cues. -/
namespace Sys2Proof.Machine

/-! ## The take-pending record (R61) -/

/-- An ordinary take is requested: the first fills the part, a later one is counted (R61). -/
def State.requestTake (k : TakeKind) (s : State) : State :=
  if s.ctl.ordinary.isNone then s.onCtl fun c => { c with ordinary := some k } else s.countCoalesced

/-- The key a vector entry holds (R71). -/
def ShowCtl.vectorKey (c : ShowCtl) : FaultVector → Option Nat
  | .leadLost => c.leadLostKey
  | .underrun => c.underrunKey

/-- A cover key is usable: it names an item that is PENDING or DONE and is not the on-air item (R64, R72, R73). -/
def State.coverUsable (s : State) (k : Nat) : Bool :=
  match s.item k with
  | some i => !i.isOnAir && s.ctl.onAir != some k
  | none => false

/-- Write the last vector record and raise VECTOR (R187). -/
def State.noteVector (v : FaultVector) (d : Disposition) (s : State) : State :=
  ({ s with
    notices := { s.notices with
      lastVector := some ⟨v, s.house, s.ctl.onAir.getD 0, (s.ctl.vectorKey v).getD 0, d⟩ } } : State).raise classVector

/-- A vector is raised (R72 step 2, R73): a VECTOR notice, and a cover take of the entry's item for the next boundary where
that item is usable; a filled cover part is counted and kept (R61). -/
def State.raiseVector (v : FaultVector) (s : State) : State :=
  match s.ctl.vectorKey v with
  | none => s.noteVector v .noCover
  | some k =>
    if !s.coverUsable k then s.noteVector v .noCover
    else if s.ctl.cover.isSome then (s.noteVector v .coalesced).countCoalesced
    else (s.noteVector v .requested).onCtl fun c => { c with cover := some ⟨v, k⟩ }

/-! ## The end condition and OVER -/

/-- The on-air item's end is judged by its lead: the phase is not NONE and the item is not degraded (R67). -/
def State.endByLead (s : State) (i : Item) : Bool := s.ctl.phase != .none && !i.degraded

/-- The end condition of the on-air item at the house time in force (R67). -/
def State.endMet (s : State) (i : Item) : Bool :=
  if s.endByLead i then s.ctl.phase == .ended
  else match i.takeFrame with
    | some t => decide (i.effective ≤ subMod s.day (s.house + 1) t)
    | none => false

/-- An AUTOMATIC take may be requested or effected for the on-air item: its end action is AUTO, it is not held and its end
condition is met (R64, R67). -/
def State.autoReady (s : State) : Bool :=
  match s.onAirItem with
  | some i => i.endAction == .auto && !i.held && s.endMet i
  | none => false

/-- The end condition is judged: where it is met on an AUTO item that is not held, the automatic end is requested (R67). -/
def State.judgeEnd (s : State) : State := if s.autoReady then s.requestTake .automatic else s

/-- The remaining time has reached zero (R70). -/
def State.overNow (s : State) : Bool :=
  s.ctl.onAir.isSome && (match s.remaining with | some r => decide (r ≤ 0) | none => false)

/-- OVER is judged (R70): raised when r ≤ 0 for the first time in the airing. -/
def State.judgeOver (s : State) : State :=
  if s.overNow && !s.ctl.overReached then (s.onCtl fun c => { c with overReached := true }).raise classOver else s

/-- OVER after a change of E (R70): r positive again clears the flag, r ≤ 0 is judged. -/
def State.judgeOverChange (s : State) : State :=
  if s.ctl.onAir.isSome && !s.overNow then s.onCtl fun c => { c with overReached := false } else s.judgeOver

/-! ## Degradation and the lead record -/

/-- An item becomes degraded, as a change of the item, unless it is already (R72, R105). -/
def State.markDegraded (k : Nat) (s : State) : State :=
  match s.item k with
  | none => s
  | some i => if i.degraded then s else s.onItem k fun i => ({ i with degraded := true } : Item).bump

/-- The Firing Unit asks for an item to be marked degraded (R105): the end condition of an on-air item that becomes degraded
is judged (R67). -/
def State.degrade (k : Nat) (s : State) : State :=
  match s.item k with
  | none => s
  | some i => if !i.degraded && s.ctl.onAir == some k then (s.markDegraded k).judgeEnd else s.markDegraded k

/-- LEAD_LOST (R72, R75): the phase is LOST, the item is degraded, and unless it was taken by vector the vector is
raised. The end condition is judged by the report or the change that moved the phase (R67, log entry 27). -/
def State.leadLost (s : State) : State :=
  match s.ctl.onAir with
  | none => s
  | some k =>
    let s1 := (s.onCtl fun c => { c with phase := .lost }).markDegraded k
    if s1.ctl.takenByVector then s1 else s1.raiseVector .leadLost

/-- The lead reports of R68's table. -/
inductive LeadReport where
  | showQueued | tallyRose | tallyFell | startTimeout | outletLost | skippedOrMissed
  deriving DecidableEq, Repr

/-- A lead report moves the lead record (R68), and the end condition is judged (R67, once for a report: log entry 27). A report
that arrives in a phase not listed for it is ignored. -/
def State.leadReport (r : LeadReport) (s : State) : State :=
  match r, s.ctl.phase with
  | .showQueued, .waiting => (s.onCtl fun c => { c with phase := .shown }).judgeEnd
  | .tallyRose, .shown => (s.onCtl fun c => { c with phase := .running }).judgeEnd
  | .tallyFell, .running => (s.onCtl fun c => { c with phase := .ended, leadEnd := some s.house }).judgeEnd
  | .startTimeout, .shown => s.leadLost.judgeEnd
  | .outletLost, .shown => s.leadLost.judgeEnd
  | .outletLost, .running => s.leadLost.judgeEnd
  | .skippedOrMissed, .waiting => s.leadLost.judgeEnd
  | _, _ => s

/-- The event is the on-air item's lead (R105). -/
def State.isLead (s : State) (r : EventRef) : Bool :=
  match s.onAirItem with
  | some i => i.key == r.owner && i.lead == some r.num
  | none => false

/-- The watched outlet is lost: the watch closes and the loss is reported (R136). -/
def State.watchLost (o : Fin 8) (s : State) : State :=
  match s.watch with
  | some w => if w.outlet = o then ({ s with watch := none } : State).leadReport .outletLost else s
  | none => s

/-! ## Hold (R66) -/

/-- The on-air item's held flag is given a value; a release judges the end condition at once (R66). -/
def State.setHeld (k : Nat) (v : Bool) (s : State) : State :=
  let s1 := s.onItem k fun i => ({ i with held := v } : Item).bump
  if v then s1 else s1.judgeEnd

/-- HOLD toggles the held flag of the on-air item (R66). -/
def State.toggleHeld (s : State) : State :=
  match s.onAirItem with
  | some i => s.setHeld i.key (!i.held)
  | none => s

/-! ## NEXT, the pin and standby cues (R56 to R58, R111) -/

/-- NEXT by following: the first eligible item after the anchor, or of the rundown when the anchor is absent (R56). -/
def State.followed (s : State) : Option Nat :=
  ((match s.ctl.anchor with
    | none => s.items
    | some a => itemsAfter a s.items).find? Item.eligible).map Item.key

/-- The key names an eligible item (R56). -/
def State.eligibleKey (s : State) (k : Nat) : Bool := match s.item k with | some i => i.eligible | none => false

/-- The event meets the standby test, its cued flag apart (R111). -/
def State.standbyTest (s : State) (e : Event) : Bool :=
  e.action == .showFrame && e.anchor == .start && decide (e.offset < (s.outlet e.outlet).preRoll)

/-- The order key of a standby request: NEXT's front offset, within 0..1,048,575 (R110). -/
def State.standbyKey (s : State) : Nat := min s.frontBase Config.maxDuration

/-- A standby cue is requested for an event that needs one (R111); a request answered HELD is a change of the item (R119). -/
def State.requestStandby (r : EventRef) (s : State) : State :=
  match s.event r with
  | none => s
  | some e =>
    if s.standbyTest e && !e.cued then
      s.firingAction r.owner (State.cueRequest (some r.owner) r e.outlet s.standbyKey)
    else s

/-- The standby cues of an item are requested, in ascending event number (R57, R111). -/
def State.requestStandbys (k : Nat) (s : State) : State := (s.refsOf k).foldl (fun s r => s.requestStandby r) s

/-- One event's cue is released as an action of its own (R113, R119); an outlet freed by it cues the head of its list (R128), each such
cue report another change (R119). -/
def State.releaseAction (r : EventRef) (s : State) : State := (s.firingAction r.owner (State.withdrawCue r)).serveAll

/-- The standby cues of an item are released (R57 step 1, R113): its waiting entries go first (log entry 8). -/
def State.releaseStandbys (k : Nat) (s : State) : State :=
  (s.refsOf k).foldl (fun s r => s.releaseAction r) (s.unlistItem k)

/-- NEXT as the state gives it, and whether it is pinned (R56, R58). A pin names a key: one whose item a batch retires and
inserts again, eligible before and after the one change report, is kept (log entry 7). -/
def State.derivedNext (s : State) : Option Nat × Bool :=
  if s.ctl.state = .armed ∨ s.ctl.state = .live then
    match s.ctl.next with
    | some k => if s.ctl.pinned && s.eligibleKey k then (some k, true) else (s.followed, false)
    | none => (s.followed, false)
  else (none, false)

/-- NEXT becomes `n`: standby cues of the item that stopped being NEXT are released, unless a take put it on air, then those of
the new NEXT are requested (R57). -/
def State.moveNext (n : Option Nat) (pin : Bool) (taken : Option Nat) (s : State) : State :=
  let old := s.ctl.next
  let s1 := s.onCtl fun c => { c with next := n, pinned := pin }
  if old = n then s1
  else
    let s2 := match old with
      | some k => if taken = some k then s1 else s1.releaseStandbys k
      | none => s1
    match n with
    | some k => s2.requestStandbys k
    | none => s2

/-- NEXT is derived again (R56); `taken` names an item a take has just put on air, which keeps its cues. -/
def State.deriveNext (taken : Option Nat) (s : State) : State := s.moveNext s.derivedNext.1 s.derivedNext.2 taken

/-! ## Entering CLOSED (R53) -/

/-- The Show Controller's records emptied (R52, R53). -/
def ShowCtl.emptied (c : ShowCtl) : ShowCtl :=
  { c with
    next := none
    pinned := false
    anchor := none
    ordinary := none
    cover := none
    phase := .none
    leadEnd := none
    takenByVector := false
    underrunRaised := false
    overReached := false }

/-- Entering CLOSED (R53): records emptied, every cue released with an UNCUE, every list emptied, a SHOW notice. -/
def State.enterClosed (s : State) : State :=
  ((s.onCtl fun c => { c.emptied with state := .closed, onAir := none }).dropCues true).raise classShow

end Sys2Proof.Machine
end

