-- ==== Sys2Proof/Machine/Firing.lean ====
section
/-! DEFINITION. The Firing Unit (chapter 05): due distances, next actions, the wheel, firing, arrival, re-arming and item
end. -/
namespace Sys2Proof.Machine

/-! ## Due distances and next actions (R99, R100) -/

/-- The due distance q of an event in an item of effective duration `eff` (R99). -/
def dueDistance (eff : Nat) (e : Event) : Nat :=
  match e.anchor with
  | .start => e.offset
  | .finish => eff - e.offset

/-- The event's cue distance lies at or after the take frame and it has no cue yet (R100). -/
def needsCue (preRoll q : Nat) (e : Event) : Bool :=
  e.action == .showFrame && decide (0 < preRoll) && !e.cued && decide (preRoll ≤ q)

/-- The next action and its action distance, chosen at elapsed time `el` (R100). -/
def nextAction (preRoll q el : Nat) (e : Event) : ActionKind × Nat :=
  if needsCue preRoll q e && decide (el < q - preRoll) then (.cue, q - preRoll) else (.fire, q)

/-- The frames an item's airing is measured by: its take frame, its E and its elapsed time. -/
structure AiringClock where
  take : Nat
  eff : Nat
  el : Nat

/-- The airing of the item with a key at the house time in force, for an item ON_AIR. -/
def State.airingClock (s : State) (k : Nat) : Option AiringClock :=
  match s.item k with
  | some i =>
    match i.airing with
    | .onAir t => some ⟨t, i.effective, subMod s.day s.house t⟩
    | _ => none
  | none => none

/-- Set an event's state. -/
def State.setEventState (r : EventRef) (st : EventState) (s : State) : State := s.onEvent r fun e => { e with state := st }

/-- Take an event's wheel entry and its planned action out (R107 step 1, R108). -/
def State.disarm (r : EventRef) (s : State) : State :=
  { s with
    wheel := s.wheel.filter fun w => w.ref != r
    planned := s.planned.filter fun p => p.ref != r }

/-! ## Firing an event (R105) -/

/-- The lead report that the outcome of an event calls for: its SHOW frame queued, or the event SKIPPED or MISSED (R105). -/
def Event.leadOutcome (e : Event) : Option LeadReport :=
  match e.state with
  | .fired => if e.action = .showFrame then some .showQueued else none
  | .skipped => some .skippedOrMissed
  | .missed => some .skippedOrMissed
  | .idle => none
  | .pending => none
  | .armed => none

/-- The outcome of the on-air item's lead is reported to the Show Controller (R68, R105); of any other event there is no report. -/
def State.reportLead (s : State) (r : EventRef) : State :=
  if s.isLead r then (match (s.event r).bind Event.leadOutcome with | some p => s.leadReport p | none => s) else s

/-- An event is made SKIPPED as a counted skip: counter and FIRING notice, its cue released (R105, R107, R113, R118). A head cued on
the outlet so freed is a cue report of its own (R119). -/
def State.skipEvent (r : EventRef) (s : State) : State :=
  (((s.disarm r).onEvent r fun e => { e with state := .skipped, lateness := 0 }).countSkipped).releaseCue r

/-- An event is made MISSED: counter and FIRING notice, its cue released (R103, R105, R113, R118). -/
def State.missEvent (r : EventRef) (s : State) : State :=
  (((s.disarm r).onEvent r fun e => { e with state := .missed, lateness := 0 }).countMissed).releaseCue r

/-- The lead watch opens on the SHOW frame just queued, the one frame to carry the lead mark (R134). -/
def State.openWatch (o : Fin 8) (r : EventRef) (s : State) : State :=
  { s with watch := some ⟨o, r, .queued, 25⟩ }

/-- No frame queued carries the lead mark any more: a new lead SHOW replaces the watch (R134). -/
def State.clearMarks (s : State) : State :=
  { s with outlets := s.outlets.map fun x => { x with queue := x.queue.map fun f => { f with leadMark := false } } }

/-- The frame an event queues when it fires (R105). -/
def firingFrame (r : EventRef) (e : Event) (lead : Bool) : Frame :=
  match e.action with
  | .showFrame => ⟨.showFrame, e.payload, some r, lead⟩
  | .clearFrame => ⟨.clear, 0, some r, false⟩

/-- The firing that goes ahead (R105 case 3). -/
def State.fireAhead (r : EventRef) (e : Event) (late : Nat) (s : State) : State :=
  let lead := e.action == .showFrame && s.isLead r
  let s1 := if lead then s.clearMarks else s
  let s2 := (s1.disarm r).queueFrame e.outlet (firingFrame r e lead)
  let s3 := s2.onEvent r fun e => { e with state := .fired, lateness := late }
  let s4 := s3.onOutlet e.outlet fun x =>
    { x with
      fireCount := countUp x.fireCount
      waiting := if e.action = .showFrame then dropWaiting r x.waiting else x.waiting }
  let s5 := if 0 < late then s4.countLate else s4
  if lead then s5.openWatch e.outlet r else s5

/-- An event is fired, judged against its outlet as it stands (R105); the action it belongs to makes the lead report
(State.reportLead). -/
def State.fireEvent (r : EventRef) (late : Nat) (s : State) : State :=
  match s.event r with
  | none => s
  | some e =>
    let x := s.outlet e.outlet
    if x.state = .disabled ∨ x.state = .offline then
      let s1 := s.skipEvent r
      if e.required then s1.degrade r.owner else s1
    else if x.full then ((s.onOutlet e.outlet fun x => { x with overflow := true }).raise classOutlet).missEvent r
    else s.fireAhead r e late

/-- An event whose due is now or has passed by `late` frames fires at once, or is skipped more than 12 frames past its due
(R107). -/
def State.fireLate (r : EventRef) (late : Nat) (s : State) : State :=
  if late ≤ 12 then s.fireEvent r late else s.skipEvent r

/-! ## The wheel (R103) -/

/-- The first of the five tries, `a`, `a + 1`, ... frames from the take, whose slot has room; the spill with it (R103). -/
def wheelTry (wheel : List WheelEntry) (d take a : Nat) : Nat → Nat → Option Nat
  | 0, _ => none
  | n + 1, k =>
    let frame := (take + a + k) % d
    if (wheel.filter fun w => w.fireFrame % Config.wheelSlots == frame % Config.wheelSlots).length < Config.slotSize then some k
    else wheelTry wheel d take a n (k + 1)

/-- The entry of an action at distance `a` from the take, when one of its slots has room (R103). -/
def State.wheelEntry (s : State) (r : EventRef) (kind : ActionKind) (take a : Nat) : Option WheelEntry :=
  (wheelTry s.wheel s.day take a 5 0).map fun k => ⟨r, kind, (take + a) % s.day, (take + a + k) % s.day, k⟩

/-- Put an entry on the wheel: its event is ARMED. -/
def State.addEntry (w : WheelEntry) (s : State) : State :=
  ({ s with wheel := s.wheel ++ [w] } : State).setEventState w.ref .armed

/-- The event waits beyond the horizon with its chosen action: PENDING (R97, R101). -/
def State.plan (p : Planned) (s : State) : State :=
  ({ s with planned := s.planned ++ [p] } : State).setEventState p.ref .pending

/-- Place a FIRE entry, or miss the event for want of a slot (R103). -/
def State.placeFire (r : EventRef) (take a : Nat) (s : State) : State :=
  match s.wheelEntry r .fire take a with
  | some w => s.addEntry w
  | none => s.missEvent r

/-- The event's next action is its firing at distance `q`: on the wheel within 63 frames, else PENDING (R103, R104). -/
def State.awaitFiring (r : EventRef) (c : AiringClock) (q : Nat) (s : State) : State :=
  if q - c.el ≤ 63 then s.placeFire r c.take q else s.plan ⟨r, .fire, q⟩

/-- Place an action due within the horizon; a cue that finds no room is given up (R103). -/
def State.placeAction (r : EventRef) (kind : ActionKind) (c : AiringClock) (a q : Nat) (s : State) : State :=
  match kind with
  | .fire => s.placeFire r c.take a
  | .cue =>
    match s.wheelEntry r .cue c.take a with
    | some w => s.addEntry w
    | none => s.awaitFiring r c q

/-- A cue of the on-air item is requested where its due still lies ahead and it has none (R110, R112). -/
def State.requestAirCue (own : Nat) (r : EventRef) (q el : Nat) (s : State) : State :=
  match s.event r with
  | none => s
  | some e => if !e.cued && decide (el < q) then s.cueRequest (some own) r e.outlet (q - el) else s

/-- Arm an event whose due lies ahead: its next action is chosen and placed, and a cue whose time has passed is requested at
once (R100, R101 steps 3 and 4, R107). An event that the placing has made MISSED gets no such request (log entry 26). -/
def State.armAhead (own : Nat) (r : EventRef) (c : AiringClock) (q : Nat) (s : State) : State :=
  match s.event r with
  | none => s
  | some e =>
    let p := (s.outlet e.outlet).preRoll
    let act := nextAction p q c.el e
    let s1 := if act.2 - c.el ≤ 63 then s.placeAction r act.1 c act.2 q else s.plan ⟨r, act.1, act.2⟩
    let waits := match s1.event r with | some e => e.state == .pending || e.state == .armed | none => false
    if waits && e.action == .showFrame && decide (0 < p) && decide (q ≤ p + c.el) then s1.requestAirCue own r q c.el else s1

/-! ## Arrival (R101) -/

/-- One event of the arriving item (R101 steps 1 to 4). -/
def State.arriveEvent (k : Nat) (s : State) (r : EventRef) : State :=
  match s.airingClock k, s.event r with
  | some c, some e =>
    let q := dueDistance c.eff e
    let s1 := (s.disarm r).onEvent r fun e =>
      { e with state := .idle, lateness := 0, due := some ((c.take + q) % s.day) }
    if q = 0 then s1.fireEvent r 0 else s1.armAhead k r c q
  | _, _ => s

/-- The arrival of item `k`: each of its events in ascending number, as one action (R119); the lead report it produces is made at its
end (R101). -/
def State.arrival (k : Nat) (s : State) : State :=
  let s1 := s.firingAction k fun s => (s.refsOf k).foldl (State.arriveEvent k) s
  (s1.refsOf k).foldl State.reportLead s1

/-! ## Horizon arming (R102) and the slot firing (R104) -/

/-- A planned action has come within the horizon. -/
def Planned.near (el : Nat) (p : Planned) : Bool := decide (p.distance - el ≤ 63)

/-- The PENDING events of the on-air item that have come within the horizon, in ascending number (R102). -/
def State.nearPlans (s : State) : List Planned :=
  match s.ctl.onAir with
  | none => []
  | some k =>
    match s.airingClock k with
    | none => []
    | some c => (s.refsOf k).filterMap fun r => s.planned.find? fun p => p.ref == r && p.near c.el

/-- Place one planned action (R102); a lead missed for want of a slot is reported (R105). -/
def State.armPlan (k : Nat) (s : State) (p : Planned) : State :=
  match s.airingClock k, s.event p.ref with
  | some c, some e => ((s.disarm p.ref).placeAction p.ref p.kind c p.distance (dueDistance c.eff e)).reportLead p.ref
  | _, _ => s

/-- A boundary action of the Firing Unit on item `k`: the placements and firings of one boundary are one change (R119). -/
def State.boundaryAction (k : Nat) (f : State → State) (s : State) : State :=
  let s' := f s
  if s'.firingOf k = s.firingOf k then s'
  else if s'.fuCounted = some k then s'
  else ({ s' with fuCounted := some k } : State).bump k

/-- HORIZON ARMING of the on-air item (R102). -/
def State.horizonArm (s : State) : State :=
  match s.ctl.onAir with
  | none => s
  | some k => s.boundaryAction k fun s => s.nearPlans.foldl (State.armPlan k) s

/-- The order in which the entries of one fire frame act: ascending action frame (the earlier has the greater spill), then
ascending event number (R104). -/
def WheelEntry.before (a b : WheelEntry) : Bool :=
  if a.spill ≠ b.spill then decide (b.spill < a.spill) else decide (a.ref.num.val ≤ b.ref.num.val)

/-- Place an entry in acting order. -/
def insertActing (w : WheelEntry) : List WheelEntry → List WheelEntry
  | [] => [w]
  | x :: rest => if WheelEntry.before w x then w :: x :: rest else x :: insertActing w rest

/-- Entries in acting order (R104). -/
def actingOrder (ws : List WheelEntry) : List WheelEntry := ws.foldr insertActing []

/-- The entries whose fire frame is the house time in force (R104). -/
def State.dueEntries (s : State) : List WheelEntry := actingOrder (s.wheel.filter fun w => w.fireFrame == s.house)

/-- A CUE entry acts: the cue is requested, and the event's next action becomes its firing (R104). An event whose due has come
fires uncued at once (R100, log entry 9). -/
def State.actCue (k : Nat) (r : EventRef) (s : State) : State :=
  match s.airingClock k, s.event r with
  | some c, some e =>
    let q := dueDistance c.eff e
    (if c.el < q then (s.requestAirCue k r q c.el).awaitFiring r c q else s.fireLate r (c.el - q)).reportLead r
  | _, _ => s

/-- One entry acts (R104), and the outcome of a lead is reported (R105). -/
def State.actEntry (k : Nat) (s : State) (w : WheelEntry) : State :=
  match w.kind with
  | .fire => (s.fireEvent w.ref w.spill).reportLead w.ref
  | .cue => s.actCue k w.ref

/-- Take the entries of one fire frame out of the wheel. -/
def State.takeOutFrame (f : Nat) (s : State) : State := { s with wheel := s.wheel.filter fun w => w.fireFrame != f }

/-- The firing of the boundary's slot: the entries whose fire frame is the house time are taken out and act (R104). -/
def State.slotFire (s : State) : State :=
  match s.ctl.onAir with
  | none => s
  | some k => s.boundaryAction k fun s => s.dueEntries.foldl (State.actEntry k) (s.takeOutFrame s.house)

/-! ## Re-arming (R106, R107) -/

/-- An event of the on-air item is re-armed (R107), and the outcome of a lead is reported (R105). -/
def State.rearm (k : Nat) (r : EventRef) (s : State) : State :=
  match s.airingClock k, s.event r with
  | some c, some e =>
    let q := dueDistance c.eff e
    let s1 := (s.disarm r).onEvent r fun e => { e with due := some ((c.take + q) % s.day) }
    (if c.el < q then (s1.onEvent r fun e => { e with lateness := 0 }).armAhead k r c q
      else s1.fireLate r (c.el - q)).reportLead r
  | _, _ => s

/-- The event is in a final state of its airing (R97). -/
def EventState.final : EventState → Bool
  | .fired => true
  | .skipped => true
  | .missed => true
  | _ => false

/-- A modified event of the on-air item: re-armed, but one in a final state only where its new due lies ahead; otherwise it
keeps its state with the new due reported (R107). -/
def State.rearmModified (k : Nat) (r : EventRef) (s : State) : State :=
  match s.airingClock k, s.event r with
  | some c, some e =>
    let q := dueDistance c.eff e
    if e.state.final && decide (q ≤ c.el) then s.onEvent r fun e => { e with due := some ((c.take + q) % s.day) }
    else s.rearm k r
  | _, _ => s

/-! ## Item end (R115, R117) -/

/-- Step 1: one entry of the end frame acts; a CUE entry is only taken out (R115). The item is no longer on air, so there is no lead
report (R105). -/
def State.endEntry (s : State) (w : WheelEntry) : State :=
  match w.kind with
  | .fire => s.fireEvent w.ref w.spill
  | .cue => s

/-- Step 2: an event still PENDING or ARMED becomes SKIPPED, uncounted (R115). -/
def skipAtEnd (e : Event) : Event :=
  if e.state = .pending ∨ e.state = .armed then { e with state := .skipped } else e

/-- The events of the item handed its end, as one action (R115 steps 1 to 4). -/
def State.endEvents (k : Nat) (t : Nat) (s : State) : State :=
  let due := actingOrder (s.wheel.filter fun w => w.ref.owner == k && w.fireFrame == t)
  let s1 := due.foldl State.endEntry s
  let s2 := (s1.onItem k fun i => { i with events := i.events.map skipAtEnd })
  let s3 : State := { s2 with
    wheel := s2.wheel.filter fun w => w.ref.owner != k
    planned := s2.planned.filter fun p => p.ref.owner != k }
  let s4 := (s3.refsOf k).foldl (fun s r => s.releaseCue r) (s3.unlistItem k)
  s4.onItem k fun i => { i with events := i.events.map fun e => { e with due := none } }

/-- The frame is for a clear-at-end event of the item (R117). -/
def Item.clearsRef (i : Item) (r : EventRef) : Bool :=
  i.key == r.owner && match i.event r.num with | some e => e.clearAtEnd | none => false

/-- The outlet is left showing a clear-at-end event of the item: playing it, or with its SHOW still queued (R117). -/
def Outlet.leftShowing (i : Item) (x : Outlet) : Bool :=
  (match x.playing with | some r => i.clearsRef r | none => false)
    || x.queue.any fun f => f.command == .showFrame && match f.event with | some r => i.clearsRef r | none => false

/-- One outlet left showing the item gets one CLEAR; a full queue is a counted miss (R117, R124). -/
def State.clearAtEndOn (i : Item) (s : State) (o : Fin 8) : State :=
  if (s.outlet o).leftShowing i then
    if (s.outlet o).full then (s.queueFrame o clearFrame).countMissed else s.queueFrame o clearFrame
  else s

/-- CLEAR AT END (R117). -/
def State.clearAtEnd (k : Nat) (s : State) : State :=
  match s.item k with
  | none => s
  | some i => outletNumbers.foldl (State.clearAtEndOn i) s

/-- The item end handed to the Firing Unit at end frame `t` (R115, R117, R119); the watch closes (R134); an abort withholds the
clear-at-end frames (R55). -/
def State.itemEnd (k t : Nat) (withhold : Bool) (s : State) : State :=
  let s1 := s.firingAction k (State.endEvents k t)
  let s2 : State := { s1 with watch := none }
  if withhold then s2 else s2.clearAtEnd k

end Sys2Proof.Machine
end

