-- ==== Sys2Proof/Machine/Takes.lean ====
section
/-! DEFINITION. Takes at a frame boundary (chapter 03, 3.3 to 3.6): items leaving and going to air, the judging of the
take-pending record. -/
namespace Sys2Proof.Machine

/-- The lead record and the airing flags emptied (R62). -/
def ShowCtl.endAiring (c : ShowCtl) : ShowCtl :=
  { c with
    onAir := none
    phase := .none
    leadEnd := none
    takenByVector := false
    underrunRaised := false
    overReached := false }

/-- The item's record as it leaves air at end frame `t` (R62). -/
def Item.ended (d t : Nat) (why : EndReason) (i : Item) : Item :=
  match i.airing with
  | .onAir tk => ({ i with airing := .done tk (min (subMod d t tk) Config.maxDuration) why } : Item).bump
  | _ => i

/-- Item `k` leaves air at end frame `t`; the Firing Unit is handed its end (R62). -/
def State.leaveAir (k t : Nat) (why : EndReason) (withhold : Bool) (s : State) : State :=
  ((s.onItem k (Item.ended s.day t why)).onCtl ShowCtl.endAiring).itemEnd k t withhold

/-- The item's record as it goes to air at boundary `t` (R63, R13). -/
def Item.aired (t : Nat) (i : Item) : Item :=
  ({ i with airing := .onAir t, airCount := satSucc 255 i.airCount, held := false, degraded := false } : Item).bump

/-- Item `k` goes to air at boundary `t`: the lead record and flags begin a new airing and the Firing Unit is handed its
arrival (R63, R75). -/
def State.goToAir (k t : Nat) (byVector : Bool) (s : State) : State :=
  let hasLead := match s.item k with | some i => i.lead.isSome | none => false
  ((s.onItem k (Item.aired t)).onCtl fun c =>
    { c with
      onAir := some k
      phase := if hasLead then .waiting else .none
      leadEnd := none
      takenByVector := byVector
      underrunRaised := false
      overReached := false }).arrival k

/-- A judged take writes the last take record and raises a TAKE notice (R65). -/
def State.noteTake (r : TakeRecord) (s : State) : State :=
  ({ s with notices := { s.notices with lastTake := r } } : State).raise classTake

/-- A dropped take's record (R65). -/
def State.noteDropped (s : State) : State := s.noteTake ⟨some .dropped, some s.house, 0, 0, none⟩

/-- The end reason of an item an ordinary take puts out in LIVE (R64, R69). -/
def State.liveReason (s : State) (kind : TakeKind) (i : Item) : EndReason :=
  match kind with
  | .manual => .take
  | .automatic =>
    match i.l, i.takeFrame with
    | some l, some tk =>
      if s.ctl.phase = .ended ∧ i.degraded = false ∧ min (subMod s.day s.house tk) Config.maxDuration + 25 < l then .autoEarly
      else .auto
    | _, _ => .auto

/-- NEXT goes to air as an ordinary take: the anchor becomes it, the pin is cleared, NEXT is derived again (R64, R59). -/
def State.ordinaryIn (k : Nat) (s : State) : State :=
  ((s.goToAir k s.house false).onCtl fun c => { c with anchor := some k, pinned := false, state := .live }).deriveNext (some k)

/-- UNDERRUN is tested at a dropped automatic take (R73, R75). -/
def State.testUnderrun (s : State) : State :=
  if s.ctl.takenByVector || s.ctl.underrunRaised then s
  else (s.onCtl fun c => { c with underrunRaised := true }).raiseVector .underrun

/-- What the judging of the record did: whether a take was effected, and the state after it. -/
structure Judged where
  taken : Bool
  state : State

/-- The ordinary part judged (R64's table). -/
def State.judgeOrdinary (kind : TakeKind) (s : State) : Judged :=
  if kind = .automatic ∧ s.autoReady = false then ⟨false, s⟩
  else
    match s.ctl.state, s.ctl.next, s.onAirItem with
    | .armed, some n, _ =>
      ⟨true, ((s.ordinaryIn n).raise classShow).noteTake ⟨some .taken, some s.house, n, 0, none⟩⟩
    | .armed, none, _ => ⟨false, s.noteDropped⟩
    | .live, some n, some i =>
      let why := s.liveReason kind i
      ⟨true, ((s.leaveAir i.key s.house why false).ordinaryIn n).noteTake ⟨some .taken, some s.house, n, i.key, some why⟩⟩
    | .live, none, _ =>
      match kind with
      | .manual => ⟨false, s.noteDropped⟩
      | .automatic => ⟨false, s.noteDropped.testUnderrun⟩
    | .last, _, some i =>
      ⟨true, ((s.leaveAir i.key s.house .closed false).enterClosed).noteTake ⟨some .closed, some s.house, 0, i.key, some .closed⟩⟩
    | _, _, _ => ⟨false, s⟩

/-- A valid cover part effected (R74): NEXT is unpinned where it was the cover item, and derived again. -/
def State.coverTake (k : Nat) (i : Item) (s : State) : State :=
  (((s.leaveAir i.key s.house .covered false).goToAir k s.house true).deriveNext (some k)).noteTake
    ⟨some .cover, some s.house, k, i.key, some .covered⟩

/-- The take-pending record is judged against the state at the boundary and emptied; at most one take is effected (R64, R61). -/
def State.judgeTakes (s : State) : Judged :=
  let s0 := s.onCtl fun c => { c with ordinary := none, cover := none }
  match s.ctl.cover, s0.onAirItem with
  | some cp, some i =>
    if s0.coverUsable cp.key then
      let s1 := if s.ctl.ordinary.isSome then s0.countCoalesced else s0
      ⟨true, s1.coverTake cp.key i⟩
    else
      match s.ctl.ordinary with
      | some kind => s0.noteDropped.judgeOrdinary kind
      | none => ⟨false, s0.noteDropped⟩
  | _, _ =>
    match s.ctl.ordinary with
    | some kind => s0.judgeOrdinary kind
    | none => ⟨false, s0⟩

end Sys2Proof.Machine
end

