-- ==== Sys2Proof/Machine/Cueing.lean ====
section
/-! DEFINITION. The Cue Unit (chapter 07): lamp states, patterns, hails and the display line. -/
namespace Sys2Proof.Machine

/-- The position belongs to the item with a key (R142). -/
def State.belongs (s : State) (p : Fin 4) (k : Option Nat) : Bool :=
  match k.bind s.item with
  | some i => i.presenters.getLsbD p.val
  | none => false

/-- The lamp state of a position over a sheet of remaining time `left`: the first line of R143's table that applies. -/
def State.lampOf (left : Option Int) (s : State) (p : Fin 4) : Lamp :=
  let onShow := s.ctl.state == .live || s.ctl.state == .last
  let r := left.getD 0
  let w : Int := (s.ctl.wrap * s.tb.standard.rate : Nat)
  if 0 < (s.cue.presenters.get p).hail then .hailed
  else if onShow && s.belongs p s.ctl.onAir then
    if r ≤ 0 then .over else if r ≤ w then .wrap else .on
  else if (s.ctl.state == .armed || s.ctl.state == .live) && s.belongs p s.ctl.next then .standby
  else .dark

/-- The display mode and value of a position in a lamp state over a sheet of remaining time `left` (R151); NEXT's front offset is
max(r, 0) (R82). -/
def State.shownFor (left : Option Int) (s : State) (l : Lamp) : Shown :=
  let st := s.tb.standard
  let r := clampOffset (left.getD 0)
  match l with
  | .on => secondsShown .countdown (countdownSeconds st r.toNat)
  | .wrap => secondsShown .countdown (countdownSeconds st r.toNat)
  | .over => secondsShown .overrun (floorSeconds st (-r).toNat)
  | .standby => secondsShown .nextIn (countdownSeconds st r.toNat)
  | .hailed => secondsShown .hail 0
  | .dark => secondsShown .blank 0

/-- The last sent of an address (R142, R150). -/
def CueUnit.lastSent (c : CueUnit) (a : Fin 6) : Option Shown :=
  if h : a.val < 4 then (c.presenters.get ⟨a.val, h⟩).lastSent else if a = 4 then c.clockSent else c.todSent

/-- A computed mode and value fills the address's slot where it differs from last sent, and empties it where it is equal
(R154). -/
def CueUnit.fillSlot (a : Fin 6) (v : Shown) (c : CueUnit) : CueUnit :=
  { c with slots := c.slots.set a (if c.lastSent a = some v then none else some v) }

/-- The display address of a presenter position (7.5). -/
def addressOf (p : Fin 4) : Fin 6 := ⟨p.val, by omega⟩

/-- One position derived afresh from a sheet of remaining time `left` (R144): a changed lamp state restarts its pattern (R147), and
the display value is computed and compared (R151, R154). -/
def State.deriveFrom (left : Option Int) (s : State) (p : Fin 4) : State :=
  let l := s.lampOf left p
  let v := s.shownFor left l
  (s.onPresenter p fun x =>
    if x.lamp = l then { x with shown := v }
    else { x with lamp := l, step := 0, frames := 0, restartMark := some s.house, shown := v }).onCue (CueUnit.fillSlot (addressOf p) v)

/-- One position derived afresh from the present sheet (R144). -/
def State.derivePresenter (s : State) (p : Fin 4) : State := s.deriveFrom s.remaining p

/-- Every position derived afresh (R144). -/
def State.deriveLamps (s : State) : State := fours.foldl State.derivePresenter s

/-- The show clock's mode and value, from the headline as reported (R152). -/
def State.clockShown (s : State) : Shown :=
  match s.headline.1 with
  | none => .blank
  | some u =>
    let c := clampOffset u
    secondsShown (if 0 < c then .showOver else .showUnder) (floorSeconds s.tb.standard c.natAbs)

/-- The sheet is formed: the sheet count rises, the lamps and the show clock are derived from it (R79, R144, R152). -/
def State.formSheet (s : State) : State :=
  let s1 := ({ s with sheetCount := (s.sheetCount + 1) % 65536 } : State).deriveLamps
  s1.onCue (CueUnit.fillSlot 4 s1.clockShown)

/-- The lowest filled slot (R155). -/
def CueUnit.lowestFilled (c : CueUnit) : Option (Fin 6 × Shown) :=
  ([0, 1, 2, 3, 4, 5] : List (Fin 6)).findSome? fun a => (c.slots.get a).map fun v => (a, v)

/-- Write an address's last sent. -/
def CueUnit.setLastSent (a : Fin 6) (v : Shown) (c : CueUnit) : CueUnit :=
  if h : a.val < 4 then { c with presenters := c.presenters.modify ⟨a.val, h⟩ fun p => { p with lastSent := some v } }
  else if a = 4 then { c with clockSent := some v }
  else { c with todSent := some v }

/-- The free display line starts the frame of the lowest filled slot (R155). -/
def CueUnit.sendStart (c : CueUnit) : CueUnit :=
  match c.sending, c.lowestFilled with
  | none, some (a, v) => ({ c with slots := c.slots.set a none, sending := some (a, v) } : CueUnit).setLastSent a v
  | _, _ => c

/-- The display line starts if it is free (R155). -/
def State.displayStart (s : State) : State := s.onCue CueUnit.sendStart

/-- The sheet is formed between boundaries, and the free line starts what it filled. -/
def State.formSheetNow (s : State) : State := s.formSheet.displayStart

/-- What a change report of the part's own actions names (R169): which items are degraded, and which events have fired, been
skipped or been missed. -/
def State.outcomes (s : State) : List (Bool × List Bool) :=
  s.items.map fun i => (i.degraded, i.events.map fun e => e.state.final)

/-- The part's own change report: an action that degrades an item or brings an event to a final state has the sheet formed,
once for the action (R169, R14, R79; log entry 6). -/
def State.reportOwn (form : State → State) (before s : State) : State := if s.outcomes = before.outcomes then s else form s

/-- The pending pattern entries become the entries in force (R145). -/
def CueUnit.applyPatterns (c : CueUnit) : CueUnit :=
  let take := fun (b : Bank 6 Pattern) (a : Fin 6) => match c.pendingPatterns.get a with | some p => b.set a p | none => b
  { c with
    patterns := ([0, 1, 2, 3, 4, 5] : List (Fin 6)).foldl take c.patterns
    pendingPatterns := .replicate 6 none }

/-- The pattern advance of one presenter at a boundary of house time `t` (R146). -/
def Presenter.advance (t length : Nat) (x : Presenter) : Presenter :=
  if x.restartMark = some t then x
  else if length ≤ x.frames + 1 then { x with frames := 0, step := x.step + 1 }
  else { x with frames := x.frames + 1 }

/-- The step length in force for a presenter. -/
def State.stepLength (s : State) (p : Fin 4) : Nat := (s.cue.patterns.get (s.cue.presenters.get p).lamp.index).length

/-- The pattern advance of position `p` (R146). -/
def State.lampAdvance (p : Fin 4) (s : State) : State := s.onPresenter p (Presenter.advance s.house (s.stepLength p))

/-- The lowering of a hail; one that reaches 0 has run out and the lamp is derived again (R149), from a sheet of remaining time
`left` (R144). -/
def State.hailCount (left : Option Int) (p : Fin 4) (s : State) : State :=
  let n := (s.cue.presenters.get p).hail
  if n = 0 then s
  else
    let s1 := s.onPresenter p fun x => { x with hail := n - 1 }
    if n = 1 then s1.deriveFrom left p else s1

/-- The time-of-day slot is filled with the house time (R153). -/
def State.fillTod (s : State) : State := s.onCue (CueUnit.fillSlot 5 (todShown s.tb.standard s.house))

end Sys2Proof.Machine
end

