-- ==== Sys2Proof/Machine/Reports.lean ====
section
/-! DEFINITION. Store changes applied to the live store, and their one change report to the Show Controller, the Firing Unit and
the Timing Sheet Unit (R14, R25, R26, R29, R172, R173). A single request is a list of one change. -/
namespace Sys2Proof.Machine

/-! ## Within the change -/

/-- An event about to leave the store: its wheel entry is taken out, its cue withdrawn, its outlet references and queued frames
forget it, and a watch on it closes (R25 steps 1 and 2, R108, R134). -/
def State.eraseEvent (s : State) (r : EventRef) : State :=
  let s1 := (s.disarm r).withdrawCue r
  { s1 with
    outlets := s1.outlets.map (Outlet.forget r)
    watch := s1.watch.filter fun w => w.ref != r }

/-- The walk cursor as an item is retired (R29). -/
def cursorAfterRetire (k : Nat) (items : List Item) : Cursor → Cursor
  | .item c => if c = k then (match successor k items with | some n => .item n | none => .finish) else .item c
  | c => c

/-- The store in the course of a change: the state, each key that stands retired with its predecessor just before its own
retirement, in the order of the retirements (R173), and the events removed. -/
structure Applying where
  state : State
  retired : List (Nat × Option Nat)
  removed : List EventRef

/-- The events a change takes out of the store. -/
def removedBy (items : List Item) : StoreChange → List EventRef
  | .removeEvent owner number => [⟨owner.toNat, (eventNumberOf number).getD 0⟩]
  | .retireItem key => match findItem items key.toNat with | some i => i.refs | none => []
  | _ => []

/-- The retired keys after one change of the store of `items`: a retirement enters its key, an insertion takes its key out, since
the comparison of before and after shows no retirement of it (R173, log entry 7). -/
def retiredAfter (items : List Item) (c : StoreChange) (retired : List (Nat × Option Nat)) : List (Nat × Option Nat) :=
  match c with
  | .retireItem key => retired.filter (fun x => x.1 != key.toNat) ++ [(key.toNat, predecessor key.toNat items)]
  | .insertItem b => retired.filter fun x => x.1 != b.key.toNat
  | _ => retired

/-- The nearest key at or before `k` that the change has not retired: a retired key leads to its predecessor (R59, R173). -/
def standingAt (retired : List (Nat × Option Nat)) (k : Option Nat) : Option Nat :=
  retired.foldl (fun at_ x => if at_ = some x.1 then x.2 else at_) k

/-- One change of the list applied to the live store (R172): outlet steps of removed events, the items, the cursor, and the
retired keys. A change its rule refuses alters nothing. -/
def Applying.step (a : Applying) (c : StoreChange) : Applying :=
  let items := a.state.items
  match applyChange a.state.day c items with
  | .error _ => a
  | .ok _ =>
    let gone := removedBy items c
    let s1 := gone.foldl State.eraseEvent a.state
    let s2 := s1.withItems (match applyChange s1.day c s1.items with | .ok after => after | .error _ => s1.items)
    match c with
    | .retireItem key =>
      ⟨{ s2 with cursor := cursorAfterRetire key.toNat items s2.cursor }, retiredAfter items c a.retired, a.removed ++ gone⟩
    | _ => ⟨s2, retiredAfter items c a.retired, a.removed ++ gone⟩

/-! ## The change report -/

/-- The written fields of an event (R7). -/
def Event.written (e : Event) : Fin 8 × EventAction × EventAnchor × Nat × Half × Bool × Bool :=
  (e.outlet, e.action, e.anchor, e.offset, e.payload, e.clearAtEnd, e.required)

/-- What a report says of an event present after the change (R173). -/
inductive Touch where
  | added | modified | untouched
  deriving DecidableEq, Repr

/-- An event absent before, or removed and added again, is added; one with a written field changed is modified (R173). -/
def State.touch (before : State) (removed : List EventRef) (s : State) (r : EventRef) : Touch :=
  match before.event r, s.event r with
  | some e0, some e => if removed.contains r then .added else if e0.written = e.written then .untouched else .modified
  | none, some _ => .added
  | _, none => .untouched

/-- Vectors that name a retired item are cleared (R14, R71). -/
def State.dropVectors (before : State) (s : State) : State :=
  let gone := fun k : Nat => (before.item k).isSome && (s.item k).isNone
  s.onCtl fun c =>
    { c with
      leadLostKey := c.leadLostKey.filter fun k => !gone k
      underrunKey := c.underrunKey.filter fun k => !gone k }

/-- A retired anchor moves to its predecessor (R59, R173). -/
def State.moveAnchor (retired : List (Nat × Option Nat)) (s : State) : State :=
  s.onCtl fun c => { c with anchor := standingAt retired c.anchor }

/-- A field of the on-air item differs across the change. -/
def onAirDiffers {α : Type} [DecidableEq α] (f : Item → α) (before s : State) : Bool :=
  match s.ctl.onAir with
  | some k => decide ((before.item k).map f ≠ (s.item k).map f)
  | none => false

/-- The on-air item's lead differs from its value before the change (R68, R173). -/
def leadDiffers (before s : State) : Bool := onAirDiffers Item.lead before s

/-- The lead record set again for the on-air item's new lead, the watch closed and, for RUNNING, opened on it (R68, R134). That the
lead end frame becomes absent where the phase is not ENDED is the model's choice (log entry 28). -/
def State.resetLead (s : State) : State :=
  let s0 : State := { s with watch := none }
  match s.onAirItem with
  | none => s0
  | some i =>
    match i.lead with
    | none => s0.onCtl fun c => { c with phase := .none, leadEnd := none }
    | some n =>
      let r : EventRef := ⟨i.key, n⟩
      match i.event n with
      | none => s0
      | some e =>
        match e.state with
        | .skipped => (s0.onCtl fun c => { c with leadEnd := none }).leadLost
        | .missed => (s0.onCtl fun c => { c with leadEnd := none }).leadLost
        | .fired =>
          let x := s0.outlet e.outlet
          if x.playing = some r ∧ x.tally = true then
            ({ s0 with watch := some ⟨e.outlet, r, .running, 0⟩ } : State).onCtl fun c => { c with phase := .running, leadEnd := none }
          else s0.onCtl fun c => { c with phase := .ended, leadEnd := some s.house }
        | _ => s0.onCtl fun c => { c with phase := .waiting, leadEnd := none }

/-- The references of every event of the store. -/
def State.allRefs (s : State) : List EventRef := s.items.flatMap Item.refs

/-- The event was modified to another outlet (R108). -/
def movedOutlet (before : State) (removed : List EventRef) (s : State) (r : EventRef) : Bool :=
  State.touch before removed s r == .modified &&
    decide ((before.event r).map Event.outlet ≠ (s.event r).map Event.outlet)

/-- A moved event's cue or waiting entry is released on the outlet the event has left (R108, R113); that outlet, freed by it,
cues the head of its list (R128). Of several moved events each is released and its outlet served in turn, which is the model's choice
(log entry 30). -/
def State.releaseMoved (before s : State) (r : EventRef) : State :=
  match before.event r with
  | none => s
  | some e => (s.firingAction r.owner fun s => s.withdrawAt r e.outlet).serveHead none e.outlet

/-- What the Firing Unit does with one event of the on-air item on a change report (R106, R107). -/
def State.reviewEvent (before : State) (removed : List EventRef) (effChanged : Bool) (k : Nat) (s : State) (r : EventRef) : State :=
  match State.touch before removed s r with
  | .added => s.rearm k r
  | .modified => s.rearmModified k r
  | .untouched =>
    match s.event r with
    | some e =>
      if effChanged && e.anchor == .finish && (e.state == .pending || e.state == .armed) then s.rearm k r else s
    | none => s

/-- Re-arming of the on-air item's events by one change report, as one action (R106, R107, R119), in ascending event number: an
order of the model's choice (log entry 29). -/
def State.reviewOnAir (before : State) (removed : List EventRef) (s : State) : State :=
  match s.ctl.onAir with
  | none => s
  | some k =>
    let eff := onAirDiffers Item.effective before s
    s.firingAction k fun s => (s.refsOf k).foldl (State.reviewEvent before removed eff k) s

/-- The written fields that the standby test reads (R108, R111). -/
def Event.standbyFields (e : Event) : Fin 8 × EventAction × EventAnchor × Nat := (e.outlet, e.action, e.anchor, e.offset)

/-- The change calls for the standby test of an event of the NEXT item: the event was added, or its outlet, action, anchor or
offset modified. An edit of payload, clear at end or required alone does not (R108, R111). -/
def standbyTouched (before : State) (removed : List EventRef) (s : State) (r : EventRef) : Bool :=
  match State.touch before removed s r with
  | .added => true
  | .modified => decide ((before.event r).map Event.standbyFields ≠ (s.event r).map Event.standbyFields)
  | .untouched => false

/-- One event of the NEXT item is judged again by the standby test where the change calls for it (R108, R111). -/
def State.reviewStandby (before : State) (removed : List EventRef) (s : State) (r : EventRef) : State :=
  match s.event r with
  | some e =>
    if standbyTouched before removed s r then if s.standbyTest e then s.requestStandby r else s.releaseAction r else s
  | none => s

/-- The events of the NEXT item are judged again (R108), in ascending event number, which is the model's choice where several fail the
standby test (log entry 30). -/
def State.reviewNext (before : State) (removed : List EventRef) (s : State) : State :=
  match s.ctl.next with
  | none => s
  | some k => (s.refsOf k).foldl (State.reviewStandby before removed) s

/-- The Show Controller judges what the change itself, `applied`, did to the on-air item: OVER on a change of E (R70), and the end
condition, once, where lead, E or end action changed, held was released or degraded was set (R67). What a lead report or a
degradation within the report brings about is judged there (log entry 27). -/
def State.reviewEnd (before applied s : State) : State :=
  let heldOff := onAirDiffers Item.held before applied && match applied.onAirItem with | some i => !i.held | none => false
  let eff := onAirDiffers Item.effective before applied
  let s1 := if eff then s.judgeOverChange else s
  if eff || leadDiffers before applied || onAirDiffers Item.endAction before applied || heldOff
      || onAirDiffers Item.degraded before applied then s1.judgeEnd
  else s1

/-- The change report of an applied change `s` (R14, R173): outlets freed within the change serve their lists, the Show Controller
settles vectors, anchor, lead and NEXT, the Firing Unit releases, re-arms and judges standby cues, the end condition is
judged, and the sheet is formed once. The moved events release in running order, then event number (log entry 30). -/
def State.changeReport (before : State) (retired : List (Nat × Option Nat)) (removed : List EventRef) (s : State) : State :=
  let s1 := (State.dropVectors before s.serveAll).moveAnchor retired
  let s2 := if leadDiffers before s1 then s1.resetLead else s1
  let s3 := s2.deriveNext none
  let s4 := ((s3.allRefs).filter (movedOutlet before removed s3)).foldl (State.releaseMoved before) s3
  let s5 := State.reviewEnd before s (State.reviewNext before removed (State.reviewOnAir before removed s4))
  s5.formSheetNow

/-- A list of changes, each of which passes, applied as one indivisible change with one change report (R14, R172). -/
def State.applyChanges (cs : List StoreChange) (s : State) : State :=
  let a := cs.foldl Applying.step ⟨s, [], []⟩
  State.changeReport s a.retired a.removed a.state

/-- CLEAR_RUNDOWN's effect in CLOSED: the store is emptied, playing references lost, both vectors and the show end time
cleared (R27). -/
def State.clearStore (s : State) : State :=
  let s1 : State := { s with outlets := s.outlets.map fun x => (s.allRefs).foldl (fun x r => Outlet.forget r x) x }
  (({ s1 with items := [], cursor := .top } : State).onCtl fun c =>
    { c with leadLostKey := none, underrunKey := none, showEnd := none }).formSheetNow

end Sys2Proof.Machine
end

