-- ==== Sys2Proof/Machine/Panel.lean ====
section
/-! DEFINITION. The Panel Interface (chapter 08): presses, traps, lapses and the four actions. -/
namespace Sys2Proof.Machine

/-- The panel TAKE action (R161, R60, R65). -/
def State.panelTake (s : State) : State :=
  if s.ctl.state = .closed then s.noteDropped else s.requestTake .manual

/-- The panel SKIP action: NEXT's item is floated in the live store as MARK_ITEM would, with a PANEL notice (R161). -/
def State.panelSkip (s : State) : State :=
  match s.ctl.next with
  | some k =>
    if s.ctl.state = .armed ∨ s.ctl.state = .live then
      (s.applyChanges [.markItem (BitVec.ofNat 16 k) 0x01 0x01]).raise classPanel
    else s
  | none => s

/-- One outlet of the panel CLEAR_GFX action (R162). -/
def State.clearGfxOn (s : State) (o : Fin 8) : State :=
  let x := s.outlet o
  if x.kind = .graphics ∧ x.enabled = true ∧ x.playing.isSome = true then s.queueFrame o clearFrame else s

/-- The action of a panel input handed to its receiver (R161, R162). -/
def State.panelAction (n : Fin 4) (s : State) : State :=
  match n with
  | 0 => s.panelTake
  | 1 => s.toggleHeld
  | 2 => s.panelSkip
  | 3 => outletNumbers.foldl State.clearGfxOn s

/-- The next trap number, wrapping from 255 to 1 (R163). -/
def nextTrapNumber (n : Nat) : Nat := if n < 255 then n + 1 else 1

/-- A press is settled by its input's mode (R160, R163). -/
def State.settlePress (n : Fin 4) (s : State) : State :=
  let x := s.panel.get n
  match x.mode with
  | .act => s.panelAction n
  | .off => s.countIgnored
  | .trap =>
    if x.trap.isSome then s.countIgnored
    else
      (s.onInput n fun x =>
        { x with trap := some ⟨x.nextTrap, s.house, 0⟩, nextTrap := nextTrapNumber x.nextTrap }).raise classPanel

/-- A watching input takes its line's level: a rise over an accepted low is a press, a fall under an accepted high is not
(R159). -/
def State.takeLevel (n : Fin 4) (s : State) : State :=
  let x := s.panel.get n
  if x.line = x.accepted then s
  else
    let s1 := s.onInput n fun x => { x with accepted := x.line, quiet := 3 }
    if x.line then s1.settlePress n else s1

/-- The lowering of an input's quiet at a boundary, and what its expiry finds (R159). -/
def State.quietCount (n : Fin 4) (s : State) : State :=
  let q := (s.panel.get n).quiet
  if q = 0 then s
  else
    let s1 := s.onInput n fun x => { x with quiet := q - 1 }
    if q = 1 then s1.takeLevel n else s1

/-- The slot empties without a verdict (R165, R166). -/
def State.endTrap (n : Fin 4) (t : Trap) (cause : EndedCause) (s : State) : State :=
  (s.onInput n fun x => { x with trap := none, ended := some (t.num, cause) }).raise classPanel

/-- A trapped press lapses, by the lapse field as it stands (R165). -/
def State.lapsePress (n : Fin 4) (t : Trap) (s : State) : State :=
  match (s.panel.get n).lapse with
  | .act => (s.endTrap n t .lapsedAct).panelAction n
  | .drop => s.endTrap n t .lapsedDrop

/-- The raising of a trap slot's count at a boundary, and the lapse when it would reach 12 (R165). -/
def State.trapCount (n : Fin 4) (s : State) : State :=
  match (s.panel.get n).trap with
  | none => s
  | some t =>
    if t.waited + 1 < 12 then s.onInput n fun x => { x with trap := some { t with waited := t.waited + 1 } }
    else s.lapsePress n t

end Sys2Proof.Machine
end

