-- ==== Sys2Proof/Machine/Boundary.lean ====
section
/-! DEFINITION. What the blocks do at a frame boundary (R44): the boundary's parts, their order, the Timebase's advance. -/
namespace Sys2Proof.Machine

/-! ## The parts of a boundary -/

/-- The expiry of the lead start timeout (R135). -/
def State.expireLead (s : State) : State :=
  match s.watch with
  | some w => if w.stage ≠ .running ∧ w.left = 0 then ({ s with watch := none } : State).leadReport .startTimeout else s
  | none => s

/-- The reset hold can end: the reset CLEAR has been sent and READY is high (R138). -/
def Outlet.holdOver (x : Outlet) : Bool := x.resetHold && x.queue.isEmpty && x.ready

/-- The end of an outlet's reset hold; the head of its list is then cued (R138). -/
def State.endHold (o : Fin 8) (s : State) : State :=
  if (s.outlet o).holdOver then (s.onOutlet o fun x => { x with resetHold := false }).serveHead none o else s

/-- What a part does when its block takes it over a sheet of remaining time `left`, with the change report of the Firing Unit's and
the Show Controller's own actions (R169). -/
def State.partEffect (left : Option Int) (p : BoundaryPart) (s : State) : State :=
  match p with
  | .sheet => s.formSheet
  | .wheelSlot => State.reportOwn State.formSheet s s.slotFire
  | .horizon => State.reportOwn State.formSheet s s.horizonArm
  | .leadTimeout => State.reportOwn State.formSheet s s.expireLead
  | .resetHold o => s.endHold o
  | .overReached => s.judgeOver
  | .hail q => s.hailCount left q
  | .lampStep q => s.lampAdvance q
  | .quiet n => s.quietCount n
  | .trapWait n => s.trapCount n

/-- The part reaches an event that the table gives a row of its own: something fires, arms, expires, steps or lapses. A part
that does not is a count, taken within the boundary (log entry 1). -/
def State.partExpires (s : State) (p : BoundaryPart) : Bool :=
  match p with
  | .sheet => false
  | .wheelSlot => s.ctl.onAir.isSome && !s.dueEntries.isEmpty
  | .horizon => !s.nearPlans.isEmpty
  | .leadTimeout => match s.watch with | some w => w.stage != .running && w.left == 0 | none => false
  | .resetHold o => (s.outlet o).holdOver
  | .overReached => s.overNow && !s.ctl.overReached
  | .hail q => (s.cue.presenters.get q).hail == 1
  | .lampStep q =>
    (s.cue.presenters.get q).restartMark != some s.house && decide (s.stepLength q ≤ (s.cue.presenters.get q).frames + 1)
  | .quiet n => (s.panel.get n).quiet == 1
  | .trapWait n => match (s.panel.get n).trap with | some t => decide (12 ≤ t.waited + 1) | none => false

/-- A part still owed is taken, once, over a sheet of remaining time `left`. -/
def State.takePartFrom (left : Option Int) (p : BoundaryPart) (s : State) : State :=
  if s.owed.contains p then ({ s with owed := s.owed.erase p } : State).partEffect left p else s

/-- A part still owed is taken, once, over the present sheet. -/
def State.takePart (p : BoundaryPart) (s : State) : State := s.takePartFrom s.remaining p

/-- Every part of a boundary, in the model's settling order (log entry 1). -/
def allParts : List BoundaryPart :=
  [.sheet, .wheelSlot, .horizon, .leadTimeout] ++ outletNumbers.map .resetHold ++ [.overReached] ++ fours.map .hail
    ++ fours.map .lampStep ++ fours.map .quiet ++ fours.map .trapWait

/-- The boundary work still owed is taken. -/
def State.settle (s : State) : State := (s.owed.foldl (fun s p => s.takePart p) s).displayStart

/-- The parts a boundary opens: all but the ends of reset holds whose CLEAR had not been sent before it (R138). -/
def State.openParts (s : State) : List BoundaryPart :=
  allParts.filter fun p => match p with | .resetHold o => (s.outlet o).resetHold && (s.outlet o).queue.isEmpty | _ => true

/-- The remaining time of the sheet as it stands within a boundary that opened on `old`: the previous sheet's until one has been
formed (R144). -/
def State.sheetRemaining (old s : State) : Option Int := if s.sheetCount = old.sheetCount then old.remaining else s.remaining

/-- One part taken before the Show Controller's judging, and the free display line started (R155); OVER is the Show Controller's
own and follows the judging (R70). -/
def State.takeEarlyPart (old s : State) (p : BoundaryPart) : State :=
  if p = .overReached then s else (s.takePartFrom (State.sheetRemaining old s) p).displayStart

/-- The parts taken before the Show Controller's judging in a boundary that opened on `old`. -/
def State.takeEarly (old : State) (early : List BoundaryPart) (s : State) : State := early.foldl (State.takeEarlyPart old) s

/-- The counts are taken within the boundary; the parts that reach an event stay owed to their rows. -/
def State.takeCounts (s : State) : State := s.owed.foldl (fun s p => if s.partExpires p then s else s.takePart p) s

/-! ## The Timebase at a boundary -/

/-- The Timebase's own work at a boundary made at instant `at_` (R34, R43, R44, R46): a pending standard and load are
applied, or house time advances; in FREE_RUN a pulse is driven out. -/
def Timebase.boundary (at_ : Nat) (t : Timebase) : Timebase :=
  let t1 : Timebase := { t with
    now := at_
    lastBoundary := at_
    pulseOut := t.ref == .freeRun
    houseTime := t.load.getD (nextHouse t.standard.day t.houseTime)
    load := none }
  match t.pendingStandard with
  | some st =>
    let t2 : Timebase := { t1 with standard := st, pendingStandard := none, measured := st.nominal }
    if t.ref = .freeRun then { t2 with runPeriod := freePeriod st t.trim }
    else { t2 with ref := .acquiring, acqCount := 0, acqPulse := none, runPeriod := st.nominal }
  | none => if t.ref = .freeRun then { t1 with runPeriod := freePeriod t.standard t.trim } else t1

/-- The lead start timeout's count falls at each boundary (R135). -/
def LeadWatch.count (w : LeadWatch) : LeadWatch := { w with left := w.left - 1 }

/-- The boundary begins: house time, the pending lamp patterns (R145), the timeout's count, and the parts owed. -/
def State.openBoundary (at_ : Nat) (s : State) : State :=
  let s1 := (s.onTb (Timebase.boundary at_)).onCue CueUnit.applyPatterns
  { s1 with
    watch := s1.watch.map LeadWatch.count
    owed := s1.openParts
    fuCounted := none }

/-- The Show Controller's work at a boundary: the take-pending record, then the end condition (R64, R67); a take forms the
sheet once (R79). -/
def State.showBoundary (s : State) : State :=
  let j := s.judgeTakes
  (if j.taken then j.state.formSheet else j.state).judgeEnd

/-- A frame boundary made at instant `at_`, the parts of `early` taken before the judging (R44). -/
def State.boundary (at_ : Nat) (early : List BoundaryPart) (s : State) : State :=
  (((State.takeEarly s early (s.openBoundary at_)).showBoundary).takeCounts.fillTod).displayStart

end Sys2Proof.Machine
end

