-- ==== Sys2Proof/Machine/Blocks.lean ====
section
/-! DEFINITION. The codes of 11.1 as the part reports them, and the response blocks of 11.2 (R193). A byte of an absent record
for which R193 names no code is a free byte (log entry 5): `k` numbers the answer, `j` the byte in its body. -/
namespace Sys2Proof.Machine

/-! ## Fields -/

/-- A one-byte count or code. -/
def u8 (n : Nat) : List Byte := [BitVec.ofNat 8 n]
/-- A two-byte field, most significant byte first. -/
def u16 (n : Nat) : List Byte := [BitVec.ofNat 8 (n / 256), BitVec.ofNat 8 n]
/-- A three-byte field, most significant byte first. -/
def u24 (n : Nat) : List Byte := [BitVec.ofNat 8 (n / 65536), BitVec.ofNat 8 (n / 256), BitVec.ofNat 8 n]
/-- A yes/no byte. -/
def flagByte (b : Bool) : List Byte := [if b then 1 else 0]
/-- A set byte from its bits, bit 0 first. -/
def bitsByte (bs : List Bool) : List Byte := u8 (bs.foldr (fun b n => 2 * n + (if b then 1 else 0)) 0)
/-- An item key, 0 when absent. -/
def keyField (k : Option Nat) : List Byte := u16 (k.getD 0)
/-- An event number, 0xFF when absent. -/
def numField (n : Option (Fin 16)) : List Byte := u8 ((n.map (·.val)).getD 0xFF)
/-- An unsigned frame count or house time, 0xFFFFFF when absent. -/
def frameField (n : Option Nat) : List Byte := u24 (n.getD 0xFFFFFF)
/-- A signed offset in two's complement. -/
def s24 (x : Int) : List Byte := u24 (BitVec.ofInt 24 x).toNat
/-- A reported offset: clamped (R90), −8,388,608 when absent. -/
def offsetField (x : Option Int) : List Byte :=
  match x with
  | some v => s24 (clampOffset v)
  | none => s24 (-8388608)
/-- The SATURATED flag of an optional offset (R90). -/
def saturatedOpt (x : Option Int) : Bool := match x with | some v => saturated v | none => false
/-- Timecode, four bytes. -/
def timecodeField (c : Timecode) : List Byte := u8 c.h ++ u8 c.m ++ u8 c.s ++ u8 c.f
/-- A one-byte signed value. -/
def s8 (x : Int) : List Byte := [BitVec.ofInt 8 x]
/-- `n` free bytes of answer `k`, from byte `j` of its body on. -/
def freeBytes (k j n : Nat) : List Byte := (List.range n).map fun x => Config.freeByte k (j + x)

/-! ## Codes (11.1) -/

def ResultCode.byte : ResultCode → Byte
  | .ok => 0x00
  | .badRequest => 0x01
  | .badField => 0x02
  | .noSuchItem => 0x03
  | .noSuchEvent => 0x04
  | .duplicateKey => 0x05
  | .duplicateEvent => 0x06
  | .tableFull => 0x07
  | .poolFull => 0x08
  | .listFull => 0x09
  | .onAir => 0x0A
  | .showState => 0x0B
  | .noNext => 0x0C
  | .notDone => 0x0D
  | .batchOpen => 0x0E
  | .noBatch => 0x0F
  | .batchFull => 0x10
  | .batchFailed => 0x11
  | .nothingTrapped => 0x12
  | .tooLate => 0x13

def PortState.byte : PortState → Byte
  | .idle => 0x20
  | .working _ => 0x21
  | .ready _ => 0x22

def EndAction.code : EndAction → Nat
  | .manual => 0
  | .auto => 1

def Airing.code : Airing → Nat
  | .pending => 0
  | .onAir _ => 1
  | .done _ _ _ => 2

def EndReason.code : EndReason → Nat
  | .take => 1
  | .auto => 2
  | .autoEarly => 3
  | .covered => 4
  | .closed => 5
  | .aborted => 6

/-- An end reason, 0 when absent. -/
def reasonField (r : Option EndReason) : List Byte := u8 ((r.map EndReason.code).getD 0)

def EventAction.code : EventAction → Nat
  | .showFrame => 0
  | .clearFrame => 1

def EventAnchor.code : EventAnchor → Nat
  | .start => 0
  | .finish => 1

def EventState.code : EventState → Nat
  | .idle => 0
  | .pending => 1
  | .armed => 2
  | .fired => 3
  | .skipped => 4
  | .missed => 5

def OutletKind.code : OutletKind → Nat
  | .clip => 0
  | .graphics => 1

def LinkRate.code : LinkRate → Nat
  | .b9600 => 0
  | .b38400 => 1
  | .b115200 => 2

def OutletState.code : OutletState → Nat
  | .disabled => 0
  | .offline => 1
  | .idle => 2
  | .cued => 3
  | .playing => 4

def ShowState.code : ShowState → Nat
  | .closed => 0
  | .armed => 1
  | .live => 2
  | .last => 3

def Standard.code : Standard → Nat
  | .s25 => 0
  | .s30 => 1
  | .s30D => 2

def RefState.code : RefState → Nat
  | .freeRun => 0
  | .acquiring => 1
  | .locked => 2
  | .holdover => 3

def Lamp.code : Lamp → Nat
  | .dark => 0
  | .standby => 1
  | .on => 2
  | .wrap => 3
  | .over => 4
  | .hailed => 5

def PanelMode.code : PanelMode → Nat
  | .act => 0
  | .off => 1
  | .trap => 2

def LapseMode.code : LapseMode → Nat
  | .act => 0
  | .drop => 1

def EndedCause.code : EndedCause → Nat
  | .withdrawn => 1
  | .lapsedAct => 2
  | .lapsedDrop => 3

def TakeKind.code : TakeKind → Nat
  | .manual => 1
  | .automatic => 2

def FaultVector.code : FaultVector → Nat
  | .leadLost => 1
  | .underrun => 2

def LeadPhase.code : LeadPhase → Nat
  | .none => 0
  | .waiting => 1
  | .shown => 2
  | .running => 3
  | .ended => 4
  | .lost => 5

def TakeOutcome.code : TakeOutcome → Nat
  | .taken => 1
  | .cover => 2
  | .closed => 3
  | .dropped => 4

def Disposition.code : Disposition → Nat
  | .requested => 1
  | .coalesced => 2
  | .noCover => 3

def Command.code : Command → Nat
  | .cue => 1
  | .showFrame => 2
  | .clear => 3
  | .uncue => 4

def WatchStage.code : WatchStage → Nat
  | .queued => 1
  | .sent => 2
  | .running => 3

def DisplayMode.code : DisplayMode → Nat
  | .blank => 0
  | .countdown => 1
  | .overrun => 2
  | .nextIn => 3
  | .hail => 4
  | .showOver => 5
  | .showUnder => 6
  | .tod => 7

/-! ## Item and event blocks -/

/-- The item block, 48 bytes, its position taken from the list it stands in. -/
def itemBlock (items : List Item) (i : Item) : List Byte :=
  u16 i.key ++ u16 (positionIn items i.key) ++ u8 i.slug.length ++ (i.slug ++ List.replicate (16 - i.slug.length) (0 : Byte))
    ++ u24 i.p ++ frameField i.l ++ u24 i.effective ++ numField i.lead ++ u8 i.endAction.code ++ frameField i.hard
    ++ u8 i.presenters.toNat ++ bitsByte [i.floated, i.held, i.degraded] ++ u8 i.airing.code ++ frameField i.takeFrame
    ++ frameField (match i.airing with | .done _ a _ => some a | _ => none)
    ++ reasonField (match i.airing with | .done _ _ r => some r | _ => none)
    ++ u8 i.airCount ++ u16 i.revision

/-- The event block, 16 bytes. -/
def eventBlock (owner : Nat) (e : Event) : List Byte :=
  u16 owner ++ u8 e.num.val ++ u8 e.outlet.val ++ u8 e.action.code ++ u8 e.anchor.code ++ u16 e.offset
    ++ u16 e.payload.toNat ++ bitsByte [e.clearAtEnd, e.required, e.cued] ++ u8 e.state.code ++ frameField e.due
    ++ u8 e.lateness

/-- An item's block in a list, nothing where the key names none. -/
def itemBlockOf (items : List Item) (k : Nat) : List Byte :=
  match findItem items k with
  | some i => itemBlock items i
  | none => []

/-- An event's block in a list. -/
def eventBlockOf (items : List Item) (k : Nat) (n : Fin 16) : List Byte :=
  match (findItem items k).bind fun i => i.event n with
  | some e => eventBlock k e
  | none => []

/-- The event list answer of GET_EVENTS (R17). -/
def eventsBody (i : Item) : List Byte :=
  u16 i.key ++ u16 i.revision ++ u8 i.events.length ++ i.events.flatMap (eventBlock i.key)

/-! ## The show block and the sheet -/

/-- The on-air flags; of no item on air the flags named are free bits, the unnamed bits 0 (R193, log entry 5). -/
def State.airFlags (s : State) : List Byte :=
  match s.onAirItem with
  | some i => bitsByte [i.held, i.degraded]
  | none => [Config.freeByte s.freeIndex 6 &&& 0x03]

/-- The show block, 29 bytes (R77). -/
def State.showBlock (s : State) : List Byte :=
  let c := s.ctl
  u8 c.state.code ++ keyField c.onAir ++ frameField (s.onAirItem.bind Item.takeFrame) ++ s.airFlags
    ++ keyField c.next ++ flagByte c.pinned ++ keyField c.anchor ++ u8 ((c.ordinary.map TakeKind.code).getD 0)
    ++ u8 ((c.cover.map fun p => p.vector.code).getD 0) ++ keyField (c.cover.map CoverPart.key)
    ++ u8 c.phase.code ++ frameField c.leadEnd ++ bitsByte [c.takenByVector, c.underrunRaised, c.overReached]
    ++ keyField c.leadLostKey ++ keyField c.underrunKey ++ frameField c.showEnd ++ u8 c.wrap

/-- The headline's source as reported. -/
def HeadSource.field : HeadSource → List Byte
  | .none => u16 0
  | .mark k => u16 k
  | .showEnd => u16 0xFFFF

/-- The show end entry's status: absent, present or out of day (R83, R87). -/
def State.endStatus (s : State) : Nat :=
  if s.ctl.state = .closed ∨ s.ctl.showEnd.isNone = true then 0 else if s.endOffset.isSome = true then 1 else 2

/-- Entries of one page: list positions 12p + 1 to 12p + 12 (R95). -/
def State.sheetPage (s : State) (page : Nat) : List (Nat × SheetEntry) :=
  ((((List.range s.sheetEntries.length).zip s.sheetEntries).drop (12 * page)).take 12)

/-- The sheet header, 38 bytes (R95). -/
def State.sheetHeader (s : State) (page : Nat) : List Byte :=
  let head := s.headline
  let list := s.timingList
  u16 s.sheetCount ++ u24 s.house ++ timecodeField (timecode s.tb.standard s.house) ++ u8 s.ctl.state.code
    ++ keyField s.ctl.onAir ++ frameField (if s.ctl.state = .closed ∨ s.ctl.state = .armed then none else s.elapsed)
    ++ offsetField s.remaining ++ u16 list.length ++ u8 page ++ offsetField head.1 ++ head.2.field
    ++ flagByte (saturatedOpt head.1) ++ u8 s.endStatus ++ offsetField s.endOffset ++ offsetField s.endOverUnder
    ++ keyField (if s.endOffset.isSome = true then list.getLast?.map Item.key else none)
    ++ bitsByte [false, saturatedOpt s.endOverUnder] ++ u8 (s.sheetPage page).length

/-- A sheet entry, 25 bytes (R95, R193). R82 says that GET_SHEET gives the estimated start with its timecode, and R193's 25 bytes
have room for the frame count alone: the bytes are R193's, and the timecode stands in the answer beside them (State.sheetStarts;
DESIGN CHOICE, log entry 25). -/
def State.entryBlock (s : State) (x : Nat × SheetEntry) : List Byte :=
  let e := x.2
  u16 (x.1 + 1) ++ u16 e.key ++ u16 (positionIn s.items e.key) ++ u24 e.effective ++ offsetField (some e.front)
    ++ u24 (s.estimatedStart e) ++ offsetField e.back ++ offsetField e.mark ++ offsetField e.overUnder
    ++ bitsByte [e.mark.isSome, e.outOfDay, saturated e.front, saturatedOpt e.back, saturatedOpt e.overUnder]

/-- A GET_SHEET answer (R95). -/
def State.sheetBody (s : State) (page : Nat) : List Byte :=
  s.sheetHeader page ++ (s.sheetPage page).flatMap s.entryBlock

/-- The timecodes of the estimated starts of one page, in the order of its entries (R82). -/
def State.sheetStarts (s : State) (page : Nat) : List Timecode := (s.sheetPage page).map fun x => s.startTimecode x.2

/-! ## The outlet block -/

/-- A waiting entry, or the absent codes beyond the waiting count. -/
def waitingField (w : Option Waiting) : List Byte :=
  keyField (w.map fun w => w.ref.owner) ++ numField (w.map fun w => w.ref.num) ++ frameField (w.map Waiting.key)

/-- The four waiting entries of the outlet block, head first. -/
def waitingFields (ws : List Waiting) : List Byte :=
  waitingField ws[0]? ++ waitingField ws[1]? ++ waitingField ws[2]? ++ waitingField ws[3]?

/-- The watch, where it is open on this outlet. -/
def State.watchHere (s : State) (o : Fin 8) : Option LeadWatch := s.watch.filter fun w => w.outlet == o

/-- The outlet block, 47 bytes (R140). -/
def State.outletBlock (s : State) (o : Fin 8) : List Byte :=
  let x := s.outlet o
  let ws := headFirst s.items x.waiting.length x.waiting
  u8 o.val ++ u8 x.kind.code ++ flagByte x.enabled ++ u8 x.preRoll ++ u8 x.rate.code
    ++ bitsByte [x.ready, x.tally, x.resetHold, (s.watchHere o).isSome] ++ u8 x.state.code
    ++ u8 (((s.watchHere o).map fun w => w.stage.code).getD 0)
    ++ keyField (x.cued.map fun c => c.ref.owner) ++ numField (x.cued.map fun c => c.ref.num) ++ frameField (x.cued.map CuedRef.key)
    ++ keyField (x.playing.map EventRef.owner) ++ numField (x.playing.map EventRef.num) ++ u8 x.queue.length
    ++ u8 (if x.sending.isSome then (x.queue.head?.map fun f => f.command.code).getD 0 else 0) ++ u8 ws.length
    ++ waitingFields ws ++ [x.latchByte] ++ u16 x.fireCount

/-! ## The presenter, timebase, input and notice blocks -/

/-- A mode and value of a display, 5 bytes; free bytes where absent. -/
def shownField (k j : Nat) (v : Option Shown) : List Byte :=
  match v with
  | some d => u8 d.mode.code ++ u8 d.h ++ u8 d.m ++ u8 d.s ++ u8 d.f
  | none => freeBytes k j 5

/-- The presenter block, 36 bytes (R156). 11.2 gives the lamp level a byte and no code: low (dark) is 0 and high (lit) is 1 (DESIGN
CHOICE, log entry 18). -/
def State.presenterBlock (s : State) (p : Fin 4) : List Byte :=
  let x := s.cue.presenters.get p
  let pat := s.cue.patterns.get x.lamp.index
  let wait := s.cue.pendingPatterns.get x.lamp.index
  let slot := s.cue.slots.get (addressOf p)
  u8 p.val ++ u8 x.lamp.code ++ u16 pat.bits.toNat ++ u8 pat.length ++ flagByte wait.isSome
    ++ (match wait with | some w => u16 w.bits.toNat ++ u8 w.length | none => freeBytes s.freeIndex 6 3)
    ++ u8 x.step.val ++ u8 x.frames ++ frameField x.restartMark ++ flagByte (s.lampLine p) ++ u16 x.hail
    ++ shownField s.freeIndex 0 (some x.shown)
    ++ flagByte x.lastSent.isSome ++ shownField s.freeIndex 23 x.lastSent
    ++ flagByte slot.isSome ++ shownField s.freeIndex 29 slot
    ++ bitsByte (s.cue.slots.data.map Option.isSome)
    ++ u8 ((s.cue.sending.map fun x => x.1.val).getD 0xFF)

/-- The timebase block, 22 bytes (R49). -/
def State.timebaseBlock (s : State) : List Byte :=
  let t := s.tb
  u8 t.ref.code ++ u8 (if s.syncIsOutput then 0 else 1) ++ u8 t.standard.code
    ++ u8 ((t.pendingStandard.map Standard.code).getD 0xFF) ++ u24 t.houseTime
    ++ timecodeField (timecode t.standard t.houseTime) ++ flagByte t.load.isSome ++ frameField t.load ++ s8 t.trim
    ++ u24 t.measured ++ u8 t.acqCount ++ u16 t.glitches

/-- A trap's number, press frame and boundaries waited, 5 bytes; `j` is the byte of the count. -/
def trapField (k j : Nat) (t : Option Trap) : List Byte :=
  match t with
  | some t => u8 t.num ++ u24 t.frame ++ u8 t.waited
  | none => u8 0 ++ u24 0xFFFFFF ++ freeBytes k j 1

/-- The last ended number and cause, 2 bytes. -/
def endedField (e : Option (Nat × EndedCause)) : List Byte :=
  match e with
  | some (n, c) => u8 n ++ u8 c.code
  | none => u8 0 ++ u8 0

/-- The input block, 13 bytes (R158), `base` bytes into the body. 11.2 gives the accepted level a byte and no code: low is 0 and
high is 1 (DESIGN CHOICE, log entry 18). -/
def State.inputBlock (s : State) (base : Nat) (n : Fin 4) : List Byte :=
  let x := s.panel.get n
  u8 n.val ++ u8 x.mode.code ++ u8 x.lapse.code ++ flagByte x.accepted ++ u8 x.quiet ++ trapField s.freeIndex (base + 9) x.trap
    ++ u8 x.nextTrap ++ endedField x.ended

/-- The notice block, 68 bytes (R186). -/
def State.noticeBlock (s : State) : List Byte :=
  let n := s.notices
  [n.pending] ++ [n.enables] ++ u8 ((n.lastTake.outcome.map TakeOutcome.code).getD 0) ++ frameField n.lastTake.frame
    ++ u16 n.lastTake.incoming ++ u16 n.lastTake.outgoing ++ reasonField n.lastTake.reason
    ++ (match n.lastVector with
        | some v => u8 v.vector.code ++ u24 v.frame ++ u16 v.onAir ++ u16 v.cover ++ u8 v.disposition.code
        | none => u8 0 ++ u24 0xFFFFFF ++ u16 0 ++ u16 0 ++ u8 0)
    ++ u16 n.late ++ u16 n.skipped ++ u16 n.missed ++ u16 n.coalesced ++ u16 n.panelIgnored ++ u16 s.tb.glitches
    ++ fours.flatMap (fun i => trapField s.freeIndex (36 + 7 * i.val) (s.panel.get i).trap ++ endedField (s.panel.get i).ended)
    ++ outletNumbers.map (fun o => (s.outlet o).latchByte)

/-! ## Response frames -/

/-- The bytes a read returns after the status byte while READY (R179). -/
def responseStream (discard : Bool) (r : Response) : List Byte :=
  flagByte discard ++ [r.code.byte] ++ u16 r.body.length ++ r.body

/-- An answer that may carry free bytes: its occasion is used up. -/
def State.spend (s : State) : State := { s with freeIndex := s.freeIndex + 1 }

end Sys2Proof.Machine
end

