-- ==== Sys2Proof/Machine/StoreRequests.lean ====
section
/-! DEFINITION. The requests of the Rundown Store: look-ups, store changes, the walk cursor and the staging area (chapters 01
and 09). Each `answer…` is what the owner does and answers when it takes the request (R180); each `exec…` is the request's row. -/
namespace Sys2Proof.Machine

/-! ## Look-ups (R16, R17) -/

/-- The answer that carries an item of the live store. -/
def State.itemAnswer (s : State) (i : Item) : Response := okBody (itemBlock s.items i)

def answerGetItem (key : Half) (s : State) : State × Response :=
  if !validKey key then (s, refusal .badField)
  else
    match s.item key.toNat with
    | some i => (s, s.itemAnswer i)
    | none => (s, refusal .noSuchItem)

def answerGetItemAt (position : Half) (s : State) : State × Response :=
  match itemAt s.items position.toNat with
  | some i => (s, s.itemAnswer i)
  | none => (s, refusal .noSuchItem)

def answerGetEvents (key : Half) (s : State) : State × Response :=
  if !validKey key then (s, refusal .badField)
  else
    match s.item key.toNat with
    | some i => (s, okBody (eventsBody i))
    | none => (s, refusal .noSuchItem)

/-! ## The walk cursor (R30, R31) -/

/-- The answer that marks the end of the walk, key 65,535 and no record. -/
def walkEnd : Response := okBody (u16 topKey)

/-- The cursor that follows an item. -/
def cursorPast (items : List Item) (k : Nat) : Cursor :=
  match successor k items with
  | some n => .item n
  | none => .finish

/-- WALK at an item (R30). -/
def State.walkFrom (i : Item) (s : State) : State × Response :=
  ({ s with cursor := cursorPast s.items i.key }, s.itemAnswer i)

/-- WALK (R30). -/
def answerWalk (s : State) : State × Response :=
  match s.cursor with
  | .finish => (s, walkEnd)
  | .top => match s.items with | [] => (s, walkEnd) | i :: _ => s.walkFrom i
  | .item k => match s.item k with | some i => s.walkFrom i | none => (s, walkEnd)

/-- SEEK to an item (R31). -/
def State.seekTo (i : Item) (s : State) : State × Response := ({ s with cursor := .item i.key }, s.itemAnswer i)

/-- SEEK (R31; selector 0 TOP, 1 key, 2 position). -/
def answerSeek (selector : Byte) (value : Half) (s : State) : State × Response :=
  if selector = 0 then ({ s with cursor := .top }, walkEnd)
  else if selector = 1 then
    if !validKey value then (s, refusal .badField)
    else match s.item value.toNat with | some i => s.seekTo i | none => (s, refusal .noSuchItem)
  else if selector = 2 then
    match itemAt s.items value.toNat with | some i => s.seekTo i | none => (s, refusal .noSuchItem)
  else (s, refusal .badField)

/-! ## Store changes (R15, R18 to R26, R169, R170) -/

/-- The block an applied or staged change is answered with: the record after the change, or as it stood before a removal
(R15). -/
def changeBlock (c : StoreChange) (before after : List Item) : List Byte :=
  match c with
  | .insertItem b => itemBlockOf after b.key.toNat
  | .modifyItem b => itemBlockOf after b.key.toNat
  | .moveItem key _ => itemBlockOf after key.toNat
  | .markItem key _ _ => itemBlockOf after key.toNat
  | .addEvent b => eventBlockOf after b.owner.toNat ((eventNumberOf b.number).getD 0)
  | .modifyEvent b => eventBlockOf after b.owner.toNat ((eventNumberOf b.number).getD 0)
  | .removeEvent owner number => eventBlockOf before owner.toNat ((eventNumberOf number).getD 0)
  | .retireItem key => itemBlockOf before key.toNat

/-- A change handed to the open staging area (R170). -/
def State.stageChange (c : StoreChange) (staged : List StoreChange) (s : State) : State × Response :=
  if Config.batchSize ≤ staged.length then (s, refusal .batchFull)
  else
    let view := stagedView s.day s.items staged
    match applyChange s.day c view with
    | .error e => (s, refusal e)
    | .ok after => ({ s with batch := some (staged ++ [c]) }, okBody (u8 staged.length ++ changeBlock c view after))

/-- A change applied to the live store, with its change report (R14, R15). -/
def State.applyNow (c : StoreChange) (s : State) : State × Response :=
  match applyChange s.day c s.items with
  | .error e => (s, refusal e)
  | .ok _ => (s.applyChanges [c], okBody (changeBlock c s.items (s.applyChanges [c]).items))

/-- One of the eight store change requests (R15 step 1, R169). -/
def State.storeRequest (c : StoreChange) (s : State) : State × Response :=
  match s.batch with
  | some staged => s.stageChange c staged
  | none => s.applyNow c

def answerInsertItem (b : InsertBody) (s : State) : State × Response := s.storeRequest (.insertItem b)
def answerModifyItem (b : ModifyBody) (s : State) : State × Response := s.storeRequest (.modifyItem b)
def answerMoveItem (key after : Half) (s : State) : State × Response := s.storeRequest (.moveItem key after)
def answerMarkItem (key : Half) (mask selector : Byte) (s : State) : State × Response :=
  s.storeRequest (.markItem key mask selector)
def answerAddEvent (b : AddEventBody) (s : State) : State × Response := s.storeRequest (.addEvent b)
def answerModifyEvent (b : ModifyEventBody) (s : State) : State × Response := s.storeRequest (.modifyEvent b)
def answerRemoveEvent (owner : Half) (number : Byte) (s : State) : State × Response :=
  s.storeRequest (.removeEvent owner number)
def answerRetireItem (key : Half) (s : State) : State × Response := s.storeRequest (.retireItem key)

/-- CLEAR_RUNDOWN (R27). -/
def answerClearRundown (s : State) : State × Response :=
  if s.batch.isSome then (s, refusal .batchOpen)
  else if s.ctl.state ≠ .closed then (s, refusal .showState)
  else (s.clearStore, okBody (u16 s.items.length))

/-- RECYCLE (R28). -/
def answerRecycle (adopt : Byte) (keys : List Half) (s : State) : State × Response :=
  if s.batch.isSome then (s, refusal .batchOpen)
  else
    match flagOf adopt with
    | none => (s, refusal .badField)
    | some a =>
      match firstNotDone s.items 0 keys with
      | some idx => (s, refusalWith .notDone (u8 idx))
      | none =>
        (State.changeReport s [] [] (s.withItems (recycleItems a keys s.items)),
          okBody (u16 (distinctKeys keys).length))

/-! ## The staging area (R168, R171, R174) -/

/-- OPEN_BATCH (R168). -/
def answerOpenBatch (s : State) : State × Response :=
  match s.batch with
  | some _ => (s, refusal .batchOpen)
  | none => ({ s with batch := some [] }, okBody [])

/-- The area closed and its list emptied. -/
def State.closeBatch (s : State) : State := { s with batch := none }

/-- COMMIT_BATCH (R171, R172): judged whole, then applied whole or not at all. -/
def answerCommitBatch (s : State) : State × Response :=
  match s.batch with
  | none => (s, refusal .noBatch)
  | some [] => (s.closeBatch, okBody (u8 0))
  | some staged =>
    match firstFailure s.day 0 s.items staged with
    | some (idx, code) => (s.closeBatch, refusalWith .batchFailed (u8 idx ++ [code.byte]))
    | none => (s.closeBatch.applyChanges staged, okBody (u8 staged.length))

/-- ABANDON_BATCH (R174). -/
def answerAbandonBatch (s : State) : State × Response :=
  match s.batch with
  | none => (s, refusal .noBatch)
  | some staged => (s.closeBatch, okBody (u8 staged.length))

/-! ## The rows -/

/-- What a command answers: a next state (the part never stops). -/
abbrev Answer := Host.Outcome State Fault Refusal

def execGetItem (key : Half) (s : State) : Answer := .next (request (.getItem key) (answerGetItem key) s)
def execGetItemAt (position : Half) (s : State) : Answer :=
  .next (request (.getItemAt position) (answerGetItemAt position) s)
def execWalk (s : State) : Answer := .next (request .walk answerWalk s)
def execSeek (selector : Byte) (value : Half) (s : State) : Answer :=
  .next (request (.seek selector value) (answerSeek selector value) s)
def execGetEvents (key : Half) (s : State) : Answer := .next (request (.getEvents key) (answerGetEvents key) s)
def execInsertItem (b : InsertBody) (s : State) : Answer := .next (request (.insertItem b) (answerInsertItem b) s)
def execModifyItem (b : ModifyBody) (s : State) : Answer := .next (request (.modifyItem b) (answerModifyItem b) s)
def execMoveItem (key after : Half) (s : State) : Answer :=
  .next (request (.moveItem key after) (answerMoveItem key after) s)
def execMarkItem (key : Half) (mask selector : Byte) (s : State) : Answer :=
  .next (request (.markItem key mask selector) (answerMarkItem key mask selector) s)
def execAddEvent (b : AddEventBody) (s : State) : Answer := .next (request (.addEvent b) (answerAddEvent b) s)
def execModifyEvent (b : ModifyEventBody) (s : State) : Answer :=
  .next (request (.modifyEvent b) (answerModifyEvent b) s)
def execRemoveEvent (owner : Half) (number : Byte) (s : State) : Answer :=
  .next (request (.removeEvent owner number) (answerRemoveEvent owner number) s)
def execRetireItem (key : Half) (s : State) : Answer := .next (request (.retireItem key) (answerRetireItem key) s)
def execClearRundown (s : State) : Answer := .next (request .clearRundown answerClearRundown s)
def execRecycle (adopt : Byte) (keys : List Half) (s : State) : Answer :=
  .next (request (.recycle adopt keys) (answerRecycle adopt keys) s)
def execOpenBatch (s : State) : Answer := .next (request .openBatch answerOpenBatch s)
def execCommitBatch (s : State) : Answer := .next (request .commitBatch answerCommitBatch s)
def execAbandonBatch (s : State) : Answer := .next (request .abandonBatch answerAbandonBatch s)

end Sys2Proof.Machine
end

