-- ==== Sys2Proof/Machine/ShowRequests.lean ====
section
/-! DEFINITION. The requests of the Show Controller and of the Timing Sheet Unit (chapters 03 and 04). -/
namespace Sys2Proof.Machine

/-! ## Opening, closing, aborting (R52, R54, R55) -/

/-- OPEN_SHOW's effect in CLOSED (R52). -/
def State.openShow (s : State) : State :=
  (((s.onCtl fun c => { c.emptied with state := .armed }).deriveNext none).raise classShow).formSheetNow

def answerOpenShow (s : State) : State × Response :=
  if s.ctl.state = .closed then (s.openShow, okBody (keyField s.openShow.ctl.next)) else (s, refusal .showState)

/-- CLOSE_SHOW's effect in LIVE (R54): LAST, NEXT absent with its standby cues released. -/
def State.closeLive (s : State) : State :=
  (((s.onCtl fun c => { c with state := .last }).moveNext none false none).raise classShow).formSheetNow

def answerCloseShow (s : State) : State × Response :=
  match s.ctl.state with
  | .live => (s.closeLive, okBody [])
  | .armed => (s.enterClosed.formSheetNow, okBody [])
  | _ => (s, refusal .showState)

/-- Step 3 of ABORT_SHOW on one outlet: a CLEAR where it is CUED or PLAYING (R55). -/
def State.abortOutlet (s : State) (o : Fin 8) : State :=
  if (s.outlet o).state = .cued ∨ (s.outlet o).state = .playing then s.queueFrame o clearFrame else s

/-- Step 2 of ABORT_SHOW: the on-air item leaves air at once (R55, R62). -/
def State.abortAiring (s : State) : State :=
  match s.onAirItem with
  | some i => s.leaveAir i.key s.house .aborted true
  | none => s

/-- ABORT_SHOW's effect (R55). -/
def State.abortShow (s : State) : State :=
  let s1 := (s.onCtl fun c => { c with ordinary := none, cover := none }).abortAiring
  let s2 := (outletNumbers.foldl State.abortOutlet s1).dropCues false
  (({ s2 with outlets := s2.outlets.map fun x => { x with playing := none } } : State).enterClosed).formSheetNow

def answerAbortShow (s : State) : State × Response :=
  if s.ctl.state = .closed then (s, refusal .showState) else (s.abortShow, okBody (keyField s.ctl.onAir))

/-! ## Takes, NEXT, hold (R60, R58, R66) -/

/-- TAKE (R60): OK with the key NEXT names and whether an ordinary take was already pending. -/
def answerTake (s : State) : State × Response :=
  if s.ctl.state = .closed then (s, refusal .showState)
  else if s.ctl.state ≠ .last ∧ s.ctl.next = none then (s, refusal .noNext)
  else (s.requestTake .manual, okBody (keyField s.ctl.next ++ flagByte s.ctl.ordinary.isSome))

/-- The sheet is formed for a change of NEXT or of the pin (R79). -/
def State.sheetForNext (before : State) (s : State) : State :=
  if before.ctl.next = s.ctl.next ∧ before.ctl.pinned = s.ctl.pinned then s else s.formSheetNow

/-- SET_NEXT's effect: the pin set on an item, or cleared (R58). -/
def State.setNext (k : Option Nat) (s : State) : State :=
  State.sheetForNext s
    (match k with
      | some k => s.moveNext (some k) true none
      | none => (s.onCtl fun c => { c with pinned := false }).deriveNext none)

/-- SET_NEXT (R58). -/
def answerSetNext (key : Half) (s : State) : State × Response :=
  if key = 0xFFFF then (s, refusal .badField)
  else if s.ctl.state ≠ .armed ∧ s.ctl.state ≠ .live then (s, refusal .showState)
  else if key = 0 then (s.setNext none, okBody (keyField (s.setNext none).ctl.next))
  else
    match s.item key.toNat with
    | none => (s, refusal .noSuchItem)
    | some i => if i.eligible then (s.setNext (some key.toNat), okBody (u16 key.toNat)) else (s, refusal .badField)

/-- HOLD (R66). -/
def answerHold (s : State) : State × Response :=
  match s.onAirItem with
  | some i => (s.toggleHeld, okBody (flagByte (!i.held)))
  | none => (s, refusal .showState)

/-! ## Vectors, show end, wrap window (R71, R76) -/

/-- Write a vector entry (R71). -/
def ShowCtl.setVector (v : FaultVector) (k : Option Nat) (c : ShowCtl) : ShowCtl :=
  match v with
  | .leadLost => { c with leadLostKey := k }
  | .underrun => { c with underrunKey := k }

/-- SET_VECTOR (R71): key 0 makes the entry absent. -/
def answerSetVector (vector : Byte) (key : Half) (s : State) : State × Response :=
  match vectorOf vector with
  | none => (s, refusal .badField)
  | some v =>
    if key = 0xFFFF then (s, refusal .badField)
    else
      let s' := s.onCtl (ShowCtl.setVector v (if key = 0 then none else some key.toNat))
      (s', okBody (keyField s'.ctl.leadLostKey ++ keyField s'.ctl.underrunKey))

/-- A show end time stored; one that alters it forms the sheet (R76, R79). -/
def State.setShowEnd (t : Option Nat) (s : State) : State :=
  let s' := s.onCtl fun c => { c with showEnd := t }
  if s.ctl.showEnd = t then s' else s'.formSheetNow

/-- SET_SHOW_END (R76; indication 1 set, 2 remove). -/
def answerSetShowEnd (indication : Byte) (time : Tri) (s : State) : State × Response :=
  if indication = 1 then
    if hardOk s.day time then (s.setShowEnd (some time.toNat), okBody (frameField (some time.toNat)))
    else (s, refusal .badField)
  else if indication = 2 then (s.setShowEnd none, okBody (frameField none))
  else (s, refusal .badField)

/-- SET_WRAP (R76): the lamps are derived with the stored W (R144). -/
def answerSetWrap (seconds : Byte) (s : State) : State × Response :=
  (((s.onCtl fun c => { c with wrap := wrapOf seconds }).deriveLamps).displayStart, okBody (u8 (wrapOf seconds)))

/-! ## Looking (R77, R95) -/

def answerGetShow (s : State) : State × Response := (s.spend, okBody s.showBlock)
def answerGetSheet (page : Byte) (s : State) : State × Response := 
  (s, { okBody (s.sheetBody page.toNat) with starts := s.sheetStarts page.toNat })

/-! ## The rows -/

def execOpenShow (s : State) : Answer := .next (request .openShow answerOpenShow s)
def execTake (s : State) : Answer := .next (request .take answerTake s)
def execSetNext (key : Half) (s : State) : Answer := .next (request (.setNext key) (answerSetNext key) s)
def execHold (s : State) : Answer := .next (request .hold answerHold s)
def execCloseShow (s : State) : Answer := .next (request .closeShow answerCloseShow s)
def execAbortShow (s : State) : Answer := .next (request .abortShow answerAbortShow s)
def execSetVector (vector : Byte) (key : Half) (s : State) : Answer :=
  .next (request (.setVector vector key) (answerSetVector vector key) s)
def execSetShowEnd (indication : Byte) (time : Tri) (s : State) : Answer :=
  .next (request (.setShowEnd indication time) (answerSetShowEnd indication time) s)
def execSetWrap (seconds : Byte) (s : State) : Answer := .next (request (.setWrap seconds) (answerSetWrap seconds) s)
def execGetShow (s : State) : Answer := .next (request .getShow answerGetShow s)
def execGetSheet (page : Byte) (s : State) : Answer := .next (request (.getSheet page) (answerGetSheet page) s)

end Sys2Proof.Machine
end

