-- ==== Sys2Proof/Machine/UnitRequests.lean ====
section
/-! DEFINITION. The requests of the Outlet Interface, the Cue Unit, the Panel Interface, the Timebase and the notices
(chapters 06, 07, 08, 02 and 10). -/
namespace Sys2Proof.Machine

/-! ## Outlets (R137 to R140) -/

/-- The outlet loses its cue: the reference becomes absent and the event's cued flag no on the outlet's report, a change of its
item (R114, R119). -/
def State.loseCue (o : Fin 8) (s : State) : State :=
  match (s.outlet o).cued with
  | none => s
  | some c =>
    (s.onOutlet o Outlet.dropCue).firingAction c.ref.owner (State.onEvent c.ref fun e => { e with cued := false })

/-- Disabling (R137). -/
def State.disableOutlet (o : Fin 8) (s : State) : State :=
  ((s.loseCue o).onOutlet o fun x =>
    { x.flush with enabled := false, playing := none, waiting := [], resetHold := false }).watchLost o

/-- The fields CONFIGURE_OUTLET writes besides enabled. -/
def Outlet.configured (kind : OutletKind) (preRoll : Nat) (rate : LinkRate) (x : Outlet) : Outlet :=
  { x with kind := kind, preRoll := preRoll, rate := rate }

/-- CONFIGURE_OUTLET's effect (R137). -/
def State.configureOutlet (o : Fin 8) (kind : OutletKind) (enabled : Bool) (preRoll : Nat) (rate : LinkRate) (s : State) : State :=
  let s1 := s.onOutlet o (Outlet.configured kind preRoll rate)
  match (s.outlet o).enabled, enabled with
  | true, false => s1.disableOutlet o
  | false, true => (s1.onOutlet o fun x => { x with enabled := true }).serveHead none o
  | _, _ => s1

/-- CONFIGURE_OUTLET (R137), with the change report of a degradation by the lead it loses (R169). -/
def answerConfigureOutlet (outlet kind enabled : Byte) (preRoll : Half) (rate : Byte) (s : State) : State × Response :=
  match outletOf outlet, outletKindOf kind, flagOf enabled, rateOf rate with
  | some o, some k, some e, some r =>
    let s' := State.reportOwn State.formSheetNow s (s.configureOutlet o k e (preRollOf preRoll) r)
    (s', okBody (s'.outletBlock o))
  | _, _, _, _ => (s, refusal .badField)

/-- RESET_OUTLET's effect (R138). -/
def State.resetOutlet (o : Fin 8) (s : State) : State :=
  let s1 := (s.loseCue o).onOutlet o fun x =>
    ({ x.flush with queue := [clearFrame], playing := none, waiting := [], readyChanged := true, resetHold := x.enabled } : Outlet).sendStart
  (({ s1 with owed := s1.owed.erase (.resetHold o) } : State).watchLost o).raise classOutlet

/-- RESET_OUTLET (R138), with the change report of a degradation by the lead it loses (R169). -/
def answerResetOutlet (outlet : Byte) (s : State) : State × Response :=
  match outletOf outlet with
  | some o =>
    let s' := State.reportOwn State.formSheetNow s (s.resetOutlet o)
    (s', okBody (s'.outletBlock o))
  | none => (s, refusal .badField)

/-- Latches cleared by a mask (R139). -/
def Outlet.ack (mask : Byte) (x : Outlet) : Outlet :=
  { x with
    readyChanged := x.readyChanged && !mask.getLsbD 0
    tallyChanged := x.tallyChanged && !mask.getLsbD 1
    overflow := x.overflow && !mask.getLsbD 2 }

/-- ACK_OUTLET (R139). -/
def answerAckOutlet (outlet mask : Byte) (s : State) : State × Response :=
  match outletOf outlet with
  | none => (s, refusal .badField)
  | some o =>
    if mask = 0 ∨ 8 ≤ mask.toNat then (s, refusal .badField)
    else (s.onOutlet o (Outlet.ack mask), okBody ((s.onOutlet o (Outlet.ack mask)).outletBlock o))

/-- GET_OUTLET (R140). -/
def answerGetOutlet (outlet : Byte) (s : State) : State × Response :=
  match outletOf outlet with
  | some o => (s, okBody (s.outletBlock o))
  | none => (s, refusal .badField)

/-! ## Presenters (R145, R148, R156) -/

/-- SET_PATTERN (R145): the pending entry of a lamp state. -/
def answerSetPattern (lamp : Byte) (pattern : Half) (stepLength : Byte) (s : State) : State × Response :=
  match lampOf lamp with
  | none => (s, refusal .badField)
  | some l =>
    (s.onCue fun c => { c with pendingPatterns := c.pendingPatterns.set l.index (some ⟨pattern, stepLengthOf stepLength⟩) },
      okBody (u16 pattern.toNat ++ u8 (stepLengthOf stepLength)))

/-- HAIL_PRESENTER's effect (R148): the hail is set and the lamp derived again. -/
def State.hailPresenter (p : Fin 4) (n : Nat) (s : State) : State :=
  ((s.onPresenter p fun x => { x with hail := n }).derivePresenter p).displayStart

/-- HAIL_PRESENTER (R148). -/
def answerHailPresenter (position : Byte) (length : Half) (s : State) : State × Response :=
  match positionOf position with
  | some p => (s.hailPresenter p (hailOf length), okBody (u16 (hailOf length)))
  | none => (s, refusal .badField)

/-- GET_PRESENTER (R156). -/
def answerGetPresenter (position : Byte) (s : State) : State × Response :=
  match positionOf position with
  | some p => (s.spend, okBody (s.presenterBlock p))
  | none => (s, refusal .badField)

/-! ## Panel (R164, R166) -/

/-- SET_PANEL_MODE's effect: a press trapped in an input that leaves TRAP is withdrawn (R166). -/
def State.setPanelMode (n : Fin 4) (mode : PanelMode) (lapse : LapseMode) (s : State) : State :=
  let s1 := s.onInput n fun x => { x with mode := mode, lapse := lapse }
  match (s.panel.get n).trap with
  | some t => if mode = .trap then s1 else s1.endTrap n t .withdrawn
  | none => s1

/-- SET_PANEL_MODE (R166), answered with the four input records. -/
def answerSetPanelMode (input mode lapse : Byte) (s : State) : State × Response :=
  match positionOf input, panelModeOf mode, lapseModeOf lapse with
  | some n, some m, some l =>
    let s' := s.setPanelMode n m l
    (s'.spend, okBody (fours.flatMap fun i => s'.inputBlock (13 * i.val) i))
  | _, _, _ => (s, refusal .badField)

/-- A verdict on the press the slot holds: it empties, and ALLOW hands the action over (R164). -/
def State.settleVerdict (n : Fin 4) (allow : Bool) (s : State) : State :=
  let s1 := s.onInput n fun x => { x with trap := none }
  if allow then s1.panelAction n else s1

/-- VERDICT (R164; decision 0 ALLOW, 1 DENY). -/
def answerVerdict (input trap decision : Byte) (s : State) : State × Response :=
  match positionOf input, flagOf decision with
  | some n, some deny =>
    if trap = 0 then (s, refusal .badField)
    else
      let x := s.panel.get n
      if x.trap.map Trap.num = some trap.toNat then
        let s' := s.settleVerdict n (!deny)
        (s'.spend, okBody (s'.inputBlock 0 n))
      else if x.ended.map Prod.fst = some trap.toNat then (s, refusal .tooLate)
      else (s, refusal .nothingTrapped)
  | _, _ => (s, refusal .badField)

/-! ## Timebase (R35, R36, R45, R46, R49) -/

/-- SET_STANDARD (R46). -/
def answerSetStandard (standard : Byte) (s : State) : State × Response :=
  match standardOf standard with
  | none => (s, refusal .badField)
  | some st =>
    if s.ctl.state ≠ .closed then (s, refusal .showState)
    else (s.onTb fun t => { t with pendingStandard := some st, load := some 0 }, okBody [])

/-- The day length a load is checked against: the pending standard's, or the one in force (R45). -/
def Timebase.loadDay (t : Timebase) : Nat := (t.pendingStandard.getD t.standard).day

/-- SET_TIME (R45). -/
def answerSetTime (frames : Tri) (s : State) : State × Response :=
  if s.tb.loadDay ≤ frames.toNat then (s, refusal .badField)
  else if s.ctl.state ≠ .closed then (s, refusal .showState)
  else (s.onTb fun t => { t with load := some frames.toNat }, okBody [])

/-- SET_TRIM (R35). -/
def answerSetTrim (trim : Half) (s : State) : State × Response :=
  (s.onTb fun t => { t with trim := trimOf trim }, okBody (s8 (trimOf trim)))

/-- SET_REFERENCE's effect (R36): selection 0 FREE, 1 LOCKED. It arrives at `now`, the end of its write transaction; where the
free-running period has passed by then, the boundary falls at `now`, at once (Timebase.nextBoundary). -/
def Timebase.setReference (locked : Bool) (t : Timebase) : Timebase :=
  if locked then
    if t.ref = .freeRun then { t with ref := .acquiring, acqCount := 0, acqPulse := none } else t
  else if t.ref = .freeRun then t
  else { t with ref := .freeRun, acqCount := 0, runPeriod := freePeriod t.standard t.trim }

/-- SET_REFERENCE (R36). -/
def answerSetReference (selection : Byte) (s : State) : State × Response :=
  match flagOf selection with
  | some locked => (s.onTb (Timebase.setReference locked), okBody [])
  | none => (s, refusal .badField)

/-- GET_TIMEBASE (R49). -/
def answerGetTimebase (s : State) : State × Response := (s, okBody s.timebaseBlock)

/-! ## Notices (R183, R185, R188) -/

/-- The five counters cleared (R188). -/
def Notices.clearCounters (n : Notices) : Notices :=
  { n with late := 0, skipped := 0, missed := 0, coalesced := 0, panelIgnored := 0 }

/-- READ_NOTICES (R188): READ_AND_CLEAR forms the answer first. -/
def answerReadNotices (selector : Byte) (s : State) : State × Response :=
  match flagOf selector with
  | some true => (({ s with notices := s.notices.clearCounters } : State).spend, okBody s.noticeBlock)
  | some false => (s.spend, okBody s.noticeBlock)
  | none => (s, refusal .badField)

/-- The pending and enable sets. -/
def State.classSets (s : State) : List Byte := [s.notices.pending, s.notices.enables]

/-- ACK_NOTICES (R185). -/
def answerAckNotices (classes : Byte) (s : State) : State × Response :=
  if classes = 0 then (s, refusal .badField)
  else
    let s' : State := { s with notices := { s.notices with pending := s.notices.pending &&& ~~~classes } }
    (s', okBody s'.classSets)

/-- SET_NOTICE_ENABLES (R183). -/
def answerSetNoticeEnables (classes : Byte) (s : State) : State × Response :=
  let s' : State := { s with notices := { s.notices with enables := classes } }
  (s', okBody s'.classSets)

/-- The part right after a reset with its outside lines as they stand, the commands still waiting and the model's free-value
counter kept (R32, R50, R78, R96, R120, R141, R157, R167, R191). -/
def State.resetFrom (s : State) : State :=
  { State.reset with
    outlets := s.outlets.map fun x => Outlet.reset x.ready x.tally
    panel := s.panel.map fun x => Input.reset x.line
    freeIndex := s.freeIndex
    dataOut := s.dataOut
    pending := s.pending }

/-- RESTART (R190). -/
def answerRestart (s : State) : State × Response := (s.resetFrom, okBody [])

/-! ## The rows -/

def execConfigureOutlet (outlet kind enabled : Byte) (preRoll : Half) (rate : Byte) (s : State) : Answer :=
  .next (request (.configureOutlet outlet kind enabled preRoll rate) (answerConfigureOutlet outlet kind enabled preRoll rate) s)
def execResetOutlet (outlet : Byte) (s : State) : Answer := .next (request (.resetOutlet outlet) (answerResetOutlet outlet) s)
def execAckOutlet (outlet mask : Byte) (s : State) : Answer :=
  .next (request (.ackOutlet outlet mask) (answerAckOutlet outlet mask) s)
def execGetOutlet (outlet : Byte) (s : State) : Answer := .next (request (.getOutlet outlet) (answerGetOutlet outlet) s)
def execSetPattern (lamp : Byte) (pattern : Half) (stepLength : Byte) (s : State) : Answer :=
  .next (request (.setPattern lamp pattern stepLength) (answerSetPattern lamp pattern stepLength) s)
def execHailPresenter (position : Byte) (length : Half) (s : State) : Answer :=
  .next (request (.hailPresenter position length) (answerHailPresenter position length) s)
def execGetPresenter (position : Byte) (s : State) : Answer :=
  .next (request (.getPresenter position) (answerGetPresenter position) s)
def execSetPanelMode (input mode lapse : Byte) (s : State) : Answer :=
  .next (request (.setPanelMode input mode lapse) (answerSetPanelMode input mode lapse) s)
def execVerdict (input trap decision : Byte) (s : State) : Answer :=
  .next (request (.verdict input trap decision) (answerVerdict input trap decision) s)
def execSetStandard (standard : Byte) (s : State) : Answer :=
  .next (request (.setStandard standard) (answerSetStandard standard) s)
def execSetTime (frames : Tri) (s : State) : Answer := .next (request (.setTime frames) (answerSetTime frames) s)
def execSetTrim (trim : Half) (s : State) : Answer := .next (request (.setTrim trim) (answerSetTrim trim) s)
def execSetReference (selection : Byte) (s : State) : Answer :=
  .next (request (.setReference selection) (answerSetReference selection) s)
def execGetTimebase (s : State) : Answer := .next (request .getTimebase answerGetTimebase s)
def execReadNotices (selector : Byte) (s : State) : Answer :=
  .next (request (.readNotices selector) (answerReadNotices selector) s)
def execAckNotices (classes : Byte) (s : State) : Answer :=
  .next (request (.ackNotices classes) (answerAckNotices classes) s)
def execSetNoticeEnables (classes : Byte) (s : State) : Answer :=
  .next (request (.setNoticeEnables classes) (answerSetNoticeEnables classes) s)
def execRestart (s : State) : Answer := .next (request .restart answerRestart s)

end Sys2Proof.Machine
end

