-- ==== Sys2Proof/Machine/Port.lean ====
section
/-! DEFINITION. The Request Port's transactions (10.1), the request in hand, and the Reset line (10.5). -/
namespace Sys2Proof.Machine

/-! ## The request in hand (R176, R180) -/

/-- What the owner of a request does when it takes it; none for a command that is no request. -/
def requestAnswer : Instr → Option (State → State × Response)
  | .getItem key => some (answerGetItem key)
  | .getItemAt position => some (answerGetItemAt position)
  | .walk => some answerWalk
  | .seek selector value => some (answerSeek selector value)
  | .getEvents key => some (answerGetEvents key)
  | .insertItem b => some (answerInsertItem b)
  | .modifyItem b => some (answerModifyItem b)
  | .moveItem key after => some (answerMoveItem key after)
  | .markItem key mask selector => some (answerMarkItem key mask selector)
  | .addEvent b => some (answerAddEvent b)
  | .modifyEvent b => some (answerModifyEvent b)
  | .removeEvent owner number => some (answerRemoveEvent owner number)
  | .retireItem key => some (answerRetireItem key)
  | .clearRundown => some answerClearRundown
  | .recycle adopt keys => some (answerRecycle adopt keys)
  | .openBatch => some answerOpenBatch
  | .commitBatch => some answerCommitBatch
  | .abandonBatch => some answerAbandonBatch
  | .openShow => some answerOpenShow
  | .take => some answerTake
  | .setNext key => some (answerSetNext key)
  | .hold => some answerHold
  | .closeShow => some answerCloseShow
  | .abortShow => some answerAbortShow
  | .setVector vector key => some (answerSetVector vector key)
  | .setShowEnd indication time => some (answerSetShowEnd indication time)
  | .setWrap seconds => some (answerSetWrap seconds)
  | .getShow => some answerGetShow
  | .getSheet page => some (answerGetSheet page)
  | .configureOutlet outlet kind enabled preRoll rate => some (answerConfigureOutlet outlet kind enabled preRoll rate)
  | .resetOutlet outlet => some (answerResetOutlet outlet)
  | .ackOutlet outlet mask => some (answerAckOutlet outlet mask)
  | .getOutlet outlet => some (answerGetOutlet outlet)
  | .setPattern lamp pattern stepLength => some (answerSetPattern lamp pattern stepLength)
  | .hailPresenter position length => some (answerHailPresenter position length)
  | .getPresenter position => some (answerGetPresenter position)
  | .setPanelMode input mode lapse => some (answerSetPanelMode input mode lapse)
  | .verdict input trap decision => some (answerVerdict input trap decision)
  | .setStandard standard => some (answerSetStandard standard)
  | .setTime frames => some (answerSetTime frames)
  | .setTrim trim => some (answerSetTrim trim)
  | .setReference selection => some (answerSetReference selection)
  | .getTimebase => some answerGetTimebase
  | .readNotices selector => some (answerReadNotices selector)
  | .ackNotices classes => some (answerAckNotices classes)
  | .setNoticeEnables classes => some (answerSetNoticeEnables classes)
  | .restart => some answerRestart
  | .writeTransaction _ => none
  | .readTransaction _ => none
  | .resetAsserted => none
  | .resetReleased => none
  | .frameBoundary _ => none
  | .houseSyncPulse _ _ => none
  | .lossLimit _ => none
  | .overReached => none
  | .horizonArming => none
  | .wheelSlotFiring => none
  | .lampStepAdvance _ => none
  | .hailRunOut _ => none
  | .displaySendCompletion => none
  | .sendCompletion _ => none
  | .readyFall _ => none
  | .readyRise _ => none
  | .tallyRise _ => none
  | .tallyFall _ => none
  | .leadStartTimeout => none
  | .resetHoldEnd _ => none
  | .panelLineChange _ _ => none
  | .quietExpiry _ => none
  | .lapse _ => none

/-- The request in hand is taken by its owner; the port holds its answer (R176). -/
def State.takeInHand (s : State) : State :=
  match s.port with
  | .working i => match requestAnswer i with | some f => takenRequest i f s | none => s
  | _ => s

/-! ## Transactions (R175 to R179) -/

/-- The bytes shifted out in a write of `n` bytes: the status byte first, then bytes the manual gives no value for (R175). -/
def State.shiftedOut (s : State) (n : Nat) : List Byte := s.port.byte :: freeBytes s.freeIndex 1 (n - 1)

/-- A write transaction ends (R176 to R178). -/
def State.endWrite (bytes : List Byte) (s : State) : State :=
  let s1 : State := { s with dataOut := s.shiftedOut bytes.length, freeIndex := s.freeIndex + 1 }
  match s.port with
  | .idle =>
    match decodeFrame bytes with
    | some i => { s1 with port := .working i }
    | none => { s1 with port := .ready (refusal .badRequest) }
  | _ => { s1 with discard := true }

/-- The bytes a read returns after the status byte, as many as are clocked (R179). -/
def State.readOut (s : State) (n : Nat) : List Byte :=
  match s.port with
  | .ready r => (responseStream s.discard r ++ List.replicate n 0).take n
  | _ => List.replicate n 0

/-- A read transaction of `n` bytes ends (R176, R179): one that reached the end of the response releases it. -/
def State.endRead (n : Nat) (s : State) : State :=
  let s1 : State := { s with dataOut := s.port.byte :: s.readOut (n - 1) }
  match s.port with
  | .ready r => if (responseStream s.discard r).length ≤ n - 1 then { s1 with port := .idle, discard := false } else s1
  | _ => s1

/-- What the data out line returns in `n` bytes while the Reset line is asserted (R189). -/
def State.resetOut (n : Nat) (s : State) : State := { s with dataOut := (0x20 : Byte) :: List.replicate (n - 1) 0 }

/-- A transaction of whole bytes `bytes` ends; one of no whole byte is ignored (R175). -/
def State.transact (bytes : List Byte) (s : State) : State :=
  match bytes with
  | [] => s
  | b :: _ => if s.inReset then s.resetOut bytes.length else if b = 0x02 then s.endRead bytes.length else s.endWrite bytes

/-- The clock reaches the instant `gap` ticks later (log entry 2); while the Reset line is asserted it stands at its reset value
(R50, R189). -/
def State.passTime (gap : Nat) (s : State) : State := if s.inReset then s else s.onTb fun t => { t with now := t.now + gap }

/-- WRITE_TRANSACTION: the bytes the processor sends, the first naming the transaction (R175). Its end is the instant at which the
request in it arrives (R176), from which SET_REFERENCE FREE counts (R36). -/
def execWriteTransaction (w : Write) (s : State) : Answer := .next ((s.passTime w.gap).transact w.bytes)

/-- READ_TRANSACTION of `clocked` whole bytes, the first sent being 0x02 (R175, R179). -/
def execReadTransaction (clocked : Nat) (s : State) : Answer :=
  .next (if clocked = 0 then s else if s.inReset then s.resetOut clocked else s.endRead clocked)

/-! ## The Reset line (R189) -/

/-- The Reset line is asserted: every block holds its reset values, the display line stands free and idle. -/
def State.assertReset (s : State) : State := { s.resetFrom with inReset := true, cue := .reset }

def execResetAsserted (s : State) : Answer := .next s.assertReset

/-- The Reset line is released: each input takes its line's level as accepted (R167) and the display line starts (R157). -/
def State.releaseReset (s : State) : State :=
  if s.inReset then
    ({ s with inReset := false, panel := s.panel.map fun x => { x with accepted := x.line } } : State).displayStart
  else s

def execResetReleased (s : State) : Answer := .next s.releaseReset

end Sys2Proof.Machine
end

