-- ==== Sys2Proof/Machine/Lines.lean ====
section
/-! DEFINITION. The events of the outlet links, the outlets' return lines, the display line and the panel lines (chapters 06,
07 and 08). A change to the level a line already has is no change; while the Reset line is asserted a record holds its
reset values, its level following its line (R141, R167, R195). -/
namespace Sys2Proof.Machine

/-! ## Outlet links (R125, R126, R130) -/

/-- A cue the outlet loses rejoins its waiting list with its order key, where the list holds fewer than 4 entries (R130, R131). -/
def State.relist (o : Fin 8) (c : CuedRef) (s : State) : State :=
  s.onOutlet o fun x =>
    if x.waiting.length < Config.waitingSize then { x with waiting := x.waiting ++ [⟨c.ref, c.key⟩] } else x

/-- The cued reference as a SHOW of `ev` is sent: sent away, lost on a CLIP outlet, or kept (R126, R130). -/
def State.showAgainstCue (o : Fin 8) (ev : Option EventRef) (s : State) : State :=
  match (s.outlet o).cued with
  | none => s
  | some c =>
    if ev = some c.ref then s.loseCue o
    else if (s.outlet o).kind = .clip then (s.loseCue o).relist o c
    else s

/-- The effect of a frame sent on the outlet's references (R126). -/
def State.frameSent (o : Fin 8) (f : Frame) (s : State) : State :=
  match f.command with
  | .showFrame => (s.showAgainstCue o f.event).onOutlet o fun x => { x with playing := f.event }
  | .clear => s.onOutlet o fun x => { x with playing := none }
  | _ => s

/-- The lead watch as its SHOW has been sent (R134). -/
def State.leadSent (o : Fin 8) (f : Frame) (s : State) : State :=
  match s.watch with
  | some w =>
    if w.outlet = o ∧ w.stage = .queued ∧ f.leadMark = true then
      if (s.outlet o).tally then ({ s with watch := some { w with stage := .running } } : State).leadReport .tallyRose
      else { s with watch := some { w with stage := .sent } }
    else s
  | none => s

/-- The last bit of the frame being sent has gone out (R125): it leaves the queue and acts, the line is free, the next frame
starts, and the head of the waiting list is cued where the outlet can hold a cue (R128). -/
def State.sendComplete (o : Fin 8) (s : State) : State :=
  match (s.outlet o).sending, (s.outlet o).queue with
  | some _, f :: rest =>
    let s1 := s.onOutlet o fun x => { x with queue := rest, sending := none }
    (((s1.frameSent o f).leadSent o f).onOutlet o Outlet.sendStart).serveHead none o
  | _, _ => s

def execSendCompletion (o : Fin 8) (s : State) : Answer := .next (s.sendComplete o)

/-! ## READY (R123, R131, R132) -/

/-- The fall on an enabled outlet whose reset hold is no, steps 1 to 4 (R131). -/
def State.outletFell (o : Fin 8) (s : State) : State :=
  let s1 := s.onOutlet o Outlet.flush
  let s2 := match (s1.outlet o).cued with | some c => (s1.loseCue o).relist o c | none => s1
  (s2.onOutlet o fun x => { x with playing := none }).watchLost o

/-- A level of READY with its latch and notice (R123). -/
def State.latchReady (o : Fin 8) (v : Bool) (s : State) : State :=
  (s.onOutlet o fun x => { x with ready := v, readyChanged := true }).raise classOutlet

/-- READY falls (R131). -/
def State.readyFell (o : Fin 8) (s : State) : State :=
  if (s.outlet o).ready = false then s
  else if s.inReset then s.onOutlet o fun x => Outlet.reset false x.tally
  else
    let s1 := s.latchReady o false
    if (s.outlet o).enabled = true ∧ (s.outlet o).resetHold = false then s1.outletFell o else s1

/-- READY rises (R132). -/
def State.readyRose (o : Fin 8) (s : State) : State :=
  if (s.outlet o).ready = true then s
  else if s.inReset then s.onOutlet o fun x => Outlet.reset true x.tally
  else (s.latchReady o true).serveHead none o

/-- The fall of READY, with the change report of a degradation by the lead it loses (R169). -/
def execReadyFall (o : Fin 8) (s : State) : Answer := .next (State.reportOwn State.formSheetNow s (s.readyFell o))
def execReadyRise (o : Fin 8) (s : State) : Answer := .next (s.readyRose o)

/-! ## TALLY (R123, R133, R134) -/

/-- The outlet is enabled and not OFFLINE, so a TALLY change has its effects (R133). -/
def Outlet.live (x : Outlet) : Bool := x.enabled && x.ready && !x.resetHold

/-- A level of TALLY with its latch and notice (R123). -/
def State.latchTally (o : Fin 8) (v : Bool) (s : State) : State :=
  (s.onOutlet o fun x => { x with tally := v, tallyChanged := true }).raise classOutlet

/-- The rise on the watched outlet whose SHOW has been sent (R134). -/
def State.leadRose (o : Fin 8) (s : State) : State :=
  match s.watch with
  | some w =>
    if w.outlet = o ∧ w.stage = .sent then ({ s with watch := some { w with stage := .running } } : State).leadReport .tallyRose
    else s
  | none => s

/-- The fall on the watched outlet of a running watch: the lead end (R134). -/
def State.leadFell (o : Fin 8) (s : State) : State :=
  match s.watch with
  | some w => if w.outlet = o ∧ w.stage = .running then ({ s with watch := none } : State).leadReport .tallyFell else s
  | none => s

/-- TALLY rises. -/
def State.tallyRose (o : Fin 8) (s : State) : State :=
  if (s.outlet o).tally = true then s
  else if s.inReset then s.onOutlet o fun x => Outlet.reset x.ready true
  else if (s.outlet o).live then (s.latchTally o true).leadRose o
  else s.latchTally o true

/-- TALLY falls; on a CLIP outlet the head of the waiting list is then cued (R133, R128). -/
def State.tallyFell (o : Fin 8) (s : State) : State :=
  if (s.outlet o).tally = false then s
  else if s.inReset then s.onOutlet o fun x => Outlet.reset x.ready false
  else if (s.outlet o).live then
    let s1 := (s.latchTally o false).leadFell o
    if (s.outlet o).kind = .clip then s1.serveHead none o else s1
  else s.latchTally o false

def execTallyRise (o : Fin 8) (s : State) : Answer := .next (s.tallyRose o)
def execTallyFall (o : Fin 8) (s : State) : Answer := .next (s.tallyFell o)

/-! ## The display line and the panel lines (R155, R159) -/

/-- The last bit of the display frame has gone out: the line is free, and the lowest filled slot starts (R155). -/
def CueUnit.sendComplete (c : CueUnit) : CueUnit :=
  match c.sending with
  | some _ => CueUnit.sendStart { c with sending := none }
  | none => c

def execDisplaySendCompletion (s : State) : Answer := .next (s.onCue CueUnit.sendComplete)

/-- A panel line changes level (R159): a watching input takes it, one in its quiet ignores it; while reset is held the accepted
level follows the line (R167). -/
def State.panelLine (n : Fin 4) (v : Bool) (s : State) : State :=
  if (s.panel.get n).line = v then s
  else if s.inReset then s.onInput n fun _ => Input.reset v
  else
    let s1 := s.onInput n fun x => { x with line := v }
    if (s.panel.get n).quiet = 0 then s1.takeLevel n else s1

def execPanelLineChange (n : Fin 4) (v : Bool) (s : State) : Answer := .next (s.panelLine n v)

end Sys2Proof.Machine
end

