-- ==== Sys2Proof/Machine/Ticks.lean ====
section
/-! DEFINITION. Frame boundaries, house sync pulses and the loss limit (chapter 02), and the boundary rows of the other blocks
(R70, R102, R104, R135, R138, R146, R149, R159, R165). -/
namespace Sys2Proof.Machine

/-- Before a boundary: no request holds the port across it (R176), and the work of the boundary before it is done. -/
def State.beforeBoundary (s : State) : State := s.takeInHand.settle

/-! ## The internal boundary (R34, R38, R43) -/

/-- The instant of the next internal boundary: the running period after the last, or at once when that has passed (R36). -/
def Timebase.nextBoundary (t : Timebase) : Nat := max t.now (t.lastBoundary + t.runPeriod)

/-- FRAME_BOUNDARY: a boundary made internally. LOCKED makes none (R40), and none falls while reset is held. -/
def State.frameBoundary (early : List BoundaryPart) (s : State) : State :=
  if s.inReset ∨ s.beforeBoundary.tb.ref = .locked then s
  else s.beforeBoundary.boundary s.beforeBoundary.tb.nextBoundary early

def execFrameBoundary (early : List BoundaryPart) (s : State) : Answer := .next (s.frameBoundary early)

/-! ## Pulses (R37, R39 to R41, R43) -/

/-- The pulse of acquisition (R37): the count and the previous pulse after it. -/
def Timebase.acquire (at_ : Nat) (t : Timebase) : Timebase :=
  match t.acqPulse with
  | none => { t with acqPulse := some at_, acqCount := 0 }
  | some p =>
    if t.standard.inWindow (at_ - p) then { t with acqPulse := some at_, acqCount := t.acqCount + 1 }
    else { t with acqPulse := some at_, acqCount := 0 }

/-- The pulse locks: it raises the acquisition count to 3 (R37). -/
def Timebase.locks (at_ : Nat) (t : Timebase) : Bool := decide (3 ≤ (t.acquire at_).acqCount)

/-- The Timebase as it enters LOCKED at the locking pulse (R39). -/
def Timebase.lock (at_ : Nat) (t : Timebase) : Timebase :=
  { t with
    ref := .locked
    acqCount := 0
    measured := match t.acqPulse with | some p => at_ - p | none => t.measured
    acqPulse := none
    lastAccepted := some at_ }

/-- The pulse is less than a half period after the last accepted one: a glitch (R41). -/
def Timebase.isGlitch (at_ : Nat) (t : Timebase) : Bool :=
  match t.lastAccepted with
  | some p => decide (at_ - p < t.standard.half)
  | none => false

/-- The pulse is accepted in LOCKED (R40). -/
def Timebase.accept (at_ : Nat) (t : Timebase) : Timebase :=
  { t with
    measured := match t.lastAccepted with | some p => if t.standard.inWindow (at_ - p) then at_ - p else t.measured | none => t.measured
    lastAccepted := some at_ }

/-- A pulse in ACQUIRING (R37, R39). -/
def State.acquirePulse (at_ : Nat) (early : List BoundaryPart) (s : State) : State :=
  if s.tb.locks at_ then
    let s1 := (s.onTb (Timebase.lock at_)).raise classTimebase
    if at_ - s.tb.lastBoundary < s.tb.standard.half then s1 else s1.boundary at_ early
  else s.onTb (Timebase.acquire at_)

/-- A pulse in LOCKED (R40, R41). -/
def State.lockedPulse (at_ : Nat) (early : List BoundaryPart) (s : State) : State :=
  if s.tb.isGlitch at_ then s.onTb fun t => { t with glitches := countUp t.glitches }
  else (s.onTb (Timebase.accept at_)).boundary at_ early

/-- The first pulse in HOLDOVER restarts acquisition (R43). -/
def Timebase.reacquire (at_ : Nat) (t : Timebase) : Timebase :=
  { t with ref := .acquiring, acqCount := 0, acqPulse := some at_ }

/-- A pulse seen at instant `at_`, judged by the reference state. -/
def State.judgePulse (at_ : Nat) (early : List BoundaryPart) (s : State) : State :=
  match s.tb.ref with
  | .freeRun => s
  | .acquiring => s.acquirePulse at_ early
  | .locked => s.lockedPulse at_ early
  | .holdover => s.onTb (Timebase.reacquire at_)

/-- A house sync pulse `gap` ticks after the last timed event. In FREE_RUN, and while reset is held, the line is an output and no
pulse is seen. -/
def State.syncPulse (gap : Nat) (early : List BoundaryPart) (s : State) : State :=
  let s1 := s.beforeBoundary
  if s.inReset ∨ s1.tb.ref = .freeRun then s
  else (s1.onTb fun t => { t with now := t.now + gap }).judgePulse (s1.tb.now + gap) early

def execHouseSyncPulse (gap : Nat) (early : List BoundaryPart) (s : State) : Answer := .next (s.syncPulse gap early)

/-! ## The loss limit (R42) -/

/-- The instant the loss limit elapses. -/
def Timebase.lossInstant (t : Timebase) : Nat := max t.now (t.lastAccepted.getD t.lastBoundary + t.standard.lossLimit)

/-- The loss limit elapses in LOCKED: HOLDOVER, a boundary, the running period the measured period, a TIMEBASE notice (R42). -/
def State.lossLimit (early : List BoundaryPart) (s : State) : State :=
  let s1 := s.beforeBoundary
  if s.inReset ∨ s1.tb.ref ≠ .locked then s
  else ((s1.onTb fun t => { t with ref := .holdover, runPeriod := t.measured }).raise classTimebase).boundary s1.tb.lossInstant early

def execLossLimit (early : List BoundaryPart) (s : State) : Answer := .next (s.lossLimit early)

/-! ## The boundary rows of the other blocks (log entry 1) -/

/-- A part the last boundary opened is taken by its block; a part not owed is no event. -/
def State.takeOwed (p : BoundaryPart) (s : State) : State :=
  if s.owed.contains p then (s.takePart p).displayStart else s

/-- The remaining time has reached zero (R70). -/
def execOverReached (s : State) : Answer := .next (s.takeOwed .overReached)
/-- A PENDING event's action comes within the horizon (R102). -/
def execHorizonArming (s : State) : Answer := .next (s.takeOwed .horizon)
/-- The entries of the wheel slot at their frame (R104). -/
def execWheelSlotFiring (s : State) : Answer := .next (s.takeOwed .wheelSlot)
/-- The lamp pattern of a position moves one step (R146). -/
def execLampStepAdvance (p : Fin 4) (s : State) : Answer := .next (s.takeOwed (.lampStep p))
/-- The hail of a position runs out (R149). -/
def execHailRunOut (p : Fin 4) (s : State) : Answer := .next (s.takeOwed (.hail p))
/-- The lead start timeout expires (R135). -/
def execLeadStartTimeout (s : State) : Answer := .next (s.takeOwed .leadTimeout)
/-- The reset hold of an outlet ends (R138). -/
def execResetHoldEnd (o : Fin 8) (s : State) : Answer := .next (s.takeOwed (.resetHold o))
/-- The quiet of a panel input runs out (R159). -/
def execQuietExpiry (n : Fin 4) (s : State) : Answer := .next (s.takeOwed (.quiet n))
/-- A trapped press has waited its twelve boundaries (R165). -/
def execLapse (n : Fin 4) (s : State) : Answer := .next (s.takeOwed (.trapWait n))

end Sys2Proof.Machine
end

