-- ==== Sys2Proof/Machine/Dispatch.lean ====
section
/-! DEFINITION. The one dispatch: each command's row and its meaning. -/
namespace Sys2Proof.Machine

def exec (i : Instr) (s : State) : Host.Outcome State Fault Refusal :=
  match i with
  | .writeTransaction w => Sys2Proof.Machine.execWriteTransaction w s
  | .readTransaction clocked => Sys2Proof.Machine.execReadTransaction clocked s
  | .getItem key => Sys2Proof.Machine.execGetItem key s
  | .getItemAt position => Sys2Proof.Machine.execGetItemAt position s
  | .walk => Sys2Proof.Machine.execWalk s
  | .seek selector value => Sys2Proof.Machine.execSeek selector value s
  | .getEvents key => Sys2Proof.Machine.execGetEvents key s
  | .insertItem b => Sys2Proof.Machine.execInsertItem b s
  | .modifyItem b => Sys2Proof.Machine.execModifyItem b s
  | .moveItem key after => Sys2Proof.Machine.execMoveItem key after s
  | .markItem key mask selector => Sys2Proof.Machine.execMarkItem key mask selector s
  | .addEvent b => Sys2Proof.Machine.execAddEvent b s
  | .modifyEvent b => Sys2Proof.Machine.execModifyEvent b s
  | .removeEvent owner number => Sys2Proof.Machine.execRemoveEvent owner number s
  | .retireItem key => Sys2Proof.Machine.execRetireItem key s
  | .clearRundown => Sys2Proof.Machine.execClearRundown s
  | .recycle adopt keys => Sys2Proof.Machine.execRecycle adopt keys s
  | .openBatch => Sys2Proof.Machine.execOpenBatch s
  | .commitBatch => Sys2Proof.Machine.execCommitBatch s
  | .abandonBatch => Sys2Proof.Machine.execAbandonBatch s
  | .openShow => Sys2Proof.Machine.execOpenShow s
  | .take => Sys2Proof.Machine.execTake s
  | .setNext key => Sys2Proof.Machine.execSetNext key s
  | .hold => Sys2Proof.Machine.execHold s
  | .closeShow => Sys2Proof.Machine.execCloseShow s
  | .abortShow => Sys2Proof.Machine.execAbortShow s
  | .setVector vector key => Sys2Proof.Machine.execSetVector vector key s
  | .setShowEnd indication time => Sys2Proof.Machine.execSetShowEnd indication time s
  | .setWrap seconds => Sys2Proof.Machine.execSetWrap seconds s
  | .getShow => Sys2Proof.Machine.execGetShow s
  | .getSheet page => Sys2Proof.Machine.execGetSheet page s
  | .configureOutlet outlet kind enabled preRoll rate => Sys2Proof.Machine.execConfigureOutlet outlet kind enabled preRoll rate s
  | .resetOutlet outlet => Sys2Proof.Machine.execResetOutlet outlet s
  | .ackOutlet outlet mask => Sys2Proof.Machine.execAckOutlet outlet mask s
  | .getOutlet outlet => Sys2Proof.Machine.execGetOutlet outlet s
  | .setPattern lamp pattern stepLength => Sys2Proof.Machine.execSetPattern lamp pattern stepLength s
  | .hailPresenter position length => Sys2Proof.Machine.execHailPresenter position length s
  | .getPresenter position => Sys2Proof.Machine.execGetPresenter position s
  | .setPanelMode input mode lapse => Sys2Proof.Machine.execSetPanelMode input mode lapse s
  | .verdict input trap decision => Sys2Proof.Machine.execVerdict input trap decision s
  | .setStandard standard => Sys2Proof.Machine.execSetStandard standard s
  | .setTime frames => Sys2Proof.Machine.execSetTime frames s
  | .setTrim trim => Sys2Proof.Machine.execSetTrim trim s
  | .setReference selection => Sys2Proof.Machine.execSetReference selection s
  | .getTimebase => Sys2Proof.Machine.execGetTimebase s
  | .readNotices selector => Sys2Proof.Machine.execReadNotices selector s
  | .ackNotices classes => Sys2Proof.Machine.execAckNotices classes s
  | .setNoticeEnables classes => Sys2Proof.Machine.execSetNoticeEnables classes s
  | .restart => Sys2Proof.Machine.execRestart s
  | .resetAsserted => Sys2Proof.Machine.execResetAsserted s
  | .resetReleased => Sys2Proof.Machine.execResetReleased s
  | .frameBoundary early => Sys2Proof.Machine.execFrameBoundary early s
  | .houseSyncPulse gap early => Sys2Proof.Machine.execHouseSyncPulse gap early s
  | .lossLimit early => Sys2Proof.Machine.execLossLimit early s
  | .overReached => Sys2Proof.Machine.execOverReached s
  | .horizonArming => Sys2Proof.Machine.execHorizonArming s
  | .wheelSlotFiring => Sys2Proof.Machine.execWheelSlotFiring s
  | .lampStepAdvance position => Sys2Proof.Machine.execLampStepAdvance position s
  | .hailRunOut position => Sys2Proof.Machine.execHailRunOut position s
  | .displaySendCompletion => Sys2Proof.Machine.execDisplaySendCompletion s
  | .sendCompletion outlet => Sys2Proof.Machine.execSendCompletion outlet s
  | .readyFall outlet => Sys2Proof.Machine.execReadyFall outlet s
  | .readyRise outlet => Sys2Proof.Machine.execReadyRise outlet s
  | .tallyRise outlet => Sys2Proof.Machine.execTallyRise outlet s
  | .tallyFall outlet => Sys2Proof.Machine.execTallyFall outlet s
  | .leadStartTimeout => Sys2Proof.Machine.execLeadStartTimeout s
  | .resetHoldEnd outlet => Sys2Proof.Machine.execResetHoldEnd outlet s
  | .panelLineChange input level => Sys2Proof.Machine.execPanelLineChange input level s
  | .quietExpiry input => Sys2Proof.Machine.execQuietExpiry input s
  | .lapse input => Sys2Proof.Machine.execLapse input s

end Sys2Proof.Machine
end

