-- ==== Sys2Proof/Machine/Step.lean ====
section
/-! DEFINITION. One step: the command at the front of the queue, or what the part does while none waits. -/
namespace Sys2Proof.Machine

/-- With no command waiting the part goes on by itself (log entry 3): a request in hand is taken; failing that, the boundary
work still owed is done; failing that, nothing happens. -/
def State.idle (s : State) : State :=
  match s.port with
  | .working _ => s.takeInHand
  | _ => if s.owed.isEmpty then s else s.settle

/-- One step. -/
def step (s : State) : Host.Outcome State Fault Refusal :=
  match s.pending with
  | c :: rest => exec c { s with pending := rest }
  | [] => .next s.idle

/-- The command a word spells, put at the front of the queue; no word of this table spells one. -/
def State.withFetchWord (s : State) (nbits w : Nat) : State :=
  match decodeTableWord nbits w with
  | some c => { s with pending := c :: s.pending }
  | none => s

end Sys2Proof.Machine
end

