-- ==== Sys2Proof/Machine/Wires.lean ====
section
/-! DEFINITION. What the transmit lines carry (R125, R150, 11.3): the frame being sent on each outlet link and on the display line, byte
by byte and bit by bit. When the bits fall is left out (log entry 21). -/
namespace Sys2Proof.Machine

/-- An outlet command frame, 4 bytes (11.3). -/
def Frame.bytes (f : Frame) : List Byte := (0xA5 : Byte) :: u8 f.command.code ++ u16 f.payload.toNat

/-- A display frame, 7 bytes (11.3). -/
def displayBytes (a : Fin 6) (d : Shown) : List Byte :=
  (0x5A : Byte) :: u8 a.val ++ u8 d.mode.code ++ u8 d.h ++ u8 d.m ++ u8 d.s ++ u8 d.f

/-- One character on a transmit line (R125, R150): a low start bit, 8 data bits least significant first, no parity, a high stop bit. -/
def charBits (b : Byte) : List Bool := false :: (List.range 8).map (fun k => b.getLsbD k) ++ [true]

/-- The bits of a frame, in the order they go out. -/
def lineBits (bytes : List Byte) : List Bool := bytes.flatMap charBits

/-- The frame an outlet's link is sending, empty while the line is free and idles high (R125). -/
def State.outletWire (s : State) (o : Fin 8) : List Byte :=
  match (s.outlet o).sending, (s.outlet o).queue with
  | some _, f :: _ => f.bytes
  | _, _ => []

/-- The frame the display line is sending, empty while the line is free and idles high (R150). -/
def State.displayWire (s : State) : List Byte :=
  match s.cue.sending with
  | some (a, d) => displayBytes a d
  | none => []

/-- The rate of a link, in bits a second (R121). -/
def LinkRate.baud : LinkRate → Nat
  | .b9600 => 9600
  | .b38400 => 38400
  | .b115200 => 115200

end Sys2Proof.Machine
end

