-- ==== Sys2Proof/Safety.lean ====
section
/-! DEFINITION. The terms claims are stated in: what the port can take, what an operation leaves as it was, and the invariants of
the part's blocks. -/
namespace Sys2Proof.Machine

/-! ## The port -/

/-- The port takes request `i` as the next thing it does: no reset is held, and the status is IDLE or WORKING with `i` in hand
(R176, R189). -/
abbrev State.takes (i : Instr) (s : State) : Prop := s.inReset = false ∧ (s.port = .idle ∨ s.port = .working i)

/-- The state once the port holds an answer (R176). -/
def State.answered (r : Response) (s : State) : State := { s with port := .ready r }

/-- Request `i` is refused with code `c`: an empty body, and nothing but the port moves (R181). -/
def Refuses (i : Instr) (s : State) (c : ResultCode) : Prop := exec i s = .next (s.answered (refusal c))

/-- Request `i` is answered OK with `body` and leaves the part as `t`, the port apart. -/
def Answers (i : Instr) (s t : State) (body : List Byte) : Prop := exec i s = .next (t.answered (okBody body))

/-! ## What the store alone writes -/

/-- An event without its firing fields (R7). -/
def Event.core (e : Event) : Event := { e with state := .idle, cued := false, due := none, lateness := 0 }

/-- An item without what the Firing Unit's and the Show Controller's reports alter between takes: the degraded flag, the revision,
and its events' firing fields (R1, R7, R12). -/
def Item.core (i : Item) : Item := { i with degraded := false, revision := 0, events := i.events.map Event.core }

/-- The Show Controller's state without the take-pending record, the lead record and the airing flags that reports move. -/
def ShowCtl.core (c : ShowCtl) : ShowCtl :=
  { c with ordinary := none, cover := none, phase := .none, leadEnd := none, underrunRaised := false, overReached := false }

/-- The cores of the items, in running order. -/
def State.cores (s : State) : List Item := s.items.map Item.core

/-- What an outlet is configured as and what its lines and its port have written: all of the record but its references, its
queue, its waiting list, the OVERFLOW latch and its fire count (R121). -/
structure OutletSetup where
  kind : OutletKind
  enabled : Bool
  preRoll : Nat
  rate : LinkRate
  ready : Bool
  tally : Bool
  resetHold : Bool
  readyChanged : Bool
  tallyChanged : Bool
  deriving DecidableEq, Repr

/-- An outlet's setup. -/
def Outlet.setup (x : Outlet) : OutletSetup :=
  ⟨x.kind, x.enabled, x.preRoll, x.rate, x.ready, x.tally, x.resetHold, x.readyChanged, x.tallyChanged⟩

/-- What a display or lamp derivation leaves of the Cue Unit: patterns, pending patterns and hails. -/
structure CueKept (c d : CueUnit) : Prop where
  patterns : d.patterns = c.patterns
  waiting : d.pendingPatterns = c.pendingPatterns
  hails : ∀ p, (d.presenters.get p).hail = (c.presenters.get p).hail

/-- What no change of the store and no request of the show moves: the Timebase, the staging area, the panel, the port, the boundary
work owed, the commands waiting, the enable set, the lamp patterns, every outlet's setup. No pending notice is lost. -/
structure Aside (s t : State) : Prop where
  tb : t.tb = s.tb
  batch : t.batch = s.batch
  panel : t.panel = s.panel
  port : t.port = s.port
  discard : t.discard = s.discard
  out : t.dataOut = s.dataOut
  reset : t.inReset = s.inReset
  owed : t.owed = s.owed
  free : t.freeIndex = s.freeIndex
  queue : t.pending = s.pending
  enables : t.notices.enables = s.notices.enables
  grows : s.notices.pending &&& t.notices.pending = s.notices.pending
  cue : CueKept s.cue t.cue
  setup : ∀ o, (t.outlet o).setup = (s.outlet o).setup

/-- What a change of the store leaves as it was besides (R14): the show state and the item on air, the last take, the show end time
and the wrap window; the sheet is formed once (R79, R173; that it is so whether or not a field moved is log entry 6). -/
structure StoreOnly (s t : State) : Prop extends Aside s t where
  show_ : t.ctl.state = s.ctl.state
  onAir : t.ctl.onAir = s.ctl.onAir
  byVector : t.ctl.takenByVector = s.ctl.takenByVector
  showEnd : t.ctl.showEnd = s.ctl.showEnd
  wrap : t.ctl.wrap = s.ctl.wrap
  take : t.notices.lastTake = s.notices.lastTake
  sheet : t.sheetCount = (s.sheetCount + 1) % 65536

/-- The store request a staged change is (R169). -/
def requestOf : StoreChange → Instr
  | .insertItem b => .insertItem b
  | .modifyItem b => .modifyItem b
  | .moveItem key after => .moveItem key after
  | .markItem key mask selector => .markItem key mask selector
  | .addEvent b => .addEvent b
  | .modifyEvent b => .modifyEvent b
  | .removeEvent owner number => .removeEvent owner number
  | .retireItem key => .retireItem key

/-- What an event of an outlet's link or lines leaves as it was: from `s` to `t` only firing fields, outlets, the watch, the
take-pending and lead records and the notices move, and of the notices neither the enable set nor the last take. Where an item
becomes degraded, and only there, the change report of that (R169) forms the sheet once. -/
structure LineOnly (s t : State) : Prop where
  rest : t = { s with
    items := t.items, outlets := t.outlets, watch := t.watch, ctl := t.ctl, notices := t.notices
    cue := t.cue, sheetCount := t.sheetCount }
  quiet : t.items.map Item.degraded = s.items.map Item.degraded → t.cue = s.cue ∧ t.sheetCount = s.sheetCount
  report : t.items.map Item.degraded ≠ s.items.map Item.degraded →
    t.sheetCount = (s.sheetCount + 1) % 65536 ∧ CueKept s.cue t.cue
  cores : t.cores = s.cores
  ctl : t.ctl.core = s.ctl.core
  enables : t.notices.enables = s.notices.enables
  take : t.notices.lastTake = s.notices.lastTake
  grows : s.notices.pending &&& t.notices.pending = s.notices.pending

/-- Every outlet but `o` is as it was. -/
def OthersKept (o : Fin 8) (s t : State) : Prop := ∀ p, p ≠ o → t.outlet p = s.outlet p

/-- The watch after an event that loses outlet `o`: closed where it was open there (R136). -/
def WatchLost (o : Fin 8) (s t : State) : Prop :=
  ((∃ w, s.watch = some w ∧ w.outlet = o) → t.watch = none) ∧ ((∀ w, s.watch = some w → w.outlet ≠ o) → t.watch = s.watch)

/-- An outlet able to hold a cue (R127). -/
abbrev Outlet.Holds (x : Outlet) : Prop :=
  x.enabled = true ∧ x.resetHold = false ∧ x.ready = true ∧ x.cued = none ∧ x.queue.length < 8
    ∧ (x.kind = .clip → x.tally = false)

/-- An outlet with a frame at the back of its queue: a free link starts it (R124, R125). -/
def Outlet.pushed (f : Frame) (x : Outlet) : Outlet :=
  { x with queue := x.queue ++ [f], sending := if x.sending = none then some x.rate else x.sending }

/-- Entry `w` is the head of waiting list `ws` in running order `items` (R128). -/
abbrev IsHead (items : List Item) (ws : List Waiting) (w : Waiting) : Prop :=
  w ∈ ws ∧ ∀ v ∈ ws, w.key < v.key ∨ (w.key = v.key ∧
    (positionIn items w.ref.owner < positionIn items v.ref.owner
      ∨ (positionIn items w.ref.owner = positionIn items v.ref.owner ∧ w.ref.num ≤ v.ref.num)))

/-- The anchor and the fault vectors are where they were. -/
structure PointersKept (c d : ShowCtl) : Prop where
  anchor : d.anchor = c.anchor
  leadLost : d.leadLostKey = c.leadLostKey
  underrun : d.underrunKey = c.underrunKey

/-- Some item of the store has the key. -/
abbrev State.has (s : State) (key : Half) : Prop := ∃ i ∈ s.items, i.key = key.toNat

/-- The place after an after-key: the top, or directly after the item with the key (R10). -/
abbrev PlaceAfter (after : Half) (before : List Item) : Prop :=
  (after = 0xFFFF ∧ before = [])
    ∨ (after ≠ 0xFFFF ∧ ∃ pre x, before = pre ++ [x] ∧ x.key = after.toNat ∧ ∀ y ∈ pre, y.key ≠ after.toNat)

/-- What a request of the show leaves as it was besides: the running order with everything in it but firing fields, the walk
cursor and the last take. -/
structure ShowOnly (s t : State) : Prop extends Aside s t where
  cores : t.cores = s.cores
  cursor : t.cursor = s.cursor
  take : t.notices.lastTake = s.notices.lastTake

/-- The end condition of the on-air item `i` at the house time in force (R67): by its lead while the lead phase is not NONE and the
item is not degraded, else by its duration. -/
def State.EndCondition (s : State) (i : Item) : Prop :=
  if s.ctl.phase ≠ .none ∧ i.degraded = false then s.ctl.phase = .ended
  else ∃ take, i.takeFrame = some take
    ∧ (match i.lead, i.l with | some _, some l => l | _, _ => i.p) ≤ subMod s.day (s.house + 1) take

/-- An AUTOMATIC take is due for the on-air item `i` (R64, R67): its end action is AUTO, it is not held, its end condition is met. -/
def State.AutoDue (s : State) (i : Item) : Prop := i.endAction = .auto ∧ i.held = false ∧ s.EndCondition i

/-- An ordinary take of kind `k` requested (R61): the first fills the part, a later one is counted. -/
def State.ordinaryTake (k : TakeKind) (s : State) : State :=
  if s.ctl.ordinary = none then { s with ctl := { s.ctl with ordinary := some k } }
  else { s with
    notices := { s.notices with
      coalesced := if s.notices.coalesced < 65535 then s.notices.coalesced + 1 else s.notices.coalesced } }

/-- The Show Controller's state `c` once the end condition has been judged in `u` (R67): where an AUTOMATIC take is due for the on-air
item it is requested. -/
def State.Judges (u : State) (c : ShowCtl) : Prop :=
  (∀ i, u.onAirItem = some i → u.AutoDue i → c = (u.ordinaryTake .automatic).ctl)
    ∧ ((∀ i, u.onAirItem = some i → ¬u.AutoDue i) → c = u.ctl)

/-- A frame boundary that the Timebase makes internally finds the part at rest: no reset, no request in hand, no boundary work
owed. -/
def State.atRest (s : State) : Prop := s.inReset = false ∧ (∀ i, s.port ≠ .working i) ∧ s.owed = []

/-- Command `c`, with no part of the boundary taken before the judging, makes a frame boundary at instant `n`, and `tb` is the Timebase
as that boundary finds it: FRAME_BOUNDARY outside LOCKED (R34, R38), LOSS_LIMIT in LOCKED (R42), the pulse that locks and lengthens
a frame (R39), the pulse accepted in LOCKED (R40). -/
inductive State.MakesBoundary (s : State) : Instr → Nat → Timebase → Prop where
  | internal : s.tb.ref ≠ .locked → MakesBoundary s (.frameBoundary []) (max s.tb.now (s.tb.lastBoundary + s.tb.runPeriod)) s.tb
  | lost (p : Nat) : s.tb.ref = .locked → s.tb.lastAccepted = some p →
      MakesBoundary s (.lossLimit []) (max s.tb.now (p + s.tb.standard.lossLimit))
        { s.tb with ref := .holdover, runPeriod := s.tb.measured }
  | locking (gap p : Nat) : s.tb.ref = .acquiring → s.tb.acqPulse = some p → s.tb.standard.inWindow (s.tb.now + gap - p) = true →
      s.tb.acqCount = 2 → s.tb.standard.half ≤ s.tb.now + gap - s.tb.lastBoundary →
      MakesBoundary s (.houseSyncPulse gap []) (s.tb.now + gap)
        { s.tb with
          now := s.tb.now + gap, ref := .locked, acqCount := 0, acqPulse := none
          measured := s.tb.now + gap - p, lastAccepted := some (s.tb.now + gap) }
  | accepted (gap p : Nat) : s.tb.ref = .locked → s.tb.lastAccepted = some p → s.tb.standard.half ≤ s.tb.now + gap - p →
      MakesBoundary s (.houseSyncPulse gap []) (s.tb.now + gap)
        { s.tb with
          now := s.tb.now + gap, lastAccepted := some (s.tb.now + gap)
          measured := if s.tb.standard.inWindow (s.tb.now + gap - p) then s.tb.now + gap - p else s.tb.measured }

/-- No cover part of the record is valid (R64): there is none, or its key names no item or the item on air. -/
def State.coverVoid (s : State) : Prop :=
  ∀ cp, s.ctl.cover = some cp → s.ctl.onAir = some cp.key ∨ ∀ i ∈ s.items, i.key ≠ cp.key

/-- The core of an item as it leaves air at frame `t` (R62). -/
def Item.endedCore (d t : Nat) (why : EndReason) (i : Item) : Item :=
  match i.airing with
  | .onAir take => { i.core with airing := .done take (min (subMod d t take) 1048575) why }
  | _ => i.core

/-- The core of an item as it goes to air at boundary `t` (R63, R13). -/
def Item.airedCore (t : Nat) (i : Item) : Item :=
  { i.core with airing := .onAir t, airCount := if i.airCount < 255 then i.airCount + 1 else i.airCount, held := false }

/-! ## Firings and re-arming -/

/-- Nothing of the part names event `r` besides the store's own record: no wheel entry, planned action or watch, no outlet's
references, list or frames (R25, R108). -/
structure State.Unnamed (s : State) (r : EventRef) : Prop where
  wheel : ∀ w ∈ s.wheel, w.ref ≠ r
  planned : ∀ p ∈ s.planned, p.ref ≠ r
  watch : ∀ w, s.watch = some w → w.ref ≠ r
  cued : ∀ o c, (s.outlet o).cued = some c → c.ref ≠ r
  waiting : ∀ o, ∀ w ∈ (s.outlet o).waiting, w.ref ≠ r
  playing : ∀ o, (s.outlet o).playing ≠ some r
  frames : ∀ o, ∀ f ∈ (s.outlet o).queue, f.event ≠ some r

/-- An outlet able to take a frame: enabled, READY high, no reset hold (R122, R105). -/
abbrev Outlet.On (x : Outlet) : Prop := x.enabled = true ∧ x.ready = true ∧ x.resetHold = false

/-- From `s` to `t` event `e`, named `r`, whose owner was taken at `take`, is armed for a due at distance `q` that lies ahead at elapsed
time `el` (R100, R101, R103, R107): its next action is its cue or its firing, on the wheel within 63 frames where its slot has
room and PENDING beyond; a cue whose time has passed is requested at once with the frames to due as its key. -/
structure ArmsAhead (s t : State) (r : EventRef) (e : Event) (take q el : Nat) : Prop where
  due : (t.event r).map (fun f => (f.due, f.lateness)) = some (some ((take + q) % t.day), 0)
  placed :
    let p := (s.outlet e.outlet).preRoll
    let cues := e.action = .showFrame ∧ 0 < p ∧ e.cued = false ∧ p ≤ q ∧ el < q - p
    let others := s.wheel.filter fun w => w.ref != r
    let plans := s.planned.filter fun w => w.ref != r
    ∀ kind a, (cues → kind = .cue ∧ a = q - p) → (¬cues → kind = .fire ∧ a = q) →
      let frame := (take + a) % t.day
      (a - el ≤ 63 → (others.filter fun w => w.fireFrame % 64 == frame % 64).length < 2 →
        t.wheel = others ++ [⟨r, kind, frame, frame, 0⟩] ∧ t.planned = plans ∧ (t.event r).map Event.state = some .armed)
      ∧ (63 < a - el → t.wheel = others ∧ t.planned = plans ++ [⟨r, kind, a⟩] ∧ (t.event r).map Event.state = some .pending)
      ∧ (kind = .fire → a - el ≤ 63 →
          (∀ k, k ≤ 4 → 2 ≤ (others.filter fun w => w.fireFrame % 64 == (take + a + k) % t.day % 64).length) →
        t.wheel = others ∧ t.planned = plans ∧ (t.event r).map Event.state = some .missed
        ∧ t.notices.missed = (if s.notices.missed < 65535 then s.notices.missed + 1 else s.notices.missed))
  cue :
    let x := s.outlet e.outlet
    let late := e.action = .showFrame ∧ 0 < x.preRoll ∧ e.cued = false ∧ q ≤ x.preRoll + el
    (t.event r).map Event.state ≠ some .missed → x.waiting = [] →
    (late → x.Holds →
      t.outlet e.outlet = { x.pushed ⟨.cue, e.payload, some r, false⟩ with cued := some ⟨r, q - el, e.payload⟩ }
      ∧ (t.event r).map Event.cued = some true)
    ∧ (late → ¬x.Holds → (∀ c, x.cued = some c → c.ref ≠ r) →
      t.outlet e.outlet = { x with waiting := [⟨r, q - el⟩] } ∧ (t.event r).map Event.cued = some false)
    ∧ (¬late → t.outlet e.outlet = x ∧ (t.event r).map Event.cued = some e.cued)

/-- From `s` to `t` event `e`, named `r`, is fired with lateness `late` on an outlet that is on and has room (R105 case 3), or is
skipped on one that is off (case 1), or missed on a full queue (case 2). Frames are told without their lead marks. -/
structure Fires (s t : State) (r : EventRef) (e : Event) (late : Nat) : Prop where
  fired : (s.outlet e.outlet).On → (s.outlet e.outlet).queue.length < 8 →
    (t.event r).map (fun f => (f.state, f.lateness)) = some (.fired, late)
    ∧ (∃ tail, (t.outlet e.outlet).queue.map (fun f => (f.command, f.payload, f.event))
        = (s.outlet e.outlet).queue.map (fun f => (f.command, f.payload, f.event))
          ++ (if e.action = .showFrame then (.showFrame, e.payload, some r) else (.clear, 0, some r)) :: tail)
    ∧ t.notices.late = (if 0 < late ∧ s.notices.late < 65535 then s.notices.late + 1 else s.notices.late)
  skipped : ¬(s.outlet e.outlet).On →
    (t.event r).map (fun f => (f.state, f.lateness)) = some (.skipped, 0)
    ∧ t.notices.skipped = (if s.notices.skipped < 65535 then s.notices.skipped + 1 else s.notices.skipped)
    ∧ t.notices.pending.getLsbD 5 = true
    ∧ (e.required = true → ∃ i, t.item r.owner = some i ∧ i.degraded = true)
  missed : (s.outlet e.outlet).On → (s.outlet e.outlet).queue.length = 8 →
    (t.event r).map (fun f => (f.state, f.lateness)) = some (.missed, 0)
    ∧ t.notices.missed = (if s.notices.missed < 65535 then s.notices.missed + 1 else s.notices.missed)
    ∧ t.notices.pending.getLsbD 5 = true ∧ (t.outlet e.outlet).overflow = true

/-- An event as its owner's end leaves it (R115 steps 2 and 4): one not yet acted becomes SKIPPED, and no event keeps a due. -/
def Event.atEnd (e : Event) : EventState × Nat × Option Nat :=
  (match e.state with | .pending => .skipped | .armed => .skipped | st => st, e.lateness, none)

/-- The outlet is left showing a clear-at-end event of item `i` (R117): it plays one, or has one's SHOW in its queue. -/
def Outlet.Shows (i : Item) (x : Outlet) : Prop :=
  ∃ e ∈ i.events, e.clearAtEnd = true
    ∧ (x.playing = some ⟨i.key, e.num⟩ ∨ ∃ f ∈ x.queue, f.command = .showFrame ∧ f.event = some ⟨i.key, e.num⟩)

/-! ## What a batch carries along -/

/-- The key of the item after the one with key `k`, and of the one before it. -/
def keyAfter (k : Nat) (items : List Item) : Option Nat := ((items.dropWhile fun i => i.key != k).drop 1).head?.map Item.key
def keyBefore (k : Nat) (items : List Item) : Option Nat := (items.takeWhile fun i => i.key != k).getLast?.map Item.key

/-- The walk cursor after a list of changes, each of which passes, in staging order (R29, R172). -/
def cursorAlong (d : Nat) : List StoreChange → List Item → Cursor → Cursor
  | [], _, at_ => at_
  | c :: rest, items, at_ =>
    cursorAlong d rest (stagedView d items [c])
      (match c with
        | .retireItem key =>
          if at_ = .item key.toNat then (match keyAfter key.toNat items with | some n => .item n | none => .finish) else at_
        | _ => at_)

/-- Where an anchor stands after a list of changes, by comparison of before and after (R59, R173): at its own retirement a key that the
list leaves retired gives way to its predecessor as it stood then; a key retired and inserted again stays, and of several
retirements of one key the last counts (log entry 7). -/
def anchorAlong (d : Nat) : List StoreChange → List Item → Option Nat → Option Nat
  | [], _, at_ => at_
  | c :: rest, items, at_ =>
    anchorAlong d rest (stagedView d items [c])
      (match c with
        | .retireItem key =>
          if at_ = some key.toNat ∧ .retireItem key ∉ rest ∧ ∀ i ∈ stagedView d items (c :: rest), i.key ≠ key.toNat
          then keyBefore key.toNat items else at_
        | _ => at_)

/-! ## Lamps and displays -/

/-- Lamp state `l` is the first line of R143's table that applies to position `p` with `hail` frames of hail remaining. -/
def State.LampRule (s : State) (p : Fin 4) (hail : Nat) (l : Lamp) : Prop :=
  let inSet := fun i : Item => i.presenters.getLsbD p.val = true
  let airs := (s.ctl.state = .live ∨ s.ctl.state = .last) ∧ ∃ i, s.onAirItem = some i ∧ inSet i
  let stands := (s.ctl.state = .armed ∨ s.ctl.state = .live) ∧ ∃ k i, s.ctl.next = some k ∧ s.item k = some i ∧ inSet i
  let w : Int := (s.ctl.wrap * (if s.tb.standard = .s25 then 25 else 30) : Nat)
  (0 < hail → l = .hailed)
    ∧ (hail = 0 → airs → ∀ r, s.remaining = some r →
        (r ≤ 0 → l = .over) ∧ (0 < r → r ≤ w → l = .wrap) ∧ (0 < r → w < r → l = .on))
    ∧ (hail = 0 → ¬airs → stands → l = .standby)
    ∧ (hail = 0 → ¬airs → ¬stands → l = .dark)

/-- The display of `sec` seconds in a mode (R94, R150). -/
def secondsOn (mode : DisplayMode) (sec : Nat) : Shown :=
  ⟨mode, min sec 86399 / 3600, min sec 86399 / 60 % 60, min sec 86399 % 60, 0⟩

/-- Display `d` is what a presenter in lamp state `l` is shown (R151, with the roundings of R91 and R92). -/
def State.DisplayRule (s : State) (l : Lamp) (d : Shown) : Prop :=
  let up := fun x : Nat => match s.tb.standard with | .s25 => (x + 24) / 25 | .s30 => (x + 29) / 30 | .s30D => (x * 1001 + 29999) / 30000
  let down := fun x : Nat => match s.tb.standard with | .s25 => x / 25 | .s30 => x / 30 | .s30D => x * 1001 / 30000
  (l = .hailed → d = ⟨.hail, 0, 0, 0, 0⟩) ∧ (l = .dark → d = ⟨.blank, 0, 0, 0, 0⟩)
    ∧ ∀ r, s.remaining = some r → -8388607 ≤ r → r ≤ 8388607 →
      (l = .on ∨ l = .wrap → d = secondsOn .countdown (up r.toNat))
      ∧ (l = .over → d = secondsOn .overrun (down (-r).toNat))
      ∧ (l = .standby → d = secondsOn .nextIn (up (max r 0).toNat))

/-- A derivation in state `s` makes record `y` of position `p`'s record `x` (R144, R147, R151). -/
structure Derived (s : State) (p : Fin 4) (x y : Presenter) : Prop where
  lamp : s.LampRule p x.hail y.lamp
  value : s.DisplayRule y.lamp y.shown
  same : y.lamp = x.lamp → y.step = x.step ∧ y.frames = x.frames ∧ y.restartMark = x.restartMark
  fresh : y.lamp ≠ x.lamp → y.step = 0 ∧ y.frames = 0 ∧ y.restartMark = some s.house
  hail : y.hail = x.hail

/-- A presenter record without its last sent, which the display line writes (R155). -/
def Presenter.unsent (x : Presenter) : Presenter := { x with lastSent := none }

/-- What a boundary made at instant `n` makes of the Timebase: house time advances or the pending load is stored, and a pending
standard takes effect (R34, R43, R44, R46). -/
structure BoundaryTb (n : Nat) (a b : Timebase) : Prop where
  instant : b.lastBoundary = n ∧ b.now = n
  pulse : b.pulseOut = true ↔ a.ref = .freeRun
  loaded : ∀ v, a.load = some v → b.houseTime = v
  advanced : a.load = none → b.houseTime = if a.houseTime + 1 < a.standard.day then a.houseTime + 1 else 0
  emptied : b.load = none ∧ b.pendingStandard = none
  standard : b.standard = a.pendingStandard.getD a.standard
  free : a.ref = .freeRun → b.ref = .freeRun ∧ b.runPeriod = (b.standard.nominal + a.trim).toNat ∧ b.acqCount = a.acqCount
  kept : a.pendingStandard = none → b.ref = a.ref ∧ b.measured = a.measured ∧ b.acqCount = a.acqCount ∧ b.acqPulse = a.acqPulse
    ∧ (a.ref ≠ .freeRun → b.runPeriod = a.runPeriod)
  renewed : ∀ st, a.pendingStandard = some st → b.measured = st.nominal
    ∧ (a.ref ≠ .freeRun → b.ref = .acquiring ∧ b.acqCount = 0 ∧ b.acqPulse = none ∧ b.runPeriod = st.nominal)
  others : b.trim = a.trim ∧ b.glitches = a.glitches ∧ b.lastAccepted = a.lastAccepted

/-- A press of input `n` settled by the mode of its input (R160, R163). -/
def State.pressed (n : Fin 4) (s : State) : State :=
  let x := s.panel.get n
  match x.mode, x.trap with
  | .act, _ => s.panelAction n
  | .trap, none => { s with
      panel := s.panel.set n { x with
        trap := some ⟨x.nextTrap, s.house, 0⟩
        nextTrap := if x.nextTrap < 255 then x.nextTrap + 1 else 1 }
      notices := { s.notices with pending := s.notices.pending ||| 0x08 } }
  | _, _ => { s with
      notices := { s.notices with
        panelIgnored := if s.notices.panelIgnored < 65535 then s.notices.panelIgnored + 1 else s.notices.panelIgnored } }

/-- The first eligible item after the anchor, or of the rundown when the anchor is absent (R56). -/
def follow (items : List Item) (anchor : Option Nat) : Option Nat :=
  ((match anchor with
    | none => items
    | some a => (items.dropWhile fun i : Item => i.key != a).drop 1).find? fun i : Item => decide (i.airing = Airing.pending) && !i.floated).map Item.key

/-! ## Invariants -/

/-- Event numbers strictly ascending (R11). -/
def ascending : List Event → Bool
  | a :: b :: rest => decide (a.num.val < b.num.val) && ascending (b :: rest)
  | _ => true

/-- A lead names an existing SHOW event of its item (R5). -/
def Item.leadOk (i : Item) : Bool :=
  match i.lead with
  | none => true
  | some n => match i.event n with | some e => e.action == .showFrame | none => false

/-- The store's bounds (R9, R11, R5): at most 256 items with pairwise different keys, at most 16 events an item with different
numbers in ascending order, the pool not exceeded, every lead a SHOW event of its item. -/
structure StoreOk (items : List Item) : Prop where
  size : items.length ≤ 256
  keys : (items.map Item.key).Nodup
  range : ∀ i ∈ items, 1 ≤ i.key ∧ i.key ≤ 65534
  lists : ∀ i ∈ items, i.events.length ≤ 16 ∧ ascending i.events = true
  leads : ∀ i ∈ items, i.leadOk = true
  pool : poolUsed items ≤ 1024

/-- An item's field ranges (R1, R2): a slug of at most 16 printable characters, P and L at most 1,048,575 frames, an actual
duration at most that, an air count at most 255. -/
structure RecordOk (i : Item) : Prop where
  slug : i.slug.length ≤ 16
  chars : ∀ c ∈ i.slug, 0x20 ≤ c.toNat ∧ c.toNat ≤ 0x7E
  p : i.p ≤ 1048575
  l : ∀ n, i.l = some n → n ≤ 1048575
  airCount : i.airCount ≤ 255
  actual : ∀ t a why, i.airing = .done t a why → a ≤ 1048575

/-- The ranges of an item's revision and of its events' offset and lateness (R1, R7). -/
structure CountsOk (i : Item) : Prop where
  revision : i.revision ≤ 65535
  offset : ∀ e ∈ i.events, e.offset ≤ 65535
  lateness : ∀ e ∈ i.events, e.lateness ≤ 12

/-- Every item is within its field ranges. -/
def RecordsOk (items : List Item) : Prop := ∀ i ∈ items, RecordOk i

/-- An outlet's bounds (R124, R121): at most 8 frames and 4 waiting entries with no duplicates, a frame being sent exactly while
one is queued, a held cue not also waiting; a DISABLED or OFFLINE outlet holds no reference and no frame but the CLEAR of a
reset. -/
structure OutletOk (x : Outlet) : Prop where
  queue : x.queue.length ≤ 8
  waiting : x.waiting.length ≤ 4
  nodup : (x.waiting.map Waiting.ref).Nodup
  sending : x.sending.isSome = true ↔ x.queue ≠ []
  held : ∀ c, x.cued = some c → c.ref ∉ x.waiting.map Waiting.ref
  off : x.state = .disabled ∨ x.state = .offline → x.cued = none ∧ x.playing = none ∧ (x.queue = [] ∨ x.queue = [clearFrame])

/-- Every outlet is within its bounds. -/
def OutletsOk (s : State) : Prop := ∀ o, OutletOk (s.outlet o)

/-- A panel input's bounds (R158): a trapped press only in TRAP mode, its number 1 to 255 and its wait at most 11; quiet at most 3;
the next trap number 1 to 255. -/
structure InputOk (x : Input) : Prop where
  mode : x.trap.isSome = true → x.mode = .trap
  trap : ∀ t, x.trap = some t → 1 ≤ t.num ∧ t.num ≤ 255 ∧ t.waited ≤ 11
  quiet : x.quiet ≤ 3
  next : 1 ≤ x.nextTrap ∧ x.nextTrap ≤ 255

/-- Every panel input is within its bounds. -/
def PanelOk (s : State) : Prop := ∀ n, InputOk (s.panel.get n)

/-- The Timebase's bounds (R35, R37, R41, R43, R44, R45): house time and a pending load below their day lengths, the trim within
±127, the acquisition count below 3, the glitch counter saturating, the measured period within the acquisition window; a
pending standard brings a pending load. -/
structure TimebaseOk (t : Timebase) : Prop where
  house : t.houseTime < t.standard.day
  load : ∀ v, t.load = some v → v < t.loadDay
  both : t.pendingStandard.isSome = true → t.load.isSome = true
  trim : -127 ≤ t.trim ∧ t.trim ≤ 127
  count : t.acqCount ≤ 2
  free : t.ref = .freeRun → t.acqCount = 0
  glitches : t.glitches ≤ 65535
  measured : t.standard.inWindow t.measured = true

/-- The keys of the items that are ON_AIR. -/
def State.airing (s : State) : List Nat := (s.items.filter Item.isOnAir).map Item.key

/-- The Show Controller's pointers (R51, R56): at most one item is ON_AIR, the on-air pointer names it, and there is one exactly in
LIVE and LAST; NEXT, when present, names an eligible item, and is present only in ARMED and LIVE. -/
structure ShowOk (s : State) : Prop where
  keys : (s.items.map Item.key).Nodup
  one : s.airing = s.ctl.onAir.toList
  live : s.ctl.onAir.isSome = true ↔ s.ctl.state = .live ∨ s.ctl.state = .last
  next : ∀ k, s.ctl.next = some k → (s.ctl.state = .armed ∨ s.ctl.state = .live) ∧ s.eligibleKey k = true

/-- NEXT is at all times what the rules derive (R56, R58): in ARMED and LIVE the pinned item while the pin is set, else the item
found by following; in CLOSED and LAST absent. -/
structure NextOk (s : State) : Prop where
  off : s.ctl.state = .closed ∨ s.ctl.state = .last → s.ctl.next = none ∧ s.ctl.pinned = false
  pin : s.ctl.pinned = true → s.ctl.next.isSome = true
  followed : s.ctl.state = .armed ∨ s.ctl.state = .live → s.ctl.pinned = false → s.ctl.next = follow s.items s.ctl.anchor

/-- The wheel and the events (R97, R98): every wheel entry belongs to an ARMED event of the on-air item and every ARMED event has exactly
one entry, as every PENDING event has one planned action; the due frame is present exactly while the owner is on air, whose events
are not IDLE; the events of a PENDING item are IDLE; the lateness is 0 for every event that has not FIRED. -/
structure WheelOk (s : State) : Prop where
  entries : ∀ w ∈ s.wheel, s.ctl.onAir = some w.ref.owner ∧ (s.event w.ref).map Event.state = some .armed
  one : (s.wheel.map WheelEntry.ref).Nodup
  armed : ∀ r e, s.event r = some e → e.state = .armed → r ∈ s.wheel.map WheelEntry.ref
  plans : ∀ p ∈ s.planned, s.ctl.onAir = some p.ref.owner ∧ (s.event p.ref).map Event.state = some .pending
  onePlan : (s.planned.map Planned.ref).Nodup
  pending : ∀ r e, s.event r = some e → e.state = .pending → r ∈ s.planned.map Planned.ref
  due : ∀ r e, s.event r = some e → (e.due.isSome = true ↔ s.ctl.onAir = some r.owner)
  active : ∀ r e, s.event r = some e → s.ctl.onAir = some r.owner → e.state ≠ .idle
  idle : ∀ i ∈ s.items, i.airing = .pending → ∀ e ∈ i.events, e.state = .idle
  lateness : ∀ r e, s.event r = some e → e.state ≠ .fired → e.lateness = 0

/-- The outlets' cues and the events (R98, R113, R121): a cue is held or waits only for an event of the on-air item or of NEXT, at the
outlet of its outlet field; an event is cued exactly while that outlet holds its cue. In CLOSED, where nothing is on air or NEXT, no
outlet holds a cue or lists one (R53). A part held in reset has no item and no request in hand (R32, R189). -/
structure CuesOk (s : State) : Prop where
  held : ∀ o c, (s.outlet o).cued = some c →
    (s.ctl.onAir = some c.ref.owner ∨ s.ctl.next = some c.ref.owner) ∧ ∃ e, s.event c.ref = some e ∧ e.outlet = o ∧ e.cued = true
  listed : ∀ o, ∀ w ∈ (s.outlet o).waiting,
    (s.ctl.onAir = some w.ref.owner ∨ s.ctl.next = some w.ref.owner) ∧ ∃ e, s.event w.ref = some e ∧ e.outlet = o ∧ e.cued = false
  flag : ∀ r e, s.event r = some e → e.cued = true → ∃ c, (s.outlet e.outlet).cued = some c ∧ c.ref = r
  closed : s.ctl.state = .closed → ∀ o, (s.outlet o).cued = none ∧ (s.outlet o).waiting = []
  reset : s.inReset = true → s.items = [] ∧ ∀ i, s.port ≠ .working i

/-- The staging area's bound (R168). -/
def BatchOk (s : State) : Prop := ∀ l, s.batch = some l → l.length ≤ 32

/-- The notice summary's counters saturate at 65,535 (R186). -/
structure CountersOk (n : Notices) : Prop where
  late : n.late ≤ 65535
  skipped : n.skipped ≤ 65535
  missed : n.missed ≤ 65535
  coalesced : n.coalesced ≤ 65535
  ignored : n.panelIgnored ≤ 65535

/-- A presenter record's bounds (R142). -/
structure PresenterOk (x : Presenter) : Prop where
  frames : x.frames ≤ 14
  hail : x.hail ≤ 1000

/-- The Cue Unit's bounds (R142, R145): step lengths of 1 to 15 frames in the table and in its pending entries. -/
structure CueOk (c : CueUnit) : Prop where
  presenters : ∀ p, PresenterOk (c.presenters.get p)
  patterns : ∀ l, 1 ≤ (c.patterns.get l).length ∧ (c.patterns.get l).length ≤ 15
  waiting : ∀ l p, c.pendingPatterns.get l = some p → 1 ≤ p.length ∧ p.length ≤ 15

/-- The display line is never free while a slot is filled (R155). -/
def DisplayOk (s : State) : Prop := s.inReset = false → s.cue.sending = none → ∀ a, s.cue.slots.get a = none

end Sys2Proof.Machine
end

