-- ==== Sys2Proof/Certificates/Slice0/Obligations.lean ====
section
/-! DEFINITION. The statements for the provers, from the numbered rules of spec/. `s.takes i` says that the port takes request `i` next,
whether the queue brings it or it is in hand; `Refuses` and `Answers` are equations of whole states, so each of them says also that
everything it does not name is as it was. -/
open Sys2Proof Sys2Proof.Machine

/-! ## The queue and the port (10.1, 10.2) -/

/-- A step runs the command at the front of the queue, with the queue's rest. -/
def Obligations.StepRunsFront : Prop :=
  ∀ (c : Instr) (rest : List Instr) (s : State), step { s with pending := c :: rest } = exec c { s with pending := rest }

/-- The end of a write transaction (R175 to R178). The first byte shifted out is the status as it stood; the others are free bytes
(log entry 5), so `out` is constrained in its length and its first byte alone. No whole byte: no transaction. The clock stands at the
transaction's end after it, `gap` ticks after the last timed event (log entry 2); under reset it stands still. -/
def Obligations.WriteTransaction : Prop :=
  (∀ (gap : Nat) (s : State), s.inReset = true → exec (.writeTransaction ⟨gap, []⟩) s = .next s)
  ∧ (∀ (gap : Nat) (s : State), s.inReset = false →
      exec (.writeTransaction ⟨gap, []⟩) s = .next { s with tb := { s.tb with now := s.tb.now + gap } })
  ∧ ∀ (gap : Nat) (bytes : List Byte) (s : State), bytes ≠ [] → bytes.head? ≠ some 0x02 → s.inReset = false →
    ∃ out : List Byte, out.length = bytes.length ∧ out.head? = some s.port.byte ∧
      let after : State := { s with
        dataOut := out, freeIndex := s.freeIndex + 1, tb := { s.tb with now := s.tb.now + gap } }
      (s.port = .idle → ∀ i, decodeFrame bytes = some i →
          exec (.writeTransaction ⟨gap, bytes⟩) s = .next { after with port := .working i })
      ∧ (s.port = .idle → decodeFrame bytes = none →
          exec (.writeTransaction ⟨gap, bytes⟩) s = .next { after with port := .ready ⟨.badRequest, [], []⟩ })
      ∧ (s.port ≠ .idle → exec (.writeTransaction ⟨gap, bytes⟩) s = .next { after with discard := true })

/-- The end of a read transaction of `n` bytes (R175, R176, R179, R189): the status, then zeros, or the held response followed by
zeros; a read that reaches the end of the response releases it and clears the discard flag. A transaction whose first byte is 0x02
is a read, by either row, the write row's gap apart (log entry 2). -/
def Obligations.ReadTransaction : Prop :=
  ∀ (n : Nat) (s : State),
    (∀ (gap : Nat) (rest : List Byte), s.inReset = true →
        exec (.writeTransaction ⟨gap, 0x02 :: rest⟩) s = exec (.readTransaction (rest.length + 1)) s)
    ∧ (∀ (gap : Nat) (rest : List Byte), s.inReset = false →
        exec (.writeTransaction ⟨gap, 0x02 :: rest⟩) s
          = exec (.readTransaction (rest.length + 1)) { s with tb := { s.tb with now := s.tb.now + gap } })
    ∧ (n = 0 → exec (.readTransaction n) s = .next s)
    ∧ (1 ≤ n → s.inReset = true →
        exec (.readTransaction n) s = .next { s with dataOut := (0x20 : Byte) :: List.replicate (n - 1) 0 })
    ∧ (1 ≤ n → s.inReset = false → (∀ r, s.port ≠ .ready r) →
        exec (.readTransaction n) s = .next { s with dataOut := s.port.byte :: List.replicate (n - 1) 0 })
    ∧ ∀ r, 1 ≤ n → s.inReset = false → s.port = .ready r →
        let body : List Byte :=
          [if s.discard then 1 else 0, r.code.byte, BitVec.ofNat 8 (r.body.length / 256), BitVec.ofNat 8 r.body.length] ++ r.body
        let after : State := { s with dataOut := (0x22 : Byte) :: (body ++ List.replicate n 0).take (n - 1) }
        (n < 5 + r.body.length → exec (.readTransaction n) s = .next after)
        ∧ (5 + r.body.length ≤ n → exec (.readTransaction n) s = .next { after with port := .idle, discard := false })

/-- A request frame decodes to a request exactly when it is the frame that request is written as, of a length its layout permits
(R177, R192, 11.1): a round trip, so no bit of a frame is dropped. -/
def Obligations.FrameExact : Prop :=
  ∀ (bytes : List Byte) (i : Instr), decodeFrame bytes = some i ↔ encodeFrame i = some bytes ∧ i.wellFormed = true

/-- Any request at the port (R176 to R178, R180, R189): one that reaches a port with a response held, or with another request in
hand, is discarded and sets the discard flag; while the Reset line is asserted none is taken; one whose body has a length its
layout does not permit is answered BAD_REQUEST and reaches no block; any other gets its owner's answer. The commands' queue is
log entry 3's. -/
def Obligations.RequestPort : Prop :=
  ∀ (i : Instr) (f : State → State × Response) (s : State), requestAnswer i = some f →
    (s.inReset = true → exec i s = .next s)
    ∧ (∀ r, s.inReset = false → s.port = .ready r → exec i s = .next { s with discard := true })
    ∧ (∀ j, s.inReset = false → s.port = .working j → j ≠ i → exec i s = .next { s with discard := true })
    ∧ (s.takes i → i.wellFormed = false → Refuses i s .badRequest)
    ∧ (s.takes i → i.wellFormed = true → exec i s = .next ((f s).1.answered (f s).2))

/-! ## Looking at the store (1.5, 1.6) -/

/-- GET_ITEM, GET_ITEM_AT (R16) and GET_EVENTS (R17), whole: from the live store whether or not a batch is open, altering nothing. An
event list is at most 16 blocks of 16 bytes, in ascending number. Every byte of an item block and an event block (11.2). -/
def Obligations.LookUps : Prop :=
  (∀ (key : Half) (s : State), s.takes (.getItem key) →
    (key = 0 ∨ key = 0xFFFF → Refuses (.getItem key) s .badField)
    ∧ (key ≠ 0 → key ≠ 0xFFFF → (∀ i ∈ s.items, i.key ≠ key.toNat) → Refuses (.getItem key) s .noSuchItem)
    ∧ ∀ i before after, key ≠ 0 → key ≠ 0xFFFF → s.items = before ++ i :: after → i.key = key.toNat →
        (∀ j ∈ before, j.key ≠ key.toNat) → Answers (.getItem key) s s (itemBlock s.items i))
  ∧ (∀ (position : Half) (s : State), s.takes (.getItemAt position) →
    (position = 0 ∨ s.items.length < position.toNat → Refuses (.getItemAt position) s .noSuchItem)
    ∧ ∀ i before after, s.items = before ++ i :: after → position.toNat = before.length + 1 →
        Answers (.getItemAt position) s s (itemBlock s.items i))
  ∧ (∀ (key : Half) (s : State), s.takes (.getEvents key) →
    (key = 0 ∨ key = 0xFFFF → Refuses (.getEvents key) s .badField)
    ∧ (key ≠ 0 → key ≠ 0xFFFF → (∀ i ∈ s.items, i.key ≠ key.toNat) → Refuses (.getEvents key) s .noSuchItem)
    ∧ ∀ i, StoreOk s.items → key ≠ 0 → key ≠ 0xFFFF → i ∈ s.items → i.key = key.toNat →
        Answers (.getEvents key) s s
          (u16 i.key ++ u16 i.revision ++ u8 i.events.length ++ (i.events.map (eventBlock i.key)).flatten)
        ∧ i.events.length ≤ 16 ∧ (i.events.map fun e => e.num.val).Pairwise (· < ·)
        ∧ ∀ e ∈ i.events, (eventBlock i.key e).length = 16)
  ∧ (∀ (owner : Nat) (e : Event),
    eventBlock owner e = u16 owner ++ u8 e.num.val ++ u8 e.outlet.val ++ u8 (if e.action = .showFrame then 0 else 1)
      ++ u8 (if e.anchor = .start then 0 else 1) ++ u16 e.offset ++ u16 e.payload.toNat
      ++ u8 ((if e.clearAtEnd then 1 else 0) + (if e.required then 2 else 0) + (if e.cued then 4 else 0))
      ++ u8 (match e.state with | .idle => 0 | .pending => 1 | .armed => 2 | .fired => 3 | .skipped => 4 | .missed => 5)
      ++ u24 (e.due.getD 0xFFFFFF) ++ u8 e.lateness)
  ∧ ∀ (items before after : List Item) (i : Item), RecordOk i → items = before ++ i :: after → (∀ j ∈ before, j.key ≠ i.key) →
    (itemBlock items i).length = 48
    ∧ itemBlock items i = u16 i.key ++ u16 (before.length + 1) ++ u8 i.slug.length ++ i.slug
        ++ List.replicate (16 - i.slug.length) (0 : Byte) ++ u24 i.p ++ u24 (i.l.getD 0xFFFFFF)
        ++ u24 (match i.lead, i.l with | some _, some l => l | _, _ => i.p)
        ++ u8 (match i.lead with | some n => n.val | none => 0xFF) ++ u8 (if i.endAction = .auto then 1 else 0)
        ++ u24 (i.hard.getD 0xFFFFFF) ++ u8 i.presenters.toNat
        ++ u8 ((if i.floated then 1 else 0) + (if i.held then 2 else 0) + (if i.degraded then 4 else 0))
        ++ (match i.airing with
            | .pending => [0, 0xFF, 0xFF, 0xFF, 0xFF, 0xFF, 0xFF, 0]
            | .onAir t => u8 1 ++ u24 t ++ [0xFF, 0xFF, 0xFF, 0]
            | .done t a why => u8 2 ++ u24 t ++ u24 a ++ u8 (match why with
                | .take => 1 | .auto => 2 | .autoEarly => 3 | .covered => 4 | .closed => 5 | .aborted => 6))
        ++ u8 i.airCount ++ u16 i.revision

/-- WALK (R30) and SEEK (R31), whole: each line of WALK's table, and each way of SEEK with the WALK that follows it. -/
def Obligations.WalkAndSeek : Prop :=
  (∀ s : State, s.takes .walk →
    (∀ i before after, (s.items.map Item.key).Nodup → s.items = before ++ i :: after →
      s.cursor = .item i.key ∨ (s.cursor = .top ∧ before = []) →
      Answers .walk s { s with cursor := match after with | [] => .finish | n :: _ => .item n.key } (itemBlock s.items i))
    ∧ (s.cursor = .top → s.items = [] → Answers .walk s s (u16 65535))
    ∧ (s.cursor = .finish → Answers .walk s s (u16 65535)))
  ∧ ∀ (selector : Byte) (value : Half) (s : State), s.takes (.seek selector value) →
    (selector = 0 → Answers (.seek selector value) s { s with cursor := .top } (u16 65535))
    ∧ (selector = 1 → value = 0 ∨ value = 0xFFFF → Refuses (.seek selector value) s .badField)
    ∧ (selector = 1 → value ≠ 0 → value ≠ 0xFFFF → (∀ i ∈ s.items, i.key ≠ value.toNat) →
        Refuses (.seek selector value) s .noSuchItem)
    ∧ (selector = 2 → value = 0 ∨ s.items.length < value.toNat → Refuses (.seek selector value) s .noSuchItem)
    ∧ (2 < selector.toNat → Refuses (.seek selector value) s .badField)
    ∧ ∀ i before after, (s.items.map Item.key).Nodup → s.items = before ++ i :: after →
        (selector = 1 ∧ value ≠ 0 ∧ value ≠ 0xFFFF ∧ i.key = value.toNat)
          ∨ (selector = 2 ∧ value.toNat = before.length + 1) →
        Answers (.seek selector value) s { s with cursor := .item i.key } (itemBlock s.items i)
        ∧ ∃ c, Answers .walk { s with cursor := .item i.key, port := .idle }
            { s with cursor := c, port := .idle } (itemBlock s.items i)

/-! ## The store changes with no batch open (1.5): the tests in order, then the change. `t.cores` is the running order after the
change, firing fields, degraded flags and revisions apart. -/

/-- INSERT_ITEM (R18, R1 to R5, R10, R15, R29). That the sheet is formed once for the change report, fields moved or not, is log entry
6. -/
def Obligations.InsertItem : Prop :=
  ∀ (b : InsertBody) (s : State), s.takes (.insertItem b) → b.slug.length ≤ 233 → s.batch = none →
    let fields := b.key ≠ 0 ∧ b.key ≠ 0xFFFF ∧ b.after ≠ 0 ∧ b.endAction.toNat ≤ 1 ∧ b.presenters.toNat ≤ 15
      ∧ b.presence.toNat ≤ 3 ∧ (b.presence.getLsbD 1 = true → b.hard.toNat < s.day)
    (¬fields → Refuses (.insertItem b) s .badField)
    ∧ (fields → b.after ≠ 0xFFFF → ¬s.has b.after → Refuses (.insertItem b) s .noSuchItem)
    ∧ (fields → b.after = 0xFFFF ∨ s.has b.after → 256 ≤ s.items.length → Refuses (.insertItem b) s .tableFull)
    ∧ (fields → b.after = 0xFFFF ∨ s.has b.after → s.items.length < 256 → s.has b.key →
        Refuses (.insertItem b) s .duplicateKey)
    ∧ ∀ before rest, fields → s.items.length < 256 → ¬s.has b.key → s.items = before ++ rest → PlaceAfter b.after before →
        let new : Item :=
          { key := b.key.toNat
            slug := (b.slug.take 16).map fun c => if 0x20 ≤ c.toNat ∧ c.toNat ≤ 0x7E then c else 0x3F
            p := min b.p.toNat 1048575
            l := if b.presence.getLsbD 0 then some (min b.l.toNat 1048575) else none
            lead := none
            endAction := if b.endAction = 1 then .auto else .manual
            hard := if b.presence.getLsbD 1 then some b.hard.toNat else none
            presenters := b.presenters.setWidth 4
            floated := false, airing := .pending, degraded := false, held := false, airCount := 0, revision := 0, events := [] }
        ∃ t, ∃ i ∈ t.items, i.key = b.key.toNat ∧ Answers (.insertItem b) s t (itemBlock t.items i)
          ∧ t.cores = before.map Item.core ++ new :: rest.map Item.core
          ∧ t.cursor = s.cursor ∧ StoreOnly s t ∧ PointersKept s.ctl t.ctl

/-- MODIFY_ITEM (R19, R20, R2 to R5). A key of 0 or 65,535 is BAD_FIELD by log entry 10 (DEDUCED: R19 names an unknown key alone); the
one forming of the sheet is log entry 6. -/
def Obligations.ModifyItem : Prop :=
  ∀ (b : ModifyBody) (s : State), s.takes (.modifyItem b) → b.slug.length ≤ 228 → s.batch = none →
    let fields := b.key ≠ 0 ∧ b.key ≠ 0xFFFF ∧ b.indSlug.toNat ≤ 1 ∧ b.indP.toNat ≤ 1 ∧ b.indL.toNat ≤ 2 ∧ b.indLead.toNat ≤ 2
      ∧ b.indEnd.toNat ≤ 1 ∧ b.indHard.toNat ≤ 2 ∧ b.indPresenters.toNat ≤ 1
      ∧ (b.indLead = 1 → b.lead.toNat ≤ 15) ∧ (b.indEnd = 1 → b.endAction.toNat ≤ 1)
      ∧ (b.indHard = 1 → b.hard.toNat < s.day) ∧ (b.indPresenters = 1 → b.presenters.toNat ≤ 15)
    (¬fields → Refuses (.modifyItem b) s .badField)
    ∧ (fields → ¬s.has b.key → Refuses (.modifyItem b) s .noSuchItem)
    ∧ ∀ i before rest, fields → (s.items.map Item.key).Nodup → s.items = before ++ i :: rest → i.key = b.key.toNat →
        (b.indLead = 1 → (∀ e ∈ i.events, e.num.val ≠ b.lead.toNat) → Refuses (.modifyItem b) s .noSuchEvent)
        ∧ (b.indLead = 1 → (∃ e, i.event e.num = some e ∧ e.num.val = b.lead.toNat ∧ e.action = .clearFrame) →
            Refuses (.modifyItem b) s .badField)
        ∧ ∀ n : Fin 16, (b.indLead = 1 → b.lead.toNat = n.val ∧ ∃ e, i.event n = some e ∧ e.action = .showFrame) →
          let new : Item :=
            { i with
              slug := if b.indSlug = 1 then
                  (b.slug.take 16).map fun c => if 0x20 ≤ c.toNat ∧ c.toNat ≤ 0x7E then c else 0x3F
                else i.slug
              p := if b.indP = 1 then min b.p.toNat 1048575 else i.p
              l := if b.indL = 1 then some (min b.l.toNat 1048575) else if b.indL = 2 then none else i.l
              lead := if b.indLead = 1 then some n else if b.indLead = 2 then none else i.lead
              endAction := if b.indEnd = 1 then (if b.endAction = 1 then .auto else .manual) else i.endAction
              hard := if b.indHard = 1 then some b.hard.toNat else if b.indHard = 2 then none else i.hard
              presenters := if b.indPresenters = 1 then b.presenters.setWidth 4 else i.presenters }
          ∃ t, ∃ j ∈ t.items, j.key = i.key ∧ Answers (.modifyItem b) s t (itemBlock t.items j)
            ∧ t.cores = before.map Item.core ++ new.core :: rest.map Item.core
            ∧ t.cursor = s.cursor ∧ StoreOnly s t ∧ PointersKept s.ctl t.ctl

/-- MOVE_ITEM (R21, R10, R29). The one forming of the sheet is log entry 6. -/
def Obligations.MoveItem : Prop :=
  ∀ (key after : Half) (s : State), s.takes (.moveItem key after) → s.batch = none →
    let fields := key ≠ 0 ∧ key ≠ 0xFFFF ∧ after ≠ 0 ∧ after ≠ key
    (¬fields → Refuses (.moveItem key after) s .badField)
    ∧ (fields → ¬s.has key → Refuses (.moveItem key after) s .noSuchItem)
    ∧ (fields → after ≠ 0xFFFF → ¬s.has after → Refuses (.moveItem key after) s .noSuchItem)
    ∧ ∀ i pre post, fields → (s.items.map Item.key).Nodup → s.items = pre ++ i :: post → i.key = key.toNat →
        (after = 0xFFFF ∨ s.has after → i.isOnAir = true → Refuses (.moveItem key after) s .onAir)
        ∧ ∀ before rest, i.isOnAir = false → pre ++ post = before ++ rest → PlaceAfter after before →
          ∃ t, ∃ j ∈ t.items, j.key = i.key ∧ Answers (.moveItem key after) s t (itemBlock t.items j)
            ∧ t.cores = before.map Item.core ++ i.core :: rest.map Item.core
            ∧ t.cursor = s.cursor ∧ StoreOnly s t ∧ PointersKept s.ctl t.ctl

/-- MARK_ITEM (R22): mask bits 0 floated, 1 held, 2 degraded; selector 1 SET, 0 CLEAR. A key of 0 or 65,535 is BAD_FIELD by log entry
10, the one forming of the sheet is log entry 6. The automatic end that a released hold requests is said in AirEdits, not here. -/
def Obligations.MarkItem : Prop :=
  ∀ (key : Half) (mask selector : Byte) (s : State), s.takes (.markItem key mask selector) → s.batch = none →
    let fields := key ≠ 0 ∧ key ≠ 0xFFFF ∧ mask ≠ 0 ∧ mask.toNat ≤ 7 ∧ selector.toNat ≤ 1
    (¬fields → Refuses (.markItem key mask selector) s .badField)
    ∧ (fields → ¬s.has key → Refuses (.markItem key mask selector) s .noSuchItem)
    ∧ ∀ i before rest, fields → (s.items.map Item.key).Nodup → s.items = before ++ i :: rest → i.key = key.toNat →
        let barred := mask.getLsbD 0 = true ∨ (selector = 0 ∧ mask.getLsbD 2 = true)
        let airOnly := mask.getLsbD 1 = true ∨ mask.getLsbD 2 = true
        (i.isOnAir = true → barred → Refuses (.markItem key mask selector) s .onAir)
        ∧ (i.isOnAir = false → airOnly → Refuses (.markItem key mask selector) s .badField)
        ∧ ((i.isOnAir = true ∧ ¬barred) ∨ (i.isOnAir = false ∧ ¬airOnly) →
          let new : Item :=
            { i with
              floated := if mask.getLsbD 0 then decide (selector = 1) else i.floated
              held := if mask.getLsbD 1 then decide (selector = 1) else i.held }
          ∃ t, ∃ j ∈ t.items, j.key = i.key ∧ Answers (.markItem key mask selector) s t (itemBlock t.items j)
            ∧ t.cores = before.map Item.core ++ new.core :: rest.map Item.core
            ∧ (mask.getLsbD 2 = true ∨ i.degraded = true → j.degraded = true)
            ∧ t.cursor = s.cursor ∧ StoreOnly s t ∧ PointersKept s.ctl t.ctl)

/-- ADD_EVENT (R23, R7, R8, R11). The one forming of the sheet is log entry 6. -/
def Obligations.AddEvent : Prop :=
  ∀ (b : AddEventBody) (s : State), s.takes (.addEvent b) → s.batch = none →
    let fields := b.owner ≠ 0 ∧ b.owner ≠ 0xFFFF ∧ b.number.toNat ≤ 15 ∧ b.outlet.toNat ≤ 7 ∧ b.action.toNat ≤ 1
      ∧ b.anchor.toNat ≤ 1 ∧ b.flags.toNat ≤ 3
    (¬fields → Refuses (.addEvent b) s .badField)
    ∧ (fields → ¬s.has b.owner → Refuses (.addEvent b) s .noSuchItem)
    ∧ ∀ i before rest, fields → (s.items.map Item.key).Nodup → s.items = before ++ i :: rest → i.key = b.owner.toNat →
        let used := (s.items.map fun i => i.events.length).sum
        let taken := ∃ e ∈ i.events, e.num.val = b.number.toNat
        (16 ≤ i.events.length → Refuses (.addEvent b) s .listFull)
        ∧ (i.events.length < 16 → 1024 ≤ used → Refuses (.addEvent b) s .poolFull)
        ∧ (i.events.length < 16 → used < 1024 → taken → Refuses (.addEvent b) s .duplicateEvent)
        ∧ ∀ (n : Fin 16) (o : Fin 8) lo hi, i.events.length < 16 → used < 1024 → n.val = b.number.toNat → o.val = b.outlet.toNat →
          i.events = lo ++ hi → (∀ e ∈ lo, e.num < n) → (∀ e ∈ hi, n < e.num) →
          let new : Event :=
            { num := n, outlet := o
              action := if b.action = 1 then .clearFrame else .showFrame
              anchor := if b.anchor = 1 then .finish else .start
              offset := b.offset.toNat, payload := b.payload
              clearAtEnd := b.flags.getLsbD 0, required := b.flags.getLsbD 1
              state := .idle, cued := false, due := none, lateness := 0 }
          ∃ t, ∃ j ∈ t.items, ∃ e ∈ j.events, j.key = i.key ∧ e.num = n ∧ Answers (.addEvent b) s t (eventBlock i.key e)
            ∧ t.cores = before.map Item.core ++ ({ i with events := lo ++ new :: hi } : Item).core :: rest.map Item.core
            ∧ t.cursor = s.cursor ∧ StoreOnly s t ∧ PointersKept s.ctl t.ctl

/-- MODIFY_EVENT (R24); mask bits 0 outlet, 1 action, 2 anchor, 3 offset, 4 payload, 5 clear at end, 6 required.
An owner key of 0 or 65,535 and a number above 15 are BAD_FIELD by log entry 10; the one forming of the sheet is log entry 6. -/
def Obligations.ModifyEvent : Prop :=
  ∀ (b : ModifyEventBody) (s : State), s.takes (.modifyEvent b) → s.batch = none →
    let m := fun k => b.setMask.getLsbD k
    let fields := b.owner ≠ 0 ∧ b.owner ≠ 0xFFFF ∧ b.number.toNat ≤ 15 ∧ b.setMask.toNat ≤ 127
      ∧ (m 0 = true → b.outlet.toNat ≤ 7) ∧ (m 1 = true → b.action.toNat ≤ 1) ∧ (m 2 = true → b.anchor.toNat ≤ 1)
      ∧ (m 5 = true ∨ m 6 = true → b.flags.toNat ≤ 3)
    (¬fields → Refuses (.modifyEvent b) s .badField)
    ∧ (fields → ¬s.has b.owner → Refuses (.modifyEvent b) s .noSuchItem)
    ∧ ∀ i before rest, fields → (s.items.map Item.key).Nodup → s.items = before ++ i :: rest → i.key = b.owner.toNat →
        ((∀ e ∈ i.events, e.num.val ≠ b.number.toNat) → Refuses (.modifyEvent b) s .noSuchEvent)
        ∧ ∀ (n : Fin 16) (o : Fin 8), n.val = b.number.toNat → (m 0 = true → o.val = b.outlet.toNat) →
          (∃ e ∈ i.events, e.num = n) →
          (i.lead = some n → m 1 = true → b.action = 1 → Refuses (.modifyEvent b) s .badField)
          ∧ (¬(i.lead = some n ∧ m 1 = true ∧ b.action = 1) →
            let set := fun e : Event =>
              { e with
                outlet := if m 0 then o else e.outlet
                action := if m 1 then (if b.action = 1 then .clearFrame else .showFrame) else e.action
                anchor := if m 2 then (if b.anchor = 1 then .finish else .start) else e.anchor
                offset := if m 3 then b.offset.toNat else e.offset
                payload := if m 4 then b.payload else e.payload
                clearAtEnd := if m 5 then b.flags.getLsbD 0 else e.clearAtEnd
                required := if m 6 then b.flags.getLsbD 1 else e.required }
            ∃ t, ∃ j ∈ t.items, ∃ e, j.event n = some e ∧ j.key = i.key ∧ Answers (.modifyEvent b) s t (eventBlock i.key e)
              ∧ t.cores = before.map Item.core
                  ++ ({ i with events := i.events.map fun e => if e.num = n then set e else e } : Item).core :: rest.map Item.core
              ∧ t.cursor = s.cursor ∧ StoreOnly s t ∧ PointersKept s.ctl t.ctl)

/-- REMOVE_EVENT (R25): answered with the event as it stood; the lead becomes absent where it was the event. A number above 15 is
refused with BAD_FIELD (log entry 10); the one forming of the sheet is log entry 6. -/
def Obligations.RemoveEvent : Prop :=
  ∀ (owner : Half) (number : Byte) (s : State), s.takes (.removeEvent owner number) → s.batch = none →
    let fields := owner ≠ 0 ∧ owner ≠ 0xFFFF ∧ number.toNat ≤ 15
    (¬fields → Refuses (.removeEvent owner number) s .badField)
    ∧ (fields → ¬s.has owner → Refuses (.removeEvent owner number) s .noSuchItem)
    ∧ ∀ i before rest, fields → (s.items.map Item.key).Nodup → s.items = before ++ i :: rest → i.key = owner.toNat →
        ((∀ e ∈ i.events, e.num.val ≠ number.toNat) → Refuses (.removeEvent owner number) s .noSuchEvent)
        ∧ ∀ (n : Fin 16) e, n.val = number.toNat → i.event n = some e →
          ∃ t, Answers (.removeEvent owner number) s t (eventBlock i.key e)
            ∧ t.cores = before.map Item.core
                ++ ({ i with
                      events := i.events.filter fun e => e.num != n
                      lead := if i.lead = some n then none else i.lead } : Item).core :: rest.map Item.core
            ∧ t.cursor = s.cursor ∧ StoreOnly s t ∧ PointersKept s.ctl t.ctl

/-- RETIRE_ITEM (R26, R29, R59, R71): answered with the item as it stood; the cursor, the anchor and the vectors that named it
move on. The one forming of the sheet is log entry 6. -/
def Obligations.RetireItem : Prop :=
  ∀ (key : Half) (s : State), s.takes (.retireItem key) → s.batch = none →
    (key = 0 ∨ key = 0xFFFF → Refuses (.retireItem key) s .badField)
    ∧ (key ≠ 0 → key ≠ 0xFFFF → ¬s.has key → Refuses (.retireItem key) s .noSuchItem)
    ∧ ∀ i before rest, key ≠ 0 → key ≠ 0xFFFF → (s.items.map Item.key).Nodup → s.items = before ++ i :: rest → i.key = key.toNat →
        (i.isOnAir = true → Refuses (.retireItem key) s .onAir)
        ∧ (i.isOnAir = false →
          ∃ t, Answers (.retireItem key) s t (itemBlock s.items i)
            ∧ t.cores = before.map Item.core ++ rest.map Item.core
            ∧ t.cursor = (if s.cursor = .item i.key then (match rest with | [] => .finish | n :: _ => .item n.key) else s.cursor)
            ∧ t.ctl.anchor = (if s.ctl.anchor = some i.key then before.getLast?.map Item.key else s.ctl.anchor)
            ∧ t.ctl.leadLostKey = (if s.ctl.leadLostKey = some i.key then none else s.ctl.leadLostKey)
            ∧ t.ctl.underrunKey = (if s.ctl.underrunKey = some i.key then none else s.ctl.underrunKey)
            ∧ StoreOnly s t)

/-- The outlet steps of a removed event (R25 steps 1 and 2, R108, R129): its wheel entry and its planned action go, no outlet holds, lists,
plays or queues for it any more, and an outlet that held its cue has an UNCUE with the cue's payload at the back of its queue, or,
with a full queue, its OVERFLOW latch set. REMOVE_EVENT (R25) leaves its event so, and RETIRE_ITEM (R26) every event of its item;
what the change report then queues stands behind. -/
def Obligations.EraseEvent : Prop :=
  let forgotten := fun (r : EventRef) (q : List Frame) => q.map fun f : Frame => if f.event = some r then { f with event := none } else f
  (∀ (r : EventRef) (s : State),
    let t := State.eraseEvent s r
    t.Unnamed r
    ∧ (∀ o c, (s.outlet o).cued = some c → c.ref = r →
        ((s.outlet o).queue.length < 8 →
          (t.outlet o).queue = forgotten r (s.outlet o).queue ++ [⟨.uncue, c.payload, none, false⟩])
        ∧ (8 ≤ (s.outlet o).queue.length → (t.outlet o).queue = forgotten r (s.outlet o).queue
          ∧ (t.outlet o).overflow = true ∧ t.notices.pending.getLsbD 2 = true))
    ∧ ∀ o, (∀ c, (s.outlet o).cued = some c → c.ref ≠ r) → (s.outlet o).playing ≠ some r →
        (t.outlet o).cued = (s.outlet o).cued ∧ (t.outlet o).playing = (s.outlet o).playing
        ∧ (t.outlet o).queue = forgotten r (s.outlet o).queue)
  ∧ (∀ (owner : Half) (number : Byte) (i : Item) (e : Event) (s : State), s.takes (.removeEvent owner number) → s.batch = none →
    StoreOk s.items → i ∈ s.items → e ∈ i.events → i.key = owner.toNat → e.num.val = number.toNat →
    let r : EventRef := ⟨i.key, e.num⟩
    ∃ t, exec (.removeEvent owner number) s = .next t ∧ t.Unnamed r
      ∧ ∀ o c, (s.outlet o).cued = some c → c.ref = r →
        ((s.outlet o).queue.length < 8 →
          ∃ tail, (t.outlet o).queue = forgotten r (s.outlet o).queue ++ ⟨.uncue, c.payload, none, false⟩ :: tail)
        ∧ (8 ≤ (s.outlet o).queue.length → (t.outlet o).queue = forgotten r (s.outlet o).queue
          ∧ (t.outlet o).overflow = true ∧ t.notices.pending.getLsbD 2 = true))
  ∧ ∀ (key : Half) (i : Item) (s : State), s.takes (.retireItem key) → s.batch = none → StoreOk s.items → i ∈ s.items →
    i.key = key.toNat → i.isOnAir = false →
    ∃ t, exec (.retireItem key) s = .next t ∧ (∀ e ∈ i.events, t.Unnamed ⟨i.key, e.num⟩)
      ∧ ∀ e ∈ i.events, ∀ o c, (s.outlet o).cued = some c → c.ref = ⟨i.key, e.num⟩ →
        ((s.outlet o).queue.length < 8 → ⟨.uncue, c.payload, none, false⟩ ∈ (t.outlet o).queue)
        ∧ (8 ≤ (s.outlet o).queue.length → (t.outlet o).overflow = true ∧ t.notices.pending.getLsbD 2 = true)

/-- The revision rule of one applied change (R12, R172): an item the change inserts has revision 0; an item it alters, or moves to
another place, has its revision raised by 1, wrapping from 65,535 to 0; every other item is exactly as it was. -/
def Obligations.RevisionRule : Prop :=
  ∀ (d : Nat) (c : StoreChange) (items after : List Item), (items.map Item.key).Nodup → applyChange d c items = .ok after →
    (∀ j ∈ after, (∀ i ∈ items, i.key ≠ j.key) → j.revision = 0)
    ∧ (∀ j ∈ after, ∀ i ∈ items, i.key = j.key →
        j = i ∨ (j.revision = (i.revision + 1) % 65536
          ∧ (({ j with revision := i.revision } : Item) ≠ i
            ∨ ∃ key place, c = .moveItem key place ∧ i.key = key.toNat ∧ after.map Item.key ≠ items.map Item.key)))
    ∧ ∀ key place, c = .moveItem key place → after.map Item.key ≠ items.map Item.key → ∀ i ∈ items, i.key = key.toNat →
        ({ i with revision := (i.revision + 1) % 65536 } : Item) ∈ after

/-! ## Clearing, recycling, batches (1.5, chapter 09) -/

/-- CLEAR_RUNDOWN (R27, R76). Playing references and queued frames lose the events that no longer exist (R25 step 2, R124). -/
def Obligations.ClearRundown : Prop :=
  ∀ s : State, s.takes .clearRundown →
    (s.batch.isSome = true → Refuses .clearRundown s .batchOpen)
    ∧ (s.batch = none → s.ctl.state ≠ .closed → Refuses .clearRundown s .showState)
    ∧ (s.batch = none → s.ctl.state = .closed →
        let gone := fun r : EventRef => ∃ i ∈ s.items, i.key = r.owner ∧ ∃ e ∈ i.events, e.num = r.num
        ∃ cue outlets, Answers .clearRundown s
          { s with
            items := [], cursor := .top, sheetCount := (s.sheetCount + 1) % 65536, cue := cue, outlets := outlets
            ctl := { s.ctl with leadLostKey := none, underrunKey := none, showEnd := none } } (u16 s.items.length)
        ∧ CueKept s.cue cue
        ∧ ∀ o, ∃ (playing : Option EventRef) (queue : List Frame), outlets.get o = { s.outlet o with playing := playing, queue := queue }
            ∧ (∀ r, playing = some r ↔ (s.outlet o).playing = some r ∧ ¬gone r)
            ∧ queue.length = (s.outlet o).queue.length
            ∧ ∀ (n : Nat) (f : Frame), (s.outlet o).queue[n]? = some f →
                ∃ ev : Option EventRef, queue[n]? = some ({ f with event := ev } : Frame) ∧ ∀ r, ev = some r ↔ f.event = some r ∧ ¬gone r)

/-- RECYCLE (R28, R15). The items it recycles are PENDING again, not held and not degraded, their events IDLE and without firing fields;
one that becomes NEXT by it may have standby cues requested (R57), and every other has no cue and one change of its revision. An adopt
byte other than 0 and 1 is refused with BAD_FIELD (log entry 12); the sheet is formed once (log entry 6). -/
def Obligations.Recycle : Prop :=
  ∀ (adopt : Byte) (keys : List Half) (s : State), s.takes (.recycle adopt keys) → 1 ≤ keys.length → keys.length ≤ 32 →
    let done := fun k : Half => ∃ i ∈ s.items, i.key = k.toNat ∧ i.isDone = true
    (s.batch.isSome = true → Refuses (.recycle adopt keys) s .batchOpen)
    ∧ (s.batch = none → 2 ≤ adopt.toNat → Refuses (.recycle adopt keys) s .badField)
    ∧ (∀ n k, s.batch = none → adopt.toNat ≤ 1 → (s.items.map Item.key).Nodup → keys[n]? = some k → ¬done k →
        (∀ m, m < n → ∀ k', keys[m]? = some k' → done k') →
        exec (.recycle adopt keys) s = .next (s.answered ⟨.notDone, u8 n, []⟩))
    ∧ (s.batch = none → adopt.toNat ≤ 1 → (s.items.map Item.key).Nodup → (∀ k ∈ keys, done k) →
        ∃ t, Answers (.recycle adopt keys) s t (u16 (keys.map fun k => k.toNat).dedup.length)
          ∧ t.cores = s.items.map (fun i =>
              if i.key ∈ keys.map (fun k => k.toNat) then
                ({ i with
                    p := match i.airing with | .done _ a _ => if adopt = 1 then a else i.p | _ => i.p
                    airing := .pending
                    held := false } : Item).core
              else i.core)
          ∧ t.cursor = s.cursor ∧ StoreOnly s t ∧ PointersKept s.ctl t.ctl
          ∧ (∀ j ∈ t.items, j.key ∈ keys.map (fun k => k.toNat) →
              j.degraded = false ∧ ∀ e ∈ j.events, e.state = .idle ∧ e.due = none ∧ e.lateness = 0)
          ∧ (ShowOk s → CuesOk s → ∀ j ∈ t.items, j.key ∈ keys.map (fun k => k.toNat) → t.ctl.next ≠ some j.key →
              (∀ e ∈ j.events, e.cued = false) ∧ ∃ i ∈ s.items, i.key = j.key ∧ j.revision = (i.revision + 1) % 65536))

/-- A store change while a batch is open (R169, R170): refused on a full list, then judged against the staged view, staged with the
next index, and nothing but the list moves. -/
def Obligations.StagedChange : Prop :=
  ∀ (c : StoreChange) (list : List StoreChange) (s : State),
    s.takes (requestOf c) → (requestOf c).wellFormed = true → s.batch = some list →
    (32 ≤ list.length → Refuses (requestOf c) s .batchFull)
    ∧ (∀ e, list.length < 32 → applyChange s.day c (stagedView s.day s.items list) = .error e → Refuses (requestOf c) s e)
    ∧ ∀ after, list.length < 32 → applyChange s.day c (stagedView s.day s.items list) = .ok after →
        Answers (requestOf c) s { s with batch := some (list ++ [c]) }
          (u8 list.length ++ changeBlock c (stagedView s.day s.items list) after)

/-- The staging area (R168, R171, R172, R174): OPEN_BATCH and ABANDON_BATCH; COMMIT_BATCH judges the whole list against the live store,
each change with those before it applied, then applies it whole, or not at all with the index and the code of the first that
fails. The area is closed either way. The walk cursor follows each change (R29, R172); an anchor that is gone afterwards has moved
to its predecessor as it stood before its own retirement, and on from a predecessor that is gone too (R59, R173), and a vector whose
item is gone afterwards is cleared (R71): a key retired and inserted again is not gone (log entry 7). -/
def Obligations.Batches : Prop :=
  (∀ s : State,
    (s.takes .openBatch → s.batch = none → Answers .openBatch s { s with batch := some [] } [])
    ∧ (s.takes .openBatch → s.batch.isSome = true → Refuses .openBatch s .batchOpen)
    ∧ (s.takes .commitBatch → s.batch = none → Refuses .commitBatch s .noBatch)
    ∧ (s.takes .commitBatch → s.batch = some [] → Answers .commitBatch s { s with batch := none } [0])
    ∧ (s.takes .abandonBatch → s.batch = none → Refuses .abandonBatch s .noBatch)
    ∧ ∀ list, s.takes .abandonBatch → s.batch = some list →
        Answers .abandonBatch s { s with batch := none } (u8 list.length))
  ∧ ∀ (list : List StoreChange) (s : State), s.takes .commitBatch → s.batch = some list →
    let view := fun n => stagedView s.day s.items (list.take n)
    let passes := fun n => ∀ c, list[n]? = some c → ∃ after, applyChange s.day c (view n) = .ok after
    (∀ n c e, list[n]? = some c → (∀ m, m < n → passes m) → applyChange s.day c (view n) = .error e →
        exec .commitBatch s = .next (({ s with batch := none } : State).answered ⟨.batchFailed, u8 n ++ [e.byte], []⟩))
    ∧ (list ≠ [] → (∀ n, passes n) →
        ∃ t, Answers .commitBatch s t (u8 list.length) ∧ t.cores = (view list.length).map Item.core
          ∧ StoreOnly { s with batch := none } t
          ∧ t.cursor = cursorAlong s.day list s.items s.cursor
          ∧ (∀ k, s.ctl.anchor = some k →
              t.ctl.anchor = if ∃ i ∈ view list.length, i.key = k then some k else anchorAlong s.day list s.items (some k))
          ∧ (s.ctl.anchor = none → t.ctl.anchor = none)
          ∧ let gone := fun k : Nat => (∃ i ∈ s.items, i.key = k) ∧ ∀ i ∈ view list.length, i.key ≠ k
            (∀ k, t.ctl.leadLostKey = some k ↔ s.ctl.leadLostKey = some k ∧ ¬gone k)
            ∧ ∀ k, t.ctl.underrunKey = some k ↔ s.ctl.underrunKey = some k ∧ ¬gone k)


/-! ## The show (chapter 03) -/

/-- OPEN_SHOW (R52, R56, R57): the Show Controller's records empty, NEXT followed from the top; outlets and firing fields move only
where an event of NEXT meets the standby test (R111). CLOSE_SHOW (R54, R53): from LIVE to LAST with the standby cues of NEXT released,
from ARMED to CLOSED with every cue released and every list emptied. A release of a held cue is an UNCUE with the cue's payload
(R113, R129). ABORT_SHOW (R55): the item on air ends at once with reason ABORTED, a CLEAR goes to each outlet that is CUED or PLAYING,
every reference and list is emptied, the show is CLOSED; answered with the key that was on air, or 0. The sheet is formed once for
each (log entry 6). -/
def Obligations.OpenCloseAbort : Prop :=
  (∀ s : State, s.takes .openShow →
    (s.ctl.state ≠ .closed → Refuses .openShow s .showState)
    ∧ (s.ctl.state = .closed →
        ∃ t, Answers .openShow s t (u16 ((follow s.items none).getD 0))
          ∧ t.ctl = { s.ctl with
              state := .armed, next := follow s.items none, pinned := false, anchor := none, ordinary := none, cover := none
              phase := .none, leadEnd := none, takenByVector := false, underrunRaised := false, overReached := false }
          ∧ ShowOnly s t ∧ t.sheetCount = (s.sheetCount + 1) % 65536 ∧ t.notices.pending.getLsbD 0 = true
          ∧ ((∀ i ∈ s.items, some i.key = follow s.items none → ∀ e ∈ i.events,
                ¬(e.action = .showFrame ∧ e.anchor = .start ∧ e.offset < (s.outlet e.outlet).preRoll)) →
              t.items = s.items ∧ t.outlets = s.outlets)))
  ∧ (∀ s : State, s.takes .closeShow →
    (s.ctl.state = .closed ∨ s.ctl.state = .last → Refuses .closeShow s .showState)
    ∧ (s.ctl.state = .live →
        ∃ t, Answers .closeShow s t [] ∧ t.ctl = { s.ctl with state := .last, next := none, pinned := false }
          ∧ ShowOnly s t ∧ t.sheetCount = (s.sheetCount + 1) % 65536 ∧ t.notices.pending.getLsbD 0 = true
          ∧ ∀ k i o, s.ctl.next = some k → s.item k = some i →
            let x := s.outlet o
            let own := fun r : EventRef => r ∈ i.refs
            (∀ c, (t.outlet o).cued = some c → ¬own c.ref) ∧ (∀ w ∈ (t.outlet o).waiting, ¬own w.ref)
            ∧ (∀ c, x.cued = some c → own c.ref → x.queue.length < 8 →
                ∃ tail, (t.outlet o).queue = x.queue ++ ⟨.uncue, c.payload, some c.ref, false⟩ :: tail)
            ∧ (∀ c, x.cued = some c → own c.ref → 8 ≤ x.queue.length →
                (t.outlet o).queue = x.queue ∧ (t.outlet o).overflow = true ∧ t.notices.pending.getLsbD 2 = true)
            ∧ (∀ c, x.cued = some c → ¬own c.ref → (t.outlet o).cued = some c ∧ (t.outlet o).queue = x.queue))
    ∧ (s.ctl.state = .armed →
        ∃ t, Answers .closeShow s t []
          ∧ t.ctl = { s.ctl with
              state := .closed, onAir := none, next := none, pinned := false, anchor := none, ordinary := none, cover := none
              phase := .none, leadEnd := none, takenByVector := false, underrunRaised := false, overReached := false }
          ∧ (∀ o, let x := s.outlet o
              (t.outlet o).cued = none ∧ (t.outlet o).waiting = [] ∧ (t.outlet o).playing = x.playing
              ∧ (x.cued = none → (t.outlet o).queue = x.queue)
              ∧ (∀ c, x.cued = some c → x.queue.length < 8 →
                  (t.outlet o).queue = x.queue ++ [⟨.uncue, c.payload, some c.ref, false⟩])
              ∧ (∀ c, x.cued = some c → 8 ≤ x.queue.length →
                  (t.outlet o).queue = x.queue ∧ (t.outlet o).overflow = true ∧ t.notices.pending.getLsbD 2 = true))
          ∧ ShowOnly s t ∧ t.sheetCount = (s.sheetCount + 1) % 65536 ∧ t.notices.pending.getLsbD 0 = true))
  ∧ ∀ s : State, s.takes .abortShow →
    (s.ctl.state = .closed → Refuses .abortShow s .showState)
    ∧ (s.ctl.state ≠ .closed →
        ∃ t, Answers .abortShow s t (u16 (s.ctl.onAir.getD 0))
          ∧ t.ctl = { s.ctl with
              state := .closed, onAir := none, next := none, pinned := false, anchor := none, ordinary := none, cover := none
              phase := .none, leadEnd := none, takenByVector := false, underrunRaised := false, overReached := false }
          ∧ t.cores = s.items.map (fun i =>
              if s.ctl.onAir = some i.key then i.endedCore s.day s.house .aborted else i.core)
          ∧ (∀ o, (t.outlet o).cued = none ∧ (t.outlet o).waiting = [] ∧ (t.outlet o).playing = none)
          ∧ (∀ o, let x := s.outlet o
              let shows := x.state = .cued ∨ x.state = .playing
              (∀ w ∈ s.wheel, s.ctl.onAir ≠ some w.ref.owner ∨ w.fireFrame ≠ s.house) → x.waiting = [] →
              (∀ c, x.cued = some c → s.ctl.onAir ≠ some c.ref.owner) →
              (shows → x.queue.length < 8 → (t.outlet o).queue = x.queue ++ [⟨.clear, 0, none, false⟩])
              ∧ (¬shows → (t.outlet o).queue = x.queue)
              ∧ (shows → 8 ≤ x.queue.length → (t.outlet o).queue = x.queue ∧ (t.outlet o).overflow = true))
          ∧ Aside s t ∧ t.cursor = s.cursor ∧ t.notices.lastTake = s.notices.lastTake
          ∧ t.sheetCount = (s.sheetCount + 1) % 65536 ∧ t.notices.pending.getLsbD 0 = true)

/-- TAKE (R60, R61): refused in CLOSED and, in ARMED or LIVE, without NEXT; else placed in the record, or counted where an ordinary
take already waits, and nothing else moves. -/
def Obligations.TakeRequest : Prop :=
  ∀ s : State, s.takes .take →
    (s.ctl.state = .closed → Refuses .take s .showState)
    ∧ (s.ctl.state = .armed ∨ s.ctl.state = .live → s.ctl.next = none → Refuses .take s .noNext)
    ∧ (s.ctl.state = .last ∨ (s.ctl.state ≠ .closed ∧ s.ctl.next.isSome = true) →
        Answers .take s (s.ordinaryTake .manual)
          (u16 (s.ctl.next.getD 0) ++ [if s.ctl.ordinary.isSome then 1 else 0]))

/-- SET_NEXT (R58, R56): its checks in order; the pin set on an eligible item, or cleared with NEXT followed again; the sheet formed
where NEXT or the pin changed (R79). -/
def Obligations.SetNext : Prop :=
  ∀ (key : Half) (s : State), s.takes (.setNext key) →
    let on := s.ctl.state = .armed ∨ s.ctl.state = .live
    let moved := fun (next : Option Nat) (pin : Bool) (t : State) =>
      t.ctl = { s.ctl with next := next, pinned := pin } ∧ ShowOnly s t
        ∧ t.sheetCount = (if s.ctl.next = next ∧ s.ctl.pinned = pin then s.sheetCount else (s.sheetCount + 1) % 65536)
    (key = 0xFFFF → Refuses (.setNext key) s .badField)
    ∧ (key ≠ 0xFFFF → ¬on → Refuses (.setNext key) s .showState)
    ∧ (key = 0 → on → ∃ t, Answers (.setNext key) s t (u16 ((follow s.items s.ctl.anchor).getD 0))
        ∧ moved (follow s.items s.ctl.anchor) false t)
    ∧ (key ≠ 0 → key ≠ 0xFFFF → on → ¬s.has key → Refuses (.setNext key) s .noSuchItem)
    ∧ ∀ i ∈ s.items, key ≠ 0 → key ≠ 0xFFFF → on → (s.items.map Item.key).Nodup → i.key = key.toNat →
        (i.airing ≠ .pending ∨ i.floated = true → Refuses (.setNext key) s .badField)
        ∧ (i.airing = .pending → i.floated = false →
            ∃ t, Answers (.setNext key) s t (u16 key.toNat) ∧ moved (some key.toNat) true t)

/-- HOLD (R66, R67): toggles the on-air item's flag as a change of the item; a release whose end condition is met on an AUTO item
requests the automatic end. -/
def Obligations.HoldRequest : Prop :=
  ∀ s : State, s.takes .hold →
    (s.ctl.onAir = none → Refuses .hold s .showState)
    ∧ ∀ i before rest, s.ctl.onAir = some i.key → (s.items.map Item.key).Nodup → s.items = before ++ i :: rest →
        let t : State :=
          { s with items := before ++ { i with held := !i.held, revision := (i.revision + 1) % 65536 } :: rest }
        (i.held = false → Answers .hold s t [1])
        ∧ (i.held = true → ¬(i.endAction = .auto ∧ s.EndCondition i) → Answers .hold s t [0])
        ∧ (i.held = true → i.endAction = .auto → s.EndCondition i → Answers .hold s (t.ordinaryTake .automatic) [0])

/-- SET_VECTOR (R71): any key up to 65,534 is stored whether or not it names an item, 0 makes the entry absent; answered with both
entries. SET_SHOW_END and SET_WRAP (R76, R79): a time of D or above is refused; the sheet is formed where the time changed; a
window above 60 seconds is stored as 60. An indication other than set (1) and remove (2) names nothing (R192). -/
def Obligations.VectorsAndSettings : Prop :=
  (∀ (vector : Byte) (key : Half) (s : State), s.takes (.setVector vector key) →
    let k := if key = 0 then none else some key.toNat
    ((vector ≠ 1 ∧ vector ≠ 2) ∨ key = 0xFFFF → Refuses (.setVector vector key) s .badField)
    ∧ (vector = 1 → key ≠ 0xFFFF → Answers (.setVector vector key) s { s with ctl := { s.ctl with leadLostKey := k } }
        (u16 key.toNat ++ u16 (s.ctl.underrunKey.getD 0)))
    ∧ (vector = 2 → key ≠ 0xFFFF → Answers (.setVector vector key) s { s with ctl := { s.ctl with underrunKey := k } }
        (u16 (s.ctl.leadLostKey.getD 0) ++ u16 key.toNat)))
  ∧ (∀ (indication : Byte) (time : Tri) (s : State), s.takes (.setShowEnd indication time) →
    let stored := fun v : Option Nat =>
      ∃ cue, CueKept s.cue cue ∧ Answers (.setShowEnd indication time) s
        { s with
          ctl := { s.ctl with showEnd := v }, cue := if s.ctl.showEnd = v then s.cue else cue
          sheetCount := if s.ctl.showEnd = v then s.sheetCount else (s.sheetCount + 1) % 65536 } (frameField v)
    ((indication ≠ 1 ∧ indication ≠ 2) ∨ (indication = 1 ∧ s.day ≤ time.toNat) →
        Refuses (.setShowEnd indication time) s .badField)
    ∧ (indication = 1 → time.toNat < s.day → stored (some time.toNat))
    ∧ (indication = 2 → stored none))
  ∧ ∀ (seconds : Byte) (s : State), s.takes (.setWrap seconds) →
    ∃ cue, CueKept s.cue cue ∧ Answers (.setWrap seconds) s
      { s with ctl := { s.ctl with wrap := min seconds.toNat 60 }, cue := cue } (u8 (min seconds.toNat 60))

/-- Takes judged at a boundary (R64), whichever command makes it, with no part of it taken before the judging (log entry 1).
Effected (R62, R63, R65, R69, R74): the record is judged against the state at the boundary, a valid cover part first, the ordinary part
as though an invalid one had not been there; the take frame is the boundary's house time. An ordinary part beside an effected cover
part is counted (R61). Dropped (R65, R73, R187): no item leaves or goes to air; an AUTOMATIC part whose condition has lapsed goes without
a word; one without NEXT tests UNDERRUN. -/
def Obligations.Takes : Prop :=
  (∀ (c : Instr) (n : Nat) (tb0 : Timebase) (s : State), s.MakesBoundary c n tb0 → s.atRest → ShowOk s →
    let tb := tb0.boundary n
    let u : State := { s with tb := tb }
    let h := tb.houseTime
    let d := tb.standard.day
    let due := fun i : Item => s.onAirItem = some i ∧ u.AutoDue i
    let swap := fun (why : EndReason) (n : Nat) => s.items.map fun i =>
      if s.ctl.onAir = some i.key then i.endedCore d h why else if i.key = n then i.airedCore h else i.core
    ∃ t, exec c s = .next t
      ∧ (∀ n, s.ctl.state = .armed → s.ctl.next = some n → s.ctl.ordinary = some .manual → s.coverVoid →
          t.notices.lastTake = ⟨some .taken, some h, n, 0, none⟩ ∧ t.cores = swap .take n
          ∧ t.ctl.state = .live ∧ t.ctl.onAir = some n ∧ t.ctl.anchor = some n ∧ t.ctl.pinned = false
          ∧ t.notices.pending.getLsbD 0 = true ∧ t.notices.pending.getLsbD 1 = true)
      ∧ (∀ n i why, s.ctl.state = .live → s.onAirItem = some i → s.ctl.next = some n → s.coverVoid →
          (s.ctl.ordinary = some .manual ∧ why = .take)
            ∨ (s.ctl.ordinary = some .automatic ∧ due i ∧ ∃ take, i.takeFrame = some take ∧
                let early := ∃ l, i.l = some l ∧ s.ctl.phase = .ended ∧ i.degraded = false
                  ∧ min (subMod d h take) 1048575 + 25 < l
                (early → why = .autoEarly) ∧ (¬early → why = .auto)) →
          t.notices.lastTake = ⟨some .taken, some h, n, i.key, some why⟩ ∧ t.cores = swap why n
          ∧ t.ctl.state = .live ∧ t.ctl.onAir = some n ∧ t.ctl.anchor = some n ∧ t.ctl.pinned = false
          ∧ t.ctl.takenByVector = false ∧ t.notices.pending.getLsbD 1 = true)
      ∧ (∀ i, s.ctl.state = .last → s.onAirItem = some i → s.coverVoid →
          s.ctl.ordinary = some .manual ∨ (s.ctl.ordinary = some .automatic ∧ due i) →
          t.notices.lastTake = ⟨some .closed, some h, 0, i.key, some .closed⟩
          ∧ t.cores = s.items.map (fun j => if j.key = i.key then j.endedCore d h .closed else j.core)
          ∧ t.ctl.state = .closed ∧ t.ctl.onAir = none ∧ t.ctl.anchor = none
          ∧ t.notices.pending.getLsbD 0 = true ∧ t.notices.pending.getLsbD 1 = true)
      ∧ ∀ k cp j, s.ctl.onAir = some k → s.ctl.cover = some cp → cp.key ≠ k → j ∈ s.items → j.key = cp.key →
          t.notices.lastTake = ⟨some .cover, some h, cp.key, k, some .covered⟩ ∧ t.cores = swap .covered cp.key
          ∧ t.ctl.state = s.ctl.state ∧ t.ctl.onAir = some cp.key ∧ t.ctl.anchor = s.ctl.anchor
          ∧ t.ctl.takenByVector = true ∧ t.notices.pending.getLsbD 1 = true
          ∧ (j.events = [] → t.notices.coalesced =
              if s.ctl.ordinary ≠ none ∧ s.notices.coalesced < 65535 then s.notices.coalesced + 1 else s.notices.coalesced))
  ∧ (∀ (c : Instr) (n : Nat) (tb0 : Timebase) (s : State), s.MakesBoundary c n tb0 → s.atRest → ShowOk s →
    s.ctl.state = .armed → s.ctl.next = none → s.ctl.ordinary = some .manual → s.coverVoid →
    ∃ t, exec c s = .next t ∧ t.cores = s.cores ∧ t.ctl.state = .armed ∧ t.ctl.onAir = none ∧ t.ctl.anchor = s.ctl.anchor
      ∧ t.ctl.ordinary = none
      ∧ t.notices.lastTake = ⟨some .dropped, some (tb0.boundary n).houseTime, 0, 0, none⟩ ∧ t.notices.pending.getLsbD 1 = true)
  ∧ ∀ (c : Instr) (n : Nat) (tb0 : Timebase) (i : Item) (s : State), s.MakesBoundary c n tb0 → s.atRest → ShowOk s →
    s.ctl.state = .live ∨ s.ctl.state = .last → s.onAirItem = some i → s.coverVoid →
    let u : State := { s with tb := tb0.boundary n }
    let drop : TakeRecord := ⟨some .dropped, some u.house, 0, 0, none⟩
    let lapsed := s.ctl.ordinary = none ∨ (s.ctl.ordinary = some .automatic ∧ ¬u.AutoDue i)
    let wanting := s.ctl.state = .live ∧ s.ctl.next = none
      ∧ (s.ctl.ordinary = some .manual ∨ (s.ctl.ordinary = some .automatic ∧ u.AutoDue i))
    lapsed ∨ wanting →
    ∃ t, exec c s = .next t ∧ t.cores = s.cores ∧ t.ctl.onAir = some i.key ∧ t.ctl.state = s.ctl.state
      ∧ t.ctl.anchor = s.ctl.anchor ∧ t.ctl.next = s.ctl.next
      ∧ (wanting → t.notices.lastTake = drop ∧ t.notices.pending.getLsbD 1 = true)
      ∧ (lapsed → s.ctl.cover = none → t.notices.lastTake = s.notices.lastTake)
      ∧ (s.ctl.cover ≠ none → t.notices.lastTake = drop ∧ t.notices.pending.getLsbD 1 = true)
      ∧ (wanting → s.ctl.ordinary = some .automatic → s.ctl.takenByVector = false → s.ctl.underrunRaised = false →
          t.ctl.underrunRaised = true ∧ t.notices.pending.getLsbD 6 = true
          ∧ (s.ctl.underrunKey = none →
              t.notices.lastVector = some ⟨.underrun, u.house, i.key, 0, .noCover⟩ ∧ t.ctl.cover = none)
          ∧ (∀ k, s.ctl.underrunKey = some k → k = i.key ∨ (∀ j ∈ s.items, j.key ≠ k) →
              t.notices.lastVector = some ⟨.underrun, u.house, i.key, k, .noCover⟩ ∧ t.ctl.cover = none)
          ∧ ∀ k, s.ctl.underrunKey = some k → k ≠ i.key → (∃ j ∈ s.items, j.key = k) →
              t.notices.lastVector = some ⟨.underrun, u.house, i.key, k, .requested⟩ ∧ t.ctl.cover = some ⟨.underrun, k⟩)
      ∧ (u.AutoDue i → t.ctl.ordinary = some .automatic) ∧ (¬u.AutoDue i → t.ctl.ordinary = none)

/-! ## Cues, firings and the wheel (chapter 05) -/

/-- A cue request at an outlet (R127, R109): PRESENT, HELD, LISTED on an outlet that cannot hold, UNLISTED, in the order of R127. And the
head of a waiting list (R128): an outlet able to hold a cue takes the head off its list and cues it with the key it was listed
with; any other outlet is left alone. -/
def Obligations.CueHolding : Prop :=
  (∀ (own : Option Nat) (r : EventRef) (e : Event) (o : Fin 8) (key : Nat) (s : State), s.event r = some e →
    let x := s.outlet o
    let present := (∃ c, x.cued = some c ∧ c.ref = r) ∨ r ∈ x.waiting.map Waiting.ref
    let t := State.cueRequest own r o key s
    (present → t = s)
    ∧ (¬present → x.Holds → x.waiting = [] →
        t.outlet o = { x.pushed ⟨.cue, e.payload, some r, false⟩ with cued := some ⟨r, key, e.payload⟩ }
        ∧ t.event r = some { e with cued := true } ∧ OthersKept o s t
        ∧ t = { s with outlets := t.outlets, items := t.items } ∧ t.cores = s.cores)
    ∧ (¬present → ¬x.Holds → x.waiting.length < 4 →
        t = { s with outlets := s.outlets.set o { x with waiting := x.waiting ++ [⟨r, key⟩] } })
    ∧ (¬present → (x.Holds → x.waiting ≠ []) → 4 ≤ x.waiting.length → t = s))
  ∧ ∀ (own : Option Nat) (o : Fin 8) (s : State),
    let x := s.outlet o
    let t := State.serveHead own o s
    (¬x.Holds ∨ x.waiting = [] → t = s)
    ∧ (x.Holds → x.waiting ≠ [] → (x.waiting.map Waiting.ref).Nodup →
        ∃ w payload, IsHead s.items x.waiting w ∧ (∀ e, s.event w.ref = some e → payload = e.payload)
          ∧ t.outlet o = { x.pushed ⟨.cue, payload, some w.ref, false⟩ with
              cued := some ⟨w.ref, w.key, payload⟩, waiting := x.waiting.filter fun v => v.ref != w.ref }
          ∧ (∀ e, t.event w.ref = some e → e.cued = true) ∧ OthersKept o s t
          ∧ t = { s with outlets := t.outlets, items := t.items } ∧ t.cores = s.cores)

/-- WHEEL_SLOT_FIRING of one FIRE entry (R104, R105, R118): on an outlet that is off the event is SKIPPED, and a required one degrades
its owner; on a full queue it is MISSED; else its frame is queued and it is FIRED with its spill as lateness. The slot's entry is
taken out. -/
def Obligations.WheelSlotFiring : Prop :=
  ∀ (k : Nat) (w : WheelEntry) (e : Event) (s : State), s.owed.contains .wheelSlot = true → OutletsOk s → s.ctl.onAir = some k →
    s.wheel.filter (fun v => v.fireFrame == s.house) = [w] → w.kind = .fire → w.ref.owner = k → s.event w.ref = some e →
    let x := s.outlet e.outlet
    let off := x.enabled = false ∨ x.ready = false ∨ x.resetHold = true
    let bare := fun f : Frame => (f.command, f.payload, f.event)
    let up := fun n : Nat => if n < 65535 then n + 1 else n
    ∃ t, exec .wheelSlotFiring s = .next t ∧ t.cores = s.cores ∧ t.tb = s.tb ∧ t.port = s.port ∧ t.panel = s.panel
      ∧ t.owed = s.owed.erase .wheelSlot
      ∧ t.wheel = s.wheel.filter (fun v => v.fireFrame != s.house && v.ref != w.ref)
      ∧ (off → (t.event w.ref).map Event.state = some .skipped ∧ (t.event w.ref).map Event.lateness = some 0
          ∧ t.notices.skipped = up s.notices.skipped ∧ t.notices.pending.getLsbD 5 = true
          ∧ (t.outlet e.outlet).queue = x.queue ∧ (t.outlet e.outlet).fireCount = x.fireCount
          ∧ (e.required = true → ∃ i ∈ t.items, i.key = k ∧ i.degraded = true))
      ∧ (¬off → x.queue.length = 8 → (t.event w.ref).map Event.state = some .missed
          ∧ (t.event w.ref).map Event.lateness = some 0 ∧ t.notices.missed = up s.notices.missed
          ∧ t.notices.pending.getLsbD 5 = true ∧ t.notices.pending.getLsbD 2 = true
          ∧ (t.outlet e.outlet).overflow = true ∧ (t.outlet e.outlet).queue = x.queue
          ∧ (t.outlet e.outlet).fireCount = x.fireCount)
      ∧ (¬off → x.queue.length < 8 →
          t.event w.ref = some { e with state := .fired, lateness := w.spill }
          ∧ (t.outlet e.outlet).queue.map bare
              = x.queue.map bare ++ [(if e.action = .showFrame then (.showFrame, e.payload, some w.ref) else (.clear, 0, some w.ref))]
          ∧ (t.outlet e.outlet).fireCount = up x.fireCount ∧ (∀ p, (t.outlet p).setup = (s.outlet p).setup)
          ∧ t.notices.late = (if 0 < w.spill then up s.notices.late else s.notices.late)
          ∧ t.notices.skipped = s.notices.skipped ∧ t.notices.missed = s.notices.missed)

/-- A CUE entry of the slot (R104, R110, R112): an event whose due lies ahead, on an outlet with nothing waiting that can hold a cue,
is cued with its frames to due as the order key, and its firing is placed within the horizon or planned beyond it (R103). The row
takes a part the boundary owes (log entry 1); the planned action is stored state (log entry 17). -/
def Obligations.CueEntryActs : Prop :=
  ∀ (i : Item) (take : Nat) (w : WheelEntry) (e : Event) (s : State), s.owed.contains .wheelSlot = true → s.ctl.onAir = some i.key →
    s.item i.key = some i → i.airing = .onAir take → s.wheel.filter (fun v => v.fireFrame == s.house) = [w] → w.kind = .cue →
    w.ref.owner = i.key → s.event w.ref = some e → e.cued = false →
    let q := match e.anchor with
      | .start => e.offset
      | .finish => (match i.lead, i.l with | some _, some l => l | _, _ => i.p) - e.offset
    let el := subMod s.day s.house take
    let x := s.outlet e.outlet
    let wheel := s.wheel.filter fun v => v.fireFrame != s.house
    let frame := (take + q) % s.day
    el < q → x.Holds → x.waiting = [] →
    ∃ t, exec .wheelSlotFiring s = .next t ∧ t.cores = s.cores ∧ t.tb = s.tb ∧ t.port = s.port ∧ t.owed = s.owed.erase .wheelSlot
      ∧ (63 < q - el ∨ (wheel.filter fun v => v.fireFrame % 64 == frame % 64).length < 2 →
          t.outlet e.outlet = { x.pushed ⟨.cue, e.payload, some w.ref, false⟩ with cued := some ⟨w.ref, q - el, e.payload⟩ }
          ∧ OthersKept e.outlet s t
          ∧ (q - el ≤ 63 → t.wheel = wheel ++ [⟨w.ref, .fire, frame, frame, 0⟩]
              ∧ t.event w.ref = some { e with cued := true, state := .armed })
          ∧ (63 < q - el → t.wheel = wheel ∧ t.planned = s.planned ++ [⟨w.ref, .fire, q⟩]
              ∧ t.event w.ref = some { e with cued := true, state := .pending }))

/-- HORIZON_ARMING of one planned firing (R102, R103): the event becomes ARMED and gets its wheel entry at its action frame when that
slot has room, and every event still beyond the horizon stays PENDING. Placing an entry (R103): the first of the five frames
whose slot holds fewer than 2 entries, the spill the frames tried before it; no entry when none of the five has room. -/
def Obligations.HorizonArming : Prop :=
  (∀ (i : Item) (take : Nat) (p : Planned) (e : Event) (s : State), s.owed.contains .horizon = true → s.ctl.onAir = some i.key →
    s.item i.key = some i → i.airing = .onAir take → p.ref.owner = i.key → i.event p.ref.num = some e →
    let el := subMod s.day s.house take
    s.planned.filter (fun v => decide (v.distance - el ≤ 63) && v.ref.owner == i.key) = [p] → p.kind = .fire →
    let frame := (take + p.distance) % s.day
    (s.wheel.filter fun v => v.ref != p.ref && v.fireFrame % 64 == frame % 64).length < 2 →
    ∃ t, exec .horizonArming s = .next t ∧ t.cores = s.cores ∧ t.outlets = s.outlets ∧ t.tb = s.tb ∧ t.port = s.port
      ∧ t.owed = s.owed.erase .horizon
      ∧ t.wheel = s.wheel.filter (fun v => v.ref != p.ref) ++ [⟨p.ref, .fire, frame, frame, 0⟩]
      ∧ t.planned = s.planned.filter (fun v => v.ref != p.ref)
      ∧ t.event p.ref = some { e with state := .armed })
  ∧ ∀ (r : EventRef) (kind : ActionKind) (take a : Nat) (s : State),
    let frame := fun k => (take + a + k) % s.day
    let room := fun k => (s.wheel.filter fun v => v.fireFrame % 64 == frame k % 64).length < 2
    (∀ k, k ≤ 4 → room k → (∀ j, j < k → ¬room j) →
        s.wheelEntry r kind take a = some ⟨r, kind, (take + a) % s.day, frame k, k⟩)
    ∧ ((∀ k, k ≤ 4 → ¬room k) → s.wheelEntry r kind take a = none)

/-- The arrival of an item (R101, R63, R119), told for a first take of an item with one event in a store where no other item has any, at
any boundary with no part taken early (log entry 1): its due is computed from the take frame, its lateness is 0; due at once it fires,
is skipped or missed (R105), else it is armed (R100, R103). An event made MISSED for want of a slot gets no cue request (log entry
26). The item end (R115, R117), told for a take in LAST of an item none of whose entries is due: events not yet acted become SKIPPED
uncounted, dues become absent, the wheel is left without its entries, held cues are released, and each outlet left showing one of its
clear-at-end events gets one CLEAR, a full queue being one counted miss. One FIRE entry of the end frame fires as the item leaves. -/
def Obligations.ArrivalAndEnd : Prop :=
  (∀ (c : Instr) (n : Nat) (tb0 : Timebase) (i : Item) (e : Event) (s : State), s.MakesBoundary c n tb0 → s.atRest → ShowOk s →
    s.ctl.state = .armed → s.ctl.next = some i.key → s.ctl.ordinary = some .manual → s.ctl.cover = none → i ∈ s.items →
    i.events = [e] → e.state = .idle → e.due = none → (∀ j ∈ s.items, j.key ≠ i.key → j.events = []) →
    let r : EventRef := ⟨i.key, e.num⟩
    let h := (tb0.boundary n).houseTime
    let q := match e.anchor with
      | .start => e.offset
      | .finish => (match i.lead, i.l with | some _, some l => l | _, _ => i.p) - e.offset
    ∃ t, exec c s = .next t
      ∧ (t.event r).map Event.due = some (some ((h + q) % t.day))
      ∧ (q = 0 → Fires s t r e 0 ∧ t.wheel = s.wheel.filter fun w => w.ref != r)
      ∧ (0 < q → ArmsAhead s t r e h q 0)
      ∧ (0 < q → i.lead = none → (t.item i.key).map Item.revision = some ((i.revision + 2) % 65536)))
  ∧ ∀ (c : Instr) (n : Nat) (tb0 : Timebase) (i : Item) (s : State), s.MakesBoundary c n tb0 → s.atRest → ShowOk s → StoreOk s.items →
    s.ctl.state = .last → s.onAirItem = some i → s.ctl.ordinary = some .manual → s.ctl.cover = none →
    let h := (tb0.boundary n).houseTime
    let ref := fun e : Event => (⟨i.key, e.num⟩ : EventRef)
    let entries := s.wheel.filter fun w => w.ref.owner == i.key && w.fireFrame == h
    ∃ t, exec c s = .next t
      ∧ t.wheel = s.wheel.filter (fun w => w.ref.owner != i.key) ∧ t.planned = s.planned.filter (fun w => w.ref.owner != i.key)
      ∧ t.watch = none
      ∧ (entries = [] →
          (∀ e ∈ i.events, (t.event (ref e)).map (fun f => (f.state, f.lateness, f.due)) = some e.atEnd)
          ∧ t.notices.skipped = s.notices.skipped
          ∧ (∀ o, let x := s.outlet o
              x.waiting = [] → (∀ d, x.cued = some d → ∃ e ∈ i.events, d.ref = ref e ∧ e.cued = true) →
              let undone := match x.cued with
                | some d => if x.queue.length < 8 then x.queue ++ [⟨.uncue, d.payload, some d.ref, false⟩] else x.queue
                | none => x.queue
              (¬x.Shows i → (t.outlet o).queue = undone)
              ∧ (x.Shows i → undone.length < 8 → (t.outlet o).queue = undone ++ [⟨.clear, 0, none, false⟩])
              ∧ (x.Shows i → 8 ≤ undone.length → (t.outlet o).queue = undone ∧ (t.outlet o).overflow = true
                  ∧ t.notices.pending.getLsbD 5 = true ∧ s.notices.missed ≤ t.notices.missed
                  ∧ (s.notices.missed < 65535 → s.notices.missed < t.notices.missed)))
          ∧ ((∀ o, ¬(s.outlet o).Shows i) → t.notices.missed = s.notices.missed))
      ∧ ∀ w e, entries = [w] → w.kind = .fire → e ∈ i.events → w.ref = ref e →
          let x := s.outlet e.outlet
          x.On → x.queue.length < 8 →
          (t.event w.ref).map (fun f => (f.state, f.lateness, f.due)) = some (.fired, w.spill, none)
          ∧ ∃ tail, (t.outlet e.outlet).queue.map (fun f => (f.command, f.payload, f.event))
              = x.queue.map (fun f => (f.command, f.payload, f.event))
                ++ (if e.action = .showFrame then (.showFrame, e.payload, some w.ref) else (.clear, 0, some w.ref)) :: tail

/-- Edits of the item on air (R106, R107, R67), told for an item with one event in a store where no other item has any. MODIFY_EVENT of its
offset re-arms an event that is PENDING or ARMED: armed where its due lies ahead, fired at once where it is now or up to 12 frames past,
else a counted skip that degrades nothing; one in a final state is armed again where its new due lies ahead and otherwise keeps its
state with the new due. A change of E by MODIFY_ITEM of P does the same with an END-anchored event that is PENDING or ARMED, and leaves
every other event as it was. MARK_ITEM releasing held on an AUTO item whose end condition is met requests the automatic end (R22, R66). -/
def Obligations.AirEdits : Prop :=
  let alone := fun (i : Item) (e : Event) (take : Nat) (s : State) =>
    s.batch = none ∧ StoreOk s.items ∧ ShowOk s ∧ s.onAirItem = some i ∧ i.airing = .onAir take ∧ i.events = [e]
      ∧ (∀ j ∈ s.items, j.key ≠ i.key → j.events = []) ∧ ∀ o, (s.outlet o).waiting = []
  let rearmed := fun (s t : State) (r : EventRef) (e : Event) (take q el : Nat) =>
    (t.event r).map Event.due = some (some ((take + q) % t.day))
    ∧ (el < q → ArmsAhead s t r e take q el)
    ∧ (q ≤ el → t.wheel = s.wheel.filter (fun w => w.ref != r) ∧ t.planned = s.planned.filter fun w => w.ref != r)
    ∧ (q ≤ el → el - q ≤ 12 → Fires s t r e (el - q))
    ∧ (12 < el - q → (t.event r).map (fun f => (f.state, f.lateness, f.cued)) = some (.skipped, 0, false)
        ∧ t.notices.skipped = (if s.notices.skipped < 65535 then s.notices.skipped + 1 else s.notices.skipped)
        ∧ t.notices.pending.getLsbD 5 = true
        ∧ t.items.map Item.degraded = s.items.map Item.degraded)
  (∀ (b : ModifyEventBody) (i : Item) (e : Event) (take : Nat) (s : State), s.takes (.modifyEvent b) → alone i e take s →
    b.owner.toNat = i.key → b.number.toNat = e.num.val → b.setMask = 8 → b.offset.toNat ≠ e.offset → i.lead ≠ some e.num →
    (e.cued = true → ∃ d, (s.outlet e.outlet).cued = some d ∧ d.ref = ⟨i.key, e.num⟩) →
    let r : EventRef := ⟨i.key, e.num⟩
    let f : Event := { e with offset := b.offset.toNat }
    let el := subMod s.day s.house take
    let q := match e.anchor with
      | .start => f.offset
      | .finish => (match i.lead, i.l with | some _, some l => l | _, _ => i.p) - f.offset
    ∃ t, exec (.modifyEvent b) s = .next t
      ∧ (e.state = .pending ∨ e.state = .armed → rearmed s t r f take q el)
      ∧ (e.state = .fired ∨ e.state = .skipped ∨ e.state = .missed →
          (el < q → ArmsAhead s t r f take q el)
          ∧ (q ≤ el → t.event r = some { f with due := some ((take + q) % t.day) } ∧ t.wheel = s.wheel ∧ t.planned = s.planned
              ∧ t.outlets = s.outlets)))
  ∧ (∀ (b : ModifyBody) (i : Item) (e : Event) (take : Nat) (s : State), s.takes (.modifyItem b) → b.slug = [] → alone i e take s →
    b.key.toNat = i.key → b.indSlug = 0 → b.indP = 1 → b.indL = 0 → b.indLead = 0 → b.indEnd = 0 → b.indHard = 0 →
    b.indPresenters = 0 → i.lead = none → min b.p.toNat 1048575 ≠ i.p →
    (e.cued = true → ∃ d, (s.outlet e.outlet).cued = some d ∧ d.ref = ⟨i.key, e.num⟩) →
    let r : EventRef := ⟨i.key, e.num⟩
    ∃ t, exec (.modifyItem b) s = .next t
      ∧ (e.anchor = .finish → e.state = .pending ∨ e.state = .armed →
          rearmed s t r e take (min b.p.toNat 1048575 - e.offset) (subMod s.day s.house take))
      ∧ (e.anchor = .start ∨ ¬(e.state = .pending ∨ e.state = .armed) →
          t.event r = some e ∧ t.wheel = s.wheel ∧ t.planned = s.planned ∧ t.outlets = s.outlets))
  ∧ ∀ (key : Half) (i : Item) (s : State), s.takes (.markItem key 2 0) → s.batch = none → StoreOk s.items → ShowOk s →
    s.onAirItem = some i → i.key = key.toNat → i.held = true → i.endAction = .auto →
    ∃ t, exec (.markItem key 2 0) s = .next t ∧ (t.item i.key).map Item.held = some false
      ∧ (s.EndCondition i → t.ctl.ordinary = some (s.ctl.ordinary.getD .automatic))
      ∧ (¬s.EndCondition i → t.ctl.ordinary = s.ctl.ordinary)

/-! ## Outlets (chapter 06) -/

/-- SEND_COMPLETION (R125, R126, R128, R130, R134): the frame at the head leaves the queue and acts on the references, a cue lost by it
joins the list or, when that is full, is dropped; the next frame starts at the rate then configured, and an outlet then able to hold a
cue takes the head off its list. The four bytes the link sends are 11.3's, each between a low start bit and a high stop bit
(DisplayCompletion says the bits). A line that is sending nothing has no completion (log entry 22). -/
def Obligations.SendCompletion : Prop :=
  ∀ (o : Fin 8) (s : State),
    let x := s.outlet o
    (x.sending = none ∨ x.queue = [] → exec (.sendCompletion o) s = .next s)
    ∧ ∀ f rest, x.sending.isSome = true → x.queue = f :: rest → OutletOk x →
      let shown := f.command = .showFrame
      let sent := fun c : CuedRef => shown ∧ f.event = some c.ref
      let lost := fun c : CuedRef => shown ∧ f.event ≠ some c.ref ∧ x.kind = .clip
      let clears := fun c : CuedRef => sent c ∨ lost c
      ∃ t mid, exec (.sendCompletion o) s = .next t ∧ LineOnly s t ∧ OthersKept o s t
        ∧ s.outletWire o = (0xA5 : Byte) :: u8 (match f.command with | .cue => 1 | .showFrame => 2 | .clear => 3 | .uncue => 4)
            ++ u16 f.payload.toNat
        ∧ (∃ cued waiting, mid = { x with
              queue := rest, sending := if rest = [] then none else some x.rate
              playing := (match f.command with | .showFrame => f.event | .clear => none | _ => x.playing)
              cued := cued, waiting := waiting }
            ∧ (x.cued = none → cued = none ∧ waiting = x.waiting)
            ∧ ∀ c, x.cued = some c →
              (¬clears c → cued = some c ∧ waiting = x.waiting)
              ∧ (sent c → cued = none ∧ waiting = x.waiting)
              ∧ (lost c → cued = none ∧ waiting = if x.waiting.length < 4 then x.waiting ++ [⟨c.ref, c.key⟩] else x.waiting))
        ∧ (mid.waiting = [] ∨ ¬mid.Holds → t.outlet o = mid)
        ∧ (mid.waiting ≠ [] → mid.Holds →
            ∃ w payload, IsHead s.items mid.waiting w ∧ (∀ e, s.event w.ref = some e → payload = e.payload)
              ∧ t.outlet o = { mid.pushed ⟨.cue, payload, some w.ref, false⟩ with
                  cued := some ⟨w.ref, w.key, payload⟩, waiting := mid.waiting.filter fun v => v.ref != w.ref }
              ∧ ∀ e, t.event w.ref = some e → e.cued = true)
        ∧ (∀ c e, x.cued = some c → clears c → t.event c.ref = some e →
            (e.cued = true ↔ ∃ d, (t.outlet o).cued = some d ∧ d.ref = c.ref))
        ∧ (∀ w, s.watch = some w → w.outlet = o → w.stage = .queued → f.leadMark = true →
            (x.tally = false → t.watch = some { w with stage := .sent } ∧ t.ctl = s.ctl)
            ∧ (x.tally = true → t.watch = some { w with stage := .running }
                ∧ (s.ctl.phase = .shown → ({ s with ctl := { s.ctl with phase := .running } } : State).Judges t.ctl)
                ∧ (s.ctl.phase ≠ .shown → t.ctl = s.ctl)))
        ∧ ((∀ w, s.watch = some w → w.outlet ≠ o ∨ w.stage ≠ .queued ∨ f.leadMark = false) → t.watch = s.watch ∧ t.ctl = s.ctl)

/-- READY_FALL and READY_RISE (R123, R131, R132, R136): the level and the latch on every outlet; the fall on an enabled outlet out of reset
hold flushes the queue, returns the cue to the list, loses the references and the watch, and a lead still SHOWN or RUNNING on it is
LOST, its item degraded. TALLY_RISE and TALLY_FALL (R123, R133, R134): the level and the latch; the lead's rise and end on its watched
outlet, each judged at once (R67); the head of a CLIP outlet's list cued at the fall. A change to a line's present level is none (log
entry 22). -/
def Obligations.ReturnLines : Prop :=
  ∀ (o : Fin 8) (s : State), s.inReset = false →
    let x := s.outlet o
    let on := x.enabled = true ∧ x.ready = true ∧ x.resetHold = false
    (x.ready = false → exec (.readyFall o) s = .next s)
    ∧ (x.ready = true → exec (.readyRise o) s = .next s)
    ∧ (x.ready = true → x.enabled = false ∨ x.resetHold = true →
        exec (.readyFall o) s = .next { s with
          outlets := s.outlets.set o { x with ready := false, readyChanged := true }
          notices := { s.notices with pending := s.notices.pending ||| 0x04 } })
    ∧ (x.ready = true → x.enabled = true → x.resetHold = false →
        ∃ t, exec (.readyFall o) s = .next t ∧ LineOnly s t ∧ OthersKept o s t ∧ WatchLost o s t
          ∧ t.outlet o = { x with
              ready := false, readyChanged := true, queue := [], sending := none, cued := none, playing := none
              waiting := match x.cued with
                | some c => if x.waiting.length < 4 then x.waiting ++ [⟨c.ref, c.key⟩] else x.waiting
                | none => x.waiting }
          ∧ (∀ c e, x.cued = some c → t.event c.ref = some e → e.cued = false)
          ∧ t.notices.pending.getLsbD 2 = true
          ∧ (∀ w i, s.watch = some w → w.outlet = o → s.ctl.phase = .shown ∨ s.ctl.phase = .running → s.onAirItem = some i →
              t.ctl.phase = .lost ∧ ∃ j, t.item i.key = some j ∧ j.degraded = true)
          ∧ ((∀ w, s.watch = some w → w.outlet ≠ o) ∨ (s.ctl.phase ≠ .shown ∧ s.ctl.phase ≠ .running) → t.ctl = s.ctl))
    ∧ (x.ready = false →
        ∃ t, exec (.readyRise o) s = .next t ∧ LineOnly s t ∧ OthersKept o s t ∧ t.watch = s.watch ∧ t.ctl = s.ctl
          ∧ (t.outlet o).setup = { x.setup with ready := true, readyChanged := true }
          ∧ t.notices.pending = s.notices.pending ||| 0x04
          ∧ (x.waiting = [] ∨ ¬({ x with ready := true } : Outlet).Holds →
              t.items = s.items ∧ t.outlet o = { x with ready := true, readyChanged := true })
          ∧ (x.waiting ≠ [] → ({ x with ready := true } : Outlet).Holds →
              ∃ w payload, IsHead s.items x.waiting w ∧ (t.outlet o).cued = some ⟨w.ref, w.key, payload⟩))
    ∧ (x.tally = true → exec (.tallyRise o) s = .next s)
    ∧ (x.tally = false → exec (.tallyFall o) s = .next s)
    ∧ (x.tally = false →
        ∃ t, exec (.tallyRise o) s = .next t ∧ LineOnly s t ∧ OthersKept o s t ∧ t.items = s.items
          ∧ t.outlet o = { x with tally := true, tallyChanged := true } ∧ t.notices.pending = s.notices.pending ||| 0x04
          ∧ (∀ w, on → s.watch = some w → w.outlet = o → w.stage = .sent → t.watch = some { w with stage := .running }
              ∧ (s.ctl.phase = .shown → ({ s with ctl := { s.ctl with phase := .running } } : State).Judges t.ctl)
              ∧ (s.ctl.phase ≠ .shown → t.ctl = s.ctl))
          ∧ (¬on ∨ (∀ w, s.watch = some w → w.outlet ≠ o ∨ w.stage ≠ .sent) → t.watch = s.watch ∧ t.ctl = s.ctl))
    ∧ (x.tally = true →
        ∃ t, exec (.tallyFall o) s = .next t ∧ LineOnly s t ∧ OthersKept o s t
          ∧ (t.outlet o).setup = { x.setup with tally := false, tallyChanged := true } ∧ (t.outlet o).playing = x.playing
          ∧ t.notices.pending = s.notices.pending ||| 0x04
          ∧ (∀ w, on → s.watch = some w → w.outlet = o → w.stage = .running → t.watch = none
              ∧ (s.ctl.phase = .running →
                  ({ s with ctl := { s.ctl with phase := .ended, leadEnd := some s.house } } : State).Judges t.ctl)
              ∧ (s.ctl.phase ≠ .running → t.ctl = s.ctl))
          ∧ (¬on ∨ (∀ w, s.watch = some w → w.outlet ≠ o ∨ w.stage ≠ .running) → t.watch = s.watch ∧ t.ctl = s.ctl)
          ∧ (¬on ∨ x.kind = .graphics ∨ x.waiting = [] → t.items = s.items
              ∧ t.outlet o = { x with tally := false, tallyChanged := true })
          ∧ (on → x.kind = .clip → x.waiting ≠ [] → ({ x with tally := false } : Outlet).Holds →
              ∃ w payload, IsHead s.items x.waiting w ∧ (t.outlet o).cued = some ⟨w.ref, w.key, payload⟩))

/-- CONFIGURE_OUTLET (R137): the four fields stored, a pre-roll above 250 as 250; disabling flushes and forgets, enabling cues the head
of the list. An enabled byte other than 0 and 1 is refused (log entry 12); that a change of kind by itself cues no waiting head is log
entry 19. An item that disabling degrades makes its change report (R169, log entry 6). -/
def Obligations.ConfigureOutlet : Prop :=
  ∀ (outlet kind enabled : Byte) (preRoll : Half) (rate : Byte) (s : State),
    let i := Instr.configureOutlet outlet kind enabled preRoll rate
    s.takes i →
    (8 ≤ outlet.toNat ∨ 2 ≤ kind.toNat ∨ 2 ≤ enabled.toNat ∨ 3 ≤ rate.toNat → Refuses i s .badField)
    ∧ ∀ o : Fin 8, o.val = outlet.toNat → kind.toNat ≤ 1 → enabled.toNat ≤ 1 → rate.toNat ≤ 2 →
      let x := s.outlet o
      let y : Outlet := { x with
        kind := if kind = 0 then .clip else .graphics
        preRoll := min preRoll.toNat 250
        rate := if rate = 0 then .b9600 else if rate = 1 then .b38400 else .b115200 }
      (x.enabled = decide (enabled = 1) →
          let t : State := { s with outlets := s.outlets.set o y }
          Answers i s t (t.outletBlock o))
      ∧ (x.enabled = true → enabled = 0 →
          ∃ t, Answers i s t (t.outletBlock o) ∧ LineOnly s t ∧ OthersKept o s t ∧ WatchLost o s t
            ∧ t.outlet o = { y with
                enabled := false, queue := [], sending := none, cued := none, playing := none, waiting := [], resetHold := false }
            ∧ ∀ c e, x.cued = some c → t.event c.ref = some e → e.cued = false)
      ∧ (x.enabled = false → enabled = 1 →
          let z : Outlet := { y with enabled := true }
          ∃ t, Answers i s t (t.outletBlock o) ∧ LineOnly s t ∧ OthersKept o s t ∧ (t.outlet o).setup = z.setup
            ∧ (z.waiting = [] ∨ ¬z.Holds → t = { s with outlets := s.outlets.set o z })
            ∧ (z.waiting ≠ [] → z.Holds →
                ∃ w payload, IsHead s.items x.waiting w ∧ (t.outlet o).cued = some ⟨w.ref, w.key, payload⟩))

/-- RESET_OUTLET (R138): one CLEAR in the queue and going out, every reference and the list gone, READY_CHANGED set, the hold on an
enabled outlet. RESET_HOLD_END: where that CLEAR has gone and READY is high the hold ends and the head of the list is cued;
otherwise the hold stands. A hold that the last boundary opened no end for does not end (log entry 1), and RESET_OUTLET
takes back an end that the last boundary opened (log entry 19). An item that the reset degrades makes its change report (R169, log entry
6). -/
def Obligations.ResetOutlet : Prop :=
  (∀ (outlet : Byte) (s : State), s.takes (.resetOutlet outlet) →
    (8 ≤ outlet.toNat → Refuses (.resetOutlet outlet) s .badField)
    ∧ ∀ o : Fin 8, o.val = outlet.toNat →
      let x := s.outlet o
      ∃ t, Answers (.resetOutlet outlet) s t (t.outletBlock o)
        ∧ LineOnly { s with owed := s.owed.erase (.resetHold o) } t ∧ OthersKept o s t ∧ WatchLost o s t
        ∧ t.outlet o = { x with
            queue := [⟨.clear, 0, none, false⟩], sending := some x.rate, cued := none, playing := none, waiting := []
            readyChanged := true, resetHold := x.enabled }
        ∧ (∀ c e, x.cued = some c → t.event c.ref = some e → e.cued = false)
        ∧ t.notices.pending.getLsbD 2 = true)
  ∧ ∀ (o : Fin 8) (s : State),
    let x := s.outlet o
    (s.owed.contains (.resetHold o) = false → exec (.resetHoldEnd o) s = .next s)
    ∧ (s.owed.contains (.resetHold o) = true →
      ∃ t, exec (.resetHoldEnd o) s = .next t ∧ OthersKept o s t ∧ t.owed = s.owed.erase (.resetHold o) ∧ t.tb = s.tb
        ∧ t.ctl = s.ctl ∧ t.cores = s.cores ∧ t.port = s.port
        ∧ (x.resetHold = false ∨ x.queue ≠ [] ∨ x.ready = false → t.outlet o = x)
        ∧ (x.resetHold = true → x.queue = [] → x.ready = true →
            (t.outlet o).setup = { x.setup with resetHold := false }
            ∧ (x.waiting = [] → t.outlet o = { x with resetHold := false })
            ∧ (x.waiting ≠ [] → ({ x with resetHold := false } : Outlet).Holds →
                ∃ w payload, IsHead s.items x.waiting w ∧ (t.outlet o).cued = some ⟨w.ref, w.key, payload⟩)))

/-- ACK_OUTLET, whole (R139): each latch named in the mask is cleared and nothing else moves; a line change taken after it sets its
latch again. Mask bits above 2 name no latch (R192). -/
def Obligations.AckOutlet : Prop :=
  ∀ (outlet mask : Byte) (s : State), s.takes (.ackOutlet outlet mask) →
    (8 ≤ outlet.toNat ∨ mask = 0 ∨ 8 ≤ mask.toNat → Refuses (.ackOutlet outlet mask) s .badField)
    ∧ ∀ o : Fin 8, o.val = outlet.toNat → mask ≠ 0 → mask.toNat ≤ 7 →
      let x := s.outlet o
      let t : State := { s with
        outlets := s.outlets.set o { x with
          readyChanged := if mask.getLsbD 0 then false else x.readyChanged
          tallyChanged := if mask.getLsbD 1 then false else x.tallyChanged
          overflow := if mask.getLsbD 2 then false else x.overflow } }
      Answers (.ackOutlet outlet mask) s t (t.outletBlock o)
      ∧ ∀ u, (x.ready = true → exec (.readyFall o) t = .next u → (u.outlet o).readyChanged = true)
        ∧ (x.ready = false → exec (.readyRise o) t = .next u → (u.outlet o).readyChanged = true)
        ∧ (x.tally = false → exec (.tallyRise o) t = .next u → (u.outlet o).tallyChanged = true)
        ∧ (x.tally = true → exec (.tallyFall o) t = .next u → (u.outlet o).tallyChanged = true)

/-- The lead watch (R134, R135): the firing of the lead's SHOW by its slot opens it with 25 boundaries left, the lead SHOWN and its frame
the one that carries the lead mark; each boundary lowers the count by 1. LEAD_START_TIMEOUT (R135, R72, R75, R187): the watch closes,
a lead still SHOWN is LOST and its item degraded; unless the item was taken by vector, LEAD_LOST is raised, with a cover take where its
entry names a usable item. The firing, and the degradation of an item not degraded before, form the sheet once more (R169, log
entry 6). OVER_REACHED (R70): raised when r ≤ 0 for the first time in the airing. -/
def Obligations.LeadTimeoutAndOver : Prop :=
  (∀ (i : Item) (w : LeadWatch) (s : State), s.owed.contains .leadTimeout = true → s.watch = some w → s.ctl.onAir = some i.key →
    s.item i.key = some i → i.isOnAir = true →
    (w.stage = .running ∨ w.left ≠ 0 →
      ∃ t, exec .leadStartTimeout s = .next t ∧ t.watch = s.watch ∧ t.ctl = s.ctl ∧ t.items = s.items ∧ t.notices = s.notices)
    ∧ (w.stage ≠ .running → w.left = 0 → s.ctl.phase = .shown →
      ∃ t, exec .leadStartTimeout s = .next t ∧ t.watch = none ∧ t.ctl.phase = .lost ∧ t.cores = s.cores ∧ t.outlets = s.outlets
        ∧ t.owed = s.owed.erase .leadTimeout ∧ t.tb = s.tb
        ∧ t.sheetCount = (if i.degraded then s.sheetCount else (s.sheetCount + 1) % 65536) ∧ (∃ j, t.item i.key = some j ∧ j.degraded = true)
        ∧ (s.ctl.takenByVector = true → t.notices.lastVector = s.notices.lastVector ∧ t.ctl.cover = s.ctl.cover)
        ∧ (s.ctl.takenByVector = false → t.notices.pending.getLsbD 6 = true
            ∧ (s.ctl.leadLostKey = none →
                t.notices.lastVector = some ⟨.leadLost, s.house, i.key, 0, .noCover⟩ ∧ t.ctl.cover = s.ctl.cover)
            ∧ ∀ c, s.ctl.leadLostKey = some c →
              ((¬∃ j, s.item c = some j ∧ j.isOnAir = false) ∨ c = i.key →
                t.notices.lastVector = some ⟨.leadLost, s.house, i.key, c, .noCover⟩ ∧ t.ctl.cover = s.ctl.cover)
              ∧ ((∃ j, s.item c = some j ∧ j.isOnAir = false) → c ≠ i.key →
                (s.ctl.cover = none → t.notices.lastVector = some ⟨.leadLost, s.house, i.key, c, .requested⟩
                  ∧ t.ctl.cover = some ⟨.leadLost, c⟩)
                ∧ (s.ctl.cover.isSome = true → t.notices.lastVector = some ⟨.leadLost, s.house, i.key, c, .coalesced⟩
                  ∧ t.ctl.cover = s.ctl.cover)))))
  ∧ (∀ (i : Item) (w : WheelEntry) (e : Event) (s : State), s.owed.contains .wheelSlot = true → s.onAirItem = some i →
    s.wheel.filter (fun v => v.fireFrame == s.house) = [w] → w.kind = .fire → w.ref = ⟨i.key, e.num⟩ → i.event e.num = some e →
    e.action = .showFrame → i.lead = some e.num → e.state = .armed → (s.outlet e.outlet).On →
    (s.outlet e.outlet).queue.length < 8 →
    ∃ t, exec .wheelSlotFiring s = .next t ∧ t.watch = some ⟨e.outlet, w.ref, .queued, 25⟩
      ∧ (s.ctl.phase = .waiting → ({ s with ctl := { s.ctl with phase := .shown } } : State).Judges t.ctl)
      ∧ (∀ o, ∀ f ∈ (t.outlet o).queue, f.leadMark = true → o = e.outlet)
      ∧ (∃ q, (t.outlet e.outlet).queue = q ++ [⟨.showFrame, e.payload, some w.ref, true⟩] ∧ ∀ f ∈ q, f.leadMark = false)
      ∧ t.sheetCount = (s.sheetCount + 1) % 65536)
  ∧ (∀ (c : Instr) (n : Nat) (tb0 : Timebase) (w : LeadWatch) (s : State), s.MakesBoundary c n tb0 → s.atRest → s.watch = some w →
    s.ctl.ordinary = none → s.ctl.cover = none →
    ∃ t, exec c s = .next t ∧ t.watch = some { w with left := w.left - 1 }
      ∧ (t.owed.contains .leadTimeout = true ↔ w.stage ≠ .running ∧ w.left ≤ 1))
  ∧ ∀ s : State, s.owed.contains .overReached = true → s.inReset = false → DisplayOk s →
    let reached := s.ctl.onAir.isSome = true ∧ ∃ r, s.remaining = some r ∧ r ≤ 0
    (reached → s.ctl.overReached = false →
        exec .overReached s = .next { s with
          owed := s.owed.erase .overReached, ctl := { s.ctl with overReached := true }
          notices := { s.notices with pending := s.notices.pending ||| 0x80 } })
    ∧ (¬reached ∨ s.ctl.overReached = true → exec .overReached s = .next { s with owed := s.owed.erase .overReached })

/-! ## Presenters and the display line (chapter 07) -/

/-- SET_PATTERN (R145): the pending entry of a lamp state, its step length within 1..15. HAIL_PRESENTER (R148): the hail stored within
1,000; a presenter not yet HAILED restarts, one already HAILED keeps its pattern, a cancel derives from the show; the other positions
are not touched. -/
def Obligations.CueRequests : Prop :=
  (∀ (lamp : Byte) (pattern : Half) (length : Byte) (s : State), s.takes (.setPattern lamp pattern length) →
    let n := if length = 0 then 1 else if 15 < length.toNat then 15 else length.toNat
    (6 ≤ lamp.toNat → Refuses (.setPattern lamp pattern length) s .badField)
    ∧ ∀ l : Fin 6, l.val = lamp.toNat →
      Answers (.setPattern lamp pattern length) s
        { s with cue := { s.cue with pendingPatterns := s.cue.pendingPatterns.set l (some ⟨pattern, n⟩) } } (u16 pattern.toNat ++ u8 n))
  ∧ ∀ (position : Byte) (length : Half) (s : State), s.takes (.hailPresenter position length) →
    (4 ≤ position.toNat → Refuses (.hailPresenter position length) s .badField)
    ∧ ∀ p : Fin 4, p.val = position.toNat →
      let n := min length.toNat 1000
      let x := s.cue.presenters.get p
      ∃ cue, Answers (.hailPresenter position length) s { s with cue := cue } (u16 n)
        ∧ Derived s p { x with hail := n } (cue.presenters.get p)
        ∧ (∀ q, q ≠ p → (cue.presenters.get q).unsent = (s.cue.presenters.get q).unsent)
        ∧ cue.patterns = s.cue.patterns ∧ cue.pendingPatterns = s.cue.pendingPatterns

/-- Forming the sheet (R79, R144, R152, R154) and SET_WRAP (R76, R144) derive every position: the lamp state, the restart rule, the
display value, and the slot of each address judged against its last sent. -/
def Obligations.Lamps : Prop :=
  (∀ s : State,
    let t := s.formSheet
    let slot := fun (a : Fin 6) (v : Shown) => t.cue.slots.get a = if s.cue.lastSent a = some v then none else some v
    let down := fun x : Nat => match s.tb.standard with | .s25 => x / 25 | .s30 => x / 30 | .s30D => x * 1001 / 30000
    t = { s with sheetCount := (s.sheetCount + 1) % 65536, cue := t.cue } ∧ t.cue.sending = s.cue.sending
    ∧ t.cue.patterns = s.cue.patterns ∧ t.cue.pendingPatterns = s.cue.pendingPatterns ∧ t.cue.slots.get 5 = s.cue.slots.get 5
    ∧ (∀ a, t.cue.lastSent a = s.cue.lastSent a)
    ∧ (∀ (p : Fin 4) (a : Fin 6), a.val = p.val →
        Derived s p (s.cue.presenters.get p) (t.cue.presenters.get p) ∧ slot a (t.cue.presenters.get p).shown)
    ∧ (s.headline.1 = none → slot 4 ⟨.blank, 0, 0, 0, 0⟩)
    ∧ ∀ u, s.headline.1 = some u → -8388607 ≤ u → u ≤ 8388607 →
        slot 4 (secondsOn (if 0 < u then .showOver else .showUnder) (down u.natAbs)))
  ∧ ∀ (seconds : Byte) (s : State), s.takes (.setWrap seconds) →
    let u : State := { s with ctl := { s.ctl with wrap := min seconds.toNat 60 } }
    ∃ cue, Answers (.setWrap seconds) s { u with cue := cue } (u8 (min seconds.toNat 60))
      ∧ cue.patterns = s.cue.patterns ∧ cue.pendingPatterns = s.cue.pendingPatterns
      ∧ ∀ p, Derived u p (s.cue.presenters.get p) (cue.presenters.get p)

/-- LAMP_STEP_ADVANCE (R146): frames into step rises, and the step with it at the step length, unless the record was restarted at
this very boundary; the lamp line's level is the step's bit. HAIL_RUN_OUT (R149): the hail is lowered, and one that reaches 0 derives
the lamp again. A part that the last boundary does not owe is no event (log entry 1). -/
def Obligations.LampBoundary : Prop :=
  (∀ (p : Fin 4) (s : State), s.inReset = false → DisplayOk s →
    let x := s.cue.presenters.get p
    let pattern := s.cue.patterns.get (match x.lamp with | .dark => 0 | .standby => 1 | .on => 2 | .wrap => 3 | .over => 4 | .hailed => 5)
    let put := fun y : Presenter =>
      { s with owed := s.owed.erase (.lampStep p), cue := { s.cue with presenters := s.cue.presenters.set p y } }
    (s.lampLine p = pattern.bits.getLsbD (15 - x.step.val))
    ∧ (s.owed.contains (.lampStep p) = false → exec (.lampStepAdvance p) s = .next s)
    ∧ (s.owed.contains (.lampStep p) = true →
        (x.restartMark = some s.house → exec (.lampStepAdvance p) s = .next (put x))
        ∧ (x.restartMark ≠ some s.house → x.frames + 1 < pattern.length →
            exec (.lampStepAdvance p) s = .next (put { x with frames := x.frames + 1 }))
        ∧ (x.restartMark ≠ some s.house → pattern.length ≤ x.frames + 1 →
            exec (.lampStepAdvance p) s = .next (put { x with frames := 0, step := x.step + 1 }))))
  ∧ ∀ (p : Fin 4) (s : State), s.inReset = false → DisplayOk s →
    let x := s.cue.presenters.get p
    let rest : State := { s with owed := s.owed.erase (.hail p) }
    (s.owed.contains (.hail p) = false → exec (.hailRunOut p) s = .next s)
    ∧ (s.owed.contains (.hail p) = true →
        (x.hail = 0 → exec (.hailRunOut p) s = .next rest)
        ∧ (1 < x.hail → exec (.hailRunOut p) s = .next { rest with
            cue := { s.cue with presenters := s.cue.presenters.set p { x with hail := x.hail - 1 } } })
        ∧ (x.hail = 1 →
            ∃ cue, exec (.hailRunOut p) s = .next { rest with cue := cue }
              ∧ Derived s p { x with hail := 0 } (cue.presenters.get p)
              ∧ (∀ q, q ≠ p → (cue.presenters.get q).unsent = (s.cue.presenters.get q).unsent)
              ∧ cue.patterns = s.cue.patterns ∧ cue.pendingPatterns = s.cue.pendingPatterns))

/-- DISPLAY_SEND_COMPLETION (R155, R150): the line is free, and the filled slot with the lowest address starts: its slot is emptied, its
last sent written, and its frame is on the line, seven bytes (11.3), each between a low start bit and a high stop bit. A line that is
sending nothing has no completion (log entry 22). -/
def Obligations.DisplayCompletion : Prop :=
  ∀ s : State,
    (s.cue.sending = none → exec .displaySendCompletion s = .next s)
    ∧ (s.cue.sending.isSome = true → (∀ a, s.cue.slots.get a = none) →
        exec .displaySendCompletion s = .next { s with cue := { s.cue with sending := none } })
    ∧ ∀ a v, s.cue.sending.isSome = true → s.cue.slots.get a = some v → (∀ b, b < a → s.cue.slots.get b = none) →
        ∃ t, exec .displaySendCompletion s = .next t ∧ t = { s with cue := t.cue } ∧ t.cue.sending = some (a, v)
          ∧ t.cue.slots = s.cue.slots.set a none ∧ t.cue.patterns = s.cue.patterns
          ∧ t.displayWire = (0x5A : Byte) :: u8 a.val ++ u8 (match v.mode with
              | .blank => 0 | .countdown => 1 | .overrun => 2 | .nextIn => 3 | .hail => 4 | .showOver => 5 | .showUnder => 6 | .tod => 7)
            ++ u8 v.h ++ u8 v.m ++ u8 v.s ++ u8 v.f
          ∧ (∀ c : Byte, charBits c = [false, c.getLsbD 0, c.getLsbD 1, c.getLsbD 2, c.getLsbD 3, c.getLsbD 4, c.getLsbD 5, c.getLsbD 6,
              c.getLsbD 7, true])
          ∧ t.cue.pendingPatterns = s.cue.pendingPatterns ∧ t.cue.lastSent a = some v
          ∧ (∀ b, b ≠ a → t.cue.lastSent b = s.cue.lastSent b)
          ∧ ∀ p, (t.cue.presenters.get p).unsent = (s.cue.presenters.get p).unsent

/-! ## The panel (chapter 08) -/

/-- SET_PANEL_MODE (R166): mode and lapse stored together; a press trapped in an input that leaves TRAP is withdrawn. VERDICT (R164): the
three lines of its table; ALLOW hands the action over. The 13 bytes of an input's record (R158, R193): the boundaries waited of an empty
slot are a free byte (log entry 5), the accepted level is 0 for low and 1 for high (log entry 18). -/
def Obligations.PanelRequests : Prop :=
  (∀ (base : Nat) (n : Fin 4) (s : State),
    let x := s.panel.get n
    ∃ waited : Byte, (∀ w, x.trap = some w → waited = BitVec.ofNat 8 w.waited)
      ∧ s.inputBlock base n = u8 n.val ++ u8 (match x.mode with | .act => 0 | .off => 1 | .trap => 2)
          ++ u8 (match x.lapse with | .act => 0 | .drop => 1) ++ u8 (if x.accepted then 1 else 0) ++ u8 x.quiet
          ++ (match x.trap with | some w => u8 w.num ++ u24 w.frame | none => [0, 0xFF, 0xFF, 0xFF]) ++ [waited]
          ++ u8 x.nextTrap
          ++ (match x.ended with
              | some (k, c) => u8 k ++ u8 (match c with | .withdrawn => 1 | .lapsedAct => 2 | .lapsedDrop => 3)
              | none => [0, 0])
      ∧ (s.inputBlock base n).length = 13) ∧
  (∀ (input mode lapse : Byte) (s : State), s.takes (.setPanelMode input mode lapse) →
    (4 ≤ input.toNat ∨ 3 ≤ mode.toNat ∨ 2 ≤ lapse.toNat → Refuses (.setPanelMode input mode lapse) s .badField)
    ∧ ∀ n : Fin 4, n.val = input.toNat → mode.toNat ≤ 2 → lapse.toNat ≤ 1 →
      let x := s.panel.get n
      let y : Input := { x with
        mode := if mode = 0 then .act else if mode = 1 then .off else .trap
        lapse := if lapse = 0 then .act else .drop }
      let gives := fun t : State => Answers (.setPanelMode input mode lapse) s { t with freeIndex := s.freeIndex + 1 }
        (t.inputBlock 0 0 ++ t.inputBlock 13 1 ++ t.inputBlock 26 2 ++ t.inputBlock 39 3)
      (x.trap = none ∨ mode = 2 → gives { s with panel := s.panel.set n y })
      ∧ ∀ w, x.trap = some w → mode ≠ 2 → gives { s with
          panel := s.panel.set n { y with trap := none, ended := some (w.num, .withdrawn) }
          notices := { s.notices with pending := s.notices.pending ||| 0x08 } })
  ∧ ∀ (input trap decision : Byte) (s : State), s.takes (.verdict input trap decision) →
    (4 ≤ input.toNat ∨ trap = 0 ∨ 2 ≤ decision.toNat → Refuses (.verdict input trap decision) s .badField)
    ∧ ∀ n : Fin 4, n.val = input.toNat → trap ≠ 0 → decision.toNat ≤ 1 →
      let x := s.panel.get n
      let last := ∃ cause, x.ended = some (trap.toNat, cause)
      ((∀ w, x.trap = some w → w.num ≠ trap.toNat) → last → Refuses (.verdict input trap decision) s .tooLate)
      ∧ ((∀ w, x.trap = some w → w.num ≠ trap.toNat) → ¬last → Refuses (.verdict input trap decision) s .nothingTrapped)
      ∧ ∀ w, x.trap = some w → w.num = trap.toNat →
          let u : State := { s with panel := s.panel.set n { x with trap := none } }
          let t := if decision = 0 then u.panelAction n else u
          Answers (.verdict input trap decision) s { t with freeIndex := s.freeIndex + 1 } (t.inputBlock 0 n)

/-- A panel line's change (R159, R160, R163), QUIET_EXPIRY (R159) and LAPSE (R165). A watching input takes a rise as a press and a fall as
no press, one in its quiet ignores both; the quiet that runs out finds the settled level; the twelfth boundary makes a trapped
press lapse by the lapse field as it stands. A change to a line's present level is none (log entry 22); the two boundary rows take parts
the boundary owes (log entry 1). -/
def Obligations.PanelPresses : Prop :=
  (∀ (n : Fin 4) (v : Bool) (s : State), s.inReset = false →
    let x := s.panel.get n
    let put := fun y : Input => { s with panel := s.panel.set n y }
    (x.line = v → exec (.panelLineChange n v) s = .next s)
    ∧ (x.line ≠ v → x.quiet ≠ 0 ∨ x.accepted = v → exec (.panelLineChange n v) s = .next (put { x with line := v }))
    ∧ (x.line = true → v = false → x.quiet = 0 → x.accepted = true →
        exec (.panelLineChange n v) s = .next (put { x with line := false, accepted := false, quiet := 3 }))
    ∧ (x.line = false → v = true → x.quiet = 0 → x.accepted = false →
        exec (.panelLineChange n v) s = .next ((put { x with line := true, accepted := true, quiet := 3 }).pressed n)))
  ∧ (∀ (n : Fin 4) (s : State), s.inReset = false → DisplayOk s →
    let x := s.panel.get n
    let put := fun y : Input => { s with owed := s.owed.erase (.quiet n), panel := s.panel.set n y }
    (s.owed.contains (.quiet n) = false → exec (.quietExpiry n) s = .next s)
    ∧ (s.owed.contains (.quiet n) = true →
        (x.quiet ≠ 1 → exec (.quietExpiry n) s = .next (put { x with quiet := x.quiet - 1 }))
        ∧ (x.quiet = 1 → x.line = x.accepted → exec (.quietExpiry n) s = .next (put { x with quiet := 0 }))
        ∧ (x.quiet = 1 → x.line = false → x.accepted = true →
            exec (.quietExpiry n) s = .next (put { x with accepted := false, quiet := 3 }))
        ∧ (x.quiet = 1 → x.line = true → x.accepted = false →
            exec (.quietExpiry n) s = .next ((put { x with accepted := true, quiet := 3 }).pressed n))))
  ∧ ∀ (n : Fin 4) (s : State), s.inReset = false → DisplayOk s →
    let x := s.panel.get n
    let put := fun y : Input => { s with owed := s.owed.erase (.trapWait n), panel := s.panel.set n y }
    let lapsed := fun (w : Trap) (cause : EndedCause) => { put { x with trap := none, ended := some (w.num, cause) } with
      notices := { s.notices with pending := s.notices.pending ||| 0x08 } }
    (s.owed.contains (.trapWait n) = false → exec (.lapse n) s = .next s)
    ∧ (s.owed.contains (.trapWait n) = true →
        (x.trap = none → exec (.lapse n) s = .next (put x))
        ∧ ∀ w, x.trap = some w →
          (w.waited < 11 → exec (.lapse n) s = .next (put { x with trap := some { w with waited := w.waited + 1 } }))
          ∧ (11 ≤ w.waited → x.lapse = .act → exec (.lapse n) s = .next ((lapsed w .lapsedAct).panelAction n))
          ∧ (11 ≤ w.waited → x.lapse = .drop → exec (.lapse n) s = .next (lapsed w .lapsedDrop)))

/-- The four panel actions as their receivers take them (R161, R162, R60, R65, R66): TAKE a MANUAL take, dropped in CLOSED with its record
(log entry 11); HOLD; SKIP, which floats NEXT also while a batch is open, with one forming
of the sheet (log entry 6); CLEAR_GFX on each outlet. -/
def Obligations.PanelActions : Prop :=
  (∀ s : State,
    (s.ctl.state = .closed → s.panelAction 0 = { s with
      notices := { s.notices with
        lastTake := ⟨some .dropped, some s.house, 0, 0, none⟩, pending := s.notices.pending ||| 0x02 } })
    ∧ (s.ctl.state ≠ .closed → s.panelAction 0 = s.ordinaryTake .manual))
  ∧ (∀ s : State,
    (s.ctl.onAir = none → s.panelAction 1 = s)
    ∧ ∀ i before rest, s.ctl.onAir = some i.key → (s.items.map Item.key).Nodup → s.items = before ++ i :: rest →
        let t : State :=
          { s with items := before ++ { i with held := !i.held, revision := (i.revision + 1) % 65536 } :: rest }
        (i.held = false ∨ ¬(i.endAction = .auto ∧ s.EndCondition i) → s.panelAction 1 = t)
        ∧ (i.held = true → i.endAction = .auto → s.EndCondition i → s.panelAction 1 = t.ordinaryTake .automatic))
  ∧ (∀ s : State,
    (s.ctl.next = none ∨ s.ctl.state = .closed ∨ s.ctl.state = .last → s.panelAction 2 = s)
    ∧ ∀ i before rest, ShowOk s → 1 ≤ i.key → i.key ≤ 65534 → s.items = before ++ i :: rest → s.ctl.next = some i.key →
        let t := s.panelAction 2
        t.cores = before.map Item.core ++ { i with floated := true }.core :: rest.map Item.core ∧ StoreOnly s t
        ∧ PointersKept s.ctl t.ctl ∧ t.cursor = s.cursor ∧ t.notices.pending.getLsbD 3 = true
        ∧ t.ctl.next = follow t.items s.ctl.anchor ∧ t.ctl.pinned = false)
  ∧ ∀ s : State,
    let t := s.panelAction 3
    let shows := fun x : Outlet => x.kind = .graphics ∧ x.enabled = true ∧ x.playing.isSome = true
    t = { s with outlets := t.outlets, notices := { s.notices with pending := t.notices.pending } }
    ∧ ((∀ o, shows (s.outlet o) → (s.outlet o).queue.length < 8) → t.notices = s.notices)
    ∧ ∀ o, let x := s.outlet o
      (¬shows x → t.outlet o = x)
      ∧ (shows x → x.queue.length < 8 → t.outlet o = x.pushed ⟨.clear, 0, none, false⟩)
      ∧ (shows x → 8 ≤ x.queue.length → t.outlet o = { x with overflow := true }
          ∧ t.notices.pending = s.notices.pending ||| 0x04)

/-! ## The Timebase (chapter 02) -/

/-- SET_STANDARD (R46), SET_TIME (R45), SET_TRIM (R35) and SET_REFERENCE (R36), whole states: their checks in order, the pending load and
standard, the clamped trim, the reference state. -/
def Obligations.TimebaseRequests : Prop :=
  (∀ (standard : Byte) (s : State), s.takes (.setStandard standard) →
    (3 ≤ standard.toNat → Refuses (.setStandard standard) s .badField)
    ∧ (standard.toNat ≤ 2 → s.ctl.state ≠ .closed → Refuses (.setStandard standard) s .showState)
    ∧ (standard.toNat ≤ 2 → s.ctl.state = .closed → Answers (.setStandard standard) s { s with
        tb := { s.tb with
          pendingStandard := some (if standard = 0 then .s25 else if standard = 1 then .s30 else .s30D), load := some 0 } } []))
  ∧ (∀ (frames : Tri) (s : State), s.takes (.setTime frames) →
    let d := match s.tb.pendingStandard with | some st => st.day | none => s.tb.standard.day
    (d ≤ frames.toNat → Refuses (.setTime frames) s .badField)
    ∧ (frames.toNat < d → s.ctl.state ≠ .closed → Refuses (.setTime frames) s .showState)
    ∧ (frames.toNat < d → s.ctl.state = .closed →
        Answers (.setTime frames) s { s with tb := { s.tb with load := some frames.toNat } } []))
  ∧ (∀ (trim : Half) (s : State), s.takes (.setTrim trim) →
    let v : Int := if 127 < trim.toInt then 127 else if trim.toInt < -127 then -127 else trim.toInt
    Answers (.setTrim trim) s { s with tb := { s.tb with trim := v } } [BitVec.ofInt 8 v])
  ∧ ∀ (selection : Byte) (s : State), s.takes (.setReference selection) →
    (2 ≤ selection.toNat → Refuses (.setReference selection) s .badField)
    ∧ (selection = 1 → s.tb.ref = .freeRun → Answers (.setReference selection) s
        { s with tb := { s.tb with ref := .acquiring, acqCount := 0, acqPulse := none } } [])
    ∧ (selection = 1 → s.tb.ref ≠ .freeRun → Answers (.setReference selection) s s [])
    ∧ (selection = 0 → s.tb.ref = .freeRun → Answers (.setReference selection) s s [])
    ∧ (selection = 0 → s.tb.ref ≠ .freeRun → Answers (.setReference selection) s
        { s with tb := { s.tb with
          ref := .freeRun, acqCount := 0, runPeriod := (s.tb.standard.nominal + s.tb.trim).toNat } } [])

/-- FRAME_BOUNDARY (R34, R38, R43 to R46, R145) and LOSS_LIMIT (R42): when they fall, what they make of the Timebase, the pending patterns
applied, the port and the batch untouched. In LOCKED no boundary is internal, and outside LOCKED no loss limit runs (log entry 2).
Where no take is pending, none of its parts is taken early and no work of the last boundary is owed (log entry 1), the sheet is formed
once (R79, log entry 6). -/
def Obligations.Boundaries : Prop :=
  ∀ (early : List BoundaryPart) (s : State), s.inReset = false → (∀ i, s.port ≠ .working i) →
    let steady := fun t : State => t.port = s.port ∧ t.batch = s.batch ∧ t.pending = s.pending ∧ t.discard = s.discard
      ∧ t.notices.enables = s.notices.enables ∧ t.freeIndex = s.freeIndex ∧ t.inReset = false
      ∧ (∀ l, t.cue.pendingPatterns.get l = none ∧ t.cue.patterns.get l = (s.cue.pendingPatterns.get l).getD (s.cue.patterns.get l))
    (s.tb.ref = .locked → exec (.frameBoundary early) s = .next s)
    ∧ (s.tb.ref ≠ .locked → ∃ t, exec (.frameBoundary early) s = .next t ∧ steady t
        ∧ BoundaryTb (max s.tb.now (s.tb.lastBoundary + s.tb.runPeriod)) s.tb t.tb
        ∧ (s.owed = [] → early = [] → s.ctl.ordinary = none → s.ctl.cover = none →
            t.sheetCount = (s.sheetCount + 1) % 65536))
    ∧ (s.tb.ref ≠ .locked → exec (.lossLimit early) s = .next s)
    ∧ ∀ p, s.tb.ref = .locked → s.tb.lastAccepted = some p →
        ∃ t, exec (.lossLimit early) s = .next t ∧ steady t ∧ t.notices.pending.getLsbD 4 = true
          ∧ BoundaryTb (max s.tb.now (p + (s.tb.standard.nominal + s.tb.standard.nominal / 2)))
              { s.tb with ref := .holdover, runPeriod := s.tb.measured } t.tb

/-- HOUSE_SYNC_PULSE in each reference state (R37 to R41, R43): the acquisition count, the lock that absorbs or shortens a frame, the
accepted pulse and its boundary, the glitch, the pulse that ends HOLDOVER. -/
def Obligations.HouseSyncPulse : Prop :=
  ∀ (gap : Nat) (early : List BoundaryPart) (s : State), s.inReset = false → (∀ i, s.port ≠ .working i) → s.owed = [] →
    DisplayOk s →
    let n := s.tb.now + gap
    let tb : Timebase := { s.tb with now := n }
    let st := s.tb.standard
    let window := fun p : Nat => st.nominal - st.nominal / 100 ≤ n - p ∧ n - p ≤ st.nominal + st.nominal / 100
    let quiet := fun b : Timebase => exec (.houseSyncPulse gap early) s = .next { s with tb := b }
    let makes := fun b : Timebase => ∃ t, exec (.houseSyncPulse gap early) s = .next t ∧ BoundaryTb n b t.tb ∧ t.port = s.port
      ∧ t.batch = s.batch ∧ (s.tb.ref = .acquiring → t.notices.pending.getLsbD 4 = true)
    (s.tb.ref = .freeRun → exec (.houseSyncPulse gap early) s = .next s)
    ∧ (s.tb.ref = .holdover → quiet { tb with ref := .acquiring, acqCount := 0, acqPulse := some n })
    ∧ (s.tb.ref = .acquiring →
        (s.tb.acqPulse = none → quiet { tb with acqPulse := some n, acqCount := 0 })
        ∧ ∀ p, s.tb.acqPulse = some p →
          (¬window p → quiet { tb with acqPulse := some n, acqCount := 0 })
          ∧ (window p → s.tb.acqCount < 2 → quiet { tb with acqPulse := some n, acqCount := s.tb.acqCount + 1 })
          ∧ (window p → s.tb.acqCount = 2 →
              let b : Timebase :=
                { tb with ref := .locked, acqCount := 0, acqPulse := none, measured := n - p, lastAccepted := some n }
              (n - s.tb.lastBoundary < st.nominal / 2 → exec (.houseSyncPulse gap early) s = .next { s with
                  tb := b, notices := { s.notices with pending := s.notices.pending ||| 0x10 } })
              ∧ (st.nominal / 2 ≤ n - s.tb.lastBoundary → makes b)))
    ∧ ∀ p, s.tb.ref = .locked → s.tb.lastAccepted = some p →
        (n - p < st.nominal / 2 → quiet { tb with
          glitches := if s.tb.glitches < 65535 then s.tb.glitches + 1 else s.tb.glitches })
        ∧ (st.nominal / 2 ≤ n - p → window p → makes { tb with measured := n - p, lastAccepted := some n })
        ∧ (st.nominal / 2 ≤ n - p → ¬window p → makes { tb with lastAccepted := some n })

/-! ## Notices and reset (10.3 to 10.5) -/

/-- SET_NOTICE_ENABLES (R183) and ACK_NOTICES (R185), whole: the sets after each, nothing else of the part moved, the attention line judged
by them; the enable set full at reset; an occurrence before an acknowledgement is cleared by it, one after it is pending again. -/
def Obligations.NoticeSets : Prop :=
  State.reset.notices.enables = 0xFF
  ∧ (∀ (classes : Byte) (s : State), s.takes (.setNoticeEnables classes) →
    let t : State := { s with notices := { s.notices with enables := classes } }
    Answers (.setNoticeEnables classes) s t [s.notices.pending, classes]
    ∧ (t.attention = true ↔ ∃ n, n < 8 ∧ s.notices.pending.getLsbD n = true ∧ classes.getLsbD n = true))
  ∧ ∀ (classes : Byte) (s : State), s.takes (.ackNotices classes) →
    (classes = 0 → Refuses (.ackNotices classes) s .badField)
    ∧ (classes ≠ 0 → ∃ left : Byte,
        (∀ n, left.getLsbD n = (s.notices.pending.getLsbD n && !classes.getLsbD n))
        ∧ let t : State := { s with notices := { s.notices with pending := left } }
          Answers (.ackNotices classes) s t [left, s.notices.enables]
          ∧ (t.attention = true ↔ ∃ n, n < 8 ∧ left.getLsbD n = true ∧ s.notices.enables.getLsbD n = true)
          ∧ ∀ cls : Byte,
            (∀ n, (t.raise cls).notices.pending.getLsbD n = (left.getLsbD n || cls.getLsbD n))
            ∧ (cls &&& classes = cls →
                Answers (.ackNotices classes) (s.raise cls) { s with notices := { s.notices with pending := left } }
                  [left, s.notices.enables]))

/-- RESTART (R190, R191) and the Reset line (R189, R195): every block at its reset values, each outlet and input with its line as it
stands; the answer OK held after RESTART, nothing held after the Reset line; lines dark and released while it is asserted; the display
line started as the part runs (R157). What the part is while the line is asserted, and that only line levels move then, is read from
R141, R167 and R189 (log entry 20); the waiting commands, the free-value counter (log entry 5) and the bytes last shifted out (log entry
24) are the model's own and are kept. The release is told with no line change in between. -/
def Obligations.Resets : Prop :=
  (∀ s : State,
    let fresh : State := { State.reset with
      outlets := s.outlets.map fun x => Outlet.reset x.ready x.tally
      panel := s.panel.map fun x => Input.reset x.line
      freeIndex := s.freeIndex, dataOut := s.dataOut, pending := s.pending }
    let held : State := { fresh with inReset := true, cue := .reset }
    (s.takes .restart → exec .restart s = .next { fresh with port := .ready ⟨.ok, [], []⟩ })
    ∧ exec .resetAsserted s = .next held ∧ held.attention = false ∧ (∀ p, held.lampLine p = false)
    ∧ held.syncIsOutput = true
    ∧ exec .resetReleased held = .next fresh)
  ∧ (∀ s : State, s.inReset = false → exec .resetReleased s = .next s)
  ∧ ∀ s : State, s.inReset = true →
    (∀ o : Fin 8, let x := s.outlet o
      let put := fun r t => { s with outlets := s.outlets.set o (Outlet.reset r t) }
      (x.ready = false → exec (.readyRise o) s = .next (put true x.tally))
      ∧ (x.ready = true → exec (.readyFall o) s = .next (put false x.tally))
      ∧ (x.tally = false → exec (.tallyRise o) s = .next (put x.ready true))
      ∧ (x.tally = true → exec (.tallyFall o) s = .next (put x.ready false)))
    ∧ (∀ (n : Fin 4) (v : Bool), (s.panel.get n).line ≠ v →
        exec (.panelLineChange n v) s = .next { s with panel := s.panel.set n (Input.reset v) })
    ∧ ∀ early, exec (.frameBoundary early) s = .next s ∧ exec (.lossLimit early) s = .next s
      ∧ ∀ gap, exec (.houseSyncPulse gap early) s = .next s

/-- The reset values (R32, R50, R78, R96, R120, R141, R145, R157, R167, R191), record by record. The two line levels of an outlet and the
level of a panel line are the lines' own (log entry 4). That the model's clock and the last boundary stand at 0, with no pulse of
acquisition held, is log entry 2. -/
def Obligations.ResetValues : Prop :=
  let s := State.reset
  (s.items = [] ∧ s.cursor = .top ∧ s.batch = none ∧ s.sheetCount = 0 ∧ s.wheel = [] ∧ s.planned = [] ∧ s.watch = none)
  ∧ s.tb = { standard := .s25, pendingStandard := none, load := none, ref := .freeRun, runPeriod := 1080000, measured := 1080000
             trim := 0, houseTime := 0, lastBoundary := 0, lastAccepted := none, acqPulse := none, acqCount := 0, glitches := 0
             now := 0, pulseOut := false }
  ∧ s.ctl = { state := .closed, onAir := none, next := none, pinned := false, anchor := none, ordinary := none, cover := none
              phase := .none, leadEnd := none, takenByVector := false, underrunRaised := false, overReached := false
              leadLostKey := none, underrunKey := none, showEnd := none, wrap := 10 }
  ∧ (∀ ready tally, Outlet.reset ready tally =
      { kind := .clip, enabled := false, preRoll := 0, rate := .b38400, ready := ready, tally := tally, cued := none
        playing := none, queue := [], sending := none, waiting := [], resetHold := false, readyChanged := false
        tallyChanged := false, overflow := false, fireCount := 0 })
  ∧ (∀ o, s.outlet o = Outlet.reset false false)
  ∧ (∀ line, Input.reset line =
      { mode := .act, lapse := .act, accepted := line, quiet := 0, trap := none, nextTrap := 1, ended := none, line := line })
  ∧ (∀ n, s.panel.get n = Input.reset false)
  ∧ (∀ p, (CueUnit.reset.presenters.get p) =
      { lamp := .dark, step := 0, frames := 0, restartMark := none, hail := 0, shown := ⟨.blank, 0, 0, 0, 0⟩, lastSent := none })
  ∧ (CueUnit.reset.patterns.data = [⟨0x0000, 1⟩, ⟨0xF0F0, 4⟩, ⟨0xFFFF, 1⟩, ⟨0xCCCC, 2⟩, ⟨0xAAAA, 1⟩, ⟨0xFF00, 2⟩])
  ∧ (∀ l, CueUnit.reset.pendingPatterns.get l = none)
  ∧ (∀ a, CueUnit.reset.slots.get a = some (if a = 5 then ⟨.tod, 0, 0, 0, 0⟩ else ⟨.blank, 0, 0, 0, 0⟩))
  ∧ (∀ a, CueUnit.reset.lastSent a = none) ∧ CueUnit.reset.sending = none
  ∧ s.cue.sending = some (0, ⟨.blank, 0, 0, 0, 0⟩) ∧ s.cue.slots.get 0 = none
  ∧ s.notices = { pending := 0, enables := 0xFF, lastTake := ⟨none, none, 0, 0, none⟩, lastVector := none, late := 0, skipped := 0
                  missed := 0, coalesced := 0, panelIgnored := 0 }
  ∧ (s.port = .idle ∧ s.discard = false ∧ s.attention = false ∧ s.inReset = false)
  ∧ (StoreOk s.items ∧ RecordsOk s.items ∧ OutletsOk s ∧ ShowOk s ∧ NextOk s ∧ PanelOk s ∧ TimebaseOk s.tb ∧ BatchOk s
      ∧ CountersOk s.notices ∧ CueOk s.cue ∧ DisplayOk s
      ∧ WheelOk s ∧ CuesOk s)

/-! ## Looking at the show, the sheet and the units (R77, R95, R140, R156, R49, R188, R193) -/

/-- GET_SHOW (R77) and GET_SHEET (R95), every byte of their blocks (R193). The on-air flags of no item on air are free in the two bits named
(log entry 5). The sheet's values are those of the statement on the sheet. The timecodes of the page's estimated starts, which R82 has
GET_SHEET give, stand in the answer beside the bytes: that a sheet entry is 25 bytes without them follows the layout of 11.2 by the
model's choice (log entry 25). -/
def Obligations.ReadShow : Prop :=
  let flag := fun (b : Bool) (n : Nat) => if b then n else 0
  let offset := fun x : Option Int =>
    match x with | some v => s24 (if 8388607 < v then 8388607 else if v < -8388607 then -8388607 else v) | none => [0x80, 0, 0]
  let far := fun x : Option Int => match x with | some v => decide (8388607 < v ∨ v < -8388607) | none => false
  (∀ s : State, s.takes .getShow →
    let c := s.ctl
    ∃ air : Byte, (∀ i, s.onAirItem = some i → air = BitVec.ofNat 8 (flag i.held 1 + flag i.degraded 2)) ∧ air.toNat ≤ 3
      ∧ let body := u8 (match c.state with | .closed => 0 | .armed => 1 | .live => 2 | .last => 3)
          ++ u16 (c.onAir.getD 0) ++ frameField (s.onAirItem.bind Item.takeFrame) ++ [air]
          ++ u16 (c.next.getD 0) ++ u8 (flag c.pinned 1) ++ u16 (c.anchor.getD 0)
          ++ u8 (match c.ordinary with | none => 0 | some .manual => 1 | some .automatic => 2)
          ++ u8 (match c.cover with | none => 0 | some ⟨.leadLost, _⟩ => 1 | some ⟨.underrun, _⟩ => 2)
          ++ u16 (match c.cover with | none => 0 | some p => p.key)
          ++ u8 (match c.phase with | .none => 0 | .waiting => 1 | .shown => 2 | .running => 3 | .ended => 4 | .lost => 5)
          ++ frameField c.leadEnd ++ u8 (flag c.takenByVector 1 + flag c.underrunRaised 2 + flag c.overReached 4)
          ++ u16 (c.leadLostKey.getD 0) ++ u16 (c.underrunKey.getD 0) ++ frameField c.showEnd ++ u8 c.wrap
        body.length = 29 ∧ Answers .getShow s { s with freeIndex := s.freeIndex + 1 } body)
  ∧ ∀ (page : Byte) (s : State), s.takes (.getSheet page) →
    let es := s.sheetEntries
    let time := timecode s.tb.standard s.house
    let head := s.headline
    let entry := fun (n : Nat) (e : SheetEntry) =>
      u16 (12 * page.toNat + n + 1) ++ u16 e.key ++ u16 (positionIn s.items e.key) ++ u24 e.effective ++ offset (some e.front)
        ++ u24 ((s.house + e.front.toNat) % s.day) ++ offset e.back ++ offset e.mark ++ offset (e.mark.map fun d => e.front - d)
        ++ u8 (flag e.mark.isSome 1 + flag e.outOfDay 2 + flag (far (some e.front)) 4 + flag (far e.back) 8
          + flag (far (e.mark.map fun d => e.front - d)) 16)
    let header := fun count : Nat =>
      u16 s.sheetCount ++ u24 s.house ++ u8 time.h ++ u8 time.m ++ u8 time.s ++ u8 time.f
        ++ u8 (match s.ctl.state with | .closed => 0 | .armed => 1 | .live => 2 | .last => 3) ++ u16 (s.ctl.onAir.getD 0)
        ++ frameField (if s.ctl.state = .closed ∨ s.ctl.state = .armed then none else s.elapsed) ++ offset s.remaining
        ++ u16 es.length ++ [page] ++ offset head.1
        ++ u16 (match head.2 with | .none => 0 | .mark k => k | .showEnd => 65535) ++ u8 (flag (far head.1) 1)
        ++ u8 (if s.ctl.state = .closed ∨ s.ctl.showEnd = none then 0 else if s.endOffset.isSome then 1 else 2)
        ++ offset s.endOffset ++ offset s.endOverUnder
        ++ u16 (if s.endOffset.isSome then (es.getLast?.map SheetEntry.key).getD 0 else 0) ++ u8 (flag (far s.endOverUnder) 2)
        ++ u8 count
    let lines := (es.drop (12 * page.toNat)).take 12
    (∀ n, (header n).length = 38) ∧ (∀ n e, (entry n e).length = 25)
    ∧ exec (.getSheet page) s = .next (s.answered
        { code := .ok
          body := header lines.length ++ (lines.zipIdx.map fun x => entry x.2 x.1).flatten
          starts := lines.map fun e => timecode s.tb.standard ((s.house + e.front.toNat) % s.day) })

/-- GET_OUTLET (R140), GET_PRESENTER (R156), GET_TIMEBASE (R49) and READ_NOTICES (R188, R186), every byte of their blocks (R193); bytes of
absent records without an absent code are free (log entry 5). The number and cause of an input without an ended press are 0 by the
spec's own words (8.1's table: "0 for none"; 11.2's input block: "0 none"); the byte of a lamp's line level is log entry 18. None alters
anything but the free-value counter; READ_AND_CLEAR clears the five counters after its answer is formed. -/
def Obligations.ReadUnits : Prop :=
  let flag := fun (b : Bool) (n : Nat) => if b then n else 0
  let frame := fun n : Option Nat => u24 (n.getD 0xFFFFFF)
  let shown := fun d : Shown => u8 (match d.mode with
      | .blank => 0 | .countdown => 1 | .overrun => 2 | .nextIn => 3 | .hail => 4 | .showOver => 5 | .showUnder => 6 | .tod => 7)
    ++ u8 d.h ++ u8 d.m ++ u8 d.s ++ u8 d.f
  let latches := fun x : Outlet => u8 (flag x.readyChanged 1 + flag x.tallyChanged 2 + flag x.overflow 4)
  (∀ (outlet : Byte) (s : State), s.takes (.getOutlet outlet) →
    (8 ≤ outlet.toNat → Refuses (.getOutlet outlet) s .badField)
    ∧ ∀ o : Fin 8, o.val = outlet.toNat → OutletsOk s →
      let x := s.outlet o
      let watch := s.watch.filter fun w => w.outlet == o
      ∃ ws : List Waiting, ws.Perm x.waiting ∧ (∀ lo w hi, ws = lo ++ w :: hi → IsHead s.items (w :: hi) w)
        ∧ let entry := fun w : Option Waiting => match w with
            | some w => u16 w.ref.owner ++ u8 w.ref.num.val ++ u24 w.key
            | none => [0, 0, 0xFF, 0xFF, 0xFF, 0xFF]
          let body := [outlet] ++ u8 (if x.kind = .clip then 0 else 1) ++ u8 (flag x.enabled 1) ++ u8 x.preRoll
            ++ u8 (match x.rate with | .b9600 => 0 | .b38400 => 1 | .b115200 => 2)
            ++ u8 (flag x.ready 1 + flag x.tally 2 + flag x.resetHold 4 + flag watch.isSome 8)
            ++ u8 (match x.state with | .disabled => 0 | .offline => 1 | .idle => 2 | .cued => 3 | .playing => 4)
            ++ u8 (match watch.map LeadWatch.stage with | none => 0 | some .queued => 1 | some .sent => 2 | some .running => 3)
            ++ (match x.cued with
                | some c => u16 c.ref.owner ++ u8 c.ref.num.val ++ u24 c.key | none => [0, 0, 0xFF, 0xFF, 0xFF, 0xFF])
            ++ (match x.playing with | some r => u16 r.owner ++ u8 r.num.val | none => [0, 0, 0xFF]) ++ u8 x.queue.length
            ++ u8 (match x.queue.head?.map Frame.command with
                | none => 0 | some .cue => 1 | some .showFrame => 2 | some .clear => 3 | some .uncue => 4)
            ++ u8 x.waiting.length ++ entry ws[0]? ++ entry ws[1]? ++ entry ws[2]? ++ entry ws[3]? ++ latches x ++ u16 x.fireCount
          body.length = 47 ∧ Answers (.getOutlet outlet) s s body)
  ∧ (∀ (position : Byte) (s : State), s.takes (.getPresenter position) →
    (4 ≤ position.toNat → Refuses (.getPresenter position) s .badField)
    ∧ ∀ p : Fin 4, p.val = position.toNat → ∀ a : Fin 6, a.val = p.val →
      let x := s.cue.presenters.get p
      let l := x.lamp.index
      ∃ wait last slot : List Byte,
        (match s.cue.pendingPatterns.get l with | some w => wait = u16 w.bits.toNat ++ u8 w.length | none => wait.length = 3)
        ∧ (match x.lastSent with | some d => last = shown d | none => last.length = 5)
        ∧ (match s.cue.slots.get a with | some d => slot = shown d | none => slot.length = 5)
        ∧ let filled := fun (k : Fin 6) (n : Nat) => flag (s.cue.slots.get k).isSome n
          let body := [position] ++ u8 l.val ++ u16 (s.cue.patterns.get l).bits.toNat ++ u8 (s.cue.patterns.get l).length
            ++ u8 (flag (s.cue.pendingPatterns.get l).isSome 1) ++ wait ++ u8 x.step.val ++ u8 x.frames ++ frame x.restartMark
            ++ u8 (flag (s.lampLine p) 1) ++ u16 x.hail ++ shown x.shown ++ u8 (flag x.lastSent.isSome 1) ++ last
            ++ u8 (flag (s.cue.slots.get a).isSome 1) ++ slot
            ++ u8 (filled 0 1 + filled 1 2 + filled 2 4 + filled 3 8 + filled 4 16 + filled 5 32)
            ++ u8 (match s.cue.sending with | some (k, _) => k.val | none => 0xFF)
          body.length = 36 ∧ Answers (.getPresenter position) s { s with freeIndex := s.freeIndex + 1 } body)
  ∧ (∀ s : State, s.takes .getTimebase →
    let t := s.tb
    let time := timecode t.standard t.houseTime
    let code := fun st : Standard => match st with | .s25 => 0 | .s30 => 1 | .s30D => 2
    let body := u8 (match t.ref with | .freeRun => 0 | .acquiring => 1 | .locked => 2 | .holdover => 3)
      ++ u8 (if t.ref = .freeRun then 0 else 1) ++ u8 (code t.standard) ++ u8 ((t.pendingStandard.map code).getD 0xFF)
      ++ u24 t.houseTime ++ u8 time.h ++ u8 time.m ++ u8 time.s ++ u8 time.f ++ u8 (flag t.load.isSome 1) ++ frame t.load
      ++ [BitVec.ofInt 8 t.trim] ++ u24 t.measured ++ u8 t.acqCount ++ u16 t.glitches
    body.length = 22 ∧ Answers .getTimebase s s body)
  ∧ ∀ (selector : Byte) (s : State), s.takes (.readNotices selector) →
    (2 ≤ selector.toNat → Refuses (.readNotices selector) s .badField)
    ∧ (selector.toNat ≤ 1 →
      let n := s.notices
      ∃ waited : Fin 4 → Byte, (∀ i w, (s.panel.get i).trap = some w → waited i = BitVec.ofNat 8 w.waited)
        ∧ let trap := fun i : Fin 4 => let x := s.panel.get i
            (match x.trap with | some w => u8 w.num ++ u24 w.frame | none => [0, 0xFF, 0xFF, 0xFF]) ++ [waited i]
              ++ (match x.ended with
                  | some (k, c) => u8 k ++ u8 (match c with | .withdrawn => 1 | .lapsedAct => 2 | .lapsedDrop => 3)
                  | none => [0, 0])
          let body := [n.pending, n.enables]
            ++ u8 (match n.lastTake.outcome with
                | none => 0 | some .taken => 1 | some .cover => 2 | some .closed => 3 | some .dropped => 4)
            ++ frame n.lastTake.frame ++ u16 n.lastTake.incoming ++ u16 n.lastTake.outgoing
            ++ u8 (match n.lastTake.reason with
                | none => 0 | some .take => 1 | some .auto => 2 | some .autoEarly => 3 | some .covered => 4 | some .closed => 5
                | some .aborted => 6)
            ++ (match n.lastVector with
                | some v => u8 (match v.vector with | .leadLost => 1 | .underrun => 2) ++ u24 v.frame ++ u16 v.onAir ++ u16 v.cover
                    ++ u8 (match v.disposition with | .requested => 1 | .coalesced => 2 | .noCover => 3)
                | none => [0, 0xFF, 0xFF, 0xFF, 0, 0, 0, 0, 0])
            ++ u16 n.late ++ u16 n.skipped ++ u16 n.missed ++ u16 n.coalesced ++ u16 n.panelIgnored ++ u16 s.tb.glitches
            ++ trap 0 ++ trap 1 ++ trap 2 ++ trap 3
            ++ latches (s.outlet 0) ++ latches (s.outlet 1) ++ latches (s.outlet 2) ++ latches (s.outlet 3)
            ++ latches (s.outlet 4) ++ latches (s.outlet 5) ++ latches (s.outlet 6) ++ latches (s.outlet 7)
          body.length = 68
          ∧ (selector = 0 → Answers (.readNotices selector) s { s with freeIndex := s.freeIndex + 1 } body)
          ∧ (selector = 1 → Answers (.readNotices selector) s { s with
              freeIndex := s.freeIndex + 1
              notices := { n with late := 0, skipped := 0, missed := 0, coalesced := 0, panelIgnored := 0 } } body))

/-! ## The timing sheet and the clock (chapters 04 and 02) -/

/-- The timing sheet (R80 to R88): r, the timing list, each item's front offset with its estimated start and that start's timecode (the
answer of GET_SHEET has no bytes for the timecode: log entry 25), mark, back and over/under offset, the show end entry and the headline,
as functions of the state. -/
def Obligations.Sheet : Prop :=
  (∀ d now h : Nat, 0 < d → d % 2 = 0 → now < d → h < d →
    ((now : Int) + markOffset d now h) % d = h ∧ -((d / 2 : Nat) : Int) < markOffset d now h ∧ markOffset d now h ≤ (d / 2 : Nat))
  ∧ ∀ s : State,
    let es := s.sheetEntries
    let list := s.timingList
    let e := fun i : Item => match i.lead, i.l with | some _, some l => l | _, _ => i.p
    let sum := fun l : List Item => (((l.map e).sum : Nat) : Int)
    let base := max (s.remaining.getD 0) 0
    let offsetOf := fun h : Nat => markOffset s.day s.house h
    let isMark := fun i : Item => ∃ h, i.hard = some h ∧ h < s.day
    (s.ctl.state = .closed → s.remaining = none) ∧ (s.ctl.state = .armed → s.remaining = some 0)
    ∧ (∀ i t, s.ctl.state = .live ∨ s.ctl.state = .last → s.onAirItem = some i → i.airing = .onAir t →
        s.remaining = some ((e i : Int) - (((s.house : Int) - (t : Int)) % (s.day : Int))))
    ∧ (s.ctl.next = none → list = [])
    ∧ (∀ i before after, (s.items.map Item.key).Nodup → s.items = before ++ i :: after → s.ctl.next = some i.key →
        list = i :: after.filter fun j => decide (j.airing = .pending) && !j.floated)
    ∧ es.length = list.length
    ∧ (∀ lo i hi x, list = lo ++ i :: hi → es[lo.length]? = some x →
        x.key = i.key ∧ x.effective = e i ∧ x.front = base + sum lo
        ∧ (s.estimatedStart x : Int) = ((s.house : Int) + x.front) % (s.day : Int)
        ∧ s.startTimecode x = timecode s.tb.standard (((s.house : Int) + x.front) % (s.day : Int)).toNat
        ∧ (∀ h, i.hard = some h → h < s.day → x.mark = some (offsetOf h) ∧ x.outOfDay = false
            ∧ x.overUnder = some (base + sum lo - offsetOf h))
        ∧ (¬isMark i → x.mark = none ∧ x.overUnder = none ∧ x.outOfDay = i.hard.isSome)
        ∧ (∀ mid m rest h, i :: hi = mid ++ m :: rest → (∀ j ∈ mid, ¬isMark j) → m.hard = some h → h < s.day →
            x.back = some (offsetOf h - sum mid))
        ∧ ((∀ j ∈ i :: hi, ¬isMark j) → x.back = s.endOffset.map fun d => d - sum (i :: hi)))
    ∧ (s.ctl.state = .closed → s.endOffset = none)
    ∧ (s.ctl.state ≠ .closed → s.endOffset = (s.ctl.showEnd.filter fun h => decide (h < s.day)).map offsetOf)
    ∧ s.endOverUnder = s.endOffset.map (fun d => base + sum list - d)
    ∧ (∀ mid m rest h, list = mid ++ m :: rest → (∀ j ∈ mid, ¬isMark j) → m.hard = some h → h < s.day →
        s.headline = (some (base + sum mid - offsetOf h), .mark m.key))
    ∧ ((∀ j ∈ list, ¬isMark j) → s.headline = (s.endOverUnder, if s.endOverUnder.isSome then .showEnd else .none))

/-- Timecode and display seconds (R47, R48, R91 to R94): plain division under 25 and 30; under 30D a labelling that gives every frame of
the day a label of its own and leaves out ;00 and ;01 at the start of each minute but every tenth; the three roundings. -/
def Obligations.Clock : Prop :=
  (∀ n : Nat, timecode .s25 n = ⟨n / 25 / 3600, n / 25 / 60 % 60, n / 25 % 60, n % 25⟩
    ∧ timecode .s30 n = ⟨n / 30 / 3600, n / 30 / 60 % 60, n / 30 % 60, n % 30⟩)
  ∧ (∀ n : Nat, n < 2160000 → (timecode .s25 n).h < 24) ∧ (∀ n : Nat, n < 2592000 → (timecode .s30 n).h < 24)
  ∧ (∀ n : Nat, n < 2589408 →
      let c := timecode .s30D n
      let label := c.f + 30 * (c.s + 60 * (c.m + 60 * c.h))
      c.h < 24 ∧ c.m < 60 ∧ c.s < 60 ∧ c.f < 30 ∧ (c.s = 0 → c.f < 2 → c.m % 10 = 0)
      ∧ label = n + 18 * (n / 17982) + (if n % 17982 ≥ 2 then 2 * ((n % 17982 - 2) / 1798) else 0)
      ∧ ∀ m : Nat, m < 2589408 → timecode .s30D m = c → m = n)
  ∧ ∀ (st : Standard) (x : Nat),
      let num := match st with | .s30D => x * 1001 | _ => x
      let den := match st with | .s25 => 25 | .s30 => 30 | .s30D => 30000
      num ≤ den * countdownSeconds st x ∧ den * countdownSeconds st x < num + den
      ∧ den * floorSeconds st x ≤ num ∧ num < den * floorSeconds st x + den
      ∧ ∀ mode, (∀ sec : Nat, sec ≤ 86399 →
          let d := secondsShown mode sec
          d.mode = mode ∧ d.h * 3600 + d.m * 60 + d.s = sec ∧ d.m < 60 ∧ d.s < 60 ∧ d.f = 0)
        ∧ ∀ sec : Nat, 86399 < sec → secondsShown mode sec = ⟨mode, 23, 59, 59, 0⟩

/-! ## Invariants of every step -/

/-- Every step keeps the store's bounds and every item within its field ranges (R1, R2, R5, R7, R9, R11): the lateness of a firing comes
from a wheel entry's spill, which is at most 4 (R103). -/
def Obligations.StoreKept : Prop :=
  ∀ s t : State, step s = .next t → StoreOk s.items → RecordsOk s.items → (∀ i ∈ s.items, CountsOk i) →
    (∀ w ∈ s.wheel, w.spill ≤ 4) →
    StoreOk t.items ∧ RecordsOk t.items ∧ (∀ i ∈ t.items, CountsOk i) ∧ ∀ w ∈ t.wheel, w.spill ≤ 4

/-- Every step keeps the Show Controller's pointers (R51) and NEXT as the rules derive it (R56, R58). -/
def Obligations.ShowKept : Prop :=
  ∀ s t : State, step s = .next t → ShowOk s → NextOk s → ShowOk t ∧ NextOk t

/-- Every step keeps the wheel in step with the events (R97, R98) and the outlets' cues with the events' cued flags, in CLOSED none (R53,
R113, R121). -/
def Obligations.WheelKept : Prop :=
  ∀ s t : State, step s = .next t → StoreOk s.items → ShowOk s → OutletsOk s → WheelOk s → CuesOk s → WheelOk t ∧ CuesOk t

/-- Every step keeps the bounds of the outlets (R121, R124), of the wheel (R103: at most 2 entries a slot), of the panel (R158), of the
Timebase (R35 to R45), of the staging area (R168), of the counters (R186) and of the Cue Unit (R142, R145), and never leaves the display
line free with a slot filled (R155). -/
def Obligations.UnitsKept : Prop :=
  ∀ s t : State, step s = .next t →
    let wheelOk := fun s : State => ∀ n, n < 64 → (s.wheel.filter fun w => w.fireFrame % 64 == n).length ≤ 2
    let ok := fun s : State => OutletsOk s ∧ wheelOk s ∧ PanelOk s ∧ TimebaseOk s.tb ∧ BatchOk s ∧ CountersOk s.notices
      ∧ CueOk s.cue ∧ DisplayOk s
    ok s → ok t
end

