-- ==== Sys2Proof/Laws/Bank.lean ====
section
/-! SUPPORT. Reading a bank after a write, a change or a map of its records. -/
namespace Sys2Proof
variable {n : Nat} {α β : Type}

@[simp] theorem Bank.get_set_same (b : Bank n α) (i : Fin n) (a : α) : (b.set i a).get i = a := by
  simp [Bank.get, Bank.set]

theorem Bank.get_set_other (b : Bank n α) {i j : Fin n} (h : j ≠ i) (a : α) : (b.set i a).get j = b.get j := by
  have : i.val ≠ j.val := fun e => h (Fin.ext e.symm)
  simp [Bank.get, Bank.set, List.getElem_set_ne this]

@[simp] theorem Bank.get_modify_same (b : Bank n α) (i : Fin n) (f : α → α) : (b.modify i f).get i = f (b.get i) := by
  simp [Bank.modify]

theorem Bank.get_modify_other (b : Bank n α) {i j : Fin n} (h : j ≠ i) (f : α → α) : (b.modify i f).get j = b.get j := by
  simp [Bank.modify, Bank.get_set_other b h]

theorem Bank.get_modify (b : Bank n α) (i j : Fin n) (f : α → α) :
    (b.modify i f).get j = if j = i then f (b.get j) else b.get j := by
  by_cases h : j = i
  · subst h; simp
  · simp [h, Bank.get_modify_other b h]

@[simp] theorem Bank.get_map (f : α → β) (b : Bank n α) (i : Fin n) : (b.map f).get i = f (b.get i) := by
  simp [Bank.get, Bank.map]

@[simp] theorem Bank.get_replicate (a : α) (i : Fin n) : (Bank.replicate n a).get i = a := by
  simp [Bank.get, Bank.replicate]

theorem Bank.eq_of_get {a b : Bank n α} (h : ∀ i, a.get i = b.get i) : a = b := by
  obtain ⟨x, hx⟩ := a
  obtain ⟨y, hy⟩ := b
  have : x = y := List.ext_getElem (by simp [hx, hy]) fun k h1 h2 => by
    simpa [Bank.get] using h ⟨k, by omega⟩
  subst this; rfl

@[simp] theorem Bank.modify_id (b : Bank n α) (i : Fin n) : (b.modify i fun x => x) = b :=
  Bank.eq_of_get fun j => by by_cases h : j = i <;> simp [Bank.get_modify, h]

end Sys2Proof
end

