-- ==== Sys2Proof/Laws/State.lean ====
section
/-! SUPPORT. One lemma per field per update of the state, each true by rfl. -/
namespace Sys2Proof.Machine

/-! `withItems` -/
@[simp] theorem State.withItems_tb (s : State) (x : List Item) : (s.withItems x).tb = s.tb := rfl
@[simp] theorem State.withItems_items (s : State) (x : List Item) : (s.withItems x).items = x := rfl
@[simp] theorem State.withItems_cursor (s : State) (x : List Item) : (s.withItems x).cursor = s.cursor := rfl
@[simp] theorem State.withItems_batch (s : State) (x : List Item) : (s.withItems x).batch = s.batch := rfl
@[simp] theorem State.withItems_ctl (s : State) (x : List Item) : (s.withItems x).ctl = s.ctl := rfl
@[simp] theorem State.withItems_sheetCount (s : State) (x : List Item) : (s.withItems x).sheetCount = s.sheetCount := rfl
@[simp] theorem State.withItems_wheel (s : State) (x : List Item) : (s.withItems x).wheel = s.wheel := rfl
@[simp] theorem State.withItems_planned (s : State) (x : List Item) : (s.withItems x).planned = s.planned := rfl
@[simp] theorem State.withItems_outlets (s : State) (x : List Item) : (s.withItems x).outlets = s.outlets := rfl
@[simp] theorem State.withItems_watch (s : State) (x : List Item) : (s.withItems x).watch = s.watch := rfl
@[simp] theorem State.withItems_cue (s : State) (x : List Item) : (s.withItems x).cue = s.cue := rfl
@[simp] theorem State.withItems_panel (s : State) (x : List Item) : (s.withItems x).panel = s.panel := rfl
@[simp] theorem State.withItems_port (s : State) (x : List Item) : (s.withItems x).port = s.port := rfl
@[simp] theorem State.withItems_discard (s : State) (x : List Item) : (s.withItems x).discard = s.discard := rfl
@[simp] theorem State.withItems_notices (s : State) (x : List Item) : (s.withItems x).notices = s.notices := rfl
@[simp] theorem State.withItems_dataOut (s : State) (x : List Item) : (s.withItems x).dataOut = s.dataOut := rfl
@[simp] theorem State.withItems_inReset (s : State) (x : List Item) : (s.withItems x).inReset = s.inReset := rfl
@[simp] theorem State.withItems_owed (s : State) (x : List Item) : (s.withItems x).owed = s.owed := rfl
@[simp] theorem State.withItems_fuCounted (s : State) (x : List Item) : (s.withItems x).fuCounted = s.fuCounted := rfl
@[simp] theorem State.withItems_freeIndex (s : State) (x : List Item) : (s.withItems x).freeIndex = s.freeIndex := rfl
@[simp] theorem State.withItems_pending (s : State) (x : List Item) : (s.withItems x).pending = s.pending := rfl

/-! `onItem` -/
@[simp] theorem State.onItem_tb (s : State) (k : Nat) (f : Item → Item) : (s.onItem k f).tb = s.tb := rfl
@[simp] theorem State.onItem_items (s : State) (k : Nat) (f : Item → Item) : (s.onItem k f).items = changeItem k f s.items := rfl
@[simp] theorem State.onItem_cursor (s : State) (k : Nat) (f : Item → Item) : (s.onItem k f).cursor = s.cursor := rfl
@[simp] theorem State.onItem_batch (s : State) (k : Nat) (f : Item → Item) : (s.onItem k f).batch = s.batch := rfl
@[simp] theorem State.onItem_ctl (s : State) (k : Nat) (f : Item → Item) : (s.onItem k f).ctl = s.ctl := rfl
@[simp] theorem State.onItem_sheetCount (s : State) (k : Nat) (f : Item → Item) : (s.onItem k f).sheetCount = s.sheetCount := rfl
@[simp] theorem State.onItem_wheel (s : State) (k : Nat) (f : Item → Item) : (s.onItem k f).wheel = s.wheel := rfl
@[simp] theorem State.onItem_planned (s : State) (k : Nat) (f : Item → Item) : (s.onItem k f).planned = s.planned := rfl
@[simp] theorem State.onItem_outlets (s : State) (k : Nat) (f : Item → Item) : (s.onItem k f).outlets = s.outlets := rfl
@[simp] theorem State.onItem_watch (s : State) (k : Nat) (f : Item → Item) : (s.onItem k f).watch = s.watch := rfl
@[simp] theorem State.onItem_cue (s : State) (k : Nat) (f : Item → Item) : (s.onItem k f).cue = s.cue := rfl
@[simp] theorem State.onItem_panel (s : State) (k : Nat) (f : Item → Item) : (s.onItem k f).panel = s.panel := rfl
@[simp] theorem State.onItem_port (s : State) (k : Nat) (f : Item → Item) : (s.onItem k f).port = s.port := rfl
@[simp] theorem State.onItem_discard (s : State) (k : Nat) (f : Item → Item) : (s.onItem k f).discard = s.discard := rfl
@[simp] theorem State.onItem_notices (s : State) (k : Nat) (f : Item → Item) : (s.onItem k f).notices = s.notices := rfl
@[simp] theorem State.onItem_dataOut (s : State) (k : Nat) (f : Item → Item) : (s.onItem k f).dataOut = s.dataOut := rfl
@[simp] theorem State.onItem_inReset (s : State) (k : Nat) (f : Item → Item) : (s.onItem k f).inReset = s.inReset := rfl
@[simp] theorem State.onItem_owed (s : State) (k : Nat) (f : Item → Item) : (s.onItem k f).owed = s.owed := rfl
@[simp] theorem State.onItem_fuCounted (s : State) (k : Nat) (f : Item → Item) : (s.onItem k f).fuCounted = s.fuCounted := rfl
@[simp] theorem State.onItem_freeIndex (s : State) (k : Nat) (f : Item → Item) : (s.onItem k f).freeIndex = s.freeIndex := rfl
@[simp] theorem State.onItem_pending (s : State) (k : Nat) (f : Item → Item) : (s.onItem k f).pending = s.pending := rfl

/-! `onEvent` -/
@[simp] theorem State.onEvent_tb (s : State) (r : EventRef) (f : Event → Event) : (s.onEvent r f).tb = s.tb := rfl
@[simp] theorem State.onEvent_cursor (s : State) (r : EventRef) (f : Event → Event) : (s.onEvent r f).cursor = s.cursor := rfl
@[simp] theorem State.onEvent_batch (s : State) (r : EventRef) (f : Event → Event) : (s.onEvent r f).batch = s.batch := rfl
@[simp] theorem State.onEvent_ctl (s : State) (r : EventRef) (f : Event → Event) : (s.onEvent r f).ctl = s.ctl := rfl
@[simp] theorem State.onEvent_sheetCount (s : State) (r : EventRef) (f : Event → Event) : (s.onEvent r f).sheetCount = s.sheetCount := rfl
@[simp] theorem State.onEvent_wheel (s : State) (r : EventRef) (f : Event → Event) : (s.onEvent r f).wheel = s.wheel := rfl
@[simp] theorem State.onEvent_planned (s : State) (r : EventRef) (f : Event → Event) : (s.onEvent r f).planned = s.planned := rfl
@[simp] theorem State.onEvent_outlets (s : State) (r : EventRef) (f : Event → Event) : (s.onEvent r f).outlets = s.outlets := rfl
@[simp] theorem State.onEvent_watch (s : State) (r : EventRef) (f : Event → Event) : (s.onEvent r f).watch = s.watch := rfl
@[simp] theorem State.onEvent_cue (s : State) (r : EventRef) (f : Event → Event) : (s.onEvent r f).cue = s.cue := rfl
@[simp] theorem State.onEvent_panel (s : State) (r : EventRef) (f : Event → Event) : (s.onEvent r f).panel = s.panel := rfl
@[simp] theorem State.onEvent_port (s : State) (r : EventRef) (f : Event → Event) : (s.onEvent r f).port = s.port := rfl
@[simp] theorem State.onEvent_discard (s : State) (r : EventRef) (f : Event → Event) : (s.onEvent r f).discard = s.discard := rfl
@[simp] theorem State.onEvent_notices (s : State) (r : EventRef) (f : Event → Event) : (s.onEvent r f).notices = s.notices := rfl
@[simp] theorem State.onEvent_dataOut (s : State) (r : EventRef) (f : Event → Event) : (s.onEvent r f).dataOut = s.dataOut := rfl
@[simp] theorem State.onEvent_inReset (s : State) (r : EventRef) (f : Event → Event) : (s.onEvent r f).inReset = s.inReset := rfl
@[simp] theorem State.onEvent_owed (s : State) (r : EventRef) (f : Event → Event) : (s.onEvent r f).owed = s.owed := rfl
@[simp] theorem State.onEvent_fuCounted (s : State) (r : EventRef) (f : Event → Event) : (s.onEvent r f).fuCounted = s.fuCounted := rfl
@[simp] theorem State.onEvent_freeIndex (s : State) (r : EventRef) (f : Event → Event) : (s.onEvent r f).freeIndex = s.freeIndex := rfl
@[simp] theorem State.onEvent_pending (s : State) (r : EventRef) (f : Event → Event) : (s.onEvent r f).pending = s.pending := rfl

/-! `bump` -/
@[simp] theorem State.bump_tb (s : State) (k : Nat) : (s.bump k).tb = s.tb := rfl
@[simp] theorem State.bump_cursor (s : State) (k : Nat) : (s.bump k).cursor = s.cursor := rfl
@[simp] theorem State.bump_batch (s : State) (k : Nat) : (s.bump k).batch = s.batch := rfl
@[simp] theorem State.bump_ctl (s : State) (k : Nat) : (s.bump k).ctl = s.ctl := rfl
@[simp] theorem State.bump_sheetCount (s : State) (k : Nat) : (s.bump k).sheetCount = s.sheetCount := rfl
@[simp] theorem State.bump_wheel (s : State) (k : Nat) : (s.bump k).wheel = s.wheel := rfl
@[simp] theorem State.bump_planned (s : State) (k : Nat) : (s.bump k).planned = s.planned := rfl
@[simp] theorem State.bump_outlets (s : State) (k : Nat) : (s.bump k).outlets = s.outlets := rfl
@[simp] theorem State.bump_watch (s : State) (k : Nat) : (s.bump k).watch = s.watch := rfl
@[simp] theorem State.bump_cue (s : State) (k : Nat) : (s.bump k).cue = s.cue := rfl
@[simp] theorem State.bump_panel (s : State) (k : Nat) : (s.bump k).panel = s.panel := rfl
@[simp] theorem State.bump_port (s : State) (k : Nat) : (s.bump k).port = s.port := rfl
@[simp] theorem State.bump_discard (s : State) (k : Nat) : (s.bump k).discard = s.discard := rfl
@[simp] theorem State.bump_notices (s : State) (k : Nat) : (s.bump k).notices = s.notices := rfl
@[simp] theorem State.bump_dataOut (s : State) (k : Nat) : (s.bump k).dataOut = s.dataOut := rfl
@[simp] theorem State.bump_inReset (s : State) (k : Nat) : (s.bump k).inReset = s.inReset := rfl
@[simp] theorem State.bump_owed (s : State) (k : Nat) : (s.bump k).owed = s.owed := rfl
@[simp] theorem State.bump_fuCounted (s : State) (k : Nat) : (s.bump k).fuCounted = s.fuCounted := rfl
@[simp] theorem State.bump_freeIndex (s : State) (k : Nat) : (s.bump k).freeIndex = s.freeIndex := rfl
@[simp] theorem State.bump_pending (s : State) (k : Nat) : (s.bump k).pending = s.pending := rfl

/-! `raise` -/
@[simp] theorem State.raise_tb (s : State) (c : Byte) : (s.raise c).tb = s.tb := rfl
@[simp] theorem State.raise_items (s : State) (c : Byte) : (s.raise c).items = s.items := rfl
@[simp] theorem State.raise_cursor (s : State) (c : Byte) : (s.raise c).cursor = s.cursor := rfl
@[simp] theorem State.raise_batch (s : State) (c : Byte) : (s.raise c).batch = s.batch := rfl
@[simp] theorem State.raise_ctl (s : State) (c : Byte) : (s.raise c).ctl = s.ctl := rfl
@[simp] theorem State.raise_sheetCount (s : State) (c : Byte) : (s.raise c).sheetCount = s.sheetCount := rfl
@[simp] theorem State.raise_wheel (s : State) (c : Byte) : (s.raise c).wheel = s.wheel := rfl
@[simp] theorem State.raise_planned (s : State) (c : Byte) : (s.raise c).planned = s.planned := rfl
@[simp] theorem State.raise_outlets (s : State) (c : Byte) : (s.raise c).outlets = s.outlets := rfl
@[simp] theorem State.raise_watch (s : State) (c : Byte) : (s.raise c).watch = s.watch := rfl
@[simp] theorem State.raise_cue (s : State) (c : Byte) : (s.raise c).cue = s.cue := rfl
@[simp] theorem State.raise_panel (s : State) (c : Byte) : (s.raise c).panel = s.panel := rfl
@[simp] theorem State.raise_port (s : State) (c : Byte) : (s.raise c).port = s.port := rfl
@[simp] theorem State.raise_discard (s : State) (c : Byte) : (s.raise c).discard = s.discard := rfl
@[simp] theorem State.raise_dataOut (s : State) (c : Byte) : (s.raise c).dataOut = s.dataOut := rfl
@[simp] theorem State.raise_inReset (s : State) (c : Byte) : (s.raise c).inReset = s.inReset := rfl
@[simp] theorem State.raise_owed (s : State) (c : Byte) : (s.raise c).owed = s.owed := rfl
@[simp] theorem State.raise_fuCounted (s : State) (c : Byte) : (s.raise c).fuCounted = s.fuCounted := rfl
@[simp] theorem State.raise_freeIndex (s : State) (c : Byte) : (s.raise c).freeIndex = s.freeIndex := rfl
@[simp] theorem State.raise_pending (s : State) (c : Byte) : (s.raise c).pending = s.pending := rfl

/-! `countLate` -/
@[simp] theorem State.countLate_tb (s : State) : (s.countLate).tb = s.tb := rfl
@[simp] theorem State.countLate_items (s : State) : (s.countLate).items = s.items := rfl
@[simp] theorem State.countLate_cursor (s : State) : (s.countLate).cursor = s.cursor := rfl
@[simp] theorem State.countLate_batch (s : State) : (s.countLate).batch = s.batch := rfl
@[simp] theorem State.countLate_ctl (s : State) : (s.countLate).ctl = s.ctl := rfl
@[simp] theorem State.countLate_sheetCount (s : State) : (s.countLate).sheetCount = s.sheetCount := rfl
@[simp] theorem State.countLate_wheel (s : State) : (s.countLate).wheel = s.wheel := rfl
@[simp] theorem State.countLate_planned (s : State) : (s.countLate).planned = s.planned := rfl
@[simp] theorem State.countLate_outlets (s : State) : (s.countLate).outlets = s.outlets := rfl
@[simp] theorem State.countLate_watch (s : State) : (s.countLate).watch = s.watch := rfl
@[simp] theorem State.countLate_cue (s : State) : (s.countLate).cue = s.cue := rfl
@[simp] theorem State.countLate_panel (s : State) : (s.countLate).panel = s.panel := rfl
@[simp] theorem State.countLate_port (s : State) : (s.countLate).port = s.port := rfl
@[simp] theorem State.countLate_discard (s : State) : (s.countLate).discard = s.discard := rfl
@[simp] theorem State.countLate_dataOut (s : State) : (s.countLate).dataOut = s.dataOut := rfl
@[simp] theorem State.countLate_inReset (s : State) : (s.countLate).inReset = s.inReset := rfl
@[simp] theorem State.countLate_owed (s : State) : (s.countLate).owed = s.owed := rfl
@[simp] theorem State.countLate_fuCounted (s : State) : (s.countLate).fuCounted = s.fuCounted := rfl
@[simp] theorem State.countLate_freeIndex (s : State) : (s.countLate).freeIndex = s.freeIndex := rfl
@[simp] theorem State.countLate_pending (s : State) : (s.countLate).pending = s.pending := rfl

/-! `countSkipped` -/
@[simp] theorem State.countSkipped_tb (s : State) : (s.countSkipped).tb = s.tb := rfl
@[simp] theorem State.countSkipped_items (s : State) : (s.countSkipped).items = s.items := rfl
@[simp] theorem State.countSkipped_cursor (s : State) : (s.countSkipped).cursor = s.cursor := rfl
@[simp] theorem State.countSkipped_batch (s : State) : (s.countSkipped).batch = s.batch := rfl
@[simp] theorem State.countSkipped_ctl (s : State) : (s.countSkipped).ctl = s.ctl := rfl
@[simp] theorem State.countSkipped_sheetCount (s : State) : (s.countSkipped).sheetCount = s.sheetCount := rfl
@[simp] theorem State.countSkipped_wheel (s : State) : (s.countSkipped).wheel = s.wheel := rfl
@[simp] theorem State.countSkipped_planned (s : State) : (s.countSkipped).planned = s.planned := rfl
@[simp] theorem State.countSkipped_outlets (s : State) : (s.countSkipped).outlets = s.outlets := rfl
@[simp] theorem State.countSkipped_watch (s : State) : (s.countSkipped).watch = s.watch := rfl
@[simp] theorem State.countSkipped_cue (s : State) : (s.countSkipped).cue = s.cue := rfl
@[simp] theorem State.countSkipped_panel (s : State) : (s.countSkipped).panel = s.panel := rfl
@[simp] theorem State.countSkipped_port (s : State) : (s.countSkipped).port = s.port := rfl
@[simp] theorem State.countSkipped_discard (s : State) : (s.countSkipped).discard = s.discard := rfl
@[simp] theorem State.countSkipped_dataOut (s : State) : (s.countSkipped).dataOut = s.dataOut := rfl
@[simp] theorem State.countSkipped_inReset (s : State) : (s.countSkipped).inReset = s.inReset := rfl
@[simp] theorem State.countSkipped_owed (s : State) : (s.countSkipped).owed = s.owed := rfl
@[simp] theorem State.countSkipped_fuCounted (s : State) : (s.countSkipped).fuCounted = s.fuCounted := rfl
@[simp] theorem State.countSkipped_freeIndex (s : State) : (s.countSkipped).freeIndex = s.freeIndex := rfl
@[simp] theorem State.countSkipped_pending (s : State) : (s.countSkipped).pending = s.pending := rfl

/-! `countMissed` -/
@[simp] theorem State.countMissed_tb (s : State) : (s.countMissed).tb = s.tb := rfl
@[simp] theorem State.countMissed_items (s : State) : (s.countMissed).items = s.items := rfl
@[simp] theorem State.countMissed_cursor (s : State) : (s.countMissed).cursor = s.cursor := rfl
@[simp] theorem State.countMissed_batch (s : State) : (s.countMissed).batch = s.batch := rfl
@[simp] theorem State.countMissed_ctl (s : State) : (s.countMissed).ctl = s.ctl := rfl
@[simp] theorem State.countMissed_sheetCount (s : State) : (s.countMissed).sheetCount = s.sheetCount := rfl
@[simp] theorem State.countMissed_wheel (s : State) : (s.countMissed).wheel = s.wheel := rfl
@[simp] theorem State.countMissed_planned (s : State) : (s.countMissed).planned = s.planned := rfl
@[simp] theorem State.countMissed_outlets (s : State) : (s.countMissed).outlets = s.outlets := rfl
@[simp] theorem State.countMissed_watch (s : State) : (s.countMissed).watch = s.watch := rfl
@[simp] theorem State.countMissed_cue (s : State) : (s.countMissed).cue = s.cue := rfl
@[simp] theorem State.countMissed_panel (s : State) : (s.countMissed).panel = s.panel := rfl
@[simp] theorem State.countMissed_port (s : State) : (s.countMissed).port = s.port := rfl
@[simp] theorem State.countMissed_discard (s : State) : (s.countMissed).discard = s.discard := rfl
@[simp] theorem State.countMissed_dataOut (s : State) : (s.countMissed).dataOut = s.dataOut := rfl
@[simp] theorem State.countMissed_inReset (s : State) : (s.countMissed).inReset = s.inReset := rfl
@[simp] theorem State.countMissed_owed (s : State) : (s.countMissed).owed = s.owed := rfl
@[simp] theorem State.countMissed_fuCounted (s : State) : (s.countMissed).fuCounted = s.fuCounted := rfl
@[simp] theorem State.countMissed_freeIndex (s : State) : (s.countMissed).freeIndex = s.freeIndex := rfl
@[simp] theorem State.countMissed_pending (s : State) : (s.countMissed).pending = s.pending := rfl

/-! `countCoalesced` -/
@[simp] theorem State.countCoalesced_tb (s : State) : (s.countCoalesced).tb = s.tb := rfl
@[simp] theorem State.countCoalesced_items (s : State) : (s.countCoalesced).items = s.items := rfl
@[simp] theorem State.countCoalesced_cursor (s : State) : (s.countCoalesced).cursor = s.cursor := rfl
@[simp] theorem State.countCoalesced_batch (s : State) : (s.countCoalesced).batch = s.batch := rfl
@[simp] theorem State.countCoalesced_ctl (s : State) : (s.countCoalesced).ctl = s.ctl := rfl
@[simp] theorem State.countCoalesced_sheetCount (s : State) : (s.countCoalesced).sheetCount = s.sheetCount := rfl
@[simp] theorem State.countCoalesced_wheel (s : State) : (s.countCoalesced).wheel = s.wheel := rfl
@[simp] theorem State.countCoalesced_planned (s : State) : (s.countCoalesced).planned = s.planned := rfl
@[simp] theorem State.countCoalesced_outlets (s : State) : (s.countCoalesced).outlets = s.outlets := rfl
@[simp] theorem State.countCoalesced_watch (s : State) : (s.countCoalesced).watch = s.watch := rfl
@[simp] theorem State.countCoalesced_cue (s : State) : (s.countCoalesced).cue = s.cue := rfl
@[simp] theorem State.countCoalesced_panel (s : State) : (s.countCoalesced).panel = s.panel := rfl
@[simp] theorem State.countCoalesced_port (s : State) : (s.countCoalesced).port = s.port := rfl
@[simp] theorem State.countCoalesced_discard (s : State) : (s.countCoalesced).discard = s.discard := rfl
@[simp] theorem State.countCoalesced_dataOut (s : State) : (s.countCoalesced).dataOut = s.dataOut := rfl
@[simp] theorem State.countCoalesced_inReset (s : State) : (s.countCoalesced).inReset = s.inReset := rfl
@[simp] theorem State.countCoalesced_owed (s : State) : (s.countCoalesced).owed = s.owed := rfl
@[simp] theorem State.countCoalesced_fuCounted (s : State) : (s.countCoalesced).fuCounted = s.fuCounted := rfl
@[simp] theorem State.countCoalesced_freeIndex (s : State) : (s.countCoalesced).freeIndex = s.freeIndex := rfl
@[simp] theorem State.countCoalesced_pending (s : State) : (s.countCoalesced).pending = s.pending := rfl

/-! `countIgnored` -/
@[simp] theorem State.countIgnored_tb (s : State) : (s.countIgnored).tb = s.tb := rfl
@[simp] theorem State.countIgnored_items (s : State) : (s.countIgnored).items = s.items := rfl
@[simp] theorem State.countIgnored_cursor (s : State) : (s.countIgnored).cursor = s.cursor := rfl
@[simp] theorem State.countIgnored_batch (s : State) : (s.countIgnored).batch = s.batch := rfl
@[simp] theorem State.countIgnored_ctl (s : State) : (s.countIgnored).ctl = s.ctl := rfl
@[simp] theorem State.countIgnored_sheetCount (s : State) : (s.countIgnored).sheetCount = s.sheetCount := rfl
@[simp] theorem State.countIgnored_wheel (s : State) : (s.countIgnored).wheel = s.wheel := rfl
@[simp] theorem State.countIgnored_planned (s : State) : (s.countIgnored).planned = s.planned := rfl
@[simp] theorem State.countIgnored_outlets (s : State) : (s.countIgnored).outlets = s.outlets := rfl
@[simp] theorem State.countIgnored_watch (s : State) : (s.countIgnored).watch = s.watch := rfl
@[simp] theorem State.countIgnored_cue (s : State) : (s.countIgnored).cue = s.cue := rfl
@[simp] theorem State.countIgnored_panel (s : State) : (s.countIgnored).panel = s.panel := rfl
@[simp] theorem State.countIgnored_port (s : State) : (s.countIgnored).port = s.port := rfl
@[simp] theorem State.countIgnored_discard (s : State) : (s.countIgnored).discard = s.discard := rfl
@[simp] theorem State.countIgnored_dataOut (s : State) : (s.countIgnored).dataOut = s.dataOut := rfl
@[simp] theorem State.countIgnored_inReset (s : State) : (s.countIgnored).inReset = s.inReset := rfl
@[simp] theorem State.countIgnored_owed (s : State) : (s.countIgnored).owed = s.owed := rfl
@[simp] theorem State.countIgnored_fuCounted (s : State) : (s.countIgnored).fuCounted = s.fuCounted := rfl
@[simp] theorem State.countIgnored_freeIndex (s : State) : (s.countIgnored).freeIndex = s.freeIndex := rfl
@[simp] theorem State.countIgnored_pending (s : State) : (s.countIgnored).pending = s.pending := rfl

/-! `onOutlet` -/
@[simp] theorem State.onOutlet_tb (s : State) (o : Fin 8) (f : Outlet → Outlet) : (s.onOutlet o f).tb = s.tb := rfl
@[simp] theorem State.onOutlet_items (s : State) (o : Fin 8) (f : Outlet → Outlet) : (s.onOutlet o f).items = s.items := rfl
@[simp] theorem State.onOutlet_cursor (s : State) (o : Fin 8) (f : Outlet → Outlet) : (s.onOutlet o f).cursor = s.cursor := rfl
@[simp] theorem State.onOutlet_batch (s : State) (o : Fin 8) (f : Outlet → Outlet) : (s.onOutlet o f).batch = s.batch := rfl
@[simp] theorem State.onOutlet_ctl (s : State) (o : Fin 8) (f : Outlet → Outlet) : (s.onOutlet o f).ctl = s.ctl := rfl
@[simp] theorem State.onOutlet_sheetCount (s : State) (o : Fin 8) (f : Outlet → Outlet) : (s.onOutlet o f).sheetCount = s.sheetCount := rfl
@[simp] theorem State.onOutlet_wheel (s : State) (o : Fin 8) (f : Outlet → Outlet) : (s.onOutlet o f).wheel = s.wheel := rfl
@[simp] theorem State.onOutlet_planned (s : State) (o : Fin 8) (f : Outlet → Outlet) : (s.onOutlet o f).planned = s.planned := rfl
@[simp] theorem State.onOutlet_outlets (s : State) (o : Fin 8) (f : Outlet → Outlet) : (s.onOutlet o f).outlets = s.outlets.modify o f := rfl
@[simp] theorem State.onOutlet_watch (s : State) (o : Fin 8) (f : Outlet → Outlet) : (s.onOutlet o f).watch = s.watch := rfl
@[simp] theorem State.onOutlet_cue (s : State) (o : Fin 8) (f : Outlet → Outlet) : (s.onOutlet o f).cue = s.cue := rfl
@[simp] theorem State.onOutlet_panel (s : State) (o : Fin 8) (f : Outlet → Outlet) : (s.onOutlet o f).panel = s.panel := rfl
@[simp] theorem State.onOutlet_port (s : State) (o : Fin 8) (f : Outlet → Outlet) : (s.onOutlet o f).port = s.port := rfl
@[simp] theorem State.onOutlet_discard (s : State) (o : Fin 8) (f : Outlet → Outlet) : (s.onOutlet o f).discard = s.discard := rfl
@[simp] theorem State.onOutlet_notices (s : State) (o : Fin 8) (f : Outlet → Outlet) : (s.onOutlet o f).notices = s.notices := rfl
@[simp] theorem State.onOutlet_dataOut (s : State) (o : Fin 8) (f : Outlet → Outlet) : (s.onOutlet o f).dataOut = s.dataOut := rfl
@[simp] theorem State.onOutlet_inReset (s : State) (o : Fin 8) (f : Outlet → Outlet) : (s.onOutlet o f).inReset = s.inReset := rfl
@[simp] theorem State.onOutlet_owed (s : State) (o : Fin 8) (f : Outlet → Outlet) : (s.onOutlet o f).owed = s.owed := rfl
@[simp] theorem State.onOutlet_fuCounted (s : State) (o : Fin 8) (f : Outlet → Outlet) : (s.onOutlet o f).fuCounted = s.fuCounted := rfl
@[simp] theorem State.onOutlet_freeIndex (s : State) (o : Fin 8) (f : Outlet → Outlet) : (s.onOutlet o f).freeIndex = s.freeIndex := rfl
@[simp] theorem State.onOutlet_pending (s : State) (o : Fin 8) (f : Outlet → Outlet) : (s.onOutlet o f).pending = s.pending := rfl

/-! `onCtl` -/
@[simp] theorem State.onCtl_tb (s : State) (f : ShowCtl → ShowCtl) : (s.onCtl f).tb = s.tb := rfl
@[simp] theorem State.onCtl_items (s : State) (f : ShowCtl → ShowCtl) : (s.onCtl f).items = s.items := rfl
@[simp] theorem State.onCtl_cursor (s : State) (f : ShowCtl → ShowCtl) : (s.onCtl f).cursor = s.cursor := rfl
@[simp] theorem State.onCtl_batch (s : State) (f : ShowCtl → ShowCtl) : (s.onCtl f).batch = s.batch := rfl
@[simp] theorem State.onCtl_ctl (s : State) (f : ShowCtl → ShowCtl) : (s.onCtl f).ctl = f s.ctl := rfl
@[simp] theorem State.onCtl_sheetCount (s : State) (f : ShowCtl → ShowCtl) : (s.onCtl f).sheetCount = s.sheetCount := rfl
@[simp] theorem State.onCtl_wheel (s : State) (f : ShowCtl → ShowCtl) : (s.onCtl f).wheel = s.wheel := rfl
@[simp] theorem State.onCtl_planned (s : State) (f : ShowCtl → ShowCtl) : (s.onCtl f).planned = s.planned := rfl
@[simp] theorem State.onCtl_outlets (s : State) (f : ShowCtl → ShowCtl) : (s.onCtl f).outlets = s.outlets := rfl
@[simp] theorem State.onCtl_watch (s : State) (f : ShowCtl → ShowCtl) : (s.onCtl f).watch = s.watch := rfl
@[simp] theorem State.onCtl_cue (s : State) (f : ShowCtl → ShowCtl) : (s.onCtl f).cue = s.cue := rfl
@[simp] theorem State.onCtl_panel (s : State) (f : ShowCtl → ShowCtl) : (s.onCtl f).panel = s.panel := rfl
@[simp] theorem State.onCtl_port (s : State) (f : ShowCtl → ShowCtl) : (s.onCtl f).port = s.port := rfl
@[simp] theorem State.onCtl_discard (s : State) (f : ShowCtl → ShowCtl) : (s.onCtl f).discard = s.discard := rfl
@[simp] theorem State.onCtl_notices (s : State) (f : ShowCtl → ShowCtl) : (s.onCtl f).notices = s.notices := rfl
@[simp] theorem State.onCtl_dataOut (s : State) (f : ShowCtl → ShowCtl) : (s.onCtl f).dataOut = s.dataOut := rfl
@[simp] theorem State.onCtl_inReset (s : State) (f : ShowCtl → ShowCtl) : (s.onCtl f).inReset = s.inReset := rfl
@[simp] theorem State.onCtl_owed (s : State) (f : ShowCtl → ShowCtl) : (s.onCtl f).owed = s.owed := rfl
@[simp] theorem State.onCtl_fuCounted (s : State) (f : ShowCtl → ShowCtl) : (s.onCtl f).fuCounted = s.fuCounted := rfl
@[simp] theorem State.onCtl_freeIndex (s : State) (f : ShowCtl → ShowCtl) : (s.onCtl f).freeIndex = s.freeIndex := rfl
@[simp] theorem State.onCtl_pending (s : State) (f : ShowCtl → ShowCtl) : (s.onCtl f).pending = s.pending := rfl

/-! `onTb` -/
@[simp] theorem State.onTb_tb (s : State) (f : Timebase → Timebase) : (s.onTb f).tb = f s.tb := rfl
@[simp] theorem State.onTb_items (s : State) (f : Timebase → Timebase) : (s.onTb f).items = s.items := rfl
@[simp] theorem State.onTb_cursor (s : State) (f : Timebase → Timebase) : (s.onTb f).cursor = s.cursor := rfl
@[simp] theorem State.onTb_batch (s : State) (f : Timebase → Timebase) : (s.onTb f).batch = s.batch := rfl
@[simp] theorem State.onTb_ctl (s : State) (f : Timebase → Timebase) : (s.onTb f).ctl = s.ctl := rfl
@[simp] theorem State.onTb_sheetCount (s : State) (f : Timebase → Timebase) : (s.onTb f).sheetCount = s.sheetCount := rfl
@[simp] theorem State.onTb_wheel (s : State) (f : Timebase → Timebase) : (s.onTb f).wheel = s.wheel := rfl
@[simp] theorem State.onTb_planned (s : State) (f : Timebase → Timebase) : (s.onTb f).planned = s.planned := rfl
@[simp] theorem State.onTb_outlets (s : State) (f : Timebase → Timebase) : (s.onTb f).outlets = s.outlets := rfl
@[simp] theorem State.onTb_watch (s : State) (f : Timebase → Timebase) : (s.onTb f).watch = s.watch := rfl
@[simp] theorem State.onTb_cue (s : State) (f : Timebase → Timebase) : (s.onTb f).cue = s.cue := rfl
@[simp] theorem State.onTb_panel (s : State) (f : Timebase → Timebase) : (s.onTb f).panel = s.panel := rfl
@[simp] theorem State.onTb_port (s : State) (f : Timebase → Timebase) : (s.onTb f).port = s.port := rfl
@[simp] theorem State.onTb_discard (s : State) (f : Timebase → Timebase) : (s.onTb f).discard = s.discard := rfl
@[simp] theorem State.onTb_notices (s : State) (f : Timebase → Timebase) : (s.onTb f).notices = s.notices := rfl
@[simp] theorem State.onTb_dataOut (s : State) (f : Timebase → Timebase) : (s.onTb f).dataOut = s.dataOut := rfl
@[simp] theorem State.onTb_inReset (s : State) (f : Timebase → Timebase) : (s.onTb f).inReset = s.inReset := rfl
@[simp] theorem State.onTb_owed (s : State) (f : Timebase → Timebase) : (s.onTb f).owed = s.owed := rfl
@[simp] theorem State.onTb_fuCounted (s : State) (f : Timebase → Timebase) : (s.onTb f).fuCounted = s.fuCounted := rfl
@[simp] theorem State.onTb_freeIndex (s : State) (f : Timebase → Timebase) : (s.onTb f).freeIndex = s.freeIndex := rfl
@[simp] theorem State.onTb_pending (s : State) (f : Timebase → Timebase) : (s.onTb f).pending = s.pending := rfl

/-! `onInput` -/
@[simp] theorem State.onInput_tb (s : State) (n : Fin 4) (f : Input → Input) : (s.onInput n f).tb = s.tb := rfl
@[simp] theorem State.onInput_items (s : State) (n : Fin 4) (f : Input → Input) : (s.onInput n f).items = s.items := rfl
@[simp] theorem State.onInput_cursor (s : State) (n : Fin 4) (f : Input → Input) : (s.onInput n f).cursor = s.cursor := rfl
@[simp] theorem State.onInput_batch (s : State) (n : Fin 4) (f : Input → Input) : (s.onInput n f).batch = s.batch := rfl
@[simp] theorem State.onInput_ctl (s : State) (n : Fin 4) (f : Input → Input) : (s.onInput n f).ctl = s.ctl := rfl
@[simp] theorem State.onInput_sheetCount (s : State) (n : Fin 4) (f : Input → Input) : (s.onInput n f).sheetCount = s.sheetCount := rfl
@[simp] theorem State.onInput_wheel (s : State) (n : Fin 4) (f : Input → Input) : (s.onInput n f).wheel = s.wheel := rfl
@[simp] theorem State.onInput_planned (s : State) (n : Fin 4) (f : Input → Input) : (s.onInput n f).planned = s.planned := rfl
@[simp] theorem State.onInput_outlets (s : State) (n : Fin 4) (f : Input → Input) : (s.onInput n f).outlets = s.outlets := rfl
@[simp] theorem State.onInput_watch (s : State) (n : Fin 4) (f : Input → Input) : (s.onInput n f).watch = s.watch := rfl
@[simp] theorem State.onInput_cue (s : State) (n : Fin 4) (f : Input → Input) : (s.onInput n f).cue = s.cue := rfl
@[simp] theorem State.onInput_panel (s : State) (n : Fin 4) (f : Input → Input) : (s.onInput n f).panel = s.panel.modify n f := rfl
@[simp] theorem State.onInput_port (s : State) (n : Fin 4) (f : Input → Input) : (s.onInput n f).port = s.port := rfl
@[simp] theorem State.onInput_discard (s : State) (n : Fin 4) (f : Input → Input) : (s.onInput n f).discard = s.discard := rfl
@[simp] theorem State.onInput_notices (s : State) (n : Fin 4) (f : Input → Input) : (s.onInput n f).notices = s.notices := rfl
@[simp] theorem State.onInput_dataOut (s : State) (n : Fin 4) (f : Input → Input) : (s.onInput n f).dataOut = s.dataOut := rfl
@[simp] theorem State.onInput_inReset (s : State) (n : Fin 4) (f : Input → Input) : (s.onInput n f).inReset = s.inReset := rfl
@[simp] theorem State.onInput_owed (s : State) (n : Fin 4) (f : Input → Input) : (s.onInput n f).owed = s.owed := rfl
@[simp] theorem State.onInput_fuCounted (s : State) (n : Fin 4) (f : Input → Input) : (s.onInput n f).fuCounted = s.fuCounted := rfl
@[simp] theorem State.onInput_freeIndex (s : State) (n : Fin 4) (f : Input → Input) : (s.onInput n f).freeIndex = s.freeIndex := rfl
@[simp] theorem State.onInput_pending (s : State) (n : Fin 4) (f : Input → Input) : (s.onInput n f).pending = s.pending := rfl

/-! `onPresenter` -/
@[simp] theorem State.onPresenter_tb (s : State) (p : Fin 4) (f : Presenter → Presenter) : (s.onPresenter p f).tb = s.tb := rfl
@[simp] theorem State.onPresenter_items (s : State) (p : Fin 4) (f : Presenter → Presenter) : (s.onPresenter p f).items = s.items := rfl
@[simp] theorem State.onPresenter_cursor (s : State) (p : Fin 4) (f : Presenter → Presenter) : (s.onPresenter p f).cursor = s.cursor := rfl
@[simp] theorem State.onPresenter_batch (s : State) (p : Fin 4) (f : Presenter → Presenter) : (s.onPresenter p f).batch = s.batch := rfl
@[simp] theorem State.onPresenter_ctl (s : State) (p : Fin 4) (f : Presenter → Presenter) : (s.onPresenter p f).ctl = s.ctl := rfl
@[simp] theorem State.onPresenter_sheetCount (s : State) (p : Fin 4) (f : Presenter → Presenter) : (s.onPresenter p f).sheetCount = s.sheetCount := rfl
@[simp] theorem State.onPresenter_wheel (s : State) (p : Fin 4) (f : Presenter → Presenter) : (s.onPresenter p f).wheel = s.wheel := rfl
@[simp] theorem State.onPresenter_planned (s : State) (p : Fin 4) (f : Presenter → Presenter) : (s.onPresenter p f).planned = s.planned := rfl
@[simp] theorem State.onPresenter_outlets (s : State) (p : Fin 4) (f : Presenter → Presenter) : (s.onPresenter p f).outlets = s.outlets := rfl
@[simp] theorem State.onPresenter_watch (s : State) (p : Fin 4) (f : Presenter → Presenter) : (s.onPresenter p f).watch = s.watch := rfl
@[simp] theorem State.onPresenter_panel (s : State) (p : Fin 4) (f : Presenter → Presenter) : (s.onPresenter p f).panel = s.panel := rfl
@[simp] theorem State.onPresenter_port (s : State) (p : Fin 4) (f : Presenter → Presenter) : (s.onPresenter p f).port = s.port := rfl
@[simp] theorem State.onPresenter_discard (s : State) (p : Fin 4) (f : Presenter → Presenter) : (s.onPresenter p f).discard = s.discard := rfl
@[simp] theorem State.onPresenter_notices (s : State) (p : Fin 4) (f : Presenter → Presenter) : (s.onPresenter p f).notices = s.notices := rfl
@[simp] theorem State.onPresenter_dataOut (s : State) (p : Fin 4) (f : Presenter → Presenter) : (s.onPresenter p f).dataOut = s.dataOut := rfl
@[simp] theorem State.onPresenter_inReset (s : State) (p : Fin 4) (f : Presenter → Presenter) : (s.onPresenter p f).inReset = s.inReset := rfl
@[simp] theorem State.onPresenter_owed (s : State) (p : Fin 4) (f : Presenter → Presenter) : (s.onPresenter p f).owed = s.owed := rfl
@[simp] theorem State.onPresenter_fuCounted (s : State) (p : Fin 4) (f : Presenter → Presenter) : (s.onPresenter p f).fuCounted = s.fuCounted := rfl
@[simp] theorem State.onPresenter_freeIndex (s : State) (p : Fin 4) (f : Presenter → Presenter) : (s.onPresenter p f).freeIndex = s.freeIndex := rfl
@[simp] theorem State.onPresenter_pending (s : State) (p : Fin 4) (f : Presenter → Presenter) : (s.onPresenter p f).pending = s.pending := rfl

/-! `onCue` -/
@[simp] theorem State.onCue_tb (s : State) (f : CueUnit → CueUnit) : (s.onCue f).tb = s.tb := rfl
@[simp] theorem State.onCue_items (s : State) (f : CueUnit → CueUnit) : (s.onCue f).items = s.items := rfl
@[simp] theorem State.onCue_cursor (s : State) (f : CueUnit → CueUnit) : (s.onCue f).cursor = s.cursor := rfl
@[simp] theorem State.onCue_batch (s : State) (f : CueUnit → CueUnit) : (s.onCue f).batch = s.batch := rfl
@[simp] theorem State.onCue_ctl (s : State) (f : CueUnit → CueUnit) : (s.onCue f).ctl = s.ctl := rfl
@[simp] theorem State.onCue_sheetCount (s : State) (f : CueUnit → CueUnit) : (s.onCue f).sheetCount = s.sheetCount := rfl
@[simp] theorem State.onCue_wheel (s : State) (f : CueUnit → CueUnit) : (s.onCue f).wheel = s.wheel := rfl
@[simp] theorem State.onCue_planned (s : State) (f : CueUnit → CueUnit) : (s.onCue f).planned = s.planned := rfl
@[simp] theorem State.onCue_outlets (s : State) (f : CueUnit → CueUnit) : (s.onCue f).outlets = s.outlets := rfl
@[simp] theorem State.onCue_watch (s : State) (f : CueUnit → CueUnit) : (s.onCue f).watch = s.watch := rfl
@[simp] theorem State.onCue_cue (s : State) (f : CueUnit → CueUnit) : (s.onCue f).cue = f s.cue := rfl
@[simp] theorem State.onCue_panel (s : State) (f : CueUnit → CueUnit) : (s.onCue f).panel = s.panel := rfl
@[simp] theorem State.onCue_port (s : State) (f : CueUnit → CueUnit) : (s.onCue f).port = s.port := rfl
@[simp] theorem State.onCue_discard (s : State) (f : CueUnit → CueUnit) : (s.onCue f).discard = s.discard := rfl
@[simp] theorem State.onCue_notices (s : State) (f : CueUnit → CueUnit) : (s.onCue f).notices = s.notices := rfl
@[simp] theorem State.onCue_dataOut (s : State) (f : CueUnit → CueUnit) : (s.onCue f).dataOut = s.dataOut := rfl
@[simp] theorem State.onCue_inReset (s : State) (f : CueUnit → CueUnit) : (s.onCue f).inReset = s.inReset := rfl
@[simp] theorem State.onCue_owed (s : State) (f : CueUnit → CueUnit) : (s.onCue f).owed = s.owed := rfl
@[simp] theorem State.onCue_fuCounted (s : State) (f : CueUnit → CueUnit) : (s.onCue f).fuCounted = s.fuCounted := rfl
@[simp] theorem State.onCue_freeIndex (s : State) (f : CueUnit → CueUnit) : (s.onCue f).freeIndex = s.freeIndex := rfl
@[simp] theorem State.onCue_pending (s : State) (f : CueUnit → CueUnit) : (s.onCue f).pending = s.pending := rfl

/-! `unlistItem` -/
@[simp] theorem State.unlistItem_tb (s : State) (k : Nat) : (s.unlistItem k).tb = s.tb := rfl
@[simp] theorem State.unlistItem_items (s : State) (k : Nat) : (s.unlistItem k).items = s.items := rfl
@[simp] theorem State.unlistItem_cursor (s : State) (k : Nat) : (s.unlistItem k).cursor = s.cursor := rfl
@[simp] theorem State.unlistItem_batch (s : State) (k : Nat) : (s.unlistItem k).batch = s.batch := rfl
@[simp] theorem State.unlistItem_ctl (s : State) (k : Nat) : (s.unlistItem k).ctl = s.ctl := rfl
@[simp] theorem State.unlistItem_sheetCount (s : State) (k : Nat) : (s.unlistItem k).sheetCount = s.sheetCount := rfl
@[simp] theorem State.unlistItem_wheel (s : State) (k : Nat) : (s.unlistItem k).wheel = s.wheel := rfl
@[simp] theorem State.unlistItem_planned (s : State) (k : Nat) : (s.unlistItem k).planned = s.planned := rfl
@[simp] theorem State.unlistItem_watch (s : State) (k : Nat) : (s.unlistItem k).watch = s.watch := rfl
@[simp] theorem State.unlistItem_cue (s : State) (k : Nat) : (s.unlistItem k).cue = s.cue := rfl
@[simp] theorem State.unlistItem_panel (s : State) (k : Nat) : (s.unlistItem k).panel = s.panel := rfl
@[simp] theorem State.unlistItem_port (s : State) (k : Nat) : (s.unlistItem k).port = s.port := rfl
@[simp] theorem State.unlistItem_discard (s : State) (k : Nat) : (s.unlistItem k).discard = s.discard := rfl
@[simp] theorem State.unlistItem_notices (s : State) (k : Nat) : (s.unlistItem k).notices = s.notices := rfl
@[simp] theorem State.unlistItem_dataOut (s : State) (k : Nat) : (s.unlistItem k).dataOut = s.dataOut := rfl
@[simp] theorem State.unlistItem_inReset (s : State) (k : Nat) : (s.unlistItem k).inReset = s.inReset := rfl
@[simp] theorem State.unlistItem_owed (s : State) (k : Nat) : (s.unlistItem k).owed = s.owed := rfl
@[simp] theorem State.unlistItem_fuCounted (s : State) (k : Nat) : (s.unlistItem k).fuCounted = s.fuCounted := rfl
@[simp] theorem State.unlistItem_freeIndex (s : State) (k : Nat) : (s.unlistItem k).freeIndex = s.freeIndex := rfl
@[simp] theorem State.unlistItem_pending (s : State) (k : Nat) : (s.unlistItem k).pending = s.pending := rfl

/-! `disarm` -/
@[simp] theorem State.disarm_tb (s : State) (r : EventRef) : (s.disarm r).tb = s.tb := rfl
@[simp] theorem State.disarm_items (s : State) (r : EventRef) : (s.disarm r).items = s.items := rfl
@[simp] theorem State.disarm_cursor (s : State) (r : EventRef) : (s.disarm r).cursor = s.cursor := rfl
@[simp] theorem State.disarm_batch (s : State) (r : EventRef) : (s.disarm r).batch = s.batch := rfl
@[simp] theorem State.disarm_ctl (s : State) (r : EventRef) : (s.disarm r).ctl = s.ctl := rfl
@[simp] theorem State.disarm_sheetCount (s : State) (r : EventRef) : (s.disarm r).sheetCount = s.sheetCount := rfl
@[simp] theorem State.disarm_outlets (s : State) (r : EventRef) : (s.disarm r).outlets = s.outlets := rfl
@[simp] theorem State.disarm_watch (s : State) (r : EventRef) : (s.disarm r).watch = s.watch := rfl
@[simp] theorem State.disarm_cue (s : State) (r : EventRef) : (s.disarm r).cue = s.cue := rfl
@[simp] theorem State.disarm_panel (s : State) (r : EventRef) : (s.disarm r).panel = s.panel := rfl
@[simp] theorem State.disarm_port (s : State) (r : EventRef) : (s.disarm r).port = s.port := rfl
@[simp] theorem State.disarm_discard (s : State) (r : EventRef) : (s.disarm r).discard = s.discard := rfl
@[simp] theorem State.disarm_notices (s : State) (r : EventRef) : (s.disarm r).notices = s.notices := rfl
@[simp] theorem State.disarm_dataOut (s : State) (r : EventRef) : (s.disarm r).dataOut = s.dataOut := rfl
@[simp] theorem State.disarm_inReset (s : State) (r : EventRef) : (s.disarm r).inReset = s.inReset := rfl
@[simp] theorem State.disarm_owed (s : State) (r : EventRef) : (s.disarm r).owed = s.owed := rfl
@[simp] theorem State.disarm_fuCounted (s : State) (r : EventRef) : (s.disarm r).fuCounted = s.fuCounted := rfl
@[simp] theorem State.disarm_freeIndex (s : State) (r : EventRef) : (s.disarm r).freeIndex = s.freeIndex := rfl
@[simp] theorem State.disarm_pending (s : State) (r : EventRef) : (s.disarm r).pending = s.pending := rfl

/-! `spend` -/
@[simp] theorem State.spend_tb (s : State) : (s.spend).tb = s.tb := rfl
@[simp] theorem State.spend_items (s : State) : (s.spend).items = s.items := rfl
@[simp] theorem State.spend_cursor (s : State) : (s.spend).cursor = s.cursor := rfl
@[simp] theorem State.spend_batch (s : State) : (s.spend).batch = s.batch := rfl
@[simp] theorem State.spend_ctl (s : State) : (s.spend).ctl = s.ctl := rfl
@[simp] theorem State.spend_sheetCount (s : State) : (s.spend).sheetCount = s.sheetCount := rfl
@[simp] theorem State.spend_wheel (s : State) : (s.spend).wheel = s.wheel := rfl
@[simp] theorem State.spend_planned (s : State) : (s.spend).planned = s.planned := rfl
@[simp] theorem State.spend_outlets (s : State) : (s.spend).outlets = s.outlets := rfl
@[simp] theorem State.spend_watch (s : State) : (s.spend).watch = s.watch := rfl
@[simp] theorem State.spend_cue (s : State) : (s.spend).cue = s.cue := rfl
@[simp] theorem State.spend_panel (s : State) : (s.spend).panel = s.panel := rfl
@[simp] theorem State.spend_port (s : State) : (s.spend).port = s.port := rfl
@[simp] theorem State.spend_discard (s : State) : (s.spend).discard = s.discard := rfl
@[simp] theorem State.spend_notices (s : State) : (s.spend).notices = s.notices := rfl
@[simp] theorem State.spend_dataOut (s : State) : (s.spend).dataOut = s.dataOut := rfl
@[simp] theorem State.spend_inReset (s : State) : (s.spend).inReset = s.inReset := rfl
@[simp] theorem State.spend_owed (s : State) : (s.spend).owed = s.owed := rfl
@[simp] theorem State.spend_fuCounted (s : State) : (s.spend).fuCounted = s.fuCounted := rfl
@[simp] theorem State.spend_pending (s : State) : (s.spend).pending = s.pending := rfl

/-! `closeBatch` -/
@[simp] theorem State.closeBatch_tb (s : State) : (s.closeBatch).tb = s.tb := rfl
@[simp] theorem State.closeBatch_items (s : State) : (s.closeBatch).items = s.items := rfl
@[simp] theorem State.closeBatch_cursor (s : State) : (s.closeBatch).cursor = s.cursor := rfl
@[simp] theorem State.closeBatch_ctl (s : State) : (s.closeBatch).ctl = s.ctl := rfl
@[simp] theorem State.closeBatch_sheetCount (s : State) : (s.closeBatch).sheetCount = s.sheetCount := rfl
@[simp] theorem State.closeBatch_wheel (s : State) : (s.closeBatch).wheel = s.wheel := rfl
@[simp] theorem State.closeBatch_planned (s : State) : (s.closeBatch).planned = s.planned := rfl
@[simp] theorem State.closeBatch_outlets (s : State) : (s.closeBatch).outlets = s.outlets := rfl
@[simp] theorem State.closeBatch_watch (s : State) : (s.closeBatch).watch = s.watch := rfl
@[simp] theorem State.closeBatch_cue (s : State) : (s.closeBatch).cue = s.cue := rfl
@[simp] theorem State.closeBatch_panel (s : State) : (s.closeBatch).panel = s.panel := rfl
@[simp] theorem State.closeBatch_port (s : State) : (s.closeBatch).port = s.port := rfl
@[simp] theorem State.closeBatch_discard (s : State) : (s.closeBatch).discard = s.discard := rfl
@[simp] theorem State.closeBatch_notices (s : State) : (s.closeBatch).notices = s.notices := rfl
@[simp] theorem State.closeBatch_dataOut (s : State) : (s.closeBatch).dataOut = s.dataOut := rfl
@[simp] theorem State.closeBatch_inReset (s : State) : (s.closeBatch).inReset = s.inReset := rfl
@[simp] theorem State.closeBatch_owed (s : State) : (s.closeBatch).owed = s.owed := rfl
@[simp] theorem State.closeBatch_fuCounted (s : State) : (s.closeBatch).fuCounted = s.fuCounted := rfl
@[simp] theorem State.closeBatch_freeIndex (s : State) : (s.closeBatch).freeIndex = s.freeIndex := rfl
@[simp] theorem State.closeBatch_pending (s : State) : (s.closeBatch).pending = s.pending := rfl

/-! Reading records -/
@[simp] theorem State.outlet_onOutlet_same (s : State) (o : Fin 8) (f : Outlet → Outlet) :
    (s.onOutlet o f).outlet o = f (s.outlet o) := by
  simp [State.outlet]

theorem State.outlet_onOutlet (s : State) (o p : Fin 8) (f : Outlet → Outlet) :
    (s.onOutlet o f).outlet p = if p = o then f (s.outlet p) else s.outlet p := by
  simp [State.outlet, Bank.get_modify]

theorem State.outlet_eq (s : State) (o : Fin 8) : s.outlets.get o = s.outlet o := rfl

end Sys2Proof.Machine
end

