-- ==== Sys2Proof/Laws/Keeps.lean ====
section
/-! SUPPORT. What the operations below a take leave as it was: one relation, kept by each of them. -/
namespace Sys2Proof.Machine

/-- From `s` to `t` only the items, the wheel, the outlets within their bounds, the watch, the Show Controller and the notices
have moved. -/
structure Still (s t : State) : Prop where
  tb : t.tb = s.tb
  cursor : t.cursor = s.cursor
  batch : t.batch = s.batch
  sheet : t.sheetCount = s.sheetCount
  cue : t.cue = s.cue
  panel : t.panel = s.panel
  port : t.port = s.port
  discard : t.discard = s.discard
  out : t.dataOut = s.dataOut
  reset : t.inReset = s.inReset
  owed : t.owed = s.owed
  free : t.freeIndex = s.freeIndex
  queue : t.pending = s.pending
  enables : t.notices.enables = s.notices.enables
  grows : s.notices.pending &&& t.notices.pending = s.notices.pending
  counters : CountersOk s.notices → CountersOk t.notices
  outlets : OutletsOk s → OutletsOk t

/-- The keys of the degraded items. -/
def State.degradedKeys (s : State) : List Nat := (s.items.filter Item.degraded).map Item.key

/-- `Still`, and of the items only firing fields, revisions and degraded flags have moved, no degraded flag
from yes to no. -/
structure Keeps (s t : State) : Prop extends Still s t where
  take : t.notices.lastTake = s.notices.lastTake
  cores : t.cores = s.cores
  marks : ∀ k, k ∈ s.degradedKeys → k ∈ t.degradedKeys

/-- `Keeps`, and the Show Controller's pointers, vectors and settings have not moved either. -/
structure Same (s t : State) : Prop extends Keeps s t where
  ctl : t.ctl.core = s.ctl.core

theorem Still.refl (s : State) : Still s s where
  tb := rfl
  cursor := rfl
  batch := rfl
  sheet := rfl
  cue := rfl
  panel := rfl
  port := rfl
  discard := rfl
  out := rfl
  reset := rfl
  owed := rfl
  free := rfl
  queue := rfl
  enables := rfl
  grows := by simp
  counters := id
  outlets := id

theorem Still.trans {s t u : State} (a : Still s t) (b : Still t u) : Still s u where
  tb := b.tb.trans a.tb
  cursor := b.cursor.trans a.cursor
  batch := b.batch.trans a.batch
  sheet := b.sheet.trans a.sheet
  cue := b.cue.trans a.cue
  panel := b.panel.trans a.panel
  port := b.port.trans a.port
  discard := b.discard.trans a.discard
  out := b.out.trans a.out
  reset := b.reset.trans a.reset
  owed := b.owed.trans a.owed
  free := b.free.trans a.free
  queue := b.queue.trans a.queue
  enables := b.enables.trans a.enables
  grows := by
    have h : s.notices.pending &&& u.notices.pending
        = (s.notices.pending &&& t.notices.pending) &&& u.notices.pending := by rw [a.grows]
    rw [h, BitVec.and_assoc, b.grows, a.grows]
  counters := b.counters ∘ a.counters
  outlets := b.outlets ∘ a.outlets

theorem Keeps.refl (s : State) : Keeps s s := ⟨Still.refl s, rfl, rfl, fun _ h => h⟩

theorem Keeps.trans {s t u : State} (a : Keeps s t) (b : Keeps t u) : Keeps s u :=
  ⟨a.toStill.trans b.toStill, b.take.trans a.take, b.cores.trans a.cores, fun k h => b.marks k (a.marks k h)⟩

theorem Same.refl (s : State) : Same s s := ⟨Keeps.refl s, rfl⟩

theorem Same.trans {s t u : State} (a : Same s t) (b : Same t u) : Same s u :=
  ⟨a.toKeeps.trans b.toKeeps, b.ctl.trans a.ctl⟩

/-- A fold of an operation that keeps. -/
theorem Same.foldl {α : Type} {f : State → α → State} (h : ∀ s a, Same s (f s a)) (l : List α) (s : State) :
    Same s (l.foldl f s) := by
  induction l generalizing s with
  | nil => exact .refl s
  | cons a l ih => exact (h s a).trans (ih _)

theorem Same.ite {s a b : State} {c : Prop} [Decidable c] (ha : Same s a) (hb : Same s b) : Same s (if c then a else b) := by
  split
  · exact ha
  · exact hb

theorem Same.ite' {s a : State} {c : Prop} [Decidable c] (ha : c → Same s a) : Same s (if c then a else s) := by
  split
  · next h => exact ha h
  · exact .refl s

/-! ## The updates -/

theorem State.same_wheel (s : State) (w : List WheelEntry) : Same s { s with wheel := w } := ⟨{ Keeps.refl s with }, rfl⟩
theorem State.same_planned (s : State) (p : List Planned) : Same s { s with planned := p } := ⟨{ Keeps.refl s with }, rfl⟩
theorem State.same_disarm (r : EventRef) (s : State) : Same s (s.disarm r) := ⟨{ Keeps.refl s with }, rfl⟩
theorem State.same_watch (s : State) (w : Option LeadWatch) : Same s { s with watch := w } := ⟨{ Keeps.refl s with }, rfl⟩
theorem State.same_counted (s : State) (k : Option Nat) : Same s { s with fuCounted := k } := ⟨{ Keeps.refl s with }, rfl⟩

theorem and_or_self8 (p c : Byte) : p &&& (p ||| c) = p := by
  ext i; simp; exact Or.inl

theorem State.same_raise (c : Byte) (s : State) : Same s (s.raise c) :=
  ⟨{ Keeps.refl s with
      grows := by simp [State.raise, and_or_self8]
      counters := fun h => ⟨h.late, h.skipped, h.missed, h.coalesced, h.ignored⟩ }, rfl⟩

theorem countUp_le {n : Nat} (h : n ≤ 65535) : countUp n ≤ 65535 := by
  have : countUp n = if n < 65535 then n + 1 else n := rfl
  rw [this]; split_ifs <;> omega

theorem State.same_countLate (s : State) : Same s s.countLate :=
  ⟨{ Keeps.refl s with counters := fun h => { h with late := countUp_le h.late } }, rfl⟩
theorem State.same_countSkipped (s : State) : Same s s.countSkipped :=
  Same.trans (t := { s with notices := { s.notices with skipped := countUp s.notices.skipped } })
    ⟨{ Keeps.refl s with counters := fun h => { h with skipped := countUp_le h.skipped } }, rfl⟩ (State.same_raise _ _)
theorem State.same_countMissed (s : State) : Same s s.countMissed :=
  Same.trans (t := { s with notices := { s.notices with missed := countUp s.notices.missed } })
    ⟨{ Keeps.refl s with counters := fun h => { h with missed := countUp_le h.missed } }, rfl⟩ (State.same_raise _ _)
theorem State.same_countCoalesced (s : State) : Same s s.countCoalesced :=
  ⟨{ Keeps.refl s with counters := fun h => { h with coalesced := countUp_le h.coalesced } }, rfl⟩

theorem State.same_onCtl {f : ShowCtl → ShowCtl} (s : State) (h : (f s.ctl).core = s.ctl.core) : Same s (s.onCtl f) :=
  ⟨{ Keeps.refl s with }, h⟩

/-- A list of items changed item by item with each core kept. -/
theorem State.same_withItems {l : List Item} (s : State) (h : l.map Item.core = s.cores)
    (m : ∀ k, k ∈ s.degradedKeys → k ∈ (s.withItems l).degradedKeys) : Same s (s.withItems l) :=
  ⟨{ Keeps.refl s with cores := h, marks := m }, rfl⟩

theorem map_core_changeItem {k : Nat} {f : Item → Item} (h : ∀ i, (f i).core = i.core) (l : List Item) :
    (changeItem k f l).map Item.core = l.map Item.core := by
  induction l with
  | nil => rfl
  | cons a l ih =>
    simp only [changeItem, List.map_cons, List.map_map] at ih ⊢
    rw [ih]
    congr 1
    split
    · exact h a
    · rfl

theorem marks_changeItem {f : Item → Item} (hk : ∀ i, (f i).key = i.key) (hd : ∀ i, i.degraded = true → (f i).degraded = true)
    (n : Nat) (l : List Item) {k : Nat} (h : k ∈ (l.filter Item.degraded).map Item.key) :
    k ∈ ((changeItem n f l).filter Item.degraded).map Item.key := by
  simp only [List.mem_map, List.mem_filter, changeItem] at h ⊢
  obtain ⟨i, ⟨hi, d⟩, e⟩ := h
  refine ⟨if i.key = n then f i else i, ⟨⟨i, hi, rfl⟩, ?_⟩, ?_⟩
  · split
    · exact hd i d
    · exact d
  · split
    · rw [hk]; exact e
    · exact e

theorem State.same_onItem {f : Item → Item} (k : Nat) (s : State) (h : ∀ i, (f i).core = i.core)
    (d : ∀ i, i.degraded = true → (f i).degraded = true := by intro _ h; exact h) : Same s (s.onItem k f) :=
  State.same_withItems s (map_core_changeItem h _) fun _ hk =>
    marks_changeItem (f := f) (fun i => (congrArg Item.key (h i) : (f i).core.key = i.core.key)) d k s.items hk

theorem Item.core_bump (i : Item) : i.bump.core = i.core := rfl

theorem Item.core_onEvent {f : Event → Event} (h : ∀ e, (f e).core = e.core) (n : Fin 16) (i : Item) :
    (i.onEvent n f).core = i.core := by
  have : (i.events.map fun e => if e.num = n then f e else e).map Event.core = i.events.map Event.core := by
    rw [List.map_map]
    apply List.map_congr_left
    intro e _
    simp only [Function.comp]
    split
    · exact h e
    · rfl
  simp [Item.core, Item.onEvent, this]

theorem State.same_onEvent {f : Event → Event} (r : EventRef) (s : State) (h : ∀ e, (f e).core = e.core) :
    Same s (s.onEvent r f) :=
  State.same_onItem _ _ fun i => Item.core_onEvent h _ i

theorem State.same_bump (k : Nat) (s : State) : Same s (s.bump k) := State.same_onItem _ _ Item.core_bump

theorem State.same_onOutlet {f : Outlet → Outlet} (o : Fin 8) (s : State)
    (h : OutletsOk s → OutletOk (f (s.outlet o))) : Same s (s.onOutlet o f) :=
  ⟨{ Keeps.refl s with
      outlets := fun ok p => by
        rw [State.outlet_onOutlet]
        split
        · next e => subst e; exact h ok
        · exact ok p }, rfl⟩

theorem State.same_map {f : Outlet → Outlet} (s : State) (h : ∀ x, OutletOk x → OutletOk (f x)) :
    Same s { s with outlets := s.outlets.map f } :=
  ⟨{ Keeps.refl s with
      outlets := fun ok p => by
        have := h _ (ok p)
        simpa [State.outlet] using this }, rfl⟩

theorem State.same_firingAction {f : State → State} (k : Nat) (s : State) (h : Same s (f s)) :
    Same s (s.firingAction k f) := by
  simp only [State.firingAction]
  exact Same.ite h (h.trans (State.same_bump _ _))

/-! ## Outlets within their bounds -/

theorem Outlet.state_queue (x : Outlet) (q : List Frame) (m : Option LinkRate) :
    ({ x with queue := q, sending := m } : Outlet).state = x.state := rfl

theorem Outlet.sendStart_state (x : Outlet) : x.sendStart.state = x.state := by
  simp only [Outlet.sendStart]; split <;> rfl

/-- Entries leave a waiting list. -/
theorem OutletOk.filterWaiting {x : Outlet} (h : OutletOk x) (p : Waiting → Bool) :
    OutletOk { x with waiting := x.waiting.filter p } where
  queue := h.queue
  waiting := le_trans (List.length_filter_le _ _) h.waiting
  nodup := (List.Sublist.map _ List.filter_sublist).nodup h.nodup
  sending := h.sending
  held c hc hm := h.held c hc ((List.Sublist.map _ List.filter_sublist).subset hm)
  off := h.off

theorem OutletOk.noWaiting {x : Outlet} (h : OutletOk x) : OutletOk x.clearWaiting where
  queue := h.queue
  waiting := by simp [Outlet.clearWaiting]
  nodup := by simp [Outlet.clearWaiting]
  sending := h.sending
  held c _ hm := by simp [Outlet.clearWaiting] at hm
  off := h.off

/-- The state of an outlet whose cue goes is off only when it was. -/
theorem Outlet.off_of_noCue {x : Outlet} (h : x.dropCue.state = .disabled ∨ x.dropCue.state = .offline) : x.state = .disabled ∨ x.state = .offline := by
  simp only [Outlet.state, Outlet.dropCue] at *
  split_ifs at * <;> simp_all

/-- An outlet's state is DISABLED or OFFLINE exactly when it is not enabled, READY is low or reset is held. -/
theorem Outlet.off_iff (x : Outlet) : (x.state = .disabled ∨ x.state = .offline)
    ↔ x.enabled = false ∨ x.ready = false ∨ x.resetHold = true := by
  simp only [Outlet.state]
  split_ifs <;> simp_all

theorem OutletOk.noCue {x : Outlet} (h : OutletOk x) : OutletOk x.dropCue where
  queue := h.queue
  waiting := h.waiting
  nodup := h.nodup
  sending := h.sending
  held c hc := by simp [Outlet.dropCue] at hc
  off ho := ⟨rfl, (h.off (Outlet.off_of_noCue ho)).2⟩

/-- The off clause depends on enabled, READY, reset hold, the references and the queue alone. -/
theorem OutletOk.of_eq {x y : Outlet} (h : OutletOk x) (q : y.queue.length ≤ 8) (w : y.waiting = x.waiting)
    (m : y.sending.isSome = true ↔ y.queue ≠ []) (c : y.cued = x.cued ∨ y.cued = none)
    (off : y.enabled = false ∨ y.ready = false ∨ y.resetHold = true → y.cued = none ∧ y.playing = none
      ∧ (y.queue = [] ∨ y.queue = [clearFrame])) : OutletOk y where
  queue := q
  waiting := by rw [w]; exact h.waiting
  nodup := by rw [w]; exact h.nodup
  sending := m
  held r hr := by
    rw [w]
    rcases c with c | c
    · exact h.held r (c ▸ hr)
    · rw [c] at hr; exact absurd hr (by simp)
  off ho := off ((Outlet.off_iff y).1 ho)

/-- A record with other counters and latches. -/
theorem OutletOk.latches {x y : Outlet} (h : OutletOk x) (q : y.queue = x.queue) (w : y.waiting = x.waiting)
    (m : y.sending = x.sending) (c : y.cued = x.cued) (p : y.playing = x.playing)
    (e : y.enabled = x.enabled) (r : y.ready = x.ready) (d : y.resetHold = x.resetHold) : OutletOk y :=
  h.of_eq (by rw [q]; exact h.queue) w (by rw [q, m]; exact h.sending) (.inl c) fun ho => by
    rw [e, r, d] at ho
    rw [q, c, p]
    exact h.off ((Outlet.off_iff x).2 ho)

/-- A frame queued to an outlet that is on, with room. -/
theorem OutletOk.push {x : Outlet} (h : OutletOk x) (on : ¬(x.state = .disabled ∨ x.state = .offline))
    (room : x.queue.length < 8) (f : Frame) : OutletOk ({ x with queue := x.queue ++ [f] } : Outlet).sendStart := by
  have hs : (({ x with queue := x.queue ++ [f] } : Outlet).sendStart.sending).isSome = true := by
    simp only [Outlet.sendStart]
    split
    · rfl
    · next c =>
      cases hq : x.sending with
      | none => simp [hq] at c
      | some _ => simp
  have hq : (({ x with queue := x.queue ++ [f] } : Outlet).sendStart).queue = x.queue ++ [f] := by
    simp only [Outlet.sendStart]; split <;> rfl
  have hw : (({ x with queue := x.queue ++ [f] } : Outlet).sendStart).waiting = x.waiting := by
    simp only [Outlet.sendStart]; split <;> rfl
  have hc : (({ x with queue := x.queue ++ [f] } : Outlet).sendStart).cued = x.cued := by
    simp only [Outlet.sendStart]; split <;> rfl
  have hst : (({ x with queue := x.queue ++ [f] } : Outlet).sendStart).state = x.state := by
    rw [Outlet.sendStart_state]; rfl
  exact
    { queue := by rw [hq]; simp; omega
      waiting := by rw [hw]; exact h.waiting
      nodup := by rw [hw]; exact h.nodup
      sending := by simp [hs, hq]
      held := fun c h' => by rw [hw]; exact h.held c (hc ▸ h')
      off := fun ho => absurd (hst ▸ ho) on }

theorem OutletOk.overflow {x : Outlet} (h : OutletOk x) : OutletOk { x with overflow := true } :=
  h.latches rfl rfl rfl rfl rfl rfl rfl rfl

theorem State.full_iff (x : Outlet) : x.full = false ↔ x.queue.length < 8 := by
  have : x.full = decide (8 ≤ x.queue.length) := rfl
  rw [this, decide_eq_false_iff_not]; omega

/-- A frame queued to an outlet that is on. -/
theorem State.same_queueFrame (o : Fin 8) (f : Frame) (s : State)
    (on : OutletsOk s → ¬((s.outlet o).state = .disabled ∨ (s.outlet o).state = .offline)) :
    Same s (s.queueFrame o f) := by
  simp only [State.queueFrame]
  split
  · exact (State.same_onOutlet o s fun ok => (ok o).overflow).trans (State.same_raise _ _)
  · next h =>
    exact State.same_onOutlet o s fun ok => (ok o).push (on ok) ((State.full_iff _).1 (by simpa using h)) f

/-! ## Reading cores -/

theorem State.find_core {s t : State} (h : t.cores = s.cores) (k : Nat) :
    (t.item k).map Item.core = (s.item k).map Item.core := by
  have key : ∀ l : List Item, (findItem l k).map Item.core = findItem (l.map Item.core) k := by
    intro l
    induction l with
    | nil => rfl
    | cons a l ih =>
      simp only [findItem, List.map_cons, List.find?_cons] at ih ⊢
      have : (a.core.key == k) = (a.key == k) := rfl
      rw [this]
      split
      · rfl
      · exact ih
  simp only [State.item, key]
  exact congrArg (findItem · k) h

end Sys2Proof.Machine
end

