-- ==== Sys2Proof/Laws/Cueing.lean ====
section
/-! SUPPORT. What forming the sheet, deriving the lamps and driving the display line leave as it was, and that they keep the Cue
Unit's bounds. -/
namespace Sys2Proof.Machine

/-- From `s` to `t` only the Cue Unit and the sheet count have moved, the Cue Unit within its bounds. -/
structure Shows (s t : State) : Prop where
  rest : t = { s with cue := t.cue, sheetCount := t.sheetCount }
  cue : CueOk s.cue → CueOk t.cue

theorem Shows.refl (s : State) : Shows s s := ⟨rfl, id⟩

theorem Shows.trans {s t u : State} (a : Shows s t) (b : Shows t u) : Shows s u where
  rest := by
    have h := b.rest
    rw [a.rest] at h
    exact h
  cue := b.cue ∘ a.cue

theorem Shows.ite {s a b : State} {c : Prop} [Decidable c] (ha : Shows s a) (hb : Shows s b) : Shows s (if c then a else b) := by
  split
  · exact ha
  · exact hb

theorem Shows.foldl {α : Type} {f : State → α → State} (h : ∀ s a, Shows s (f s a)) (l : List α) (s : State) :
    Shows s (l.foldl f s) := by
  induction l generalizing s with
  | nil => exact .refl s
  | cons a l ih => exact (h s a).trans (ih _)

theorem State.shows_onCue (f : CueUnit → CueUnit) (s : State) (h : CueOk s.cue → CueOk (f s.cue)) : Shows s (s.onCue f) := ⟨rfl, h⟩

theorem State.shows_onPresenter (p : Fin 4) (f : Presenter → Presenter) (s : State) (h : ∀ x, PresenterOk x → PresenterOk (f x)) :
    Shows s (s.onPresenter p f) :=
  ⟨rfl, fun ok => { ok with
    presenters := fun q => by
      show PresenterOk ((s.cue.presenters.modify p f).get q)
      rw [Bank.get_modify]
      split
      · exact h _ (ok.presenters q)
      · exact ok.presenters q }⟩

theorem CueOk.fillSlot {c : CueUnit} (h : CueOk c) (a : Fin 6) (v : Shown) : CueOk (c.fillSlot a v) :=
  ⟨h.presenters, h.patterns, h.waiting⟩

theorem State.shows_deriveFrom (left : Option Int) (s : State) (p : Fin 4) : Shows s (s.deriveFrom left p) := by
  simp only [State.deriveFrom]
  refine (State.shows_onPresenter p _ s fun x hx => ?_).trans (State.shows_onCue _ _ fun h => h.fillSlot _ _)
  split
  · exact ⟨hx.frames, hx.hail⟩
  · exact ⟨Nat.zero_le _, hx.hail⟩

theorem State.shows_derivePresenter (s : State) (p : Fin 4) : Shows s (s.derivePresenter p) := State.shows_deriveFrom _ s p

theorem State.shows_deriveLamps (s : State) : Shows s s.deriveLamps := Shows.foldl State.shows_derivePresenter _ s

theorem State.shows_count (s : State) (n : Nat) : Shows s { s with sheetCount := n } := ⟨rfl, id⟩

/-- Forming the sheet moves the sheet count, the presenters and the display slots alone (R79, R144, R152). -/
theorem State.shows_formSheet (s : State) : Shows s s.formSheet := by
  simp only [State.formSheet]
  exact ((State.shows_count s _).trans (State.shows_deriveLamps _)).trans (State.shows_onCue _ _ fun h => h.fillSlot _ _)

/-- The part's own change report forms the sheet or does nothing (R169). -/
theorem State.shows_reportOwn {form : State → State} (h : ∀ u : State, Shows u (form u)) (before s : State) :
    Shows s (State.reportOwn form before s) := Shows.ite (.refl s) (h s)

theorem CueOk.setLastSent {c : CueUnit} (h : CueOk c) (a : Fin 6) (v : Shown) : CueOk (c.setLastSent a v) := by
  simp only [CueUnit.setLastSent]
  split
  · next ha =>
    refine ⟨fun q => ?_, h.patterns, h.waiting⟩
    show PresenterOk ((c.presenters.modify _ _).get q)
    rw [Bank.get_modify]
    split
    · exact ⟨(h.presenters q).frames, (h.presenters q).hail⟩
    · exact h.presenters q
  · split
    · exact ⟨h.presenters, h.patterns, h.waiting⟩
    · exact ⟨h.presenters, h.patterns, h.waiting⟩

theorem CueOk.sendStart {c : CueUnit} (h : CueOk c) : CueOk c.sendStart := by
  simp only [CueUnit.sendStart]
  split
  · next a v _ _ =>
    exact CueOk.setLastSent (c := { c with slots := c.slots.set a none, sending := some (a, v) })
      ⟨h.presenters, h.patterns, h.waiting⟩ _ _
  · exact h

theorem State.shows_displayStart (s : State) : Shows s s.displayStart := State.shows_onCue _ _ fun h => h.sendStart

theorem State.shows_formSheetNow (s : State) : Shows s s.formSheetNow :=
  (State.shows_formSheet s).trans (State.shows_displayStart _)

theorem State.shows_fillTod (s : State) : Shows s s.fillTod := State.shows_onCue _ _ fun h => h.fillSlot _ _

theorem State.shows_lampAdvance (p : Fin 4) (s : State) : Shows s (s.lampAdvance p) :=
  ⟨rfl, fun ok => ⟨fun q => by
    show PresenterOk ((s.cue.presenters.modify p _).get q)
    rw [Bank.get_modify]
    split
    · have len : s.stepLength p ≤ 15 := (ok.patterns _).2
      have hq := ok.presenters q
      simp only [Presenter.advance]
      split_ifs
      · exact hq
      · exact ⟨Nat.zero_le _, hq.hail⟩
      · exact ⟨by show _ + 1 ≤ 14; omega, hq.hail⟩
    · exact ok.presenters q, ok.patterns, ok.waiting⟩⟩

theorem State.shows_hailCount (left : Option Int) (p : Fin 4) (s : State) : Shows s (s.hailCount left p) := by
  simp only [State.hailCount]
  refine Shows.ite (.refl s) ?_
  have h1 : Shows s (s.onPresenter p fun x => { x with hail := (s.cue.presenters.get p).hail - 1 }) :=
    ⟨rfl, fun ok => ⟨fun q => by
      show PresenterOk ((s.cue.presenters.modify p _).get q)
      rw [Bank.get_modify]
      split
      · exact ⟨(ok.presenters q).frames, by show _ - 1 ≤ 1000; have := (ok.presenters p).hail; omega⟩
      · exact ok.presenters q, ok.patterns, ok.waiting⟩⟩
  exact Shows.ite (h1.trans (State.shows_deriveFrom _ _ _)) h1

theorem CueOk.applyPatterns {c : CueUnit} (h : CueOk c) : CueOk c.applyPatterns := by
  refine ⟨h.presenters, ?_, fun l p e => ?_⟩
  · have key : ∀ (l : List (Fin 6)) (b : Bank 6 Pattern), (∀ i, 1 ≤ (b.get i).length ∧ (b.get i).length ≤ 15) →
        ∀ i, 1 ≤ ((l.foldl (fun b a => match c.pendingPatterns.get a with | some p => b.set a p | none => b) b).get i).length
          ∧ ((l.foldl (fun b a => match c.pendingPatterns.get a with | some p => b.set a p | none => b) b).get i).length ≤ 15 := by
      intro l
      induction l with
      | nil => intro b hb; exact hb
      | cons a l ih =>
        intro b hb
        refine ih _ fun i => ?_
        cases hp : c.pendingPatterns.get a with
        | none => simpa only [hp] using hb i
        | some p =>
          by_cases e : i = a
          · subst e; simpa only [hp, Bank.get_set_same] using h.waiting _ _ hp
          · simpa only [hp, Bank.get_set_other _ e] using hb i
    exact key _ _ h.patterns
  · simp only [CueUnit.applyPatterns, Bank.get_replicate] at e
    exact absurd e (by simp)

theorem CueOk.sendComplete {c : CueUnit} (h : CueOk c) : CueOk c.sendComplete := by
  simp only [CueUnit.sendComplete]
  split
  · exact CueOk.sendStart ⟨h.presenters, h.patterns, h.waiting⟩
  · exact h

/-! ## The line is never free while a slot is filled (R155) -/

theorem CueUnit.lowestFilled_none {c : CueUnit} (h : c.lowestFilled = none) (a : Fin 6) : c.slots.get a = none := by
  simp only [CueUnit.lowestFilled, List.findSome?_eq_none_iff] at h
  have := h a (by fin_cases a <;> simp)
  simpa using this

theorem CueUnit.sendStart_free {c : CueUnit} (h : c.sendStart.sending = none) (a : Fin 6) : c.sendStart.slots.get a = none := by
  have keep : ∀ (d : CueUnit) a v, (d.setLastSent a v).sending = d.sending := by
    intro d a v; simp only [CueUnit.setLastSent]; split_ifs <;> rfl
  cases hs : c.sending with
  | some x => simp [CueUnit.sendStart, hs] at h
  | none =>
    cases hl : c.lowestFilled with
    | some x => simp [CueUnit.sendStart, hs, hl, keep] at h
    | none =>
      simp only [CueUnit.sendStart, hs, hl]
      exact CueUnit.lowestFilled_none hl a

/-- After the line has had its chance to start, the display clause holds. -/
theorem State.display_started (s : State) : DisplayOk s.displayStart := fun _ h a => CueUnit.sendStart_free h a

end Sys2Proof.Machine
end

