-- ==== Sys2Proof/Laws/Views.lean ====
section
/-! SUPPORT. What the store's bounds and the Show Controller's pointers read of the items, and how it survives a change. -/
namespace Sys2Proof.Machine

/-- What the store's bounds read of an item. -/
def Item.shape (i : Item) : Nat × Option (Fin 16) × List (Fin 16 × EventAction) :=
  (i.key, i.lead, i.events.map fun e => (e.num, e.action))

/-- What the Show Controller's pointers read of an item. -/
def Item.view (i : Item) : Nat × Bool × Bool := (i.key, i.isOnAir, i.eligible)

theorem Item.shape_core (i : Item) : i.core.shape = i.shape := by
  have : (i.events.map Event.core).map (fun e => (e.num, e.action)) = i.events.map fun e => (e.num, e.action) := by
    rw [List.map_map]; rfl
  simp only [Item.shape, Item.core, this]

theorem Item.view_core (i : Item) : i.core.view = i.view := rfl

theorem shapes_of_cores {s t : State} (h : t.cores = s.cores) : t.items.map Item.shape = s.items.map Item.shape := by
  have := congrArg (List.map Item.shape) h
  simpa [State.cores, Function.comp_def, Item.shape_core] using this

theorem views_of_cores {s t : State} (h : t.cores = s.cores) : t.items.map Item.view = s.items.map Item.view := by
  have := congrArg (List.map Item.view) h
  simpa [State.cores, Function.comp_def, Item.view_core] using this

/-! ## The store's bounds -/

/-- A list of event numbers strictly ascends. -/
def ascNums : List (Fin 16) → Bool
  | a :: b :: rest => decide (a.val < b.val) && ascNums (b :: rest)
  | _ => true

theorem ascending_nums (es : List Event) : ascending es = ascNums (es.map Event.num) := by
  induction es with
  | nil => rfl
  | cons a es ih =>
    cases es with
    | nil => rfl
    | cons b es =>
      simp only [List.map_cons] at ih
      simp only [ascending, ascNums, List.map_cons, ih]

theorem ascending_congr {a b : List Event} (h : a.map Event.num = b.map Event.num) : ascending a = ascending b := by
  rw [ascending_nums, ascending_nums, h]

theorem nums_of_shape {i j : Item} (h : i.shape = j.shape) : i.events.map Event.num = j.events.map Event.num := by
  have := congrArg (fun x => x.2.2.map Prod.fst) h
  simp only [Item.shape, List.map_map] at this
  exact this

theorem Item.leadOk_shape (i : Item) : i.leadOk = (match i.shape.2.1 with
    | none => true
    | some n => match i.shape.2.2.find? (fun x => x.1 == n) with | some x => x.2 == .showFrame | none => false) := by
  simp only [Item.leadOk, Item.shape, Item.event]
  cases i.lead with
  | none => rfl
  | some n =>
    simp only [List.find?_map]
    have e : ((fun x : Fin 16 × EventAction => x.1 == n) ∘ fun e : Event => (e.num, e.action)) = fun e => e.num == n := rfl
    rw [e]
    cases i.events.find? fun e => e.num == n <;> rfl

theorem length_of_shape {i j : Item} (h : i.shape = j.shape) : i.events.length = j.events.length := by
  have := congrArg List.length (nums_of_shape h)
  simpa using this

/-- The store's bounds read nothing of the items but their shapes. -/
theorem StoreOk.of_shapes {l m : List Item} (h : l.map Item.shape = m.map Item.shape) (ok : StoreOk m) : StoreOk l := by
  have hlen : l.length = m.length := by simpa using congrArg List.length h
  have hkeys : l.map Item.key = m.map Item.key := by
    have := congrArg (List.map Prod.fst) h
    rw [List.map_map, List.map_map] at this
    exact this
  have pick : ∀ i ∈ l, ∃ j ∈ m, j.shape = i.shape := by
    intro i hi
    have : i.shape ∈ m.map Item.shape := h ▸ List.mem_map_of_mem hi
    obtain ⟨j, hj, e⟩ := List.mem_map.1 this
    exact ⟨j, hj, e⟩
  have hpool : poolUsed l = poolUsed m := by
    have := congrArg (fun x => (x.map fun y => y.2.2.length).sum) h
    simpa [poolUsed, Item.shape, Function.comp_def] using this
  exact
    { size := hlen ▸ ok.size
      keys := hkeys ▸ ok.keys
      range := fun i hi => by
        obtain ⟨j, hj, e⟩ := pick i hi
        have : j.key = i.key := congrArg Prod.fst e
        exact this ▸ ok.range j hj
      lists := fun i hi => by
        obtain ⟨j, hj, e⟩ := pick i hi
        have a := ok.lists j hj
        exact ⟨length_of_shape e ▸ a.1, (ascending_congr (nums_of_shape e)) ▸ a.2⟩
      leads := fun i hi => by
        obtain ⟨j, hj, e⟩ := pick i hi
        rw [Item.leadOk_shape, ← e, ← Item.leadOk_shape]
        exact ok.leads j hj
      pool := hpool ▸ ok.pool }

/-- A change of items that keeps every shape. -/
theorem shapes_changeItem {f : Item → Item} (k : Nat) (h : ∀ i, (f i).shape = i.shape) (l : List Item) :
    (changeItem k f l).map Item.shape = l.map Item.shape := by
  simp only [changeItem, List.map_map]
  apply List.map_congr_left
  intro i _
  simp only [Function.comp]
  split
  · exact h i
  · rfl

/-! ## The Show Controller's pointers -/

/-- The keys of the on-air items, from the views. -/
def viewAiring (v : List (Nat × Bool × Bool)) : List Nat := (v.filter fun x => x.2.1).map Prod.fst
/-- The eligibility of a key, from the views. -/
def viewEligible (v : List (Nat × Bool × Bool)) (k : Nat) : Bool :=
  match v.find? fun x => x.1 == k with
  | some x => x.2.2
  | none => false

theorem State.airing_view (s : State) : s.airing = viewAiring (s.items.map Item.view) := by
  simp only [State.airing, viewAiring, List.filter_map, List.map_map]
  rfl

theorem State.eligible_view (s : State) (k : Nat) : s.eligibleKey k = viewEligible (s.items.map Item.view) k := by
  simp only [State.eligibleKey, viewEligible, State.item, findItem, List.find?_map]
  have e : ((fun x : Nat × Bool × Bool => x.1 == k) ∘ Item.view) = fun i : Item => i.key == k := rfl
  rw [e]
  cases s.items.find? fun i => i.key == k <;> rfl

theorem keys_of_views {l m : List Item} (h : l.map Item.view = m.map Item.view) : l.map Item.key = m.map Item.key := by
  have := congrArg (List.map Prod.fst) h
  rw [List.map_map, List.map_map] at this
  exact this

/-- The pointers' invariant reads nothing but the views and the Show Controller's state, on-air pointer and NEXT. -/
theorem ShowOk.of_views {s t : State} (h : t.items.map Item.view = s.items.map Item.view)
    (st : t.ctl.state = s.ctl.state) (on : t.ctl.onAir = s.ctl.onAir) (nx : t.ctl.next = s.ctl.next) (ok : ShowOk s) :
    ShowOk t where
  keys := keys_of_views h ▸ ok.keys
  one := by rw [State.airing_view, h, on, ← State.airing_view]; exact ok.one
  live := by rw [on, st]; exact ok.live
  next k hk := by
    have := ok.next k (nx ▸ hk)
    rw [st, State.eligible_view, h, ← State.eligible_view]; exact this

theorem ctl_of_core {s t : State} (h : t.ctl.core = s.ctl.core) :
    t.ctl.state = s.ctl.state ∧ t.ctl.onAir = s.ctl.onAir ∧ t.ctl.next = s.ctl.next ∧ t.ctl.pinned = s.ctl.pinned
      ∧ t.ctl.anchor = s.ctl.anchor ∧ t.ctl.takenByVector = s.ctl.takenByVector ∧ t.ctl.leadLostKey = s.ctl.leadLostKey
      ∧ t.ctl.underrunKey = s.ctl.underrunKey ∧ t.ctl.showEnd = s.ctl.showEnd ∧ t.ctl.wrap = s.ctl.wrap := by
  have g : ∀ {α : Type} (f : ShowCtl → α), f t.ctl.core = f s.ctl.core := fun f => congrArg f h
  exact ⟨g ShowCtl.state, g ShowCtl.onAir, g ShowCtl.next, g ShowCtl.pinned, g ShowCtl.anchor, g ShowCtl.takenByVector,
    g ShowCtl.leadLostKey, g ShowCtl.underrunKey, g ShowCtl.showEnd, g ShowCtl.wrap⟩

theorem ShowOk.of_same {s t : State} (h : Same s t) (ok : ShowOk s) : ShowOk t :=
  have c := ctl_of_core h.ctl
  ok.of_views (views_of_cores h.cores) c.1 c.2.1 c.2.2.1

theorem StoreOk.of_keeps {s t : State} (h : Keeps s t) (ok : StoreOk s.items) : StoreOk t.items :=
  ok.of_shapes (shapes_of_cores h.cores)

/-! ## Field ranges -/

theorem RecordOk.of_core {i j : Item} (h : j.core = i.core) (ok : RecordOk i) : RecordOk j := by
  have g : ∀ {α : Type} (f : Item → α), f j.core = f i.core := fun f => congrArg f h
  have h1 : j.slug = i.slug := g Item.slug
  have h2 : j.p = i.p := g Item.p
  have h3 : j.l = i.l := g Item.l
  have h4 : j.airCount = i.airCount := g Item.airCount
  have h5 : j.airing = i.airing := g Item.airing
  exact ⟨h1 ▸ ok.slug, h1 ▸ ok.chars, h2 ▸ ok.p, h3 ▸ ok.l, h4 ▸ ok.airCount, h5 ▸ ok.actual⟩

theorem RecordsOk.of_cores {l m : List Item} (h : l.map Item.core = m.map Item.core) (ok : RecordsOk m) : RecordsOk l := by
  intro i hi
  have : i.core ∈ m.map Item.core := h ▸ List.mem_map_of_mem hi
  obtain ⟨j, hj, e⟩ := List.mem_map.1 this
  exact (ok j hj).of_core e.symm

theorem RecordsOk.of_keeps {s t : State} (h : Keeps s t) (ok : RecordsOk s.items) : RecordsOk t.items := ok.of_cores h.cores

theorem RecordsOk.changeItem {l : List Item} (k : Nat) {f : Item → Item} (hf : ∀ i, RecordOk i → RecordOk (f i))
    (ok : RecordsOk l) : RecordsOk (Machine.changeItem k f l) := by
  intro i hi
  obtain ⟨j, hj, rfl⟩ := List.mem_map.1 hi
  split
  · exact hf j (ok j hj)
  · exact ok j hj

/-! ## Finding items by key -/

theorem findItem_mem {l : List Item} {k : Nat} {i : Item} (h : findItem l k = some i) : i ∈ l ∧ i.key = k := by
  simp only [findItem] at h
  exact ⟨List.mem_of_find?_eq_some h, by simpa using List.find?_some h⟩

theorem findItem_of_mem {l : List Item} (nd : (l.map Item.key).Nodup) {i : Item} (h : i ∈ l) : findItem l i.key = some i := by
  induction l with
  | nil => simp at h
  | cons a l ih =>
    simp only [List.map_cons, List.nodup_cons] at nd
    simp only [findItem, List.find?_cons]
    rcases List.mem_cons.1 h with e | e
    · subst e; simp
    · have : a.key ≠ i.key := fun e' => nd.1 (e' ▸ List.mem_map_of_mem e)
      simp only [beq_eq_false_iff_ne.2 this]
      exact ih nd.2 e

theorem findItem_changeItem {l : List Item} {k : Nat} {f : Item → Item} (hf : ∀ i, (f i).key = i.key) (j : Nat) :
    findItem (changeItem k f l) j = (findItem l j).map fun i => if i.key = k then f i else i := by
  induction l with
  | nil => rfl
  | cons a l ih =>
    simp only [findItem, changeItem, List.map_cons, List.find?_cons] at ih ⊢
    have e : (if a.key = k then f a else a).key = a.key := by split <;> simp [hf]
    rw [e]
    split
    · rfl
    · exact ih

theorem findItem_none {l : List Item} {k : Nat} : findItem l k = none ↔ k ∉ l.map Item.key := by
  simp [findItem, List.find?_eq_none]

/-! ## NEXT by following (R56) -/

theorem itemsAfter_subset (k : Nat) (l : List Item) : ∀ i ∈ itemsAfter k l, i ∈ l := by
  induction l with
  | nil => simp [itemsAfter]
  | cons a l ih =>
    intro i hi
    simp only [itemsAfter] at hi
    split at hi
    · exact List.mem_cons_of_mem _ hi
    · exact List.mem_cons_of_mem _ (ih i hi)

theorem State.followed_eligible {s : State} (nd : (s.items.map Item.key).Nodup) {k : Nat} (h : s.followed = some k) :
    s.eligibleKey k = true := by
  simp only [State.followed, Option.map_eq_some_iff] at h
  obtain ⟨i, hi, rfl⟩ := h
  have hm : i ∈ s.items := by
    have := List.mem_of_find?_eq_some hi
    split at this
    · exact this
    · exact itemsAfter_subset _ _ _ this
  simp only [State.eligibleKey, State.item, findItem_of_mem nd hm]
  simpa using List.find?_some hi

/-- NEXT as derived names an eligible item, and is present only in ARMED and LIVE (R56). -/
theorem State.derivedNext_ok {s : State} (nd : (s.items.map Item.key).Nodup) {k : Nat} (h : s.derivedNext.1 = some k) :
    (s.ctl.state = .armed ∨ s.ctl.state = .live) ∧ s.eligibleKey k = true := by
  simp only [State.derivedNext] at h
  split at h
  · next hs =>
    refine ⟨hs, ?_⟩
    split at h
    · split at h
      · next hp => simp only [Option.some.injEq] at h; subst h; simp at hp; exact hp.2
      · exact State.followed_eligible nd h
    · exact State.followed_eligible nd h
  · simp at h

end Sys2Proof.Machine
end

