-- ==== Sys2Proof/Laws/Store.lean ====
section
/-! SUPPORT. The store's changes keep its bounds (R9, R11, R5). -/
namespace Sys2Proof.Machine

/-! ## Order and placement -/

theorem StoreOk.perm {l m : List Item} (p : l.Perm m) (h : StoreOk m) : StoreOk l where
  size := p.length_eq ▸ h.size
  keys := (p.map Item.key).nodup_iff.2 h.keys
  range i hi := h.range i (p.mem_iff.1 hi)
  lists i hi := h.lists i (p.mem_iff.1 hi)
  leads i hi := h.leads i (p.mem_iff.1 hi)
  pool := by
    have e : poolUsed l = poolUsed m := (p.map fun i : Item => i.events.length).sum_eq
    exact e ▸ h.pool

theorem insertAfter_perm (k : Nat) (it : Item) (l : List Item) : (insertAfter k it l).Perm (it :: l) := by
  induction l with
  | nil => exact .refl _
  | cons a l ih =>
    simp only [insertAfter]
    split
    · exact .swap _ _ _
    · exact (ih.cons a).trans (.swap _ _ _)

theorem placeItem_perm (after : Nat) (it : Item) (l : List Item) : (placeItem after it l).Perm (it :: l) := by
  simp only [placeItem]
  split
  · exact .refl _
  · exact insertAfter_perm _ _ _

theorem removeItem_perm {l : List Item} (nd : (l.map Item.key).Nodup) {k : Nat} {i : Item} (h : findItem l k = some i) :
    l.Perm (i :: removeItem k l) := by
  induction l with
  | nil => simp [findItem] at h
  | cons a l ih =>
    simp only [List.map_cons, List.nodup_cons] at nd
    simp only [findItem, List.find?_cons] at h
    by_cases e : a.key = k
    · simp only [e, beq_self_eq_true] at h
      have : removeItem k (a :: l) = l := by
        simp only [removeItem, List.filter_cons, e, bne_self_eq_false, Bool.false_eq_true, if_false]
        rw [List.filter_eq_self]
        intro j hj
        simp only [bne_iff_ne, ne_eq]
        exact fun e' => nd.1 (by rw [e, ← e']; exact List.mem_map_of_mem hj)
      rw [this]
      cases h
      exact .refl _
    · simp only [beq_eq_false_iff_ne.2 e] at h
      have : removeItem k (a :: l) = a :: removeItem k l := by
        simp [removeItem, e]
      rw [this]
      exact ((ih nd.2 h).cons a).trans (.swap _ _ _)

theorem StoreOk.sublist {l m : List Item} (p : l.Sublist m) (h : StoreOk m) : StoreOk l where
  size := le_trans p.length_le h.size
  keys := (p.map Item.key).nodup h.keys
  range i hi := h.range i (p.subset hi)
  lists i hi := h.lists i (p.subset hi)
  leads i hi := h.leads i (p.subset hi)
  pool := le_trans (List.Sublist.sum_le_sum (p.map fun i => i.events.length) (by simp)) h.pool

theorem StoreOk.cons {l : List Item} {i : Item} (h : StoreOk l) (size : l.length < 256) (fresh : findItem l i.key = none)
    (range : 1 ≤ i.key ∧ i.key ≤ 65534) (empty : i.events = []) (lead : i.lead = none) : StoreOk (i :: l) where
  size := by simp; omega
  keys := List.nodup_cons.2 ⟨findItem_none.1 fresh, h.keys⟩
  range j hj := by
    rcases List.mem_cons.1 hj with e | e
    · exact e ▸ range
    · exact h.range j e
  lists j hj := by
    rcases List.mem_cons.1 hj with e | e
    · subst e; simp [empty, ascending]
    · exact h.lists j e
  leads j hj := by
    rcases List.mem_cons.1 hj with e | e
    · subst e; simp [Item.leadOk, lead]
    · exact h.leads j e
  pool := by
    have : poolUsed (i :: l) = poolUsed l := by simp [poolUsed, empty]
    exact this ▸ h.pool

theorem bumpAltered_shapes (before after : List Item) :
    (bumpAltered before after).map Item.shape = after.map Item.shape := by
  simp only [bumpAltered, List.map_map]
  apply List.map_congr_left
  intro i _
  simp only [Function.comp]
  split
  · rfl
  · split <;> rfl

/-! ## Event lists -/

theorem ascending_iff (es : List Event) : ascending es = true ↔ es.Pairwise fun a b => a.num.val < b.num.val := by
  induction es with
  | nil => simp [ascending]
  | cons a es ih =>
    cases es with
    | nil => simp [ascending]
    | cons b es =>
      simp only [ascending, Bool.and_eq_true, decide_eq_true_eq, ih, List.pairwise_cons]
      constructor
      · rintro ⟨hab, h⟩
        refine ⟨fun x hx => ?_, h⟩
        rcases List.mem_cons.1 hx with e | e
        · exact e ▸ hab
        · exact lt_trans hab (h.1 x e)
      · rintro ⟨ha, h⟩
        exact ⟨ha b List.mem_cons_self, h⟩

theorem insertEvent_mem (e x : Event) (es : List Event) : x ∈ insertEvent e es ↔ x = e ∨ x ∈ es := by
  induction es with
  | nil => simp [insertEvent]
  | cons a es ih =>
    simp only [insertEvent]
    split
    · simp
    · simp only [List.mem_cons, ih]; tauto

theorem insertEvent_length (e : Event) (es : List Event) : (insertEvent e es).length = es.length + 1 := by
  induction es with
  | nil => rfl
  | cons a es ih =>
    simp only [insertEvent]
    split
    · simp
    · simp [ih]

theorem insertEvent_ascending {e : Event} {es : List Event} (h : ascending es = true) (fresh : ∀ x ∈ es, x.num ≠ e.num) :
    ascending (insertEvent e es) = true := by
  rw [ascending_iff] at h ⊢
  induction es with
  | nil => simp [insertEvent]
  | cons a es ih =>
    have hp := List.pairwise_cons.1 h
    simp only [insertEvent]
    split
    · next hl =>
      refine List.pairwise_cons.2 ⟨fun x hx => ?_, h⟩
      rcases List.mem_cons.1 hx with e' | e'
      · exact e' ▸ hl
      · exact lt_trans hl (hp.1 x e')
    · next hl =>
      refine List.pairwise_cons.2 ⟨fun x hx => ?_, ih hp.2 fun x hx => fresh x (List.mem_cons_of_mem _ hx)⟩
      rcases (insertEvent_mem _ _ _).1 hx with e' | e'
      · subst e'
        have : a.num.val ≠ x.num.val := fun h' => fresh a List.mem_cons_self (Fin.ext h')
        omega
      · exact hp.1 x e'

theorem insertEvent_find {e : Event} {es : List Event} {n : Fin 16} (hn : e.num ≠ n) :
    (insertEvent e es).find? (fun x => x.num == n) = es.find? fun x => x.num == n := by
  have he : (e.num == n) = false := beq_eq_false_iff_ne.2 hn
  induction es with
  | nil => simp [insertEvent, he]
  | cons a es ih =>
    simp only [insertEvent]
    split
    · rw [List.find?_cons, he]
    · simp only [List.find?_cons, ih]

theorem Item.event_fresh {i : Item} {n : Fin 16} (h : i.event n = none) : ∀ x ∈ i.events, x.num ≠ n := by
  simpa [Item.event, List.find?_eq_none] using h

/-! ## One item changed -/

/-- An item changed in place: each bound is the item's own, but for the pool. -/
theorem StoreOk.changeItem {l : List Item} {k c : Nat} {f : Item → Item} {i : Item} (h : StoreOk l)
    (hi : findItem l k = some i) (key : (f i).key = k) (size : (f i).events.length ≤ 16) (asc : ascending (f i).events = true)
    (lead : (f i).leadOk = true) (grow : (f i).events.length ≤ i.events.length + c) (room : poolUsed l + c ≤ 1024) :
    StoreOk (Machine.changeItem k f l) := by
  have hm := findItem_mem hi
  have only : ∀ j ∈ l, j.key = k → j = i := by
    intro j hj e
    have := findItem_of_mem h.keys hj
    rw [e, hi] at this
    exact (Option.some.inj this).symm
  have pick : ∀ j ∈ Machine.changeItem k f l, j = f i ∨ j ∈ l := by
    intro j hj
    obtain ⟨a, ha, rfl⟩ := List.mem_map.1 hj
    split
    · next e => exact .inl (only a ha e ▸ rfl)
    · exact .inr ha
  have hkeys : (Machine.changeItem k f l).map Item.key = l.map Item.key := by
    simp only [Machine.changeItem, List.map_map]
    apply List.map_congr_left
    intro a ha
    simp only [Function.comp]
    split
    · next e => rw [only a ha e, key, hm.2]
    · rfl
  have hpool : ∀ m : List Item, (m.map Item.key).Nodup → (∀ j ∈ m, j.key = k → j = i) →
      poolUsed (Machine.changeItem k f m) ≤ poolUsed m + c := by
    intro m
    induction m with
    | nil => intro _ _; simp [poolUsed, Machine.changeItem]
    | cons a m ih =>
      intro nd on
      simp only [List.map_cons, List.nodup_cons] at nd
      have on' : ∀ j ∈ m, j.key = k → j = i := fun j hj => on j (List.mem_cons_of_mem _ hj)
      by_cases e : a.key = k
      · have rest : Machine.changeItem k f m = m := by
          simp only [Machine.changeItem]
          refine (List.map_congr_left fun j hj => ?_).trans (List.map_id _)
          have : j.key ≠ k := fun e' => nd.1 (by rw [e, ← e']; exact List.mem_map_of_mem hj)
          simp [this]
        have ea := on a List.mem_cons_self e
        have : Machine.changeItem k f (a :: m) = f i :: m := by
          subst ea
          simp only [Machine.changeItem, List.map_cons, if_pos e] at rest ⊢
          rw [rest]
        rw [this]
        simp only [poolUsed, List.map_cons, List.sum_cons, ea]
        omega
      · have : Machine.changeItem k f (a :: m) = a :: Machine.changeItem k f m := by
          simp [Machine.changeItem, e]
        rw [this]
        have := ih nd.2 on'
        simp only [poolUsed, List.map_cons, List.sum_cons] at this ⊢
        omega
  exact
    { size := by simpa [Machine.changeItem] using h.size
      keys := hkeys ▸ h.keys
      range := fun j hj => by
        rcases pick j hj with e | e
        · rw [e, key, ← hm.2]; exact h.range i hm.1
        · exact h.range j e
      lists := fun j hj => by
        rcases pick j hj with e | e
        · exact e ▸ ⟨size, asc⟩
        · exact h.lists j e
      leads := fun j hj => by
        rcases pick j hj with e | e
        · exact e ▸ lead
        · exact h.leads j e
      pool := le_trans (hpool l h.keys only) room }

/-! ## The eight changes -/

theorem validKey_range {k : Half} (h : validKey k = true) : 1 ≤ k.toNat ∧ k.toNat ≤ 65534 := by
  have hl := k.isLt
  simp only [validKey, Bool.and_eq_true, bne_iff_ne, ne_eq] at h
  have h0 : k.toNat ≠ 0 := fun e => h.1 (BitVec.eq_of_toNat_eq e)
  have h1 : k.toNat ≠ 65535 := fun e => h.2 (BitVec.eq_of_toNat_eq e)
  omega

theorem StoreOk.insert {d : Nat} {b : InsertBody} {l m : List Item} (h : StoreOk l) (e : applyInsert d b l = .ok m) :
    StoreOk m := by
  simp only [applyInsert] at e
  split_ifs at e with h1 h2 h3 h4
  cases e
  refine (h.cons (i := newItem b) ?_ ?_ ?_ rfl rfl).perm (placeItem_perm _ _ _)
  · have : Config.tableSize = 256 := rfl
    omega
  · show findItem l b.key.toNat = none
    simpa using h4
  · have : validKey b.key = true := by
      simp only [insertFieldsOk, Bool.not_eq_true, Bool.not_eq_false', Bool.and_eq_true] at h1
      tauto
    exact validKey_range this

theorem Item.leadOk_of_event {i : Item} {n : Fin 16} {e : Event} (hl : i.lead = some n) (he : i.event n = some e)
    (ha : e.action = .showFrame) : i.leadOk = true := by
  simp [Item.leadOk, hl, he, ha]

theorem StoreOk.modify {d : Nat} {b : ModifyBody} {l m : List Item} (h : StoreOk l) (e : applyModify d b l = .ok m) :
    StoreOk m := by
  simp only [applyModify] at e
  split at e
  · cases e
  · split at e
    · cases e
    · next i hi =>
      have hm := findItem_mem hi
      have old := h.leads i hm.1
      have done : ∀ (_ : (modifiedItem b i).leadOk = true), StoreOk (Machine.changeItem b.key.toNat (modifiedItem b) l) :=
        fun lead => h.changeItem (c := 0) hi hm.2 (h.lists i hm.1).1 (h.lists i hm.1).2 lead (Nat.le_refl _) h.pool
      split at e
      · next hl =>
        split at e
        · cases e
        · next ev hev =>
          split at e
          · cases e
          · next hc =>
            cases e
            refine done (Item.leadOk_of_event (n := (eventNumberOf b.lead).getD 0) (e := ev) ?_ hev ?_)
            · simp [modifiedItem, optField, hl]
            · cases hact : ev.action with
              | showFrame => rfl
              | clearFrame => exact absurd hact hc
      · next hl =>
        cases e
        refine done ?_
        have ev : ∀ n, (modifiedItem b i).event n = i.event n := fun _ => rfl
        by_cases h2 : b.indLead = 2
        · simp [Item.leadOk, modifiedItem, optField, h2]
        · have : (modifiedItem b i).lead = i.lead := by
            show (if b.indLead = 1 then _ else if b.indLead = 2 then _ else i.lead) = i.lead
            rw [if_neg hl, if_neg h2]
          simp only [Item.leadOk, this, ev] at old ⊢
          exact old

theorem StoreOk.move {key after : Half} {l m : List Item} (h : StoreOk l) (e : applyMove key after l = .ok m) : StoreOk m := by
  simp only [applyMove] at e
  split at e
  · cases e
  · split at e
    · cases e
    · next i hi =>
      split_ifs at e
      · cases e; exact h
      · cases e
        refine StoreOk.of_shapes (shapes_changeItem key.toNat (f := Item.bump) (fun _ => rfl) _) ?_
        exact h.perm ((placeItem_perm _ _ _).trans (removeItem_perm h.keys hi).symm)

theorem StoreOk.mark {key : Half} {mask sel : Byte} {l m : List Item} (h : StoreOk l)
    (e : applyMark key mask sel l = .ok m) : StoreOk m := by
  simp only [applyMark] at e
  split at e
  · cases e
  · split at e
    · cases e
    · split_ifs at e
      cases e
      exact h.of_shapes (shapes_changeItem key.toNat (f := markedItem mask (sel == 1)) (fun _ => rfl) _)

theorem StoreOk.addEvent {b : AddEventBody} {l m : List Item} (h : StoreOk l) (e : applyAddEvent b l = .ok m) : StoreOk m := by
  simp only [applyAddEvent] at e
  split at e
  · cases e
  · split at e
    · cases e
    · next i hi =>
      split_ifs at e with h1 h2 h3
      cases e
      have hm := findItem_mem hi
      have fresh := Item.event_fresh (i := i) (n := (newEvent b).num) (by simpa using h3)
      have ls : Config.listSize = 16 := rfl
      have ps : Config.poolSize = 1024 := rfl
      refine h.changeItem (c := 1) hi hm.2 ?_ (insertEvent_ascending (h.lists i hm.1).2 fresh) ?_ ?_ ?_
      · show (insertEvent (newEvent b) i.events).length ≤ 16
        rw [insertEvent_length]; omega
      · have old := h.leads i hm.1
        simp only [Item.leadOk] at old ⊢
        cases hl : i.lead with
        | none => rfl
        | some n =>
          simp only [hl] at old ⊢
          have hne : (newEvent b).num ≠ n := by
            intro e'
            cases hv : i.event n with
            | none => simp [hv] at old
            | some v => rw [e', hv] at h3; simp at h3
          have : ({ i with events := insertEvent (newEvent b) i.events } : Item).event n = i.event n := insertEvent_find hne
          rw [hl] at this
          rw [this]; exact old
      · show (insertEvent (newEvent b) i.events).length ≤ _
        rw [insertEvent_length]
      · simp only [freeCount] at h2; omega

theorem find_onEvent (f : Event → Event) (hf : ∀ e, (f e).num = e.num) (n j : Fin 16) (es : List Event) :
    (es.map fun e => if e.num = n then f e else e).find? (fun e => e.num == j)
      = (es.find? fun e => e.num == j).map fun e => if e.num = n then f e else e := by
  induction es with
  | nil => rfl
  | cons a es ih =>
    have : (if a.num = n then f a else a).num = a.num := by split <;> simp [hf]
    simp only [List.map_cons, List.find?_cons, this]
    split
    · rfl
    · exact ih

theorem nums_onEvent (f : Event → Event) (hf : ∀ e, (f e).num = e.num) (n : Fin 16) (es : List Event) :
    (es.map fun e => if e.num = n then f e else e).map Event.num = es.map Event.num := by
  rw [List.map_map]
  apply List.map_congr_left
  intro a _
  simp only [Function.comp]
  split <;> simp [hf]

theorem StoreOk.modifyEvent {b : ModifyEventBody} {l m : List Item} (h : StoreOk l) (e : applyModifyEvent b l = .ok m) :
    StoreOk m := by
  simp only [applyModifyEvent] at e
  split at e
  · cases e
  · split at e
    · cases e
    · next i hi =>
      split at e
      · cases e
      · next ev hev =>
        split at e
        · cases e
        · next hlead =>
          cases e
          have hm := findItem_mem hi
          have hf : ∀ e, (modifiedEvent b e).num = e.num := fun _ => rfl
          refine h.changeItem (c := 0) hi hm.2 ?_ ?_ ?_ ?_ h.pool
          · simpa [Item.onEvent] using (h.lists i hm.1).1
          · show ascending (i.events.map _) = true
            rw [ascending_congr (nums_onEvent _ hf _ _)]; exact (h.lists i hm.1).2
          · have old := h.leads i hm.1
            have hl' : (Item.onEvent ((eventNumberOf b.number).getD 0) (modifiedEvent b) i).lead = i.lead := rfl
            simp only [Item.leadOk, hl', Item.event] at old ⊢
            cases hl : i.lead with
            | none => rfl
            | some n =>
              simp only [hl] at old ⊢
              rw [show (Item.onEvent ((eventNumberOf b.number).getD 0) (modifiedEvent b) i).events
                = i.events.map fun e => if e.num = (eventNumberOf b.number).getD 0 then modifiedEvent b e else e from rfl,
                find_onEvent _ hf]
              cases hv : i.events.find? fun e => e.num == n with
              | none => simp [hv] at old
              | some v =>
                simp only [hv, beq_iff_eq] at old
                simp only [Option.map_some]
                have hvn : v.num = n := by simpa using List.find?_some hv
                split
                · next hn =>
                  simp only [modifiedEvent, old]
                  split
                  · next hb =>
                    have : eventActionOf b.action ≠ some .clearFrame := fun hc =>
                      hlead ⟨by rw [hl, ← hn, hvn], hb, hc⟩
                    cases ha : eventActionOf b.action with
                    | none => rfl
                    | some a => cases a with
                      | showFrame => rfl
                      | clearFrame => exact absurd ha this
                  · rfl
                · simp [old]
          · simp [Item.onEvent]

theorem StoreOk.removeEvent {owner : Half} {num : Byte} {l m : List Item} (h : StoreOk l)
    (e : applyRemoveEvent owner num l = .ok m) : StoreOk m := by
  simp only [applyRemoveEvent] at e
  split at e
  · cases e
  · split at e
    · cases e
    · next n hn =>
      split at e
      · cases e
      · next i hi =>
        split at e
        · cases e
        · cases e
          have hm := findItem_mem hi
          refine h.changeItem (c := 0) hi hm.2 ?_ ?_ ?_ ?_ h.pool
          · exact le_trans (List.length_filter_le _ _) (h.lists i hm.1).1
          · have := (ascending_iff _).1 (h.lists i hm.1).2
            exact (ascending_iff _).2 (this.filter _)
          · have old := h.leads i hm.1
            simp only [Item.leadOk, Item.withoutEvent, Item.event] at old ⊢
            by_cases hl : i.lead = some n
            · simp [hl]
            · simp only [hl, if_false]
              cases hj : i.lead with
              | none => rfl
              | some j =>
                simp only [hj] at old ⊢
                have hjn : j ≠ n := fun e' => hl (by rw [hj, e'])
                have : (i.events.filter fun e => e.num != n).find? (fun e => e.num == j) = i.events.find? fun e => e.num == j := by
                  rw [List.find?_filter]
                  congr 1
                  funext e
                  by_cases he : e.num = j
                  · simp [he, hjn]
                  · simp [he]
                rw [this]; exact old
          · exact List.length_filter_le _ _

theorem StoreOk.retire {key : Half} {l m : List Item} (h : StoreOk l) (e : applyRetire key l = .ok m) : StoreOk m := by
  simp only [applyRetire] at e
  split at e
  · cases e
  · split at e
    · cases e
    · split_ifs at e
      cases e
      exact h.sublist List.filter_sublist

/-- Every store change keeps the store's bounds (R9). -/
theorem StoreOk.change {d : Nat} {c : StoreChange} {l m : List Item} (h : StoreOk l) (e : applyChange d c l = .ok m) :
    StoreOk m := by
  have key : ∀ a, testChange d l c = .ok a → StoreOk a := by
    intro a ha
    cases c with
    | insertItem b => exact h.insert ha
    | modifyItem b => exact h.modify ha
    | moveItem k a => exact h.move ha
    | markItem k m s => exact h.mark ha
    | addEvent b => exact h.addEvent ha
    | modifyEvent b => exact h.modifyEvent ha
    | removeEvent o n => exact h.removeEvent ha
    | retireItem k => exact h.retire ha
  simp only [applyChange] at e
  split at e
  · cases e
  · next a ha =>
    cases e
    have ok := key a ha
    cases c <;> first | exact ok | exact ok.of_shapes (bumpAltered_shapes _ _)

/-! ## Field ranges -/

theorem RecordsOk.perm {l m : List Item} (p : l.Perm m) (h : RecordsOk m) : RecordsOk l := fun i hi => h i (p.mem_iff.1 hi)

theorem durationOf_le (t : Tri) : durationOf t ≤ 1048575 := Nat.min_le_right _ _

theorem slugOf_length (bs : List Byte) : (slugOf bs).length ≤ 16 := by
  simp only [slugOf, List.length_map, List.length_take]; omega

theorem slugOf_chars (bs : List Byte) : ∀ c ∈ slugOf bs, 0x20 ≤ c.toNat ∧ c.toNat ≤ 0x7E := by
  intro c hc
  simp only [slugOf, List.mem_map] at hc
  obtain ⟨a, -, e⟩ := hc
  subst e
  split
  · assumption
  · decide

theorem RecordOk.new (b : InsertBody) : RecordOk (newItem b) := by
  refine ⟨slugOf_length _, slugOf_chars _, durationOf_le _, fun n hn => ?_, Nat.zero_le _, fun _ _ _ e => by cases e⟩
  simp only [newItem] at hn
  split at hn
  · cases hn; exact durationOf_le _
  · cases hn

theorem RecordOk.modified {i : Item} (h : RecordOk i) (b : ModifyBody) : RecordOk (modifiedItem b i) := by
  have slug : (modifiedItem b i).slug = slugOf b.slug ∨ (modifiedItem b i).slug = i.slug := by
    simp only [modifiedItem, setField]; split <;> simp
  have p : (modifiedItem b i).p = durationOf b.p ∨ (modifiedItem b i).p = i.p := by
    simp only [modifiedItem, setField]; split <;> simp
  refine ⟨?_, ?_, ?_, fun n hn => ?_, h.airCount, h.actual⟩
  · rcases slug with e | e <;> rw [e]
    · exact slugOf_length _
    · exact h.slug
  · rcases slug with e | e <;> rw [e]
    · exact slugOf_chars _
    · exact h.chars
  · rcases p with e | e <;> rw [e]
    · exact durationOf_le _
    · exact h.p
  · simp only [modifiedItem, optField] at hn
    split_ifs at hn
    · cases hn; exact durationOf_le _
    · exact h.l n hn

theorem RecordsOk.bumped {a b : List Item} (h : RecordsOk b) : RecordsOk (bumpAltered a b) := by
  intro i hi
  simp only [bumpAltered, List.mem_map] at hi
  obtain ⟨j, hj, rfl⟩ := hi
  have := h j hj
  split
  · exact this
  · split
    · exact this
    · exact RecordOk.of_core (i := j) (j := j.bump) rfl this

/-- Every store change keeps the items' field ranges (R1 to R3). -/
theorem RecordsOk.change {d : Nat} {c : StoreChange} {l m : List Item} (h : RecordsOk l) (e : applyChange d c l = .ok m) :
    RecordsOk m := by
  have place : ∀ {f : Item → Item} (k : Nat), (∀ i, RecordOk i → RecordOk (f i)) → RecordsOk (Machine.changeItem k f l) :=
    fun k hf => h.changeItem k hf
  have key : ∀ a, testChange d l c = .ok a → RecordsOk a := by
    intro a ha
    cases c with
    | insertItem b =>
      simp only [testChange, applyInsert] at ha
      split_ifs at ha
      cases ha
      refine RecordsOk.perm (placeItem_perm _ _ _) fun i hi => ?_
      rcases List.mem_cons.1 hi with e | e
      · exact e ▸ RecordOk.new b
      · exact h i e
    | modifyItem b =>
      simp only [testChange, applyModify] at ha
      have done := place (f := modifiedItem b) b.key.toNat fun _ ok => ok.modified b
      split at ha
      · cases ha
      · split at ha
        · cases ha
        · split at ha
          · split at ha
            · cases ha
            · split at ha
              · cases ha
              · cases ha; exact done
          · cases ha; exact done
    | moveItem k af =>
      simp only [testChange, applyMove] at ha
      split at ha
      · cases ha
      · split at ha
        · cases ha
        · next i hi =>
          split_ifs at ha
          · cases ha; exact h
          · cases ha
            refine RecordsOk.changeItem (f := Item.bump) _ (fun i ok => RecordOk.of_core (i := i) (j := i.bump) rfl ok) (RecordsOk.perm (placeItem_perm _ _ _) ?_)
            intro j hj
            rcases List.mem_cons.1 hj with e | e
            · exact e ▸ h i (findItem_mem hi).1
            · exact h j (List.filter_sublist.subset e)
    | markItem k mk sel =>
      simp only [testChange, applyMark] at ha
      split at ha
      · cases ha
      · split at ha
        · cases ha
        · split_ifs at ha
          cases ha
          exact place _ fun _ ok => ⟨ok.slug, ok.chars, ok.p, ok.l, ok.airCount, ok.actual⟩
    | addEvent b =>
      simp only [testChange, applyAddEvent] at ha
      split at ha
      · cases ha
      · split at ha
        · cases ha
        · split_ifs at ha
          cases ha
          exact place _ fun _ ok => ⟨ok.slug, ok.chars, ok.p, ok.l, ok.airCount, ok.actual⟩
    | modifyEvent b =>
      simp only [testChange, applyModifyEvent] at ha
      split at ha
      · cases ha
      · split at ha
        · cases ha
        · split at ha
          · cases ha
          · split at ha
            · cases ha
            · cases ha; exact place _ fun _ ok => ⟨ok.slug, ok.chars, ok.p, ok.l, ok.airCount, ok.actual⟩
    | removeEvent o n =>
      simp only [testChange, applyRemoveEvent] at ha
      split at ha
      · cases ha
      · split at ha
        · cases ha
        · split at ha
          · cases ha
          · split at ha
            · cases ha
            · cases ha; exact place _ fun _ ok => ⟨ok.slug, ok.chars, ok.p, ok.l, ok.airCount, ok.actual⟩
    | retireItem k =>
      simp only [testChange, applyRetire] at ha
      split at ha
      · cases ha
      · split at ha
        · cases ha
        · split_ifs at ha
          cases ha
          exact fun i hi => h i (List.filter_sublist.subset hi)
  simp only [applyChange] at e
  split at e
  · cases e
  · next a ha =>
    cases e
    have ok := key a ha
    cases c <;> first | exact ok | exact ok.bumped

theorem RecordsOk.recycle {a : Bool} {keys : List Half} {l : List Item} (h : RecordsOk l) : RecordsOk (recycleItems a keys l) := by
  refine RecordsOk.bumped fun i hi => ?_
  obtain ⟨j, hj, rfl⟩ := List.mem_map.1 hi
  have ok := h j hj
  split
  · refine ⟨ok.slug, ok.chars, ?_, ok.l, ok.airCount, fun _ _ _ e => by cases e⟩
    simp only [recycledItem]
    split
    · next t x w e =>
      split
      · exact ok.actual t x w e
      · exact ok.p
    · exact ok.p
  · exact ok

/-- RECYCLE keeps the store's bounds. -/
theorem StoreOk.recycle {a : Bool} {keys : List Half} {l : List Item} (h : StoreOk l) : StoreOk (recycleItems a keys l) := by
  refine h.of_shapes ((bumpAltered_shapes _ _).trans ?_)
  rw [List.map_map]
  apply List.map_congr_left
  intro i _
  simp only [Function.comp]
  split
  · simp only [recycledItem, Item.shape, List.map_map]; rfl
  · rfl

/-- The staged view keeps the store's bounds. -/
theorem StoreOk.staged {d : Nat} {l : List Item} (h : StoreOk l) (cs : List StoreChange) : StoreOk (stagedView d l cs) := by
  simp only [stagedView]
  induction cs generalizing l with
  | nil => exact h
  | cons c cs ih =>
    simp only [List.foldl_cons]
    refine ih ?_
    split
    · next e => exact h.change e
    · exact h

end Sys2Proof.Machine
end

