-- ==== Sys2Proof/Laws/StoreCore.lean ====
section
/-! SUPPORT. The store's changes read nothing of the items but their cores, so their outcome is the same before and after the
outlet steps of a removal. -/
namespace Sys2Proof.Machine

theorem map_core_core (es : List Event) : (es.map Event.core).map Event.core = es.map Event.core := by
  rw [List.map_map]; rfl

theorem Item.core_core (i : Item) : i.core.core = i.core := by
  simp only [Item.core, map_core_core]

theorem findItem_core (l : List Item) (k : Nat) : findItem (l.map Item.core) k = (findItem l k).map Item.core := by
  induction l with
  | nil => rfl
  | cons a l ih =>
    simp only [findItem, List.map_cons, List.find?_cons] at ih ⊢
    rw [show (a.core.key == k) = (a.key == k) from rfl]
    split
    · rfl
    · exact ih

theorem Item.event_core (i : Item) (n : Fin 16) : i.core.event n = (i.event n).map Event.core := by
  simp only [Item.event, Item.core, List.find?_map]; rfl

theorem insertAfter_core (k : Nat) (it : Item) (l : List Item) :
    (insertAfter k it l).map Item.core = insertAfter k it.core (l.map Item.core) := by
  induction l with
  | nil => rfl
  | cons a l ih =>
    simp only [insertAfter, List.map_cons, show a.core.key = a.key from rfl]
    split
    · rfl
    · simp only [List.map_cons, ih]

theorem placeItem_core (k : Nat) (it : Item) (l : List Item) :
    (placeItem k it l).map Item.core = placeItem k it.core (l.map Item.core) := by
  simp only [placeItem]
  split
  · rfl
  · exact insertAfter_core _ _ _

theorem removeItem_core (k : Nat) (l : List Item) : (removeItem k l).map Item.core = removeItem k (l.map Item.core) := by
  simp only [removeItem, List.filter_map]; rfl

theorem changeItem_core {f : Item → Item} (hf : ∀ i, (f i.core).core = (f i).core) (k : Nat) (l : List Item) :
    (changeItem k f (l.map Item.core)).map Item.core = (changeItem k f l).map Item.core := by
  simp only [changeItem, List.map_map]
  apply List.map_congr_left
  intro i _
  simp only [Function.comp, show i.core.key = i.key from rfl]
  split
  · exact hf i
  · exact Item.core_core i

theorem poolUsed_core (l : List Item) : poolUsed (l.map Item.core) = poolUsed l := by
  simp [poolUsed, Function.comp_def, Item.core]

theorem bumpAltered_core (a b : List Item) : (bumpAltered a b).map Item.core = b.map Item.core := by
  simp only [bumpAltered, List.map_map]
  apply List.map_congr_left
  intro i _
  simp only [Function.comp]
  split
  · rfl
  · split <;> rfl

theorem map_core_core_items (l : List Item) : (l.map Item.core).map Item.core = l.map Item.core := by
  rw [List.map_map]; exact List.map_congr_left fun i _ => Item.core_core i

/-- The outcome of a change, by the cores of the list it leaves. -/
def coreResult : Except ResultCode (List Item) → Except ResultCode (List Item) := Except.map (List.map Item.core)

@[simp] theorem coreResult_ok (l : List Item) : coreResult (.ok l) = .ok (l.map Item.core) := rfl
@[simp] theorem coreResult_error (c : ResultCode) : coreResult (.error c) = .error c := rfl

theorem coreResult_ite {p : Prop} [Decidable p] (a b : Except ResultCode (List Item)) :
    coreResult (if p then a else b) = if p then coreResult a else coreResult b := by split <;> rfl

theorem Item.modified_core (b : ModifyBody) (i : Item) : (modifiedItem b i.core).core = (modifiedItem b i).core := by
  simp only [modifiedItem, Item.core, map_core_core]

theorem Item.marked_core (m : Byte) (on : Bool) (i : Item) : (markedItem m on i.core).core = (markedItem m on i).core := by
  simp only [markedItem, Item.core, map_core_core]

theorem insertEvent_core (e : Event) (es : List Event) :
    (insertEvent e es).map Event.core = insertEvent e.core (es.map Event.core) := by
  induction es with
  | nil => rfl
  | cons a es ih =>
    simp only [insertEvent, List.map_cons, show e.core.num = e.num from rfl, show a.core.num = a.num from rfl]
    split
    · rfl
    · simp only [List.map_cons, ih]

theorem Item.added_core (e : Event) (i : Item) :
    ({ i.core with events := insertEvent e i.core.events } : Item).core
      = ({ i with events := insertEvent e i.events } : Item).core := by
  simp only [Item.core, insertEvent_core, map_core_core]

theorem Item.onEvent_core (n : Fin 16) (f : Event → Event) (hf : ∀ e, (f e.core).core = (f e).core) (i : Item) :
    (Item.onEvent n f i.core).core = (Item.onEvent n f i).core := by
  have : ((i.events.map Event.core).map fun e => if e.num = n then f e else e).map Event.core
      = (i.events.map fun e => if e.num = n then f e else e).map Event.core := by
    simp only [List.map_map]
    apply List.map_congr_left
    intro e _
    simp only [Function.comp, show e.core.num = e.num from rfl]
    split
    · exact hf e
    · rfl
  simp only [Item.onEvent, Item.core, this]

theorem Item.without_core (n : Fin 16) (i : Item) : (Item.withoutEvent n i.core).core = (Item.withoutEvent n i).core := by
  have : ((i.events.map Event.core).filter fun e => e.num != n).map Event.core
      = (i.events.filter fun e => e.num != n).map Event.core := by
    rw [List.filter_map, List.map_map]; rfl
  simp only [Item.withoutEvent, Item.core, this]
  rfl

/-- A change's tests and its result read the items by their cores alone. -/
theorem testChange_core (d : Nat) (c : StoreChange) (l : List Item) :
    coreResult (testChange d (l.map Item.core) c) = coreResult (testChange d l c) := by
  cases c with
  | insertItem b =>
    simp only [testChange, applyInsert, findItem_core, List.length_map, Option.isNone_map, Option.isSome_map, coreResult_ite,
      coreResult_ok, placeItem_core, map_core_core_items]
  | modifyItem b =>
    simp only [testChange, applyModify, findItem_core, coreResult_ite]
    cases findItem l b.key.toNat with
    | none => rfl
    | some i =>
      simp only [Option.map_some, Item.event_core]
      cases i.event ((eventNumberOf b.lead).getD 0) with
      | none => simp only [Option.map_none, coreResult_ite, coreResult_ok, changeItem_core (Item.modified_core b)]
      | some e =>
        simp only [Option.map_some, coreResult_ite, coreResult_ok, changeItem_core (Item.modified_core b)]
        rfl
  | moveItem k a =>
    simp only [testChange, applyMove, findItem_core, coreResult_ite]
    cases findItem l k.toNat with
    | none => rfl
    | some i =>
      simp only [Option.map_some, Option.isNone_map, coreResult_ite, show i.core.isOnAir = i.isOnAir from rfl]
      have mv : (placeItem a.toNat i.core (removeItem k.toNat (l.map Item.core))).map Item.core
          = (placeItem a.toNat i (removeItem k.toNat l)).map Item.core := by
        rw [placeItem_core, placeItem_core, Item.core_core, removeItem_core, removeItem_core, map_core_core_items]
      have bump : ∀ m : List Item, (changeItem k.toNat Item.bump m).map Item.core = m.map Item.core := by
        intro m
        simp only [changeItem, List.map_map]
        apply List.map_congr_left
        intro j _
        simp only [Function.comp]
        split <;> rfl
      have both : ∀ (m it : List Item), coreResult (if m = it then .ok it else .ok (changeItem k.toNat Item.bump m))
          = .ok (m.map Item.core) := by
        intro m it
        split
        · next e => rw [e]; rfl
        · rw [coreResult_ok, bump]
      congr 1
      congr 1
      congr 1
      have h1 := both (placeItem a.toNat i.core (removeItem k.toNat (l.map Item.core))) (l.map Item.core)
      have h2 := both (placeItem a.toNat i (removeItem k.toNat l)) l
      simp only [coreResult_ite] at h1 h2
      rw [h1, h2, mv]
  | markItem k m s =>
    simp only [testChange, applyMark, findItem_core, coreResult_ite]
    cases findItem l k.toNat with
    | none => rfl
    | some i =>
      simp only [Option.map_some, coreResult_ite, show i.core.isOnAir = i.isOnAir from rfl, coreResult_ok,
        changeItem_core (Item.marked_core m (s == 1))]
  | addEvent b =>
    simp only [testChange, applyAddEvent, findItem_core, coreResult_ite]
    cases findItem l b.owner.toNat with
    | none => rfl
    | some i =>
      have free : freeCount (l.map Item.core) = freeCount l := by simp only [freeCount, poolUsed_core]
      have len : i.core.events.length = i.events.length := by simp only [Item.core, List.length_map]
      simp only [Option.map_some, coreResult_ite, Item.event_core, Option.isSome_map, free, len, coreResult_ok,
        changeItem_core (f := fun i => { i with events := insertEvent (newEvent b) i.events }) (Item.added_core (newEvent b))]
  | modifyEvent b =>
    simp only [testChange, applyModifyEvent, findItem_core, coreResult_ite]
    cases findItem l b.owner.toNat with
    | none => rfl
    | some i =>
      simp only [Option.map_some, Item.event_core]
      cases i.event ((eventNumberOf b.number).getD 0) with
      | none => rfl
      | some e =>
        simp only [Option.map_some, coreResult_ite, coreResult_ok, show i.core.lead = i.lead from rfl,
          changeItem_core (Item.onEvent_core _ (modifiedEvent b) fun _ => rfl)]
  | removeEvent o n =>
    simp only [testChange, applyRemoveEvent, findItem_core, coreResult_ite]
    cases eventNumberOf n with
    | none => rfl
    | some n =>
      simp only
      cases findItem l o.toNat with
      | none => rfl
      | some i =>
        simp only [Option.map_some, coreResult_ite, Item.event_core, Option.isNone_map, coreResult_ok,
          changeItem_core (Item.without_core n)]
  | retireItem k =>
    simp only [testChange, applyRetire, findItem_core, coreResult_ite]
    cases findItem l k.toNat with
    | none => rfl
    | some i =>
      simp only [Option.map_some, coreResult_ite, show i.core.isOnAir = i.isOnAir from rfl, coreResult_ok, removeItem_core,
        map_core_core_items]

theorem applyChange_core (d : Nat) (c : StoreChange) (l : List Item) :
    coreResult (applyChange d c l) = coreResult (testChange d l c) := by
  simp only [applyChange]
  cases testChange d l c with
  | error e => rfl
  | ok a => cases c <;> simp only [settleRevisions, coreResult_ok, bumpAltered_core]

/-- Two lists of equal cores: the change has the same outcome on both, cores compared. -/
theorem applyChange_of_cores {d : Nat} {c : StoreChange} {l m : List Item} (h : l.map Item.core = m.map Item.core) :
    coreResult (applyChange d c l) = coreResult (applyChange d c m) := by
  rw [applyChange_core, applyChange_core, ← testChange_core, h, testChange_core]

end Sys2Proof.Machine
end

