-- ==== Sys2Proof/Laws/Links.lean ====
section
/-! SUPPORT. What the Outlet Interface's cue operations leave as it was. -/
namespace Sys2Proof.Machine

theorem Outlet.canHold_spec {x : Outlet} (h : x.canHold = true) :
    x.enabled = true ∧ x.resetHold = false ∧ x.ready = true ∧ x.cued = none ∧ x.queue.length < 8
      ∧ (x.kind = .graphics ∨ x.tally = false) := by
  have e : x.canHold = (x.enabled && !x.resetHold && x.ready && x.cued.isNone && decide (x.queue.length < 8)
    && (x.kind == .graphics || !x.tally)) := rfl
  rw [e] at h
  simpa [and_assoc] using h

theorem Outlet.on_of_canHold {x : Outlet} (h : x.canHold = true) : ¬(x.state = .disabled ∨ x.state = .offline) := by
  have := Outlet.canHold_spec h
  rw [Outlet.off_iff]; simp [this]

theorem OutletOk.setCue {x : Outlet} (h : OutletOk x) (on : ¬(x.state = .disabled ∨ x.state = .offline)) (c : CuedRef)
    (hc : c.ref ∉ x.waiting.map Waiting.ref) : OutletOk { x with cued := some c } where
  queue := h.queue
  waiting := h.waiting
  nodup := h.nodup
  sending := h.sending
  held d hd := by
    obtain rfl : c = d := Option.some.inj hd
    exact hc
  off ho := by
    have := (Outlet.off_iff _).1 ho
    exact absurd ((Outlet.off_iff x).2 this) on

theorem State.queueFrame_outlet_waiting (o : Fin 8) (f : Frame) (s : State) :
    ((s.queueFrame o f).outlet o).waiting = (s.outlet o).waiting := by
  simp only [State.queueFrame]
  split
  · show ((s.onOutlet o _).outlet o).waiting = _
    simp
  · simp only [State.outlet_onOutlet_same, Outlet.sendStart]
    split <;> rfl

theorem State.queueFrame_outlet_off (o : Fin 8) (f : Frame) (s : State) :
    ((s.queueFrame o f).outlet o).enabled = (s.outlet o).enabled ∧ ((s.queueFrame o f).outlet o).ready = (s.outlet o).ready
      ∧ ((s.queueFrame o f).outlet o).resetHold = (s.outlet o).resetHold
      ∧ ((s.queueFrame o f).outlet o).cued = (s.outlet o).cued
      ∧ ((s.queueFrame o f).outlet o).playing = (s.outlet o).playing := by
  simp only [State.queueFrame]
  split
  · show ((s.onOutlet o _).outlet o).enabled = _ ∧ ((s.onOutlet o _).outlet o).ready = _
      ∧ ((s.onOutlet o _).outlet o).resetHold = _ ∧ ((s.onOutlet o _).outlet o).cued = _
      ∧ ((s.onOutlet o _).outlet o).playing = _
    simp
  · simp only [State.outlet_onOutlet_same, Outlet.sendStart]
    split <;> simp

theorem State.same_holdCue (o : Fin 8) (w : Waiting) (s : State) (h : (s.outlet o).canHold = true)
    (hw : w.ref ∉ (s.outlet o).waiting.map Waiting.ref) : Same s (s.holdCue o w) := by
  have on := Outlet.on_of_canHold h
  refine ((State.same_queueFrame o _ s fun _ => on).trans (State.same_onOutlet o _ fun ok => ?_)).trans
    (State.same_onEvent w.ref _ fun _ => rfl)
  have q := State.queueFrame_outlet_off o ⟨.cue, ((s.event w.ref).map (·.payload)).getD 0, some w.ref, false⟩ s
  refine (ok o).setCue ?_ _ ?_
  · rw [Outlet.off_iff] at on ⊢
    rw [q.1, q.2.1, q.2.2.1]; exact on
  · rw [State.queueFrame_outlet_waiting]; exact hw

theorem dropWaiting_not_mem (r : EventRef) (ws : List Waiting) : r ∉ (dropWaiting r ws).map Waiting.ref := by
  simp [dropWaiting]

theorem State.same_dropWaiting (o : Fin 8) (r : EventRef) (s : State) :
    Same s (s.onOutlet o fun x => { x with waiting := dropWaiting r x.waiting }) :=
  State.same_onOutlet o s fun ok => (ok o).filterWaiting _

theorem State.same_serveHead (own : Option Nat) (o : Fin 8) (s : State) : Same s (s.serveHead own o) := by
  simp only [State.serveHead]
  split
  · next h =>
    cases hw : waitingHead s.items (s.outlet o).waiting with
    | none => exact .refl s
    | some w =>
      have key : Same s ((s.onOutlet o fun x => { x with waiting := dropWaiting w.ref x.waiting }).holdCue o w) := by
        refine (State.same_dropWaiting o w.ref s).trans (State.same_holdCue o w _ ?_ ?_)
        · simp only [State.outlet_onOutlet_same]; exact h
        · simp only [State.outlet_onOutlet_same]; exact dropWaiting_not_mem _ _
      exact Same.ite key (State.same_firingAction _ _ key)
  · exact .refl s

theorem State.same_serveAll (s : State) : Same s s.serveAll :=
  Same.foldl (fun s o => State.same_serveHead none o s) _ s

theorem OutletOk.list {x : Outlet} (h : OutletOk x) (room : x.waiting.length < 4) (w : Waiting)
    (new : w.ref ∉ x.waiting.map Waiting.ref) (held : ∀ c, x.cued = some c → c.ref ≠ w.ref) :
    OutletOk { x with waiting := x.waiting ++ [w] } where
  queue := h.queue
  waiting := by simp; omega
  nodup := by
    simp only [List.map_append, List.map_cons, List.map_nil]
    exact List.nodup_append.2 ⟨h.nodup, by simp, fun a ha b hb => by
      obtain rfl : b = w.ref := by simpa using hb
      exact fun e => new (e ▸ ha)⟩
  sending := h.sending
  held c hc := by
    simp only [List.map_append, List.mem_append, List.map_cons, List.map_nil, List.mem_singleton, not_or]
    exact ⟨h.held c hc, held c hc⟩
  off := h.off

theorem Outlet.not_lists {x : Outlet} {r : EventRef} (h : x.lists r = false) : r ∉ x.waiting.map Waiting.ref := by
  simp only [Outlet.lists, List.any_eq_false, List.mem_map, not_exists, not_and] at *
  exact fun w hw e => by simpa [e] using h w hw

theorem State.same_cueRequest (own : Option Nat) (r : EventRef) (o : Fin 8) (k : Nat) (s : State) :
    Same s (s.cueRequest own r o k) := by
  simp only [State.cueRequest]
  split
  · exact .refl s
  · next h =>
    simp only [Bool.or_eq_true, not_or, Bool.not_eq_true] at h
    have hl := Outlet.not_lists h.2
    split
    · next hc =>
      simp only [Bool.and_eq_true] at hc
      exact State.same_holdCue o ⟨r, k⟩ s hc.1 hl
    · refine Same.ite' ?_
      intro hroom
      refine (State.same_onOutlet o s fun ok => (ok o).list hroom _ hl fun c hc e => ?_).trans (State.same_serveHead _ _ _)
      have := h.1
      simp [Outlet.holds, hc, e] at this

theorem State.same_uncue (o : Fin 8) (c : CuedRef) (s : State) (h : (s.outlet o).cued = some c) : Same s (s.uncue o c) := by
  refine ((State.same_queueFrame o _ s fun ok off => ?_).trans (State.same_onOutlet o _ fun ok => (ok o).noCue)).trans
    (State.same_onEvent c.ref _ fun _ => rfl)
  have := ((ok o).off off).1
  exact absurd (this.symm.trans h) (by simp)

theorem State.same_withdrawAt (r : EventRef) (s : State) (o : Fin 8) : Same s (s.withdrawAt r o) := by
  simp only [State.withdrawAt]
  refine (State.same_dropWaiting o r s).trans ?_
  split
  · next c hc => exact Same.ite (State.same_uncue o c _ hc) (.refl _)
  · exact .refl _

theorem State.same_withdrawCue (r : EventRef) (s : State) : Same s (s.withdrawCue r) :=
  Same.foldl (State.same_withdrawAt r) _ s

theorem State.same_releaseCue (r : EventRef) (s : State) : Same s (s.releaseCue r) :=
  (State.same_withdrawCue r s).trans (State.same_serveAll _)

theorem State.same_unlistItem (k : Nat) (s : State) : Same s (s.unlistItem k) :=
  State.same_map s fun _ h => h.filterWaiting _

theorem State.same_dropCuesAt (b : Bool) (s : State) (o : Fin 8) : Same s (s.dropCuesAt b o) := by
  simp only [State.dropCuesAt]
  refine (State.same_onOutlet o s fun ok => (ok o).noWaiting).trans ?_
  split
  · exact .refl _
  · next c hc =>
    have hq : Same (s.onOutlet o Outlet.clearWaiting)
        (if b = true then (s.onOutlet o Outlet.clearWaiting).queueFrame o ⟨.uncue, c.payload, some c.ref, false⟩
          else s.onOutlet o Outlet.clearWaiting) :=
      Same.ite (State.same_queueFrame o _ _ fun ok off => by
        have := ((ok o).off off).1.symm.trans hc
        simp at this) (.refl _)
    refine hq.trans ((State.same_onOutlet o _ fun ok => (ok o).noCue).trans ?_)
    exact State.same_firingAction _ _ (State.same_onEvent _ _ fun _ => rfl)

theorem State.same_dropCues (b : Bool) (s : State) : Same s (s.dropCues b) := Same.foldl (State.same_dropCuesAt b) _ s

end Sys2Proof.Machine
end

