-- ==== Sys2Proof/Laws/ShowRecord.lean ====
section
/-! SUPPORT. What the Show Controller's operations between boundaries leave as it was. -/
namespace Sys2Proof.Machine

theorem State.same_requestTake (k : TakeKind) (s : State) : Same s (s.requestTake k) := by
  simp only [State.requestTake]
  exact Same.ite (State.same_onCtl s rfl) (State.same_countCoalesced s)

theorem State.same_noteVector (v : FaultVector) (d : Disposition) (s : State) : Same s (s.noteVector v d) :=
  Same.trans (t := { s with notices :=
      { s.notices with lastVector := some ⟨v, s.house, s.ctl.onAir.getD 0, (s.ctl.vectorKey v).getD 0, d⟩ } })
    ⟨{ Keeps.refl s with
        grows := by simp
        counters := fun h => ⟨h.late, h.skipped, h.missed, h.coalesced, h.ignored⟩ }, rfl⟩ (State.same_raise _ _)

theorem State.same_raiseVector (v : FaultVector) (s : State) : Same s (s.raiseVector v) := by
  simp only [State.raiseVector]
  split
  · exact State.same_noteVector _ _ _
  · refine Same.ite (State.same_noteVector _ _ _) (Same.ite ?_ ?_)
    · exact (State.same_noteVector _ _ _).trans (State.same_countCoalesced _)
    · exact (State.same_noteVector _ _ _).trans (State.same_onCtl _ rfl)

theorem State.same_judgeEnd (s : State) : Same s s.judgeEnd := Same.ite (State.same_requestTake _ _) (.refl s)

theorem State.same_judgeOver (s : State) : Same s s.judgeOver :=
  Same.ite ((State.same_onCtl s rfl).trans (State.same_raise _ _)) (.refl s)

theorem State.same_judgeOverChange (s : State) : Same s s.judgeOverChange :=
  Same.ite (State.same_onCtl s rfl) (State.same_judgeOver s)

theorem State.same_markDegraded (k : Nat) (s : State) : Same s (s.markDegraded k) := by
  simp only [State.markDegraded]
  split
  · exact .refl s
  · exact Same.ite (.refl s) (State.same_onItem (f := fun i => ({ i with degraded := true } : Item).bump) k s (fun _ => rfl)
      fun _ _ => rfl)

theorem State.same_degrade (k : Nat) (s : State) : Same s (s.degrade k) := by
  simp only [State.degrade]
  split
  · exact .refl s
  · exact Same.ite ((State.same_markDegraded k s).trans (State.same_judgeEnd _)) (State.same_markDegraded k s)

theorem State.same_leadLost (s : State) : Same s s.leadLost := by
  simp only [State.leadLost]
  split
  · exact .refl s
  · next k _ =>
    have h := (State.same_onCtl (f := fun c => { c with phase := .lost }) s rfl).trans (State.same_markDegraded k _)
    exact Same.ite h (h.trans (State.same_raiseVector _ _))

theorem State.same_leadReport (r : LeadReport) (s : State) : Same s (s.leadReport r) := by
  simp only [State.leadReport]
  split
  · exact (State.same_onCtl s rfl).trans (State.same_judgeEnd _)
  · exact (State.same_onCtl s rfl).trans (State.same_judgeEnd _)
  · exact (State.same_onCtl s rfl).trans (State.same_judgeEnd _)
  · exact (State.same_leadLost s).trans (State.same_judgeEnd _)
  · exact (State.same_leadLost s).trans (State.same_judgeEnd _)
  · exact (State.same_leadLost s).trans (State.same_judgeEnd _)
  · exact (State.same_leadLost s).trans (State.same_judgeEnd _)
  · exact .refl s

theorem State.same_watchLost (o : Fin 8) (s : State) : Same s (s.watchLost o) := by
  simp only [State.watchLost]
  split
  · exact Same.ite ((State.same_watch s none).trans (State.same_leadReport _ _)) (.refl s)
  · exact .refl s

theorem State.same_requestStandby (r : EventRef) (s : State) : Same s (s.requestStandby r) := by
  simp only [State.requestStandby]
  split
  · exact .refl s
  · exact Same.ite (State.same_firingAction _ _ (State.same_cueRequest _ _ _ _ _)) (.refl s)

theorem State.same_requestStandbys (k : Nat) (s : State) : Same s (s.requestStandbys k) :=
  Same.foldl (fun s r => State.same_requestStandby r s) _ s

theorem State.same_releaseAction (r : EventRef) (s : State) : Same s (s.releaseAction r) :=
  (State.same_firingAction _ _ (State.same_withdrawCue _ _)).trans (State.same_serveAll _)

theorem State.same_releaseStandbys (k : Nat) (s : State) : Same s (s.releaseStandbys k) :=
  (State.same_unlistItem k s).trans (Same.foldl (fun s r => State.same_releaseAction r s) _ _)

/-- Moving NEXT changes the pointer and the pin of the Show Controller alone. -/
theorem State.keeps_moveNext (n : Option Nat) (pin : Bool) (taken : Option Nat) (s : State) :
    Keeps s (s.moveNext n pin taken) ∧ (s.moveNext n pin taken).ctl.core = { s.ctl.core with next := n, pinned := pin } := by
  have h1 : Keeps s (s.onCtl fun c => { c with next := n, pinned := pin }) := { Keeps.refl s with }
  have key : ∀ u, Same (s.onCtl fun c => { c with next := n, pinned := pin }) u →
      Keeps s u ∧ u.ctl.core = { s.ctl.core with next := n, pinned := pin } :=
    fun u h => ⟨h1.trans h.toKeeps, h.ctl⟩
  simp only [State.moveNext]
  split
  · exact key _ (.refl _)
  · have h2 : ∀ u, Same (s.onCtl fun c => { c with next := n, pinned := pin }) u →
        Same (s.onCtl fun c => { c with next := n, pinned := pin })
          (match n with | some k => u.requestStandbys k | none => u) := by
      intro u h
      split
      · exact h.trans (State.same_requestStandbys _ _)
      · exact h
    refine key _ (h2 _ ?_)
    split
    · exact Same.ite (.refl _) (State.same_releaseStandbys _ _)
    · exact .refl _

theorem State.keeps_deriveNext (taken : Option Nat) (s : State) : Keeps s (s.deriveNext taken) :=
  (State.keeps_moveNext _ _ _ s).1

theorem State.ctl_deriveNext (taken : Option Nat) (s : State) :
    (s.deriveNext taken).ctl.core = { s.ctl.core with next := s.derivedNext.1, pinned := s.derivedNext.2 } :=
  (State.keeps_moveNext _ _ _ s).2

/-- Entering CLOSED (R53). -/
theorem State.keeps_enterClosed (s : State) :
    Keeps s s.enterClosed ∧ s.enterClosed.ctl.core = { s.ctl.emptied with state := .closed, onAir := none } := by
  have h1 : Keeps s (s.onCtl fun c => { c.emptied with state := .closed, onAir := none }) := { Keeps.refl s with }
  have h2 := (State.same_dropCues true (s.onCtl fun c => { c.emptied with state := .closed, onAir := none })).trans
    (State.same_raise classShow _)
  exact ⟨h1.trans h2.toKeeps, h2.ctl⟩

end Sys2Proof.Machine
end

