-- ==== Sys2Proof/Laws/Firing.lean ====
section
/-! SUPPORT. What the Firing Unit's operations leave as it was. -/
namespace Sys2Proof.Machine

theorem State.same_setEventState (r : EventRef) (st : EventState) (s : State) : Same s (s.setEventState r st) :=
  State.same_onEvent r s fun _ => rfl

theorem State.same_reportLead (s : State) (r : EventRef) : Same s (s.reportLead r) := by
  simp only [State.reportLead]
  refine Same.ite ?_ (.refl s)
  split
  · exact State.same_leadReport _ _
  · exact .refl s

theorem State.same_skipEvent (r : EventRef) (s : State) : Same s (s.skipEvent r) := by
  simp only [State.skipEvent]
  refine Same.trans ?_ (State.same_releaseCue _ _)
  refine Same.trans ?_ (State.same_countSkipped _)
  refine (State.same_disarm r s).trans ?_
  exact State.same_onEvent r _ fun _ => rfl

theorem State.same_missEvent (r : EventRef) (s : State) : Same s (s.missEvent r) := by
  simp only [State.missEvent]
  refine Same.trans ?_ (State.same_releaseCue _ _)
  refine Same.trans ?_ (State.same_countMissed _)
  refine (State.same_disarm r s).trans ?_
  exact State.same_onEvent r _ fun _ => rfl

theorem State.same_openWatch (o : Fin 8) (r : EventRef) (s : State) : Same s (s.openWatch o r) := State.same_watch _ _

theorem OutletOk.mapQueue {x : Outlet} (h : OutletOk x) (g : Frame → Frame) (hg : g clearFrame = clearFrame) :
    OutletOk { x with queue := x.queue.map g } :=
  h.of_eq (by simpa using h.queue) rfl (by simpa using h.sending) (.inl rfl) fun ho => by
    have := h.off ((Outlet.off_iff x).2 ho)
    refine ⟨this.1, this.2.1, ?_⟩
    rcases this.2.2 with e | e <;> simp [e, hg]

theorem State.same_clearMarks (s : State) : Same s s.clearMarks :=
  State.same_map s fun _ h => h.mapQueue _ rfl

theorem State.clearMarks_state (s : State) (o : Fin 8) : (s.clearMarks.outlet o).state = (s.outlet o).state := by
  simp only [State.clearMarks, State.outlet, Bank.get_map]; rfl

theorem State.same_fireAhead (r : EventRef) (e : Event) (late : Nat) (s : State)
    (on : ¬((s.outlet e.outlet).state = .disabled ∨ (s.outlet e.outlet).state = .offline)) :
    Same s (s.fireAhead r e late) := by
  simp only [State.fireAhead]
  generalize (e.action == EventAction.showFrame && s.isLead r) = lead
  have h1 : Same s (if lead = true then s.clearMarks else s) := Same.ite (State.same_clearMarks s) (.refl s)
  have on1 : ¬(((if lead = true then s.clearMarks else s).outlet e.outlet).state = .disabled
      ∨ ((if lead = true then s.clearMarks else s).outlet e.outlet).state = .offline) := by
    split
    · rw [State.clearMarks_state]; exact on
    · exact on
  have h2 := (h1.trans (State.same_disarm r _)).trans
    (State.same_queueFrame e.outlet (firingFrame r e lead) _ fun _ => on1)
  have h3 := h2.trans (State.same_onEvent (f := fun e => { e with state := .fired, lateness := late }) r _ fun _ => rfl)
  have h4 := h3.trans (State.same_onOutlet (f := fun x =>
    { x with
      fireCount := countUp x.fireCount
      waiting := if e.action = .showFrame then dropWaiting r x.waiting else x.waiting }) e.outlet _ fun ok => by
    by_cases ha : e.action = .showFrame
    · simp only [ha, if_true]
      exact ((ok e.outlet).filterWaiting _).latches rfl rfl rfl rfl rfl rfl rfl rfl
    · simp only [ha, if_false]
      exact (ok e.outlet).latches rfl rfl rfl rfl rfl rfl rfl rfl)
  have h5 := h4.trans (Same.ite (c := 0 < late) (State.same_countLate _) (.refl _))
  exact h5.trans (Same.ite (State.same_openWatch _ _ _) (.refl _))

theorem State.same_fireEvent (r : EventRef) (late : Nat) (s : State) : Same s (s.fireEvent r late) := by
  simp only [State.fireEvent]
  split
  · exact .refl s
  · next e _ =>
    split
    · exact (State.same_skipEvent r s).trans (Same.ite (State.same_degrade _ _) (.refl _))
    · next on =>
      refine Same.ite ?_ (State.same_fireAhead r e late s on)
      exact ((State.same_onOutlet e.outlet s fun ok => (ok e.outlet).overflow).trans (State.same_raise _ _)).trans
        (State.same_missEvent _ _)

theorem State.same_fireLate (r : EventRef) (late : Nat) (s : State) : Same s (s.fireLate r late) :=
  Same.ite (State.same_fireEvent _ _ _) (State.same_skipEvent _ _)

theorem State.same_addEntry (w : WheelEntry) (s : State) : Same s (s.addEntry w) :=
  (State.same_wheel s _).trans (State.same_setEventState _ _ _)

theorem State.same_plan (p : Planned) (s : State) : Same s (s.plan p) :=
  (State.same_planned s _).trans (State.same_setEventState _ _ _)

theorem State.same_placeFire (r : EventRef) (t a : Nat) (s : State) : Same s (s.placeFire r t a) := by
  simp only [State.placeFire]
  split
  · exact State.same_addEntry _ _
  · exact State.same_missEvent _ _

theorem State.same_awaitFiring (r : EventRef) (c : AiringClock) (q : Nat) (s : State) :
    Same s (s.awaitFiring r c q) :=
  Same.ite (State.same_placeFire _ _ _ _) (State.same_plan _ _)

theorem State.same_placeAction (r : EventRef) (k : ActionKind) (c : AiringClock) (a q : Nat) (s : State) :
    Same s (s.placeAction r k c a q) := by
  simp only [State.placeAction]
  split
  · exact State.same_placeFire _ _ _ _
  · split
    · exact State.same_addEntry _ _
    · exact State.same_awaitFiring _ _ _ _

theorem State.same_requestAirCue (own : Nat) (r : EventRef) (q el : Nat) (s : State) :
    Same s (s.requestAirCue own r q el) := by
  simp only [State.requestAirCue]
  split
  · exact .refl s
  · exact Same.ite (State.same_cueRequest _ _ _ _ _) (.refl s)

theorem State.same_armAhead (own : Nat) (r : EventRef) (c : AiringClock) (q : Nat) (s : State) :
    Same s (s.armAhead own r c q) := by
  simp only [State.armAhead]
  split
  · exact .refl s
  · next e _ =>
    have h : Same s (if (nextAction (s.outlet e.outlet).preRoll q c.el e).2 - c.el ≤ 63 then
        s.placeAction r (nextAction (s.outlet e.outlet).preRoll q c.el e).1 c
          (nextAction (s.outlet e.outlet).preRoll q c.el e).2 q
        else s.plan ⟨r, (nextAction (s.outlet e.outlet).preRoll q c.el e).1,
          (nextAction (s.outlet e.outlet).preRoll q c.el e).2⟩) :=
      Same.ite (State.same_placeAction _ _ _ _ _ _) (State.same_plan _ _)
    exact Same.ite (h.trans (State.same_requestAirCue _ _ _ _ _)) h

theorem State.same_arriveEvent (k : Nat) (s : State) (r : EventRef) : Same s (s.arriveEvent k r) := by
  simp only [State.arriveEvent]
  split
  · refine Same.trans ?_ (Same.ite (State.same_fireEvent _ _ _) (State.same_armAhead _ _ _ _ _))
    exact (State.same_disarm r s).trans (State.same_onEvent r _ fun _ => rfl)
  · exact .refl s

theorem State.same_arrival (k : Nat) (s : State) : Same s (s.arrival k) :=
  (State.same_firingAction _ _ (Same.foldl (State.same_arriveEvent k) _ s)).trans (Same.foldl State.same_reportLead _ _)

theorem State.same_armPlan (k : Nat) (s : State) (p : Planned) : Same s (s.armPlan k p) := by
  simp only [State.armPlan]
  split
  · exact ((State.same_disarm _ s).trans (State.same_placeAction _ _ _ _ _ _)).trans (State.same_reportLead _ _)
  · exact .refl s

theorem State.same_boundaryAction {f : State → State} (k : Nat) (s : State) (h : Same s (f s)) :
    Same s (s.boundaryAction k f) := by
  simp only [State.boundaryAction]
  exact Same.ite h (Same.ite h ((h.trans (State.same_counted _ _)).trans (State.same_bump _ _)))

theorem State.same_horizonArm (s : State) : Same s s.horizonArm := by
  simp only [State.horizonArm]
  split
  · exact .refl s
  · exact State.same_boundaryAction _ _ (Same.foldl (State.same_armPlan _) _ s)

theorem State.same_actCue (k : Nat) (r : EventRef) (s : State) : Same s (s.actCue k r) := by
  simp only [State.actCue]
  split
  · exact (Same.ite ((State.same_requestAirCue _ _ _ _ _).trans (State.same_awaitFiring _ _ _ _))
      (State.same_fireLate _ _ _)).trans (State.same_reportLead _ _)
  · exact .refl s

theorem State.same_actEntry (k : Nat) (s : State) (w : WheelEntry) : Same s (s.actEntry k w) := by
  simp only [State.actEntry]
  split
  · exact (State.same_fireEvent _ _ _).trans (State.same_reportLead _ _)
  · exact State.same_actCue _ _ _

theorem State.same_slotFire (s : State) : Same s s.slotFire := by
  simp only [State.slotFire]
  split
  · exact .refl s
  · exact State.same_boundaryAction _ _ ((State.same_wheel s _).trans (Same.foldl (State.same_actEntry _) _ _))

theorem State.same_rearm (k : Nat) (r : EventRef) (s : State) : Same s (s.rearm k r) := by
  simp only [State.rearm]
  split
  · refine Same.trans (Same.trans ?_ (Same.ite (Same.trans
        (State.same_onEvent (f := fun e => { e with lateness := 0 }) r _ fun _ => rfl) (State.same_armAhead _ _ _ _ _))
      (State.same_fireLate _ _ _))) (State.same_reportLead _ _)
    exact (State.same_disarm r s).trans (State.same_onEvent r _ fun _ => rfl)
  · exact .refl s

theorem State.same_rearmModified (k : Nat) (r : EventRef) (s : State) : Same s (s.rearmModified k r) := by
  simp only [State.rearmModified]
  split
  · exact Same.ite (State.same_onEvent r _ fun _ => rfl) (State.same_rearm _ _ _)
  · exact .refl s

theorem State.same_endEntry (s : State) (w : WheelEntry) : Same s (s.endEntry w) := by
  simp only [State.endEntry]
  split
  · exact State.same_fireEvent _ _ _
  · exact .refl s

theorem Item.core_mapEvents {f : Event → Event} (h : ∀ e, (f e).core = e.core) (i : Item) :
    ({ i with events := i.events.map f } : Item).core = i.core := by
  have : (i.events.map f).map Event.core = i.events.map Event.core := by
    rw [List.map_map]; exact List.map_congr_left fun e _ => h e
  simp [Item.core, this]

theorem Event.core_skipAtEnd (e : Event) : (skipAtEnd e).core = e.core := by
  simp only [skipAtEnd]; split <;> rfl

theorem State.same_endEvents (k t : Nat) (s : State) : Same s (s.endEvents k t) := by
  simp only [State.endEvents]
  refine Same.trans ?_ (State.same_onItem k _ fun i =>
    Item.core_mapEvents (f := fun e => { e with due := none }) (fun _ => rfl) i)
  refine Same.trans ?_ (Same.foldl (fun s r => State.same_releaseCue r s) _ _)
  refine Same.trans ?_ (State.same_unlistItem k _)
  have h := (Same.foldl State.same_endEntry
    (actingOrder (s.wheel.filter fun w => w.ref.owner == k && w.fireFrame == t)) s).trans
    (State.same_onItem (f := fun i => { i with events := i.events.map skipAtEnd }) k _ fun i =>
      Item.core_mapEvents Event.core_skipAtEnd i)
  exact h.trans ⟨{ Keeps.refl _ with }, rfl⟩

theorem Outlet.leftShowing_on {x : Outlet} (ok : OutletOk x) {i : Item} (h : x.leftShowing i = true) :
    ¬(x.state = .disabled ∨ x.state = .offline) := by
  intro off
  have := ok.off off
  simp only [Outlet.leftShowing, this.2.1] at h
  rcases this.2.2 with e | e <;> simp [e, clearFrame] at h

theorem State.same_clearAtEndOn (i : Item) (s : State) (o : Fin 8) : Same s (s.clearAtEndOn i o) := by
  simp only [State.clearAtEndOn]
  split
  · next h =>
    have q := State.same_queueFrame o clearFrame s fun ok => Outlet.leftShowing_on (ok o) h
    exact Same.ite (q.trans (State.same_countMissed _)) q
  · exact .refl s

theorem State.same_clearAtEnd (k : Nat) (s : State) : Same s (s.clearAtEnd k) := by
  simp only [State.clearAtEnd]
  split
  · exact .refl s
  · exact Same.foldl (State.same_clearAtEndOn _) _ s

theorem State.same_itemEnd (k t : Nat) (w : Bool) (s : State) : Same s (s.itemEnd k t w) := by
  simp only [State.itemEnd]
  have h := (State.same_firingAction k s (State.same_endEvents k t s)).trans (State.same_watch _ none)
  exact Same.ite h (h.trans (State.same_clearAtEnd _ _))

end Sys2Proof.Machine
end

