-- ==== Sys2Proof/Laws/Takes.lean ====
section
/-! SUPPORT. What a take leaves as it was, and that it keeps the store's bounds and the Show Controller's pointers. -/
namespace Sys2Proof.Machine

/-! ## Leaving and going to air -/

theorem State.still_onItem (k : Nat) (f : Item → Item) (s : State) : Still s (s.onItem k f) := { Still.refl s with }
theorem State.still_onCtl (f : ShowCtl → ShowCtl) (s : State) : Still s (s.onCtl f) := { Still.refl s with }

/-- An item leaves air: its record, the airing fields of the Show Controller, and the Firing Unit's end (R62). -/
theorem State.same_leaveAir (k t : Nat) (why : EndReason) (w : Bool) (s : State) :
    Same ((s.onItem k (Item.ended s.day t why)).onCtl ShowCtl.endAiring) (s.leaveAir k t why w) :=
  State.same_itemEnd _ _ _ _

/-- The Show Controller's state as an item goes to air (R63). -/
def ShowCtl.beginAiring (k : Nat) (hasLead byVector : Bool) (c : ShowCtl) : ShowCtl :=
  { c with
    onAir := some k
    phase := if hasLead then .waiting else .none
    leadEnd := none
    takenByVector := byVector
    underrunRaised := false
    overReached := false }

/-- The item with a key has a lead. -/
def State.leadSet (s : State) (k : Nat) : Bool := match s.item k with | some i => i.lead.isSome | none => false

/-- An item goes to air: its record, the Show Controller's airing fields, and the Firing Unit's arrival (R63). -/
theorem State.same_goToAir (k t : Nat) (v : Bool) (s : State) :
    Same ((s.onItem k (Item.aired t)).onCtl (ShowCtl.beginAiring k (s.leadSet k) v)) (s.goToAir k t v) :=
  State.same_arrival _ _

theorem State.still_leaveAir (k t : Nat) (why : EndReason) (w : Bool) (s : State) : Still s (s.leaveAir k t why w) :=
  ((State.still_onItem _ _ s).trans (State.still_onCtl _ _)).trans (State.same_leaveAir _ _ _ _ _).toStill

theorem State.still_goToAir (k t : Nat) (v : Bool) (s : State) : Still s (s.goToAir k t v) :=
  ((State.still_onItem _ _ s).trans (State.still_onCtl _ _)).trans (State.same_goToAir _ _ _ _).toStill

theorem Item.ended_shape (d t : Nat) (why : EndReason) (i : Item) : (i.ended d t why).shape = i.shape := by
  simp only [Item.ended]; split <;> rfl

theorem Item.aired_shape (t : Nat) (i : Item) : (i.aired t).shape = i.shape := rfl

theorem Item.ended_key (d t : Nat) (why : EndReason) (i : Item) : (i.ended d t why).key = i.key := by
  simp only [Item.ended]; split <;> rfl

theorem Item.ended_off (d t : Nat) (why : EndReason) (i : Item) : (i.ended d t why).isOnAir = false := by
  simp only [Item.ended]
  split
  · rfl
  · next h =>
    simp only [Item.isOnAir]

theorem Item.ended_eligible (d t : Nat) (why : EndReason) (i : Item) : (i.ended d t why).eligible = i.eligible := by
  have off : ∀ a b c, (Airing.done a b c == Airing.pending) = false := fun _ _ _ => rfl
  have on : ∀ a, (Airing.onAir a == Airing.pending) = false := fun _ => rfl
  simp only [Item.ended]
  split
  · next h => simp only [Item.eligible, Item.bump, h, on, off]
  · rfl

theorem State.store_leaveAir {k t : Nat} {why : EndReason} {w : Bool} {s : State} (h : StoreOk s.items) :
    StoreOk (s.leaveAir k t why w).items :=
  StoreOk.of_keeps (State.same_leaveAir k t why w s).toKeeps
    (h.of_shapes (l := changeItem k (Item.ended s.day t why) s.items) (shapes_changeItem k (Item.ended_shape _ _ _) _))

theorem State.store_goToAir {k t : Nat} {v : Bool} {s : State} (h : StoreOk s.items) : StoreOk (s.goToAir k t v).items :=
  StoreOk.of_keeps (State.same_goToAir k t v s).toKeeps
    (h.of_shapes (l := changeItem k (Item.aired t) s.items) (shapes_changeItem k (Item.aired_shape _) _))

theorem RecordOk.ended {i : Item} (h : RecordOk i) (d t : Nat) (why : EndReason) : RecordOk (i.ended d t why) := by
  simp only [Item.ended]
  split
  · refine ⟨h.slug, h.chars, h.p, h.l, h.airCount, fun t' a w e => ?_⟩
    cases e
    exact Nat.min_le_right _ _
  · exact h

theorem satSucc_le {c n : Nat} (h : n ≤ c) : satSucc c n ≤ c := by
  simp only [satSucc]; split <;> omega

theorem RecordOk.aired {i : Item} (h : RecordOk i) (t : Nat) : RecordOk (i.aired t) :=
  ⟨h.slug, h.chars, h.p, h.l, satSucc_le h.airCount, fun _ _ _ e => by cases e⟩

theorem State.records_leaveAir {k t : Nat} {why : EndReason} {w : Bool} {s : State} (h : RecordsOk s.items) :
    RecordsOk (s.leaveAir k t why w).items :=
  RecordsOk.of_keeps (State.same_leaveAir k t why w s).toKeeps
    (h.changeItem k (f := Item.ended s.day t why) fun _ ok => ok.ended _ _ _)

theorem State.records_goToAir {k t : Nat} {v : Bool} {s : State} (h : RecordsOk s.items) : RecordsOk (s.goToAir k t v).items :=
  RecordsOk.of_keeps (State.same_goToAir k t v s).toKeeps (h.changeItem k (f := Item.aired t) fun _ ok => ok.aired _)

/-! ## Nothing on air -/

/-- No item is on air, and no two share a key. -/
structure OffAir (s : State) : Prop where
  keys : (s.items.map Item.key).Nodup
  airing : s.airing = []
  onAir : s.ctl.onAir = none

theorem airing_nil_iff {s : State} : s.airing = [] ↔ ∀ i ∈ s.items, i.isOnAir = false := by
  simp [State.airing]

theorem mem_airing {s : State} {i : Item} (h : i ∈ s.items) (on : i.isOnAir = true) : i.key ∈ s.airing :=
  List.mem_map_of_mem (List.mem_filter.2 ⟨h, on⟩)

theorem keys_changeItem {f : Item → Item} (hf : ∀ i, (f i).key = i.key) (k : Nat) (l : List Item) :
    (changeItem k f l).map Item.key = l.map Item.key := by
  simp only [changeItem, List.map_map]
  apply List.map_congr_left
  intro i _
  simp only [Function.comp]
  split
  · exact hf i
  · rfl

theorem OffAir.of_views {s t : State} (h : t.items.map Item.view = s.items.map Item.view)
    (on : t.ctl.onAir = s.ctl.onAir) (ok : OffAir s) : OffAir t where
  keys := keys_of_views h ▸ ok.keys
  airing := by rw [State.airing_view, h, ← State.airing_view]; exact ok.airing
  onAir := on.trans ok.onAir

/-- The one item on air leaves it. -/
theorem State.offAir_leaveAir {s : State} {i : Item} {t : Nat} {why : EndReason} {w : Bool} (ok : ShowOk s)
    (h : s.onAirItem = some i) : OffAir (s.leaveAir i.key t why w) := by
  have same := State.same_leaveAir i.key t why w s
  refine OffAir.of_views (views_of_cores same.cores) (ctl_of_core same.ctl).2.1 ⟨?_, ?_, rfl⟩
  · show ((changeItem i.key (Item.ended s.day t why) s.items).map Item.key).Nodup
    rw [keys_changeItem (Item.ended_key _ _ _)]; exact ok.keys
  · rw [airing_nil_iff]
    intro j hj
    obtain ⟨a, ha, rfl⟩ := List.mem_map.1 hj
    split
    · exact Item.ended_off _ _ _ _
    · next hk =>
      by_contra hon
      have ha' := mem_airing ha (by simpa using hon)
      rw [ok.one] at ha'
      simp only [State.onAirItem, Option.bind_eq_some_iff] at h
      obtain ⟨k, hc, hi⟩ := h
      rw [hc] at ha'
      simp only [Option.toList_some, List.mem_singleton] at ha'
      exact hk (ha'.trans (findItem_mem hi).2.symm)

theorem State.eligible_of_same {s t : State} (h : Keeps s t) (k : Nat) : t.eligibleKey k = s.eligibleKey k := by
  rw [State.eligible_view, views_of_cores h.cores, ← State.eligible_view]

theorem State.eligible_leaveAir (s : State) (k t j : Nat) (why : EndReason) (w : Bool) :
    (s.leaveAir k t why w).eligibleKey j = s.eligibleKey j := by
  rw [State.eligible_of_same (State.same_leaveAir k t why w s).toKeeps]
  simp only [State.eligibleKey, State.item, State.onCtl_items, State.onItem_items,
    findItem_changeItem (Item.ended_key _ _ _)]
  cases findItem s.items j with
  | none => rfl
  | some i => simp only [Option.map_some]; split <;> simp [Item.ended_eligible]

theorem airing_changeItem {l : List Item} {t k : Nat} (nd : (l.map Item.key).Nodup) (off : ∀ i ∈ l, i.isOnAir = false)
    (hk : k ∈ l.map Item.key) : ((changeItem k (Item.aired t) l).filter Item.isOnAir).map Item.key = [k] := by
  induction l with
  | nil => simp at hk
  | cons a l ih =>
    simp only [List.map_cons, List.nodup_cons] at nd
    have offl : ∀ i ∈ l, i.isOnAir = false := fun i hi => off i (List.mem_cons_of_mem _ hi)
    have ha := off a List.mem_cons_self
    have none_left : k ∉ l.map Item.key → changeItem k (Item.aired t) l = l := by
      intro hn
      simp only [changeItem]
      refine (List.map_congr_left fun i hi => ?_).trans (List.map_id _)
      have : i.key ≠ k := fun e => hn (e ▸ List.mem_map_of_mem hi)
      simp [this]
    simp only [changeItem, List.map_cons] at ih ⊢
    by_cases e : a.key = k
    · have := none_left (e ▸ nd.1)
      simp only [changeItem] at this
      rw [if_pos e, this]
      have on : (a.aired t).isOnAir = true := rfl
      have nil : l.filter Item.isOnAir = [] := by simpa using offl
      simp only [List.filter_cons, on, if_true, nil, List.map_cons, List.map_nil]
      exact congrArg (· :: []) e
    · rw [if_neg e]
      simp only [List.filter_cons, ha]
      have : k ∈ l.map Item.key := by
        simp only [List.map_cons, List.mem_cons] at hk
        exact hk.resolve_left fun h => e h.symm
      exact ih nd.2 offl this

/-- From no item on air, an item of the store goes to air: it is the one that is. -/
theorem State.airing_goToAir {s : State} {k t : Nat} {v : Bool} (ok : OffAir s) (hk : (s.item k).isSome = true) :
    ((s.goToAir k t v).items.map Item.key).Nodup ∧ (s.goToAir k t v).airing = [k] ∧ (s.goToAir k t v).ctl.onAir = some k := by
  have same := State.same_goToAir k t v s
  have vw := views_of_cores same.cores
  refine ⟨?_, ?_, (ctl_of_core same.ctl).2.1⟩
  · rw [keys_of_views vw]
    show ((changeItem k (Item.aired t) s.items).map Item.key).Nodup
    rw [keys_changeItem (f := Item.aired t) fun _ => rfl]; exact ok.keys
  · rw [State.airing_view, vw, ← State.airing_view]
    refine airing_changeItem ok.keys (airing_nil_iff.1 ok.airing) ?_
    by_contra hn
    rw [State.item, findItem_none.2 hn] at hk
    simp at hk

theorem ShowCtl.of_core {c d : ShowCtl} (h : c.core = d) :
    c.state = d.state ∧ c.onAir = d.onAir ∧ c.next = d.next ∧ c.pinned = d.pinned := by
  subst h; exact ⟨rfl, rfl, rfl, rfl⟩

/-! ## NEXT derived after a take -/

/-- Deriving NEXT makes its clause hold, whatever it was. -/
theorem ShowOk.of_derive {s : State} (nd : (s.items.map Item.key).Nodup) (one : s.airing = s.ctl.onAir.toList)
    (live : s.ctl.onAir.isSome = true ↔ s.ctl.state = .live ∨ s.ctl.state = .last) (taken : Option Nat) :
    ShowOk (s.deriveNext taken) := by
  have kp := State.keeps_deriveNext taken s
  have c := State.ctl_deriveNext taken s
  have hst : (s.deriveNext taken).ctl.state = s.ctl.state := (ShowCtl.of_core c).1
  have hon : (s.deriveNext taken).ctl.onAir = s.ctl.onAir := (ShowCtl.of_core c).2.1
  have hnx : (s.deriveNext taken).ctl.next = s.derivedNext.1 := (ShowCtl.of_core c).2.2.1
  have vw := views_of_cores kp.cores
  exact
    { keys := by rw [keys_of_views vw]; exact nd
      one := by rw [State.airing_view, vw, ← State.airing_view, hon]; exact one
      live := by rw [hon, hst]; exact live
      next := fun k hk => by
        rw [hnx] at hk
        rw [hst, State.eligible_of_same kp]
        exact State.derivedNext_ok nd hk }

theorem State.item_of_eligible {s : State} {k : Nat} (h : s.eligibleKey k = true) : (s.item k).isSome = true := by
  simp only [State.eligibleKey] at h
  cases hi : s.item k with
  | none => simp [hi] at h
  | some _ => rfl

/-- NEXT goes to air from no item on air. -/
theorem State.show_ordinaryIn {s : State} {k : Nat} (ok : OffAir s) (hk : (s.item k).isSome = true) : ShowOk (s.ordinaryIn k) := by
  obtain ⟨nd, air, on⟩ := State.airing_goToAir (t := s.house) (v := false) ok hk
  refine ShowOk.of_derive (s := (s.goToAir k s.house false).onCtl fun c =>
    { c with anchor := some k, pinned := false, state := .live }) nd ?_ ?_ _
  · rw [show ∀ f, ((s.goToAir k s.house false).onCtl f).airing = (s.goToAir k s.house false).airing from fun _ => rfl, air]
    simp [State.onCtl, on]
  · simp [State.onCtl, on]

theorem State.still_ordinaryIn (k : Nat) (s : State) : Still s (s.ordinaryIn k) :=
  ((State.still_goToAir _ _ _ s).trans (State.still_onCtl _ _)).trans (State.keeps_deriveNext _ _).toStill

theorem State.records_ordinaryIn {s : State} {k : Nat} (h : RecordsOk s.items) : RecordsOk (s.ordinaryIn k).items :=
  RecordsOk.of_keeps (State.keeps_deriveNext _ _) (show RecordsOk (State.onCtl _ _).items from State.records_goToAir h)

theorem State.store_ordinaryIn {s : State} {k : Nat} (h : StoreOk s.items) : StoreOk (s.ordinaryIn k).items :=
  StoreOk.of_keeps (State.keeps_deriveNext _ _) (show StoreOk (State.onCtl _ _).items from State.store_goToAir h)

theorem State.still_noteTake (r : TakeRecord) (s : State) : Still s (s.noteTake r) := by
  have h : Still s { s with notices := { s.notices with lastTake := r } } :=
    { Still.refl s with counters := fun c => ⟨c.late, c.skipped, c.missed, c.coalesced, c.ignored⟩ }
  exact h.trans (State.same_raise _ _).toStill

theorem ShowOk.noteTake {s : State} (r : TakeRecord) (h : ShowOk s) : ShowOk (s.noteTake r) := ShowOk.of_views (s := s) rfl rfl rfl rfl h

/-! ## The judging -/

/-- Keeps the bounds of the store and of the Show Controller's pointers, and moves nothing outside the take's reach. -/
structure TakeOk (s t : State) : Prop where
  still : Still s t
  store : StoreOk s.items → StoreOk t.items
  records : RecordsOk s.items → RecordsOk t.items
  show_ : ShowOk s → ShowOk t

theorem TakeOk.refl (s : State) : TakeOk s s := ⟨.refl s, id, id, id⟩

theorem TakeOk.trans {s t u : State} (a : TakeOk s t) (b : TakeOk t u) : TakeOk s u :=
  ⟨a.still.trans b.still, b.store ∘ a.store, b.records ∘ a.records, b.show_ ∘ a.show_⟩

theorem Same.takeOk {s t : State} (h : Same s t) : TakeOk s t := ⟨h.toStill, StoreOk.of_keeps h.toKeeps, RecordsOk.of_keeps h.toKeeps, ShowOk.of_same h⟩

theorem State.takeOk_noteTake (r : TakeRecord) (s : State) : TakeOk s (s.noteTake r) :=
  ⟨State.still_noteTake r s, id, id, fun h => h.noteTake r⟩

theorem State.takeOk_testUnderrun (s : State) : TakeOk s s.testUnderrun :=
  Same.takeOk (by
    simp only [State.testUnderrun]
    exact Same.ite (.refl s) ((State.same_onCtl s rfl).trans (State.same_raiseVector _ _)))

/-- Entering CLOSED from no item on air. -/
theorem State.show_enterClosed {s : State} (ok : OffAir s) : ShowOk s.enterClosed := by
  obtain ⟨kp, c⟩ := State.keeps_enterClosed s
  have vw := views_of_cores kp.cores
  have on : s.enterClosed.ctl.onAir = none := (ShowCtl.of_core c).2.1
  have st : s.enterClosed.ctl.state = .closed := (ShowCtl.of_core c).1
  have nx : s.enterClosed.ctl.next = none := (ShowCtl.of_core c).2.2.1
  exact
    { keys := by rw [keys_of_views vw]; exact ok.keys
      one := by rw [State.airing_view, vw, ← State.airing_view, on]; exact ok.airing
      live := by simp [on, st]
      next := fun k hk => by rw [nx] at hk; exact absurd hk (by simp) }

/-- In ARMED no item is on air. -/
theorem ShowOk.offAir {s : State} (ok : ShowOk s) (h : s.ctl.state ≠ .live) (h' : s.ctl.state ≠ .last) : OffAir s := by
  have on : s.ctl.onAir = none := by
    cases hs : s.ctl.onAir with
    | none => rfl
    | some k => exact absurd (ok.live.1 (by simp [hs])) (by simp [h, h'])
  exact ⟨ok.keys, by rw [ok.one, on]; rfl, on⟩

/-- A list of items kept across a change keeps its keys. -/
theorem ShowOk.item_next {s : State} (ok : ShowOk s) {n : Nat} (h : s.ctl.next = some n) : s.eligibleKey n = true :=
  (ok.next n h).2

theorem State.takeOk_judgeOrdinary (kind : TakeKind) (s : State) : TakeOk s (s.judgeOrdinary kind).state := by
  unfold State.judgeOrdinary
  split
  · exact .refl s
  · split
    · next n hs hn =>
      refine TakeOk.trans ?_ (State.takeOk_noteTake _ _)
      refine TakeOk.trans ⟨State.still_ordinaryIn n s, State.store_ordinaryIn, State.records_ordinaryIn, fun ok => ?_⟩ (Same.takeOk (State.same_raise _ _))
      exact State.show_ordinaryIn (ok.offAir (by simp [hs]) (by simp [hs])) (State.item_of_eligible (ok.item_next hn))
    · exact State.takeOk_noteTake _ _
    · next n i hs hn hi =>
      refine TakeOk.trans (t := (s.leaveAir i.key s.house (s.liveReason kind i) false).ordinaryIn n) ?_ (State.takeOk_noteTake _ _)
      refine ⟨(State.still_leaveAir _ _ _ _ s).trans (State.still_ordinaryIn _ _),
        fun h => State.store_ordinaryIn (State.store_leaveAir h), fun h => State.records_ordinaryIn (State.records_leaveAir h),
        fun ok => ?_⟩
      refine State.show_ordinaryIn (State.offAir_leaveAir ok hi) (State.item_of_eligible ?_)
      rw [State.eligible_leaveAir]; exact ok.item_next hn
    · split
      · exact State.takeOk_noteTake _ _
      · exact (State.takeOk_noteTake _ s).trans (State.takeOk_testUnderrun _)
    · next i hs hi =>
      refine TakeOk.trans (t := (s.leaveAir i.key s.house .closed false).enterClosed) ?_ (State.takeOk_noteTake _ _)
      exact ⟨(State.still_leaveAir _ _ _ _ s).trans (State.keeps_enterClosed _).1.toStill,
        fun h => StoreOk.of_keeps (State.keeps_enterClosed _).1 (State.store_leaveAir h),
        fun h => RecordsOk.of_keeps (State.keeps_enterClosed _).1 (State.records_leaveAir h),
        fun ok => State.show_enterClosed (State.offAir_leaveAir ok hi)⟩
    · exact .refl s

theorem State.coverUsable_item {s : State} {k : Nat} (h : s.coverUsable k = true) : (s.item k).isSome = true := by
  simp only [State.coverUsable] at h
  cases hi : s.item k with
  | none => simp [hi] at h
  | some _ => rfl

theorem State.leaveAir_item (s : State) (k t j : Nat) (why : EndReason) (w : Bool) :
    ((s.leaveAir k t why w).item j).isSome = (s.item j).isSome := by
  have h := State.find_core (State.same_leaveAir k t why w s).cores j
  have h2 := congrArg Option.isSome h
  simp only [Option.isSome_map] at h2
  rw [h2]
  simp only [State.item, State.onCtl_items, State.onItem_items, findItem_changeItem (Item.ended_key _ _ _), Option.isSome_map]

theorem State.takeOk_coverTake {s : State} {k : Nat} {i : Item} (hi : s.onAirItem = some i) (hk : s.coverUsable k = true) :
    TakeOk s (s.coverTake k i) := by
  refine TakeOk.trans (t := ((s.leaveAir i.key s.house .covered false).goToAir k s.house true).deriveNext (some k)) ?_
    (State.takeOk_noteTake _ _)
  refine ⟨((State.still_leaveAir _ _ _ _ s).trans (State.still_goToAir _ _ _ _)).trans (State.keeps_deriveNext _ _).toStill,
    fun h => StoreOk.of_keeps (State.keeps_deriveNext _ _) (State.store_goToAir (State.store_leaveAir h)),
    fun h => RecordsOk.of_keeps (State.keeps_deriveNext _ _) (State.records_goToAir (State.records_leaveAir h)), fun ok => ?_⟩
  have off := State.offAir_leaveAir (t := s.house) (why := .covered) (w := false) ok hi
  obtain ⟨nd, air, on⟩ := State.airing_goToAir (k := k) (t := s.house) (v := true) off
    (by rw [State.leaveAir_item]; exact State.coverUsable_item hk)
  refine ShowOk.of_derive nd (by rw [air, on]; rfl) ?_ _
  have st : ((s.leaveAir i.key s.house .covered false).goToAir k s.house true).ctl.state = s.ctl.state :=
    (ctl_of_core (State.same_goToAir _ _ _ _).ctl).1.trans (ctl_of_core (State.same_leaveAir _ _ _ _ s).ctl).1
  rw [on, st]
  have : s.ctl.onAir.isSome = true := by
    simp only [State.onAirItem, Option.bind_eq_some_iff] at hi
    obtain ⟨_, h, _⟩ := hi
    simp [h]
  exact iff_of_true rfl (ok.live.1 this)

/-- The judging of the take-pending record keeps the bounds (R64). -/
theorem State.takeOk_judgeTakes (s : State) : TakeOk s s.judgeTakes.state := by
  have h0 : TakeOk s (s.onCtl fun c => { c with ordinary := none, cover := none }) := Same.takeOk (State.same_onCtl s rfl)
  unfold State.judgeTakes
  simp only
  split
  · next cp i hc hi =>
    split
    · next hu =>
      split
      · exact (h0.trans (Same.takeOk (State.same_countCoalesced _))).trans (State.takeOk_coverTake hi hu)
      · exact h0.trans (State.takeOk_coverTake hi hu)
    · split
      · exact (h0.trans (State.takeOk_noteTake _ _)).trans (State.takeOk_judgeOrdinary _ _)
      · exact h0.trans (State.takeOk_noteTake _ _)
  · split
    · exact h0.trans (State.takeOk_judgeOrdinary _ _)
    · exact h0

end Sys2Proof.Machine
end

