-- ==== Sys2Proof/Laws/Reports.lean ====
section
/-! SUPPORT. What a list of store changes and its change report leave as they were, what they do to the items' cores, and the
bounds they keep. -/
namespace Sys2Proof.Machine

/-! ## The item on air across a change -/

/-- The keys of the items of a list that are on air. -/
def airs (l : List Item) : List Nat := (l.filter Item.isOnAir).map Item.key

theorem airs_perm {l m : List Item} (p : l.Perm m) : (airs l).Perm (airs m) := (p.filter _).map _

theorem airs_cons_off {i : Item} (h : i.isOnAir = false) (l : List Item) : airs (i :: l) = airs l := by
  simp [airs, h]

theorem airs_of_views {l m : List Item} (h : l.map Item.view = m.map Item.view) : airs l = airs m := by
  have key : ∀ l : List Item, airs l = viewAiring (l.map Item.view) := by
    intro l
    simp only [airs, viewAiring, List.filter_map, List.map_map]; rfl
  rw [key, key, h]

theorem bumpAltered_views (before after : List Item) : (bumpAltered before after).map Item.view = after.map Item.view := by
  simp only [bumpAltered, List.map_map]
  apply List.map_congr_left
  intro i _
  simp only [Function.comp]
  split
  · rfl
  · split <;> rfl

/-- An item changed in place with its key and its airing kept. -/
theorem change_in_place {f : Item → Item} (hk : ∀ i, (f i).key = i.key) (ha : ∀ i, (f i).isOnAir = i.isOnAir) (k : Nat)
    (l : List Item) : (changeItem k f l).map Item.key = l.map Item.key ∧ airs (changeItem k f l) = airs l := by
  refine ⟨keys_changeItem hk k l, ?_⟩
  induction l with
  | nil => rfl
  | cons a l ih =>
    simp only [airs, changeItem, List.map_cons, List.filter_cons] at ih ⊢
    have hon : (if a.key = k then f a else a).isOnAir = a.isOnAir := by split <;> simp [ha]
    have hkey : (if a.key = k then f a else a).key = a.key := by split <;> simp [hk]
    rw [hon]
    split
    · simp only [List.map_cons, hkey, ih]
    · exact ih

/-- A store change keeps the keys pairwise different and the items on air (R15, R21, R26). -/
theorem change_air {d : Nat} {c : StoreChange} {l m : List Item} (nd : (l.map Item.key).Nodup)
    (e : applyChange d c l = .ok m) : (m.map Item.key).Nodup ∧ (airs m).Perm (airs l) := by
  have key : ∀ a, testChange d l c = .ok a → (a.map Item.key).Nodup ∧ (airs a).Perm (airs l) := by
    intro a ha
    have place : ∀ {f : Item → Item} {k : Nat}, (∀ i, (f i).key = i.key) → (∀ i, (f i).isOnAir = i.isOnAir) →
        ((changeItem k f l).map Item.key).Nodup ∧ (airs (changeItem k f l)).Perm (airs l) := by
      intro f k hk hon
      have := change_in_place hk hon k l
      exact ⟨this.1 ▸ nd, this.2 ▸ .refl _⟩
    cases c with
    | insertItem b =>
      simp only [testChange, applyInsert] at ha
      split_ifs at ha with h1 h2 h3 h4
      cases ha
      have p := placeItem_perm b.after.toNat (newItem b) l
      refine ⟨((p.map Item.key).nodup_iff).2 (List.nodup_cons.2 ⟨findItem_none.1 ?_, nd⟩), ?_⟩
      · show findItem l b.key.toNat = none
        simpa using h4
      · have := airs_perm p
        rwa [airs_cons_off rfl] at this
    | modifyItem b =>
      simp only [testChange, applyModify] at ha
      have done := place (f := modifiedItem b) (k := b.key.toNat) (fun _ => rfl) fun _ => rfl
      split at ha
      · cases ha
      · split at ha
        · cases ha
        · split at ha
          · split at ha
            · cases ha
            · split at ha
              · cases ha
              · cases ha; exact done
          · cases ha; exact done
    | moveItem k af =>
      simp only [testChange, applyMove] at ha
      split at ha
      · cases ha
      · split at ha
        · cases ha
        · next i hi =>
          split_ifs at ha
          · cases ha; exact ⟨nd, .refl _⟩
          · cases ha
            have p := (placeItem_perm af.toNat i (removeItem k.toNat l)).trans (removeItem_perm nd hi).symm
            have := change_in_place (f := Item.bump) (fun _ => rfl) (fun _ => rfl) k.toNat
              (placeItem af.toNat i (removeItem k.toNat l))
            exact ⟨this.1 ▸ ((p.map Item.key).nodup_iff).2 nd, this.2 ▸ airs_perm p⟩
    | markItem k mk sel =>
      simp only [testChange, applyMark] at ha
      split at ha
      · cases ha
      · split at ha
        · cases ha
        · split_ifs at ha
          cases ha
          exact place (fun _ => rfl) fun _ => rfl
    | addEvent b =>
      simp only [testChange, applyAddEvent] at ha
      split at ha
      · cases ha
      · split at ha
        · cases ha
        · split_ifs at ha
          cases ha
          exact place (fun _ => rfl) fun _ => rfl
    | modifyEvent b =>
      simp only [testChange, applyModifyEvent] at ha
      split at ha
      · cases ha
      · split at ha
        · cases ha
        · split at ha
          · cases ha
          · split at ha
            · cases ha
            · cases ha; exact place (fun _ => rfl) fun _ => rfl
    | removeEvent o n =>
      simp only [testChange, applyRemoveEvent] at ha
      split at ha
      · cases ha
      · split at ha
        · cases ha
        · split at ha
          · cases ha
          · split at ha
            · cases ha
            · cases ha; exact place (fun _ => rfl) fun _ => rfl
    | retireItem k =>
      simp only [testChange, applyRetire] at ha
      split at ha
      · cases ha
      · split at ha
        · cases ha
        · next i hi =>
          split_ifs at ha with hon
          cases ha
          refine ⟨(List.filter_sublist.map Item.key).nodup nd, ?_⟩
          have p := airs_perm (removeItem_perm nd hi)
          rw [airs_cons_off (by simpa using hon)] at p
          exact p.symm
  simp only [applyChange] at e
  split at e
  · cases e
  · next a ha =>
    cases e
    have ok := key a ha
    cases c <;> first
      | exact ok
      | exact ⟨keys_of_views (bumpAltered_views l a) ▸ ok.1, airs_of_views (bumpAltered_views l a) ▸ ok.2⟩

/-! ## The changes applied (R172) -/

theorem State.same_eraseEvent (s : State) (r : EventRef) : Same s (s.eraseEvent r) := by
  simp only [State.eraseEvent]
  refine ((State.same_disarm r s).trans (State.same_withdrawCue r _)).trans ?_
  have h : ∀ (u : State) (w : Option LeadWatch),
      Same u { u with outlets := u.outlets.map (Outlet.forget r), watch := w } := fun u w =>
    (State.same_map (f := Outlet.forget r) u fun x ok => ?_).trans (State.same_watch _ w)
  · exact h _ _
  · have hq : (Outlet.forget r x).queue = x.queue.map fun f => if f.event = some r then { f with event := none } else f := rfl
    refine ok.of_eq (by rw [hq, List.length_map]; exact ok.queue) rfl ?_ (.inl rfl) fun ho => ?_
    · rw [hq]; simpa [Outlet.forget] using ok.sending
    · have := ok.off ((Outlet.off_iff x).2 ho)
      refine ⟨this.1, ?_, ?_⟩
      · simp [Outlet.forget, this.2.1]
      · rw [hq]
        rcases this.2.2 with e | e <;> simp [e, clearFrame]

/-- What a list of changes does to the live store, but for its change report. -/
structure Applied (s : State) (a : Applying) : Prop where
  still : Still { s with cursor := a.state.cursor } a.state
  take : a.state.notices.lastTake = s.notices.lastTake
  ctl : a.state.ctl.core = s.ctl.core
  store : StoreOk s.items → StoreOk a.state.items
  records : RecordsOk s.items → RecordsOk a.state.items
  air : (s.items.map Item.key).Nodup → (a.state.items.map Item.key).Nodup ∧ (airs a.state.items).Perm (airs s.items)

theorem Applied.refl (s : State) : Applied s ⟨s, [], []⟩ :=
  ⟨Still.refl s, rfl, rfl, id, id, fun h => ⟨h, .refl _⟩⟩

theorem State.still_withItems (l : List Item) (s : State) : Still s (s.withItems l) := { Still.refl s with }

theorem Still.cursor_trans {s t u : State} {c : Cursor} (a : Still s t) (b : Still { t with cursor := c } u) :
    Still { s with cursor := c } u :=
  Still.trans (t := { t with cursor := c }) { a with cursor := rfl } b

theorem Applied.step {s : State} {a : Applying} (h : Applied s a) (c : StoreChange) : Applied s (a.step c) := by
  simp only [Applying.step]
  split
  · exact h
  · next m hm =>
    have er : Same a.state ((removedBy a.state.items c).foldl State.eraseEvent a.state) := Same.foldl State.same_eraseEvent _ _
    generalize (removedBy a.state.items c).foldl State.eraseEvent a.state = s1 at er
    have hd : s1.day = a.state.day := by simp [State.day, er.tb]
    obtain ⟨m', hm', -⟩ : ∃ m', applyChange s1.day c s1.items = .ok m' ∧ m'.map Item.core = m.map Item.core := by
      have e := applyChange_of_cores (d := a.state.day) (c := c) (show s1.items.map Item.core = a.state.items.map Item.core from er.cores)
      rw [hm] at e
      rw [hd]
      cases hx : applyChange a.state.day c s1.items with
      | error _ => rw [hx] at e; simp at e
      | ok m' => rw [hx] at e; exact ⟨m', rfl, by simpa using e⟩
    simp only [hm']
    have base : ∀ (x : List (Nat × Option Nat)) (g : List EventRef), Applied s ⟨s1.withItems m', x, g⟩ := fun x g =>
      { still := by
          have cur : s1.cursor = a.state.cursor := er.cursor
          have := (h.still.trans er.toStill).trans (State.still_withItems m' s1)
          show Still { s with cursor := s1.cursor } _
          rw [cur]; exact this
        take := er.take.trans h.take
        ctl := er.ctl.trans h.ctl
        store := fun ok => (StoreOk.of_keeps er.toKeeps (h.store ok)).change hm'
        records := fun ok => (RecordsOk.of_keeps er.toKeeps (h.records ok)).change hm'
        air := fun nd => by
          have h1 := h.air nd
          have vw := views_of_cores er.cores
          have h2 := change_air (keys_of_views vw ▸ h1.1) hm'
          exact ⟨h2.1, h2.2.trans (airs_of_views vw ▸ h1.2)⟩ }
    split
    · next k =>
      have b := base a.retired []
      exact
        { still := Still.trans (t := { s1.withItems m' with cursor := cursorAfterRetire k.toNat a.state.items s1.cursor })
            { b.still with cursor := rfl } (.refl _)
          take := b.take
          ctl := b.ctl
          store := b.store
          records := b.records
          air := b.air }
    · exact base _ _

theorem Applied.steps {s : State} {a : Applying} (h : Applied s a) (cs : List StoreChange) : Applied s (cs.foldl Applying.step a) := by
  induction cs generalizing a with
  | nil => exact h
  | cons c cs ih => exact ih (h.step c)

/-! ## Where the anchor stands (R59, R173) -/

@[simp] theorem standingAt_nil (k : Option Nat) : standingAt [] k = k := rfl

@[simp] theorem standingAt_none (l : List (Nat × Option Nat)) : standingAt l none = none := by
  induction l with
  | nil => rfl
  | cons x l ih => simpa [standingAt] using ih

@[simp] theorem standingAt_cons (x : Nat × Option Nat) (l : List (Nat × Option Nat)) (k : Option Nat) :
    standingAt (x :: l) k = standingAt l (if k = some x.1 then x.2 else k) := rfl

/-- A key that has not been retired stands (R59). -/
theorem standingAt_stands {l : List (Nat × Option Nat)} {k : Nat} (h : ∀ x ∈ l, x.1 ≠ k) : standingAt l (some k) = some k := by
  induction l with
  | nil => rfl
  | cons x l ih =>
    have hx : some k ≠ some x.1 := fun e => h x (by simp) (by simpa using e.symm)
    rw [standingAt_cons, if_neg hx]
    exact ih fun y hy => h y (List.mem_cons_of_mem _ hy)

@[simp] theorem State.moveAnchor_nil (s : State) : s.moveAnchor [] = s := rfl

/-- The cores of the items after a list of changes are those of the list of changes applied in order. -/
theorem Applying.cores_step {s : State} {a : Applying} {l : List Item} (h : Applied s a)
    (e : a.state.items.map Item.core = l.map Item.core) (c : StoreChange) :
    (a.step c).state.items.map Item.core
      = (match applyChange s.day c l with | .ok l' => l' | .error _ => l).map Item.core := by
  have hd : a.state.day = s.day := by simp [State.day, h.still.tb]
  have eq1 := applyChange_of_cores (d := s.day) (c := c) e
  simp only [Applying.step, hd]
  cases hx : applyChange s.day c a.state.items with
  | error _ =>
    rw [hx] at eq1
    cases hy : applyChange s.day c l with
    | error _ => simp only; exact e
    | ok _ => rw [hy] at eq1; simp at eq1
  | ok m =>
    rw [hx] at eq1
    cases hy : applyChange s.day c l with
    | error _ => rw [hy] at eq1; simp at eq1
    | ok m' =>
      rw [hy] at eq1
      have er : Same a.state ((removedBy a.state.items c).foldl State.eraseEvent a.state) := Same.foldl State.same_eraseEvent _ _
      generalize (removedBy a.state.items c).foldl State.eraseEvent a.state = s1 at er
      have hd1 : s1.day = s.day := by rw [← hd]; simp [State.day, er.tb]
      have e2 := applyChange_of_cores (d := s.day) (c := c) (show s1.items.map Item.core = a.state.items.map Item.core from er.cores)
      rw [hx] at e2
      have fin : (match applyChange s1.day c s1.items with | .ok after => after | .error _ => s1.items).map Item.core
          = m'.map Item.core := by
        rw [hd1]
        cases hz : applyChange s.day c s1.items with
        | error _ => rw [hz] at e2; simp at e2
        | ok z =>
          rw [hz] at e2
          simp only [coreResult_ok, Except.ok.injEq] at e2 eq1
          exact e2.trans eq1
      simp only
      split <;> exact fin

theorem Applying.cores_steps {s : State} {a : Applying} {l : List Item} (h : Applied s a)
    (e : a.state.items.map Item.core = l.map Item.core) (cs : List StoreChange) :
    (cs.foldl Applying.step a).state.items.map Item.core = (stagedView s.day l cs).map Item.core := by
  induction cs generalizing a l with
  | nil => exact e
  | cons c cs ih =>
    simp only [List.foldl_cons, stagedView] at ih ⊢
    exact ih (h.step c) (Applying.cores_step h e c)

/-! ## The change report (R14, R173) -/

/-- The airing part of the pointers' invariant. -/
structure AirOk (s : State) : Prop where
  keys : (s.items.map Item.key).Nodup
  one : s.airing = s.ctl.onAir.toList
  live : s.ctl.onAir.isSome = true ↔ s.ctl.state = .live ∨ s.ctl.state = .last

theorem ShowOk.air {s : State} (h : ShowOk s) : AirOk s := ⟨h.keys, h.one, h.live⟩

/-- What a change report leaves of the Show Controller's state: everything but NEXT, the pin, the anchor and the vectors, the
take-pending record, the lead record and the airing flags. -/
structure CtlKept (c d : ShowCtl) : Prop where
  state : d.state = c.state
  onAir : d.onAir = c.onAir
  byVector : d.takenByVector = c.takenByVector
  showEnd : d.showEnd = c.showEnd
  wrap : d.wrap = c.wrap

theorem CtlKept.refl (c : ShowCtl) : CtlKept c c := ⟨rfl, rfl, rfl, rfl, rfl⟩
theorem CtlKept.trans {a b c : ShowCtl} (h : CtlKept a b) (k : CtlKept b c) : CtlKept a c :=
  ⟨k.state.trans h.state, k.onAir.trans h.onAir, k.byVector.trans h.byVector, k.showEnd.trans h.showEnd, k.wrap.trans h.wrap⟩
theorem CtlKept.of_core {c d : ShowCtl} (h : d.core = c.core) : CtlKept c d :=
  have g : ∀ {α : Type} (f : ShowCtl → α), f d.core = f c.core := fun f => congrArg f h
  ⟨g ShowCtl.state, g ShowCtl.onAir, g ShowCtl.takenByVector, g ShowCtl.showEnd, g ShowCtl.wrap⟩

theorem AirOk.of_keeps {s t : State} (h : Keeps s t) (c : CtlKept s.ctl t.ctl) (ok : AirOk s) : AirOk t where
  keys := by rw [keys_of_views (views_of_cores h.cores)]; exact ok.keys
  one := by rw [State.airing_view, views_of_cores h.cores, ← State.airing_view, c.onAir]; exact ok.one
  live := by rw [c.onAir, c.state]; exact ok.live

theorem State.keeps_onCtl (f : ShowCtl → ShowCtl) (s : State) : Keeps s (s.onCtl f) := { Keeps.refl s with }

theorem State.kept_deriveNext (taken : Option Nat) (s : State) : CtlKept s.ctl (s.deriveNext taken).ctl := by
  have c := State.ctl_deriveNext taken s
  generalize (s.deriveNext taken).ctl = d at c
  have g : ∀ {α : Type} (f : ShowCtl → α), f d.core = f { s.ctl.core with next := s.derivedNext.1, pinned := s.derivedNext.2 } :=
    fun f => congrArg f c
  exact ⟨g ShowCtl.state, g ShowCtl.onAir, g ShowCtl.takenByVector, g ShowCtl.showEnd, g ShowCtl.wrap⟩

theorem State.keeps_resetLead (s : State) : Keeps s s.resetLead ∧ CtlKept s.ctl s.resetLead.ctl := by
  have w : ∀ x, Same s { s with watch := x } := State.same_watch s
  have done : ∀ t, Same s t → Keeps s t ∧ CtlKept s.ctl t.ctl := fun t h => ⟨h.toKeeps, .of_core h.ctl⟩
  refine done _ ?_
  simp only [State.resetLead]
  split
  · exact w _
  · split
    · exact (w none).trans (State.same_onCtl _ rfl)
    · split
      · exact w _
      · split
        · exact ((w none).trans (State.same_onCtl (f := fun c => { c with leadEnd := none }) _ rfl)).trans (State.same_leadLost _)
        · exact ((w none).trans (State.same_onCtl (f := fun c => { c with leadEnd := none }) _ rfl)).trans (State.same_leadLost _)
        · split
          · exact ((w none).trans (State.same_watch _ _)).trans (State.same_onCtl _ rfl)
          · exact (w none).trans (State.same_onCtl _ rfl)
        · exact (w none).trans (State.same_onCtl _ rfl)

theorem State.same_reviewEvent (before : State) (removed : List EventRef) (eff : Bool) (k : Nat) (s : State) (r : EventRef) :
    Same s (State.reviewEvent before removed eff k s r) := by
  simp only [State.reviewEvent]
  split
  · exact State.same_rearm _ _ _
  · exact State.same_rearmModified _ _ _
  · split
    · exact Same.ite (State.same_rearm _ _ _) (.refl s)
    · exact .refl s

theorem State.same_reviewOnAir (before : State) (removed : List EventRef) (s : State) :
    Same s (State.reviewOnAir before removed s) := by
  simp only [State.reviewOnAir]
  split
  · exact .refl s
  · exact State.same_firingAction _ _ (Same.foldl (State.same_reviewEvent before removed _ _) _ s)

theorem State.same_reviewStandby (before : State) (removed : List EventRef) (s : State) (r : EventRef) :
    Same s (State.reviewStandby before removed s r) := by
  simp only [State.reviewStandby]
  split
  · exact Same.ite (Same.ite (State.same_requestStandby _ _) (State.same_releaseAction _ _)) (.refl s)
  · exact .refl s

theorem State.same_reviewNext (before : State) (removed : List EventRef) (s : State) :
    Same s (State.reviewNext before removed s) := by
  simp only [State.reviewNext]
  split
  · exact .refl s
  · exact Same.foldl (State.same_reviewStandby before removed) _ s

theorem State.same_releaseMoved (before s : State) (r : EventRef) : Same s (State.releaseMoved before s r) := by
  simp only [State.releaseMoved]
  split
  · exact .refl s
  · exact (State.same_firingAction _ _ (State.same_withdrawAt _ _ _)).trans (State.same_serveHead _ _ _)

theorem State.same_reviewEnd (before applied s : State) : Same s (State.reviewEnd before applied s) := by
  simp only [State.reviewEnd]
  have h := Same.ite (c := onAirDiffers Item.effective before applied = true) (State.same_judgeOverChange s) (.refl s)
  exact Same.ite (h.trans (State.same_judgeEnd _)) h

/-- A change report moves firing fields, revisions and degraded flags of the items, and NEXT, the pin, the anchor, the vectors and
the records between boundaries of the Show Controller; then the sheet is formed (R14). -/
theorem State.changeReport_spec (before : State) (retired : List (Nat × Option Nat)) (removed : List EventRef) (s : State) :
    ∃ u, Keeps s u ∧ CtlKept s.ctl u.ctl ∧ (AirOk s → ShowOk u) ∧ Shows u (State.changeReport before retired removed s) := by
  simp only [State.changeReport]
  have k1 : Keeps s ((State.dropVectors before s.serveAll).moveAnchor retired)
      ∧ CtlKept s.ctl ((State.dropVectors before s.serveAll).moveAnchor retired).ctl := by
    have a := State.same_serveAll s
    have c : ∀ v : State, Keeps v (v.moveAnchor retired) ∧ CtlKept v.ctl (v.moveAnchor retired).ctl := fun v =>
      ⟨State.keeps_onCtl _ v, ⟨rfl, rfl, rfl, rfl, rfl⟩⟩
    generalize s.serveAll = v at a
    have d : Keeps v (State.dropVectors before v) ∧ CtlKept v.ctl (State.dropVectors before v).ctl :=
      ⟨{ Keeps.refl v with }, ⟨rfl, rfl, rfl, rfl, rfl⟩⟩
    exact ⟨(a.toKeeps.trans d.1).trans (c _).1, ((CtlKept.of_core a.ctl).trans d.2).trans (c _).2⟩
  generalize (State.dropVectors before s.serveAll).moveAnchor retired = s1 at k1
  have k2 : Keeps s (if leadDiffers before s1 = true then s1.resetLead else s1)
      ∧ CtlKept s.ctl (if leadDiffers before s1 = true then s1.resetLead else s1).ctl := by
    split
    · exact ⟨k1.1.trans (State.keeps_resetLead s1).1, k1.2.trans (State.keeps_resetLead s1).2⟩
    · exact k1
  generalize (if leadDiffers before s1 = true then s1.resetLead else s1) = s2 at k2
  have hd := State.kept_deriveNext none s2
  have s4 := Same.foldl (State.same_releaseMoved before)
    ((s2.deriveNext none).allRefs.filter (movedOutlet before removed (s2.deriveNext none))) (s2.deriveNext none)
  have s5 := (((s4.trans (State.same_reviewOnAir before removed _)).trans (State.same_reviewNext before removed _)).trans
    (State.same_reviewEnd before s _))
  refine ⟨_, (k2.1.trans (State.keeps_deriveNext none s2)).trans s5.toKeeps, ?_, fun ok => ?_, State.shows_formSheetNow _⟩
  · exact (k2.2.trans hd).trans (.of_core s5.ctl)
  · have a := ok.of_keeps k2.1 k2.2
    exact ShowOk.of_same s5 (ShowOk.of_derive a.keys a.one a.live none)

end Sys2Proof.Machine
end

