-- ==== Sys2Proof/Laws/Sound.lean ====
section
/-! SUPPORT. One relation for every operation of the part: it keeps each of the blocks' bounds. Each operation of the requests, the
lines and the boundaries is shown to be within it. -/
namespace Sys2Proof.Machine

/-- The step from `s` to `t` keeps each bound of the part. -/
structure Sound (s t : State) : Prop where
  store : StoreOk s.items → StoreOk t.items
  records : RecordsOk s.items → RecordsOk t.items
  outlets : OutletsOk s → OutletsOk t
  panel : PanelOk s → PanelOk t
  tb : TimebaseOk s.tb → TimebaseOk t.tb
  show_ : ShowOk s → ShowOk t
  batch : BatchOk s → BatchOk t
  counters : CountersOk s.notices → CountersOk t.notices
  cue : CueOk s.cue → CueOk t.cue

theorem Sound.refl (s : State) : Sound s s := ⟨id, id, id, id, id, id, id, id, id⟩

theorem Sound.trans {s t u : State} (a : Sound s t) (b : Sound t u) : Sound s u :=
  ⟨b.store ∘ a.store, b.records ∘ a.records, b.outlets ∘ a.outlets, b.panel ∘ a.panel, b.tb ∘ a.tb, b.show_ ∘ a.show_, b.batch ∘ a.batch,
    b.counters ∘ a.counters, b.cue ∘ a.cue⟩

theorem Sound.ite {s a b : State} {c : Prop} [Decidable c] (ha : Sound s a) (hb : Sound s b) : Sound s (if c then a else b) := by
  split
  · exact ha
  · exact hb

theorem Sound.foldl {α : Type} {f : State → α → State} (h : ∀ s a, Sound s (f s a)) (l : List α) (s : State) :
    Sound s (l.foldl f s) := by
  induction l generalizing s with
  | nil => exact .refl s
  | cons a l ih => exact (h s a).trans (ih _)

theorem Still.sound {s t : State} (h : Still s t) (store : StoreOk s.items → StoreOk t.items)
    (records : RecordsOk s.items → RecordsOk t.items) (show_ : ShowOk s → ShowOk t) :
    Sound s t where
  store := store
  records := records
  outlets := h.outlets
  panel ok := fun n => by rw [h.panel]; exact ok n
  tb ok := by rw [h.tb]; exact ok
  show_ := show_
  batch ok := fun l hl => ok l (h.batch ▸ hl)
  counters := h.counters
  cue ok := by rw [h.cue]; exact ok

theorem TakeOk.sound {s t : State} (h : TakeOk s t) : Sound s t := h.still.sound h.store h.records h.show_
theorem Same.sound {s t : State} (h : Same s t) : Sound s t := h.takeOk.sound

theorem Shows.sound {s t : State} (h : Shows s t) : Sound s t := by
  have e := h.rest
  have c := h.cue
  generalize t.cue = q at e c
  generalize t.sheetCount = n at e
  subst e
  exact ⟨id, id, id, id, id, fun k => ShowOk.of_views (s := s) rfl rfl rfl rfl k, id, id, c⟩

/-- A list of store changes with its change report (R14, R172). -/
theorem State.applyChanges_spec (cs : List StoreChange) (s : State) :
    ∃ u, Still { s with cursor := u.cursor } u ∧ u.notices.lastTake = s.notices.lastTake ∧ CtlKept s.ctl u.ctl
      ∧ u.cores = (stagedView s.day s.items cs).map Item.core ∧ (StoreOk s.items → StoreOk u.items)
      ∧ (RecordsOk s.items → RecordsOk u.items) ∧ (ShowOk s → ShowOk u) ∧ Shows u (s.applyChanges cs) := by
  have a := (Applied.refl s).steps cs
  have hc := Applying.cores_steps (Applied.refl s) (l := s.items) rfl cs
  simp only [State.applyChanges]
  generalize cs.foldl Applying.step ⟨s, [], []⟩ = ap at a hc
  obtain ⟨u, k, c, ok, sh⟩ := State.changeReport_spec s ap.retired ap.removed ap.state
  have kept : CtlKept s.ctl ap.state.ctl := .of_core a.ctl
  refine ⟨u, ?_, k.take.trans a.take, kept.trans c, k.cores.trans hc, fun h => StoreOk.of_keeps k (a.store h),
    fun h => RecordsOk.of_keeps k (a.records h), fun h => ok ?_, sh⟩
  · have := a.still.trans k.toStill
    rw [← k.cursor] at this
    exact this
  · have h2 := a.air h.keys
    refine ⟨h2.1, ?_, by rw [kept.onAir, kept.state]; exact h.live⟩
    rw [kept.onAir]
    have p : (ap.state.airing).Perm s.airing := h2.2
    rw [h.one] at p
    cases ho : s.ctl.onAir with
    | none => rw [ho] at p; exact p.eq_nil
    | some x => rw [ho] at p; exact List.perm_singleton.1 p

theorem State.sound_cursor (s : State) (c : Cursor) : Sound s { s with cursor := c } :=
  ⟨id, id, id, id, id, fun k => ShowOk.of_views (s := s) rfl rfl rfl rfl k, id, id, id⟩

theorem State.sound_applyChanges (cs : List StoreChange) (s : State) : Sound s (s.applyChanges cs) := by
  obtain ⟨u, st, -, -, -, store, records, show_, sh⟩ := State.applyChanges_spec cs s
  refine Sound.trans ?_ sh.sound
  exact (State.sound_cursor s u.cursor).trans
    (st.sound (s := { s with cursor := u.cursor }) store records fun k =>
      show_ (ShowOk.of_views (s := { s with cursor := u.cursor }) (t := s) rfl rfl rfl rfl k))

/-! ## The panel -/

theorem State.sound_requestTake (k : TakeKind) (s : State) : Sound s (s.requestTake k) := (State.same_requestTake k s).sound

theorem State.sound_setHeld (k : Nat) (v : Bool) (s : State) : Sound s (s.setHeld k v) := by
  simp only [State.setHeld]
  have h1 : Sound s (s.onItem k fun i => ({ i with held := v } : Item).bump) :=
    (State.still_onItem _ _ s).sound
      (fun h => h.of_shapes (shapes_changeItem k (f := fun i => ({ i with held := v } : Item).bump) (fun _ => rfl) _))
      (fun h => h.changeItem k (f := fun i => ({ i with held := v } : Item).bump) fun _ ok => ⟨ok.slug, ok.chars, ok.p, ok.l, ok.airCount, ok.actual⟩)
      (ShowOk.of_views (by
        show (changeItem k (fun i => ({ i with held := v } : Item).bump) s.items).map Item.view = _
        simp only [changeItem, List.map_map]
        apply List.map_congr_left
        intro i _
        simp only [Function.comp]
        split <;> rfl) rfl rfl rfl)
  exact Sound.ite h1 (h1.trans (State.same_judgeEnd _).sound)

theorem State.sound_toggleHeld (s : State) : Sound s s.toggleHeld := by
  simp only [State.toggleHeld]
  split
  · exact State.sound_setHeld _ _ s
  · exact .refl s

theorem State.sound_panelTake (s : State) : Sound s s.panelTake := by
  simp only [State.panelTake]
  exact Sound.ite (State.takeOk_noteTake _ s).sound (State.sound_requestTake _ s)

theorem State.sound_panelSkip (s : State) : Sound s s.panelSkip := by
  simp only [State.panelSkip]
  split
  · exact Sound.ite ((State.sound_applyChanges _ s).trans (State.same_raise _ _).sound) (.refl s)
  · exact .refl s

theorem State.same_clearGfxOn (s : State) (o : Fin 8) : Same s (s.clearGfxOn o) := by
  simp only [State.clearGfxOn]
  split
  · next h =>
    exact State.same_queueFrame o clearFrame s fun ok off => by
      have := ((ok o).off off).2.1
      rw [this] at h; simp at h
  · exact .refl s

theorem State.sound_panelAction (n : Fin 4) (s : State) : Sound s (s.panelAction n) := by
  simp only [State.panelAction]
  split
  · exact State.sound_panelTake s
  · exact State.sound_toggleHeld s
  · exact State.sound_panelSkip s
  · exact (Same.foldl State.same_clearGfxOn _ s).sound

theorem State.sound_onInput {f : Input → Input} (n : Fin 4) (s : State) (h : PanelOk s → InputOk (f (s.panel.get n))) :
    Sound s (s.onInput n f) :=
  ⟨id, id, id, fun ok m => by
    show InputOk ((s.panel.modify n f).get m)
    rw [Bank.get_modify]
    split
    · next e => subst e; exact h ok
    · exact ok m, id, fun k => ShowOk.of_views (s := s) rfl rfl rfl rfl k, id, id, id⟩

theorem State.sound_countIgnored (s : State) : Sound s s.countIgnored :=
  ⟨id, id, id, id, id, fun k => ShowOk.of_views (s := s) rfl rfl rfl rfl k, id, fun h => { h with ignored := countUp_le h.ignored }, id⟩

theorem State.sound_settlePress (n : Fin 4) (s : State) : Sound s (s.settlePress n) := by
  simp only [State.settlePress]
  split
  · exact State.sound_panelAction n s
  · exact State.sound_countIgnored s
  · next hm =>
    split
    · exact State.sound_countIgnored s
    · refine (State.sound_onInput n s fun ok => ?_).trans (State.same_raise _ _).sound
      have h := ok n
      refine ⟨fun _ => hm, fun t ht => ?_, h.quiet, ?_⟩
      · simp only [Option.some.injEq] at ht
        subst ht
        exact ⟨h.next.1, h.next.2, Nat.zero_le _⟩
      · have := h.next
        simp only [nextTrapNumber]
        split <;> omega

theorem State.sound_takeLevel (n : Fin 4) (s : State) : Sound s (s.takeLevel n) := by
  simp only [State.takeLevel]
  refine Sound.ite (.refl s) ?_
  have h1 : Sound s (s.onInput n fun x => { x with accepted := x.line, quiet := 3 }) :=
    State.sound_onInput n s fun ok => { ok n with quiet := Nat.le_refl 3 }
  exact Sound.ite (h1.trans (State.sound_settlePress _ _)) h1

theorem State.sound_quietCount (n : Fin 4) (s : State) : Sound s (s.quietCount n) := by
  simp only [State.quietCount]
  refine Sound.ite (.refl s) ?_
  have h1 : Sound s (s.onInput n fun x => { x with quiet := (s.panel.get n).quiet - 1 }) :=
    State.sound_onInput n s fun ok => { ok n with quiet := le_trans (Nat.sub_le _ _) (ok n).quiet }
  exact Sound.ite (h1.trans (State.sound_takeLevel _ _)) h1

theorem InputOk.emptied {x : Input} (h : InputOk x) (e : Option (Nat × EndedCause)) : InputOk { x with trap := none, ended := e } :=
  ⟨by simp, by simp, h.quiet, h.next⟩

theorem State.sound_endTrap (n : Fin 4) (t : Trap) (c : EndedCause) (s : State) : Sound s (s.endTrap n t c) :=
  (State.sound_onInput n s fun ok => (ok n).emptied _).trans (State.same_raise _ _).sound

theorem State.sound_lapsePress (n : Fin 4) (t : Trap) (s : State) : Sound s (s.lapsePress n t) := by
  simp only [State.lapsePress]
  split
  · exact (State.sound_endTrap _ _ _ s).trans (State.sound_panelAction _ _)
  · exact State.sound_endTrap _ _ _ s

theorem State.sound_trapCount (n : Fin 4) (s : State) : Sound s (s.trapCount n) := by
  simp only [State.trapCount]
  split
  · exact .refl s
  · next t ht =>
    split
    · next hw =>
      refine State.sound_onInput n s fun ok => ?_
      have h := ok n
      have b := h.trap t ht
      refine ⟨fun _ => h.mode (by simp [ht]), fun u hu => ?_, h.quiet, h.next⟩
      simp only [Option.some.injEq] at hu
      subst hu
      exact ⟨b.1, b.2.1, by show _ + 1 ≤ 11; omega⟩
    · exact State.sound_lapsePress _ _ s

/-! ## Boundary parts -/

theorem State.sound_expireLead (s : State) : Sound s s.expireLead := by
  simp only [State.expireLead]
  split
  · exact Sound.ite ((State.same_watch s none).trans (State.same_leadReport _ _)).sound (.refl s)
  · exact .refl s

theorem State.sound_endHold (o : Fin 8) (s : State) : Sound s (s.endHold o) := by
  simp only [State.endHold]
  split
  · next h =>
    refine ((State.same_onOutlet o s fun ok => ?_).trans (State.same_serveHead none o _)).sound
    simp only [Outlet.holdOver, Bool.and_eq_true] at h
    have off := (ok o).off ((Outlet.off_iff _).2 (.inr (.inr h.1.1)))
    have q : (s.outlet o).queue = [] := by simpa using h.1.2
    exact (ok o).of_eq (ok o).queue rfl (ok o).sending (.inl rfl) fun _ => ⟨off.1, off.2.1, .inl q⟩
  · exact .refl s

theorem State.sound_partEffect (left : Option Int) (p : BoundaryPart) (s : State) : Sound s (s.partEffect left p) := by
  cases p with
  | sheet => exact (State.shows_formSheet s).sound
  | wheelSlot => exact (State.same_slotFire s).sound.trans (State.shows_reportOwn State.shows_formSheet _ _).sound
  | horizon => exact (State.same_horizonArm s).sound.trans (State.shows_reportOwn State.shows_formSheet _ _).sound
  | leadTimeout => exact (State.sound_expireLead s).trans (State.shows_reportOwn State.shows_formSheet _ _).sound
  | resetHold o => exact State.sound_endHold o s
  | overReached => exact (State.same_judgeOver s).sound
  | hail q => exact (State.shows_hailCount left q s).sound
  | lampStep q => exact (State.shows_lampAdvance q s).sound
  | quiet n => exact State.sound_quietCount n s
  | trapWait n => exact State.sound_trapCount n s

theorem State.sound_owed (s : State) (l : List BoundaryPart) : Sound s { s with owed := l } :=
  ⟨id, id, id, id, id, fun k => ShowOk.of_views (s := s) rfl rfl rfl rfl k, id, id, id⟩

theorem State.sound_takePartFrom (left : Option Int) (p : BoundaryPart) (s : State) : Sound s (s.takePartFrom left p) := by
  simp only [State.takePartFrom]
  exact Sound.ite ((State.sound_owed s _).trans (State.sound_partEffect left p _)) (.refl s)

theorem State.sound_takePart (p : BoundaryPart) (s : State) : Sound s (s.takePart p) := State.sound_takePartFrom _ p s

theorem State.sound_displayStart (s : State) : Sound s s.displayStart := (State.shows_displayStart s).sound

theorem State.sound_settle (s : State) : Sound s s.settle :=
  (Sound.foldl (fun s p => State.sound_takePart p s) _ s).trans (State.sound_displayStart _)

theorem State.sound_takeEarly (old : State) (l : List BoundaryPart) (s : State) : Sound s (State.takeEarly old l s) :=
  Sound.foldl (fun s p => Sound.ite (.refl s) ((State.sound_takePartFrom _ p s).trans (State.sound_displayStart _))) l s

theorem State.sound_takeCounts (s : State) : Sound s s.takeCounts :=
  Sound.foldl (fun s p => Sound.ite (.refl s) (State.sound_takePart p s)) _ s

theorem State.sound_takeOwed (p : BoundaryPart) (s : State) : Sound s (s.takeOwed p) := by
  simp only [State.takeOwed]
  exact Sound.ite ((State.sound_takePart p s).trans (State.sound_displayStart _)) (.refl s)

theorem State.sound_showBoundary (s : State) : Sound s s.showBoundary := by
  simp only [State.showBoundary]
  have h := (State.takeOk_judgeTakes s).sound
  exact (Sound.ite (h.trans (State.shows_formSheet _).sound) h).trans (State.same_judgeEnd _).sound

/-! ## The Timebase -/

theorem nextHouse_lt {d h : Nat} (hd : 0 < d) : nextHouse d h < d := by
  simp only [nextHouse]; split <;> omega

theorem Standard.day_pos (st : Standard) : 0 < st.day := by cases st <;> decide

theorem Standard.nominal_inWindow (st : Standard) : st.inWindow st.nominal = true := by cases st <;> decide

theorem TimebaseOk.boundary {t : Timebase} (h : TimebaseOk t) (n : Nat) : TimebaseOk (t.boundary n) := by
  have house : ∀ st, t.pendingStandard = some st → t.load.getD (nextHouse t.standard.day t.houseTime) < st.day := by
    intro st hs
    obtain ⟨v, hv⟩ := Option.isSome_iff_exists.1 (h.both (by simp [hs]))
    have := h.load v hv
    simp only [Timebase.loadDay, hs, Option.getD_some] at this
    simpa [hv] using this
  have house' : t.pendingStandard = none → t.load.getD (nextHouse t.standard.day t.houseTime) < t.standard.day := by
    intro hs
    cases hv : t.load with
    | none => exact nextHouse_lt (Standard.day_pos _)
    | some v =>
      have := h.load v hv
      simp only [Timebase.loadDay, hs, Option.getD_none] at this
      simpa using this
  simp only [Timebase.boundary]
  split
  · next st hs =>
    split
    · next hf => exact ⟨house st hs, by simp, by simp, h.trim, h.count, h.free, h.glitches, Standard.nominal_inWindow st⟩
    · exact ⟨house st hs, by simp, by simp, h.trim, Nat.zero_le _, by simp, h.glitches, Standard.nominal_inWindow st⟩
  · next hs =>
    split
    · exact ⟨house' hs, by simp, by simp [hs], h.trim, h.count, h.free, h.glitches, h.measured⟩
    · exact ⟨house' hs, by simp, by simp [hs], h.trim, h.count, h.free, h.glitches, h.measured⟩

theorem State.sound_onTb {f : Timebase → Timebase} (s : State) (h : TimebaseOk s.tb → TimebaseOk (f s.tb)) : Sound s (s.onTb f) :=
  ⟨id, id, id, id, h, fun k => ShowOk.of_views (s := s) rfl rfl rfl rfl k, id, id, id⟩

theorem State.sound_onCue {f : CueUnit → CueUnit} (s : State) (h : CueOk s.cue → CueOk (f s.cue)) : Sound s (s.onCue f) :=
  (State.shows_onCue f s h).sound

theorem State.sound_openBoundary (n : Nat) (s : State) : Sound s (s.openBoundary n) := by
  simp only [State.openBoundary]
  refine ((State.sound_onTb s fun h => h.boundary n).trans (State.sound_onCue _ fun h => h.applyPatterns)).trans ?_
  generalize (s.onTb _).onCue _ = u
  exact ⟨id, id, id, id, id, fun k => ShowOk.of_views (s := u) rfl rfl rfl rfl k, id, id, id⟩

theorem State.sound_boundary (n : Nat) (early : List BoundaryPart) (s : State) : Sound s (s.boundary n early) := by
  simp only [State.boundary]
  exact ((((State.sound_openBoundary n s).trans (State.sound_takeEarly _ _ _)).trans (State.sound_showBoundary _)).trans
    ((State.sound_takeCounts _).trans (State.shows_fillTod _).sound)).trans (State.sound_displayStart _)

theorem TimebaseOk.lock {t : Timebase} (h : TimebaseOk t) {n : Nat} (hl : t.locks n = true) : TimebaseOk (t.lock n) := by
  refine ⟨h.house, h.load, h.both, h.trim, Nat.zero_le _, by simp [Timebase.lock], h.glitches, ?_⟩
  cases hp : t.acqPulse with
  | none => simp [Timebase.locks, Timebase.acquire, hp] at hl
  | some p =>
    by_cases hw : t.standard.inWindow (n - p) = true
    · simpa only [Timebase.lock, hp] using hw
    · simp [Timebase.locks, Timebase.acquire, hp, hw] at hl

theorem TimebaseOk.acquire {t : Timebase} (h : TimebaseOk t) {n : Nat} (hl : t.locks n = false) (hr : t.ref ≠ .freeRun) :
    TimebaseOk (t.acquire n) := by
  simp only [Timebase.locks, decide_eq_false_iff_not] at hl
  have c : (t.acquire n).acqCount ≤ 2 := by omega
  have fields : (t.acquire n).houseTime = t.houseTime ∧ (t.acquire n).standard = t.standard ∧ (t.acquire n).load = t.load
      ∧ (t.acquire n).pendingStandard = t.pendingStandard ∧ (t.acquire n).trim = t.trim ∧ (t.acquire n).ref = t.ref
      ∧ (t.acquire n).glitches = t.glitches ∧ (t.acquire n).measured = t.measured := by
    simp only [Timebase.acquire]
    split
    · exact ⟨rfl, rfl, rfl, rfl, rfl, rfl, rfl, rfl⟩
    · split <;> exact ⟨rfl, rfl, rfl, rfl, rfl, rfl, rfl, rfl⟩
  obtain ⟨f1, f2, f3, f4, f5, f6, f7, f8⟩ := fields
  refine ⟨by rw [f1, f2]; exact h.house, fun v hv => ?_, by rw [f3, f4]; exact h.both, by rw [f5]; exact h.trim, c,
    fun e => absurd (f6 ▸ e) hr, by rw [f7]; exact h.glitches, by rw [f8, f2]; exact h.measured⟩
  rw [f3] at hv
  have := h.load v hv
  simpa only [Timebase.loadDay, f2, f4] using this

theorem TimebaseOk.accept {t : Timebase} (h : TimebaseOk t) (n : Nat) : TimebaseOk (t.accept n) := by
  refine ⟨h.house, h.load, h.both, h.trim, h.count, h.free, h.glitches, ?_⟩
  simp only [Timebase.accept]
  split
  · split
    · assumption
    · exact h.measured
  · exact h.measured

theorem State.sound_acquirePulse (n : Nat) (early : List BoundaryPart) (s : State) (hr : s.tb.ref ≠ .freeRun) :
    Sound s (s.acquirePulse n early) := by
  simp only [State.acquirePulse]
  split
  · next hl =>
    have h1 : Sound s ((s.onTb (Timebase.lock n)).raise classTimebase) :=
      (State.sound_onTb s fun h => h.lock hl).trans (State.same_raise _ _).sound
    exact Sound.ite h1 (h1.trans (State.sound_boundary _ _ _))
  · next hl => exact State.sound_onTb s fun h => h.acquire (by simpa using hl) hr

theorem State.sound_lockedPulse (n : Nat) (early : List BoundaryPart) (s : State) : Sound s (s.lockedPulse n early) := by
  simp only [State.lockedPulse]
  refine Sound.ite (State.sound_onTb s fun h => { h with glitches := countUp_le h.glitches }) ?_
  exact (State.sound_onTb s fun h => h.accept n).trans (State.sound_boundary _ _ _)

theorem State.sound_judgePulse (n : Nat) (early : List BoundaryPart) (s : State) : Sound s (s.judgePulse n early) := by
  simp only [State.judgePulse]
  split
  · exact .refl s
  · next h => exact State.sound_acquirePulse n early s (by simp [h])
  · exact State.sound_lockedPulse n early s
  · exact State.sound_onTb s fun h =>
      ⟨h.house, h.load, h.both, h.trim, Nat.zero_le _, by simp [Timebase.reacquire], h.glitches, h.measured⟩

end Sys2Proof.Machine
end

