-- ==== Sys2Proof/Laws/Requests.lean ====
section
/-! SUPPORT. Every request's answer keeps the part's bounds. -/
namespace Sys2Proof.Machine

/-! ## The port -/

theorem State.sound_port (s : State) (p : PortState) : Sound s { s with port := p } :=
  ⟨id, id, id, id, id, fun k => ShowOk.of_views (s := s) rfl rfl rfl rfl k, id, id, id⟩

theorem State.sound_discard (s : State) (b : Bool) : Sound s { s with discard := b } :=
  ⟨id, id, id, id, id, fun k => ShowOk.of_views (s := s) rfl rfl rfl rfl k, id, id, id⟩

theorem State.sound_spend (s : State) : Sound s s.spend :=
  ⟨id, id, id, id, id, fun k => ShowOk.of_views (s := s) rfl rfl rfl rfl k, id, id, id⟩

theorem sound_takenRequest {i : Instr} {f : State → State × Response} {s : State} (h : Sound s (f s).1) :
    Sound s (takenRequest i f s) := by
  simp only [takenRequest]
  exact Sound.ite (h.trans (State.sound_port _ _)) (State.sound_port s _)

/-- A request at the port keeps what its answer keeps. -/
theorem sound_request {i : Instr} {f : State → State × Response} {s : State} (h : Sound s (f s).1) : Sound s (request i f s) := by
  simp only [request]
  refine Sound.ite (.refl s) ?_
  split
  · exact sound_takenRequest h
  · exact Sound.ite (sound_takenRequest h) (State.sound_discard s _)
  · exact State.sound_discard s _

/-! ## Store requests -/

theorem sound_getItem (k : Half) (s : State) : Sound s (answerGetItem k s).1 := by
  simp only [answerGetItem]; split
  · exact .refl s
  · split <;> exact .refl s

theorem sound_getItemAt (p : Half) (s : State) : Sound s (answerGetItemAt p s).1 := by
  simp only [answerGetItemAt]; split <;> exact .refl s

theorem sound_getEvents (k : Half) (s : State) : Sound s (answerGetEvents k s).1 := by
  simp only [answerGetEvents]; split
  · exact .refl s
  · split <;> exact .refl s

theorem sound_walk (s : State) : Sound s (answerWalk s).1 := by
  simp only [answerWalk]
  split
  · exact .refl s
  · split
    · exact .refl s
    · exact State.sound_cursor s _
  · split
    · exact State.sound_cursor s _
    · exact .refl s

theorem sound_seek (sel : Byte) (v : Half) (s : State) : Sound s (answerSeek sel v s).1 := by
  simp only [answerSeek]
  split
  · exact State.sound_cursor s _
  · split
    · split
      · exact .refl s
      · split
        · exact State.sound_cursor s _
        · exact .refl s
    · split
      · split
        · exact State.sound_cursor s _
        · exact .refl s
      · exact .refl s

theorem State.sound_batch (s : State) (b : Option (List StoreChange)) (h : BatchOk s → ∀ l, b = some l → l.length ≤ 32) :
    Sound s { s with batch := b } :=
  ⟨id, id, id, id, id, fun k => ShowOk.of_views (s := s) rfl rfl rfl rfl k, h, id, id⟩

theorem State.sound_stageChange (c : StoreChange) (st : List StoreChange) (s : State) : Sound s (s.stageChange c st).1 := by
  simp only [State.stageChange]
  split
  · exact .refl s
  · next h =>
    split
    · exact .refl s
    · refine State.sound_batch s _ fun _ l hl => ?_
      have : Config.batchSize = 32 := rfl
      simp only [Option.some.injEq] at hl
      subst hl
      simp; omega

theorem State.sound_applyNow (c : StoreChange) (s : State) : Sound s (s.applyNow c).1 := by
  simp only [State.applyNow]
  split
  · exact .refl s
  · exact State.sound_applyChanges _ s

/-- The eight store change requests. -/
theorem State.sound_storeRequest (c : StoreChange) (s : State) : Sound s (s.storeRequest c).1 := by
  simp only [State.storeRequest]
  split
  · exact State.sound_stageChange _ _ s
  · exact State.sound_applyNow _ s

theorem State.sound_clearStore (s : State) (closed : s.ctl.state = .closed) : Sound s s.clearStore := by
  simp only [State.clearStore]
  refine Sound.trans ?_ (State.shows_formSheetNow _).sound
  refine ⟨fun _ => ⟨by simp [State.onCtl], by simp [State.onCtl], by simp [State.onCtl], by simp [State.onCtl],
    by simp [State.onCtl], by simp [State.onCtl, poolUsed]⟩, fun _ => by simp [RecordsOk, State.onCtl], ?_, id, id, fun ok => ?_, id, id, id⟩
  · have h := State.same_map (f := fun x => (s.allRefs).foldl (fun x r => Outlet.forget r x) x) s fun x hx => by
      generalize s.allRefs = l
      induction l generalizing x with
      | nil => exact hx
      | cons r l ih =>
        refine ih (Outlet.forget r x) ?_
        have hq : (Outlet.forget r x).queue = x.queue.map fun f => if f.event = some r then { f with event := none } else f := rfl
        refine hx.of_eq (by rw [hq, List.length_map]; exact hx.queue) rfl ?_ (.inl rfl) fun ho => ?_
        · rw [hq]; simpa [Outlet.forget] using hx.sending
        · have := hx.off ((Outlet.off_iff x).2 ho)
          refine ⟨this.1, by simp [Outlet.forget, this.2.1], ?_⟩
          rw [hq]
          rcases this.2.2 with e | e <;> simp [e, clearFrame]
    exact h.outlets
  · have off := ok.offAir (by simp [closed]) (by simp [closed])
    refine ⟨by simp [State.onCtl], ?_, ?_, fun k hk => ?_⟩
    · simp [State.airing, State.onCtl, off.onAir]
    · exact ok.live
    · have := ok.next k hk
      simp [closed] at this

theorem sound_clearRundown (s : State) : Sound s (answerClearRundown s).1 := by
  simp only [answerClearRundown]
  split_ifs with h1 h2
  · exact .refl s
  · exact .refl s
  · exact State.sound_clearStore s (by simpa using h2)

theorem recycled_air (a : Bool) (keys : List Half) {l : List Item} (h : firstNotDone l 0 keys = none)
    (nd : (l.map Item.key).Nodup) :
    ((recycleItems a keys l).map Item.key = l.map Item.key) ∧ airs (recycleItems a keys l) = airs l := by
  have vw := bumpAltered_views l (l.map fun i => if (distinctKeys keys).contains i.key then recycledItem a i else i)
  have done : ∀ (ks : List Half) (n : Nat), firstNotDone l n ks = none → ∀ k ∈ ks, ∀ i ∈ l, i.key = k.toNat → i.isOnAir = false := by
    intro ks
    induction ks with
    | nil => intro _ _ k hk; simp at hk
    | cons x ks ih =>
      intro n hn k hk i hi e
      simp only [firstNotDone] at hn
      split at hn
      · next j hj =>
        split_ifs at hn with hd
        rcases List.mem_cons.1 hk with e' | e'
        · subst e'
          rw [← e, findItem_of_mem nd hi] at hj
          cases hj
          simp only [Item.isDone, Item.isOnAir] at hd ⊢
          split at hd <;> simp_all
        · exact ih _ hn k e' i hi e
      · cases hn
  have off : ∀ i ∈ l, (distinctKeys keys).contains i.key = true → i.isOnAir = false := by
    intro i hi hc
    simp only [distinctKeys, List.contains_iff_mem, List.mem_dedup, List.mem_map] at hc
    obtain ⟨k, hk, e⟩ := hc
    exact done keys 0 h k hk i hi e.symm
  refine ⟨(keys_of_views vw).trans ?_, (airs_of_views vw).trans ?_⟩
  · rw [List.map_map]
    apply List.map_congr_left
    intro i _
    simp only [Function.comp]
    split <;> rfl
  · clear h nd vw done
    induction l with
    | nil => rfl
    | cons i l ih =>
      have ih' := ih fun j hj => off j (List.mem_cons_of_mem _ hj)
      have hi := off i List.mem_cons_self
      simp only [airs, List.map_cons, List.filter_cons] at ih' ⊢
      by_cases hc : (distinctKeys keys).contains i.key = true
      · rw [if_pos hc, hi hc]
        rw [show (recycledItem a i).isOnAir = false from rfl]
        exact ih'
      · rw [if_neg hc]
        split
        · simp only [List.map_cons, ih']
        · exact ih'

theorem sound_recycle (a : Byte) (keys : List Half) (s : State) : Sound s (answerRecycle a keys s).1 := by
  simp only [answerRecycle]
  split
  · exact .refl s
  · split
    · exact .refl s
    · next ad _ =>
      split
      · exact .refl s
      · next hk =>
        obtain ⟨u, k, c, ok, sh⟩ := State.changeReport_spec s [] [] (s.withItems (recycleItems ad keys s.items))
        refine Sound.trans ?_ sh.sound
        have still : Still s u := (State.still_withItems _ s).trans k.toStill
        refine still.sound (fun h => StoreOk.of_keeps k (StoreOk.recycle h))
          (fun h => RecordsOk.of_keeps k (RecordsOk.recycle h)) fun h => ok ?_
        have := recycled_air ad keys hk h.keys
        exact ⟨by show ((recycleItems ad keys s.items).map Item.key).Nodup; rw [this.1]; exact h.keys,
          by show airs (recycleItems ad keys s.items) = _; rw [this.2]; exact h.one, h.live⟩

theorem sound_openBatch (s : State) : Sound s (answerOpenBatch s).1 := by
  simp only [answerOpenBatch]
  split
  · exact .refl s
  · exact State.sound_batch s _ fun _ l hl => by simp only [Option.some.injEq] at hl; subst hl; simp

theorem State.sound_closeBatch (s : State) : Sound s s.closeBatch := State.sound_batch s none fun _ _ h => by simp at h

theorem sound_commitBatch (s : State) : Sound s (answerCommitBatch s).1 := by
  simp only [answerCommitBatch]
  split
  · exact .refl s
  · exact State.sound_closeBatch s
  · split
    · exact State.sound_closeBatch s
    · exact (State.sound_closeBatch s).trans (State.sound_applyChanges _ _)

theorem sound_abandonBatch (s : State) : Sound s (answerAbandonBatch s).1 := by
  simp only [answerAbandonBatch]
  split
  · exact .refl s
  · exact State.sound_closeBatch s

/-! ## Show requests -/

theorem State.sound_onCtl {f : ShowCtl → ShowCtl} (s : State)
    (h : (f s.ctl).state = s.ctl.state ∧ (f s.ctl).onAir = s.ctl.onAir ∧ (f s.ctl).next = s.ctl.next) : Sound s (s.onCtl f) :=
  (State.still_onCtl f s).sound id id fun k => ShowOk.of_views (s := s) rfl h.1 h.2.1 h.2.2 k

theorem State.sound_raise (c : Byte) (s : State) : Sound s (s.raise c) := (State.same_raise c s).sound

theorem sound_openShow (s : State) : Sound s (answerOpenShow s).1 := by
  simp only [answerOpenShow]
  split
  · next h =>
    simp only [State.openShow]
    refine ((Still.sound ?_ ?_ ?_ ?_).trans (State.sound_raise classShow _)).trans (State.shows_formSheetNow _).sound
    · exact (State.still_onCtl _ s).trans (State.keeps_deriveNext _ _).toStill
    · exact fun ok => StoreOk.of_keeps (State.keeps_deriveNext _ _) ok
    · exact fun ok => RecordsOk.of_keeps (State.keeps_deriveNext _ _) ok
    · intro ok
      have off := ok.offAir (by simp [h]) (by simp [h])
      refine ShowOk.of_derive (s := s.onCtl fun c => { c.emptied with state := .armed }) off.keys ?_ ?_ none
      · show s.airing = _
        rw [off.airing]
        simp [State.onCtl, ShowCtl.emptied, off.onAir]
      · simp [State.onCtl, ShowCtl.emptied, off.onAir]
  · exact .refl s

theorem State.sound_closeLive (s : State) (h : s.ctl.state = .live) : Sound s s.closeLive := by
  simp only [State.closeLive]
  obtain ⟨k, c⟩ := State.keeps_moveNext none false none (s.onCtl fun c => { c with state := .last })
  refine ((Still.sound ?_ ?_ ?_ ?_).trans (State.sound_raise classShow _)).trans (State.shows_formSheetNow _).sound
  · exact (State.still_onCtl _ s).trans k.toStill
  · exact fun ok => StoreOk.of_keeps k ok
  · exact fun ok => RecordsOk.of_keeps k ok
  · intro ok
    have f := ShowCtl.of_core c
    have vw := views_of_cores k.cores
    have on : ((s.onCtl fun c => { c with state := .last }).moveNext none false none).ctl.onAir = s.ctl.onAir := f.2.1
    have st : ((s.onCtl fun c => { c with state := .last }).moveNext none false none).ctl.state = .last := f.1
    have nx : ((s.onCtl fun c => { c with state := .last }).moveNext none false none).ctl.next = none := f.2.2.1
    refine ⟨by rw [keys_of_views vw]; exact ok.keys, ?_, ?_, fun k hk => ?_⟩
    · rw [State.airing_view, vw, ← State.airing_view, on]; exact ok.one
    · rw [on, st]; exact iff_of_true (ok.live.2 (.inl h)) (.inr rfl)
    · rw [nx] at hk; exact absurd hk (by simp)

theorem State.sound_enterClosed (s : State) (off : ShowOk s → OffAir s) : Sound s s.enterClosed :=
  (State.keeps_enterClosed s).1.toStill.sound (StoreOk.of_keeps (State.keeps_enterClosed s).1)
    (RecordsOk.of_keeps (State.keeps_enterClosed s).1) fun ok =>
    State.show_enterClosed (off ok)

theorem sound_closeShow (s : State) : Sound s (answerCloseShow s).1 := by
  simp only [answerCloseShow]
  split
  · next h => exact State.sound_closeLive s h
  · next h =>
    exact (State.sound_enterClosed s fun ok => ok.offAir (by simp [h]) (by simp [h])).trans (State.shows_formSheetNow _).sound
  · exact .refl s

theorem State.same_abortOutlet (s : State) (o : Fin 8) : Same s (s.abortOutlet o) := by
  simp only [State.abortOutlet]
  split
  · next h => exact State.same_queueFrame o clearFrame s fun _ off => by rcases h with h | h <;> simp [h] at off
  · exact .refl s

theorem State.same_noPlaying (s : State) : Same s { s with outlets := s.outlets.map fun x => { x with playing := none } } :=
  State.same_map (f := fun x => { x with playing := none }) s fun x h =>
    h.of_eq h.queue rfl h.sending (.inl rfl) fun ho =>
      have := h.off ((Outlet.off_iff x).2 ho)
      ⟨this.1, rfl, this.2.2⟩

/-- After ABORT's step 2 nothing is on air. -/
theorem State.abortAiring_spec (s : State) : Still s s.abortAiring ∧ (StoreOk s.items → StoreOk s.abortAiring.items)
    ∧ (RecordsOk s.items → RecordsOk s.abortAiring.items) ∧ (ShowOk s → OffAir s.abortAiring) := by
  simp only [State.abortAiring]
  split
  · next i hi => exact ⟨State.still_leaveAir _ _ _ _ s, State.store_leaveAir, State.records_leaveAir,
      fun ok => State.offAir_leaveAir ok hi⟩
  · next hi =>
    refine ⟨.refl s, id, id, fun ok => ?_⟩
    have on : s.ctl.onAir = none := by
      cases hs : s.ctl.onAir with
      | none => rfl
      | some k =>
        have one := ok.one
        rw [hs] at one
        have hk : k ∈ s.airing := by rw [one]; simp
        simp only [State.airing, List.mem_map, List.mem_filter] at hk
        obtain ⟨i, ⟨him, -⟩, e⟩ := hk
        have : s.onAirItem = some i := by
          simp only [State.onAirItem, hs, Option.bind_some, State.item, ← e, findItem_of_mem ok.keys him]
        rw [hi] at this
        cases this
    exact ⟨ok.keys, by rw [ok.one, on]; rfl, on⟩

theorem OffAir.of_same {s t : State} (h : Same s t) (off : OffAir s) : OffAir t :=
  off.of_views (views_of_cores h.cores) (ctl_of_core h.ctl).2.1

theorem State.sound_abortShow (s : State) : Sound s s.abortShow := by
  simp only [State.abortShow]
  have h0 : Sound s (s.onCtl fun c => { c with ordinary := none, cover := none }) := State.sound_onCtl s ⟨rfl, rfl, rfl⟩
  have sp := State.abortAiring_spec (s.onCtl fun c => { c with ordinary := none, cover := none })
  have o0 : ShowOk s → ShowOk (s.onCtl fun c => { c with ordinary := none, cover := none }) := h0.show_
  generalize (s.onCtl fun c => { c with ordinary := none, cover := none }) = s0 at h0 sp o0
  have m := (Same.foldl State.same_abortOutlet outletNumbers s0.abortAiring).trans (State.same_dropCues false _)
  have m2 := m.trans (State.same_noPlaying _)
  refine Sound.trans ?_ (State.shows_formSheetNow _).sound
  refine h0.trans (Still.sound ?_ ?_ ?_ ?_)
  · exact (sp.1.trans m2.toStill).trans (State.keeps_enterClosed _).1.toStill
  · exact fun ok => StoreOk.of_keeps (State.keeps_enterClosed _).1 (StoreOk.of_keeps m2.toKeeps (sp.2.1 ok))
  · exact fun ok => RecordsOk.of_keeps (State.keeps_enterClosed _).1 (RecordsOk.of_keeps m2.toKeeps (sp.2.2.1 ok))
  · exact fun ok => State.show_enterClosed ((sp.2.2.2 ok).of_same m2)

theorem sound_abortShow (s : State) : Sound s (answerAbortShow s).1 := by
  simp only [answerAbortShow]
  split
  · exact .refl s
  · exact State.sound_abortShow s

theorem sound_take (s : State) : Sound s (answerTake s).1 := by
  simp only [answerTake]
  split_ifs
  · exact .refl s
  · exact .refl s
  · exact State.sound_requestTake _ s

theorem State.sound_setNext (k : Option Nat) (s : State) (st : s.ctl.state = .armed ∨ s.ctl.state = .live)
    (h : ∀ j, k = some j → s.eligibleKey j = true) : Sound s (s.setNext k) := by
  have key : ∀ t, Sound s t → Sound s (State.sheetForNext s t) := by
    intro t ht
    simp only [State.sheetForNext]
    exact Sound.ite ht (ht.trans (State.shows_formSheetNow t).sound)
  simp only [State.setNext]
  refine key _ ?_
  split
  · next j =>
    obtain ⟨kp, c⟩ := State.keeps_moveNext (some j) true none s
    refine kp.toStill.sound (StoreOk.of_keeps kp) (RecordsOk.of_keeps kp) fun ok => ?_
    have f := ShowCtl.of_core c
    have vw := views_of_cores kp.cores
    have on : (s.moveNext (some j) true none).ctl.onAir = s.ctl.onAir := f.2.1
    have hs : (s.moveNext (some j) true none).ctl.state = s.ctl.state := f.1
    have nx : (s.moveNext (some j) true none).ctl.next = some j := f.2.2.1
    refine ⟨by rw [keys_of_views vw]; exact ok.keys, ?_, by rw [on, hs]; exact ok.live, fun k hk => ?_⟩
    · rw [State.airing_view, vw, ← State.airing_view, on]; exact ok.one
    · rw [nx] at hk
      cases hk
      rw [hs, State.eligible_of_same kp]
      exact ⟨st, h j rfl⟩
  · refine ((State.still_onCtl _ s).trans (State.keeps_deriveNext _ _).toStill).sound
      (fun ok => StoreOk.of_keeps (State.keeps_deriveNext _ _) ok) (fun ok => RecordsOk.of_keeps (State.keeps_deriveNext _ _) ok)
      fun ok => ?_
    exact ShowOk.of_derive (s := s.onCtl fun c => { c with pinned := false }) ok.keys ok.one ok.live none

theorem sound_setNext (key : Half) (s : State) : Sound s (answerSetNext key s).1 := by
  simp only [answerSetNext]
  split
  · exact .refl s
  · split
    · exact .refl s
    · next h =>
      have st : s.ctl.state = .armed ∨ s.ctl.state = .live := by
        by_contra hc
        exact h ⟨fun e => hc (.inl e), fun e => hc (.inr e)⟩
      split
      · exact State.sound_setNext none s st (by simp)
      · split
        · exact .refl s
        · next i hi =>
          split
          · next he =>
            refine State.sound_setNext (some key.toNat) s st fun j hj => ?_
            cases hj
            simpa only [State.eligibleKey, hi] using he
          · exact .refl s

theorem sound_hold (s : State) : Sound s (answerHold s).1 := by
  simp only [answerHold]
  split
  · exact State.sound_toggleHeld s
  · exact .refl s

theorem sound_setVector (v : Byte) (k : Half) (s : State) : Sound s (answerSetVector v k s).1 := by
  simp only [answerSetVector]
  split
  · exact .refl s
  · next w _ =>
    split
    · exact .refl s
    · exact State.sound_onCtl s (by cases w <;> exact ⟨rfl, rfl, rfl⟩)

theorem State.sound_setShowEnd (t : Option Nat) (s : State) : Sound s (s.setShowEnd t) := by
  simp only [State.setShowEnd]
  have h := State.sound_onCtl (f := fun c => { c with showEnd := t }) s ⟨rfl, rfl, rfl⟩
  exact Sound.ite h (h.trans (State.shows_formSheetNow _).sound)

theorem sound_setShowEnd (i : Byte) (t : Tri) (s : State) : Sound s (answerSetShowEnd i t s).1 := by
  simp only [answerSetShowEnd]
  split
  · split
    · exact State.sound_setShowEnd _ s
    · exact .refl s
  · split
    · exact State.sound_setShowEnd _ s
    · exact .refl s

theorem sound_setWrap (w : Byte) (s : State) : Sound s (answerSetWrap w s).1 :=
  ((State.sound_onCtl s ⟨rfl, rfl, rfl⟩).trans (State.shows_deriveLamps _).sound).trans (State.sound_displayStart _)

theorem sound_getShow (s : State) : Sound s (answerGetShow s).1 := State.sound_spend s
theorem sound_getSheet (p : Byte) (s : State) : Sound s (answerGetSheet p s).1 := .refl s

/-! ## Outlet requests -/

theorem State.same_loseCue (o : Fin 8) (s : State) : Same s (s.loseCue o) := by
  simp only [State.loseCue]
  split
  · exact .refl s
  · exact (State.same_onOutlet o s fun ok => (ok o).noCue).trans
      (State.same_firingAction _ _ (State.same_onEvent _ _ fun _ => rfl))

theorem State.loseCue_outlet (o : Fin 8) (s : State) : (s.loseCue o).outlet o = (s.outlet o).dropCue := by
  have hf : ∀ (k : Nat) (f : Event → Event) (r : EventRef) (u : State),
      (u.firingAction k (State.onEvent r f)).outlets = u.outlets := by
    intro k f r u
    simp only [State.firingAction]
    split <;> rfl
  simp only [State.loseCue]
  split
  · next h => simp [Outlet.dropCue, ← h]
  · next c h =>
    simp only [State.outlet, hf]
    exact Bank.get_modify_same _ _ _

theorem State.same_disableOutlet (o : Fin 8) (s : State) : Same s (s.disableOutlet o) := by
  simp only [State.disableOutlet]
  refine ((State.same_loseCue o s).trans (State.same_onOutlet o _ fun ok => ?_)).trans (State.same_watchLost o _)
  have hc : ((s.loseCue o).outlet o).cued = none := by rw [State.loseCue_outlet]; rfl
  exact ⟨Nat.zero_le _, Nat.zero_le _, List.nodup_nil, by simp [Outlet.flush],
    fun c h => by simp [Outlet.flush, hc] at h, fun _ => ⟨hc, rfl, .inl rfl⟩⟩

theorem State.same_configureOutlet (o : Fin 8) (k : OutletKind) (e : Bool) (p : Nat) (r : LinkRate) (s : State) :
    Same s (s.configureOutlet o k e p r) := by
  have h1 : Same s (s.onOutlet o (Outlet.configured k p r)) :=
    State.same_onOutlet o s fun ok => (ok o).latches rfl rfl rfl rfl rfl rfl rfl rfl
  simp only [State.configureOutlet]
  split
  · exact h1.trans (State.same_disableOutlet o _)
  · rename_i hd
    have en : ((s.onOutlet o (Outlet.configured k p r)).outlet o).enabled = false := by
      rw [State.outlet_onOutlet, if_pos rfl]; exact hd
    refine (h1.trans (State.same_onOutlet o _ fun ok => ?_)).trans (State.same_serveHead none o _)
    have off := (ok o).off ((Outlet.off_iff _).2 (.inl en))
    exact (ok o).of_eq (ok o).queue rfl (ok o).sending (.inl rfl) fun _ => off
  · exact h1

theorem sound_configureOutlet (o k e : Byte) (p : Half) (r : Byte) (s : State) :
    Sound s (answerConfigureOutlet o k e p r s).1 := by
  simp only [answerConfigureOutlet]
  split
  · exact (State.same_configureOutlet _ _ _ _ _ s).sound.trans (State.shows_reportOwn State.shows_formSheetNow _ _).sound
  · exact .refl s

theorem State.sound_resetOutlet (o : Fin 8) (s : State) : Sound s (s.resetOutlet o) := by
  simp only [State.resetOutlet]
  refine Sound.trans ?_ (State.sound_raise classOutlet _)
  refine Sound.trans ?_ (State.same_watchLost o _).sound
  refine Sound.trans ?_ (State.sound_owed _ _)
  refine ((State.same_loseCue o s).trans (State.same_onOutlet o _ fun ok => ?_)).sound
  have hc : ((s.loseCue o).outlet o).cued = none := by rw [State.loseCue_outlet]; rfl
  exact ⟨by simp [Outlet.sendStart, Outlet.flush], by simp [Outlet.sendStart, Outlet.flush],
    by simp [Outlet.sendStart, Outlet.flush], by simp [Outlet.sendStart, Outlet.flush],
    fun c h => by simp [Outlet.sendStart, Outlet.flush, hc] at h,
    fun _ => ⟨by simp [Outlet.sendStart, Outlet.flush, hc], by simp [Outlet.sendStart, Outlet.flush],
      .inr (by simp [Outlet.sendStart, Outlet.flush])⟩⟩

theorem sound_resetOutlet (o : Byte) (s : State) : Sound s (answerResetOutlet o s).1 := by
  simp only [answerResetOutlet]
  split
  · exact (State.sound_resetOutlet _ s).trans (State.shows_reportOwn State.shows_formSheetNow _ _).sound
  · exact .refl s

theorem sound_ackOutlet (o m : Byte) (s : State) : Sound s (answerAckOutlet o m s).1 := by
  simp only [answerAckOutlet]
  split
  · exact .refl s
  · next x _ =>
    split
    · exact .refl s
    · exact (State.same_onOutlet x s fun ok => (ok x).latches rfl rfl rfl rfl rfl rfl rfl rfl).sound

theorem sound_getOutlet (o : Byte) (s : State) : Sound s (answerGetOutlet o s).1 := by
  simp only [answerGetOutlet]; split <;> exact .refl s

/-! ## Presenter, panel, Timebase and notice requests -/

theorem stepLengthOf_range (n : Byte) : 1 ≤ stepLengthOf n ∧ stepLengthOf n ≤ 15 := by
  simp only [stepLengthOf]; omega

theorem sound_setPattern (l : Byte) (p : Half) (n : Byte) (s : State) : Sound s (answerSetPattern l p n s).1 := by
  simp only [answerSetPattern]
  split
  · exact .refl s
  · next x _ =>
    refine State.sound_onCue (f := fun c =>
      { c with pendingPatterns := c.pendingPatterns.set x.index (some ⟨p, stepLengthOf n⟩) }) s fun h =>
        ⟨h.presenters, h.patterns, fun i q hq => ?_⟩
    by_cases e : i = x.index
    · subst e
      simp only [Bank.get_set_same, Option.some.injEq] at hq
      subst hq
      exact stepLengthOf_range n
    · simp only [Bank.get_set_other _ e] at hq
      exact h.waiting i q hq

theorem sound_hailPresenter (p : Byte) (n : Half) (s : State) : Sound s (answerHailPresenter p n s).1 := by
  simp only [answerHailPresenter]
  split
  · simp only [State.hailPresenter]
    next q _ =>
    have hl : hailOf n ≤ 1000 := Nat.min_le_right _ _
    generalize hailOf n = m at hl
    exact ((State.shows_onPresenter q (fun x => { x with hail := m }) s fun x h => ⟨h.frames, hl⟩).trans
      (State.shows_derivePresenter _ _)).sound.trans (State.sound_displayStart _)
  · exact .refl s

theorem sound_getPresenter (p : Byte) (s : State) : Sound s (answerGetPresenter p s).1 := by
  simp only [answerGetPresenter]; split
  · exact State.sound_spend s
  · exact .refl s

theorem State.sound_setPanelMode (n : Fin 4) (m : PanelMode) (l : LapseMode) (s : State) : Sound s (s.setPanelMode n m l) := by
  simp only [State.setPanelMode]
  split
  · next t ht =>
    split
    · next hm =>
      exact State.sound_onInput n s fun ok => ⟨fun _ => hm, (ok n).trap, (ok n).quiet, (ok n).next⟩
    · simp only [State.endTrap]
      refine Sound.trans (t := (s.onInput n fun x => { x with mode := m, lapse := l }).onInput n
        fun x => { x with trap := none, ended := some (t.num, EndedCause.withdrawn) }) ?_ (State.sound_raise _ _)
      refine ⟨id, id, id, fun ok j => ?_, id, fun k => ShowOk.of_views (s := s) rfl rfl rfl rfl k, id, id, id⟩
      simp only [State.onInput, Bank.get_modify]
      split
      · exact ⟨by simp, by simp, (ok j).quiet, (ok j).next⟩
      · exact ok j
  · next ht =>
    exact State.sound_onInput n s fun ok => ⟨fun h => by simp [ht] at h, fun t h => by simp [ht] at h, (ok n).quiet, (ok n).next⟩

theorem sound_setPanelMode (i m l : Byte) (s : State) : Sound s (answerSetPanelMode i m l s).1 := by
  simp only [answerSetPanelMode]
  split
  · exact (State.sound_setPanelMode _ _ _ s).trans (State.sound_spend _)
  · exact .refl s

theorem State.sound_settleVerdict (n : Fin 4) (a : Bool) (s : State) : Sound s (s.settleVerdict n a) := by
  simp only [State.settleVerdict]
  have h := State.sound_onInput (f := fun x => { x with trap := none }) n s fun ok =>
    ⟨by simp, by simp, (ok n).quiet, (ok n).next⟩
  exact Sound.ite (h.trans (State.sound_panelAction n _)) h

theorem sound_verdict (i t d : Byte) (s : State) : Sound s (answerVerdict i t d s).1 := by
  simp only [answerVerdict]
  split
  · split
    · exact .refl s
    · split
      · exact (State.sound_settleVerdict _ _ s).trans (State.sound_spend _)
      · split <;> exact .refl s
  · exact .refl s

theorem sound_setStandard (x : Byte) (s : State) : Sound s (answerSetStandard x s).1 := by
  simp only [answerSetStandard]
  split
  · exact .refl s
  · next st _ =>
    split
    · exact .refl s
    · refine State.sound_onTb (f := fun t => { t with pendingStandard := some st, load := some 0 }) s fun h =>
        ⟨h.house, fun v hv => ?_, fun _ => rfl, h.trim, h.count, h.free, h.glitches, h.measured⟩
      simp only [Option.some.injEq] at hv
      subst hv
      exact Standard.day_pos st

theorem sound_setTime (x : Tri) (s : State) : Sound s (answerSetTime x s).1 := by
  simp only [answerSetTime]
  split
  · exact .refl s
  · next hd =>
    split
    · exact .refl s
    · refine State.sound_onTb (f := fun t => { t with load := some x.toNat }) s fun h =>
        ⟨h.house, fun v hv => ?_, fun _ => rfl, h.trim, h.count, h.free, h.glitches, h.measured⟩
      simp only [Option.some.injEq] at hv
      subst hv
      exact Nat.lt_of_not_le hd

theorem trimOf_range (t : Half) : -127 ≤ trimOf t ∧ trimOf t ≤ 127 := by
  simp only [trimOf]; omega

theorem sound_setTrim (x : Half) (s : State) : Sound s (answerSetTrim x s).1 :=
  State.sound_onTb (f := fun t => { t with trim := trimOf x }) s fun h =>
    ⟨h.house, h.load, h.both, trimOf_range x, h.count, h.free, h.glitches, h.measured⟩

theorem sound_setReference (x : Byte) (s : State) : Sound s (answerSetReference x s).1 := by
  simp only [answerSetReference]
  split
  · refine State.sound_onTb s fun h => ?_
    simp only [Timebase.setReference]
    split_ifs
    · exact ⟨h.house, h.load, h.both, h.trim, Nat.zero_le _, by simp, h.glitches, h.measured⟩
    · exact h
    · exact h
    · exact ⟨h.house, h.load, h.both, h.trim, Nat.zero_le _, fun _ => rfl, h.glitches, h.measured⟩
  · exact .refl s

theorem sound_getTimebase (s : State) : Sound s (answerGetTimebase s).1 := .refl s

theorem State.sound_notices (s : State) (n : Notices) (h : CountersOk s.notices → CountersOk n) : Sound s { s with notices := n } :=
  ⟨id, id, id, id, id, fun k => ShowOk.of_views (s := s) rfl rfl rfl rfl k, id, h, id⟩

theorem sound_readNotices (x : Byte) (s : State) : Sound s (answerReadNotices x s).1 := by
  simp only [answerReadNotices]
  split
  · exact (State.sound_notices s _ fun _ => ⟨Nat.zero_le _, Nat.zero_le _, Nat.zero_le _, Nat.zero_le _, Nat.zero_le _⟩).trans
      (State.sound_spend _)
  · exact State.sound_spend s
  · exact .refl s

theorem sound_ackNotices (x : Byte) (s : State) : Sound s (answerAckNotices x s).1 := by
  simp only [answerAckNotices]
  split
  · exact .refl s
  · exact State.sound_notices s { s.notices with pending := s.notices.pending &&& ~~~x } fun h =>
      ⟨h.late, h.skipped, h.missed, h.coalesced, h.ignored⟩

theorem sound_setNoticeEnables (x : Byte) (s : State) : Sound s (answerSetNoticeEnables x s).1 :=
  State.sound_notices s { s.notices with enables := x } fun h => ⟨h.late, h.skipped, h.missed, h.coalesced, h.ignored⟩

/-! ## Reset -/

theorem OutletOk.reset (r t : Bool) : OutletOk (Outlet.reset r t) :=
  ⟨by simp [Outlet.reset], by simp [Outlet.reset], by simp [Outlet.reset], by simp [Outlet.reset], by simp [Outlet.reset],
    fun _ => ⟨rfl, rfl, .inl rfl⟩⟩

theorem CueOk.resetUnit : CueOk CueUnit.reset := by
  refine ⟨fun p => ?_, fun l => ?_, fun l p h => ?_⟩
  · simp only [CueUnit.reset, Bank.get_replicate]; exact ⟨by decide, by decide⟩
  · fin_cases l <;> exact ⟨by decide, by decide⟩
  · simp only [CueUnit.reset, Bank.get_replicate] at h; exact absurd h (by simp)

theorem CueOk.startedUnit : CueOk CueUnit.started := by
  refine ⟨fun p => ?_, CueOk.resetUnit.patterns, CueOk.resetUnit.waiting⟩
  show PresenterOk ((CueUnit.reset.presenters.modify 0 _).get p)
  rw [Bank.get_modify]
  split
  · exact ⟨(CueOk.resetUnit.presenters p).frames, (CueOk.resetUnit.presenters p).hail⟩
  · exact CueOk.resetUnit.presenters p

theorem StoreOk.empty : StoreOk [] := ⟨by decide, by decide, by simp, by simp, by simp, by decide⟩

theorem TimebaseOk.reset : TimebaseOk Timebase.reset :=
  ⟨by decide, fun _ h => absurd h (by simp [Timebase.reset]), by simp [Timebase.reset], by decide, by decide, fun _ => rfl,
    by decide, by decide⟩

theorem CountersOk.reset : CountersOk Notices.reset := ⟨by decide, by decide, by decide, by decide, by decide⟩

/-- Reset establishes every bound, whatever stood before it (R190). -/
theorem State.sound_resetFrom (s : State) : Sound s s.resetFrom where
  store _ := StoreOk.empty
  records _ := by intro i hi; simp [State.resetFrom, State.reset] at hi
  outlets _ := fun o => by simp [State.outlet, State.resetFrom, OutletOk.reset]
  panel _ := fun n => by
    have : s.resetFrom.panel.get n = Input.reset (s.panel.get n).line := by simp [State.resetFrom]
    rw [this]
    exact ⟨by simp [Input.reset], by simp [Input.reset], by simp [Input.reset], by simp [Input.reset]⟩
  tb _ := TimebaseOk.reset
  show_ _ := ⟨by simp [State.resetFrom, State.reset], rfl, by simp [State.resetFrom, State.reset, ShowCtl.reset],
    fun _ h => absurd h (by simp [State.resetFrom, State.reset, ShowCtl.reset])⟩
  batch _ := fun _ h => absurd h (by simp [State.resetFrom, State.reset])
  counters _ := CountersOk.reset
  cue _ := CueOk.startedUnit

theorem sound_restart (s : State) : Sound s (answerRestart s).1 := State.sound_resetFrom s

end Sys2Proof.Machine
end

