-- ==== Sys2Proof/Laws/Events.lean ====
section
/-! SUPPORT. The transactions, the Reset line, the outside lines and the boundaries keep the part's bounds. -/
namespace Sys2Proof.Machine

/-! ## The request in hand, and the transactions -/

/-- Whatever request is in hand, its answer keeps the bounds. -/
theorem sound_requestAnswer {i : Instr} {f : State → State × Response} (h : requestAnswer i = some f) (s : State) :
    Sound s (f s).1 := by
  cases i <;> simp only [requestAnswer, Option.some.injEq, reduceCtorEq] at h <;> subst h
  case getItem => exact sound_getItem _ s
  case getItemAt => exact sound_getItemAt _ s
  case walk => exact sound_walk s
  case seek => exact sound_seek _ _ s
  case getEvents => exact sound_getEvents _ s
  case insertItem => exact State.sound_storeRequest _ s
  case modifyItem => exact State.sound_storeRequest _ s
  case moveItem => exact State.sound_storeRequest _ s
  case markItem => exact State.sound_storeRequest _ s
  case addEvent => exact State.sound_storeRequest _ s
  case modifyEvent => exact State.sound_storeRequest _ s
  case removeEvent => exact State.sound_storeRequest _ s
  case retireItem => exact State.sound_storeRequest _ s
  case clearRundown => exact sound_clearRundown s
  case recycle => exact sound_recycle _ _ s
  case openBatch => exact sound_openBatch s
  case commitBatch => exact sound_commitBatch s
  case abandonBatch => exact sound_abandonBatch s
  case openShow => exact sound_openShow s
  case take => exact sound_take s
  case setNext => exact sound_setNext _ s
  case hold => exact sound_hold s
  case closeShow => exact sound_closeShow s
  case abortShow => exact sound_abortShow s
  case setVector => exact sound_setVector _ _ s
  case setShowEnd => exact sound_setShowEnd _ _ s
  case setWrap => exact sound_setWrap _ s
  case getShow => exact sound_getShow s
  case getSheet => exact sound_getSheet _ s
  case configureOutlet => exact sound_configureOutlet _ _ _ _ _ s
  case resetOutlet => exact sound_resetOutlet _ s
  case ackOutlet => exact sound_ackOutlet _ _ s
  case getOutlet => exact sound_getOutlet _ s
  case setPattern => exact sound_setPattern _ _ _ s
  case hailPresenter => exact sound_hailPresenter _ _ s
  case getPresenter => exact sound_getPresenter _ s
  case setPanelMode => exact sound_setPanelMode _ _ _ s
  case verdict => exact sound_verdict _ _ _ s
  case setStandard => exact sound_setStandard _ s
  case setTime => exact sound_setTime _ s
  case setTrim => exact sound_setTrim _ s
  case setReference => exact sound_setReference _ s
  case getTimebase => exact sound_getTimebase s
  case readNotices => exact sound_readNotices _ s
  case ackNotices => exact sound_ackNotices _ s
  case setNoticeEnables => exact sound_setNoticeEnables _ s
  case restart => exact sound_restart s

theorem State.sound_takeInHand (s : State) : Sound s s.takeInHand := by
  simp only [State.takeInHand]
  split
  · split
    · next f h => exact sound_takenRequest (sound_requestAnswer h s)
    · exact .refl s
  · exact .refl s

/-- A change of the port's own fields alone. -/
theorem State.sound_portFields (s : State) (p : PortState) (d : Bool) (o : List Byte) (k : Nat) (r : Bool) :
    Sound s { s with port := p, discard := d, dataOut := o, freeIndex := k, inReset := r } :=
  ⟨id, id, id, id, id, fun k => ShowOk.of_views (s := s) rfl rfl rfl rfl k, id, id, id⟩

theorem State.sound_endWrite (b : List Byte) (s : State) : Sound s (s.endWrite b) := by
  simp only [State.endWrite]
  split
  · split
    · exact State.sound_portFields s _ _ _ _ _
    · exact State.sound_portFields s _ _ _ _ _
  · exact State.sound_portFields s _ _ _ _ _

theorem State.sound_endRead (n : Nat) (s : State) : Sound s (s.endRead n) := by
  simp only [State.endRead]
  split
  · split
    · exact State.sound_portFields s _ _ _ _ _
    · exact State.sound_portFields s _ _ _ _ _
  · exact State.sound_portFields s _ _ _ _ _

theorem State.sound_resetOut (n : Nat) (s : State) : Sound s (s.resetOut n) := State.sound_portFields s _ _ _ _ _

theorem State.sound_transact (b : List Byte) (s : State) : Sound s (s.transact b) := by
  simp only [State.transact]
  split
  · exact .refl s
  · exact Sound.ite (State.sound_resetOut _ s) (Sound.ite (State.sound_endRead _ s) (State.sound_endWrite _ s))

/-- While the Reset line is asserted the clock stands (R50, R189). -/
theorem State.passTime_reset {s : State} (h : s.inReset = true) (gap : Nat) : s.passTime gap = s := if_pos h

/-- Out of reset, time passing moves the clock and nothing else. -/
theorem State.passTime_running {s : State} (h : s.inReset = false) (gap : Nat) :
    s.passTime gap = { s with tb := { s.tb with now := s.tb.now + gap } } := if_neg (by simp [h])

theorem State.sound_passTime (gap : Nat) (s : State) : Sound s (s.passTime gap) := by
  simp only [State.passTime]
  exact Sound.ite (.refl s) (State.sound_onTb (f := fun t => { t with now := t.now + gap }) s fun h =>
    ⟨h.house, h.load, h.both, h.trim, h.count, h.free, h.glitches, h.measured⟩)

/-! ## The Reset line -/

theorem State.sound_assertReset (s : State) : Sound s s.assertReset := by
  have h := State.sound_resetFrom s
  exact ⟨h.store, h.records, h.outlets, h.panel, h.tb, fun k => ShowOk.of_views (s := s.resetFrom) rfl rfl rfl rfl (h.show_ k), h.batch,
    h.counters, fun _ => CueOk.resetUnit⟩

theorem State.sound_releaseReset (s : State) : Sound s s.releaseReset := by
  simp only [State.releaseReset]
  refine Sound.ite (Sound.trans ?_ (State.sound_displayStart _)) (.refl s)
  refine ⟨id, id, id, fun ok n => ?_, id, fun k => ShowOk.of_views (s := s) rfl rfl rfl rfl k, id, id, id⟩
  have h := ok n
  simp only [Bank.get_map]
  exact ⟨h.mode, h.trap, h.quiet, h.next⟩

/-! ## Outlet links -/

/-- `Same`, the outlets apart. -/
abbrev Near (s t : State) : Prop := Same { s with outlets := t.outlets } t

theorem Same.setOutlets {s t : State} (h : Same s t) (b : Bank 8 Outlet) : Same { s with outlets := b } { t with outlets := b } :=
  ⟨⟨⟨h.tb, h.cursor, h.batch, h.sheet, h.cue, h.panel, h.port, h.discard, h.out, h.reset, h.owed, h.free, h.queue, h.enables,
    h.grows, h.counters, id⟩, h.take, h.cores, h.marks⟩, h.ctl⟩

theorem Same.near {s t : State} (h : Same s t) : Near s t := h.setOutlets t.outlets

theorem Near.trans {s t u : State} (a : Near s t) (b : Near t u) : Near s u :=
  Same.trans (t := { t with outlets := u.outlets }) (a.setOutlets u.outlets) b

theorem State.near_onOutlet (o : Fin 8) (f : Outlet → Outlet) (s : State) : Near s (s.onOutlet o f) := Same.refl _

theorem Near.same {s t : State} (h : Near s t) (ok : OutletsOk s → OutletsOk t) : Same s t :=
  ⟨⟨⟨h.tb, h.cursor, h.batch, h.sheet, h.cue, h.panel, h.port, h.discard, h.out, h.reset, h.owed, h.free, h.queue, h.enables,
    h.grows, h.counters, ok⟩, h.take, h.cores, h.marks⟩, h.ctl⟩

theorem State.outlet_loseCue_other (o p : Fin 8) (h : p ≠ o) (s : State) : (s.loseCue o).outlet p = s.outlet p := by
  have hf : ∀ (k : Nat) (f : Event → Event) (r : EventRef) (u : State),
      (u.firingAction k (State.onEvent r f)).outlets = u.outlets := by
    intro k f r u
    simp only [State.firingAction]
    split <;> rfl
  simp only [State.loseCue]
  split
  · rfl
  · simp only [State.outlet, hf]
    exact Bank.get_modify_other _ h _

theorem State.outlet_onOutlet_other (o p : Fin 8) (h : p ≠ o) (f : Outlet → Outlet) (s : State) :
    (s.onOutlet o f).outlet p = s.outlet p := by
  rw [State.outlet_onOutlet, if_neg h]

/-- The record of an outlet whose cue goes back to its waiting list, where there is room (R130, R131). -/
def Outlet.relisted (c : CuedRef) (x : Outlet) : Outlet :=
  { x.dropCue with waiting := if x.waiting.length < 4 then x.waiting ++ [⟨c.ref, c.key⟩] else x.waiting }

theorem State.relist_outlet (o : Fin 8) (c : CuedRef) (s : State) :
    ((s.loseCue o).relist o c).outlet o = (s.outlet o).relisted c := by
  simp only [State.relist, State.outlet_onOutlet, if_pos, State.loseCue_outlet, Outlet.relisted]
  have : Config.waitingSize = 4 := rfl
  rw [this]
  split <;> simp_all [Outlet.dropCue]

theorem State.relist_outlet_other (o p : Fin 8) (h : p ≠ o) (c : CuedRef) (s : State) :
    ((s.loseCue o).relist o c).outlet p = s.outlet p := by
  rw [State.relist, State.outlet_onOutlet_other o p h, State.outlet_loseCue_other o p h]

/-- The cue is lost and joins the waiting list again where there is room (R130, R131). -/
theorem OutletOk.relisted {x : Outlet} (h : OutletOk x) {c : CuedRef} (hc : x.cued = some c) : OutletOk (x.relisted c) := by
  have hw := h.held c hc
  refine ⟨h.queue, ?_, ?_, h.sending, fun r hr => ?_, fun ho => ⟨rfl, (h.off ?_).2⟩⟩
  · show (if x.waiting.length < 4 then _ else _ : List Waiting).length ≤ 4
    have := h.waiting
    split
    · simp; omega
    · exact this
  · show ((if x.waiting.length < 4 then _ else _ : List Waiting).map Waiting.ref).Nodup
    split
    · rw [List.map_append, List.nodup_append]
      refine ⟨h.nodup, by simp, fun a ha b hb => ?_⟩
      simp only [List.map_cons, List.map_nil, List.mem_singleton] at hb
      subst hb
      exact fun e => hw (e ▸ ha)
    · exact h.nodup
  · simp [Outlet.relisted, Outlet.dropCue] at hr
  · exact (Outlet.off_iff x).2 ((Outlet.off_iff (x.relisted c)).1 ho)

/-- The cued reference as a SHOW of `ev` is sent (R126, R130). -/
def Outlet.againstShow (ev : Option EventRef) (x : Outlet) : Outlet :=
  match x.cued with
  | none => x
  | some c => if ev = some c.ref then x.dropCue else if x.kind = .clip then x.relisted c else x

/-- The references as a frame is sent (R126). -/
def Outlet.sentBy (f : Frame) (x : Outlet) : Outlet :=
  match f.command with
  | .showFrame => { x.againstShow f.event with playing := f.event }
  | .clear => { x with playing := none }
  | _ => x

theorem State.frameSent_spec (o : Fin 8) (f : Frame) (s : State) :
    Near s (s.frameSent o f) ∧ (s.frameSent o f).outlet o = (s.outlet o).sentBy f
      ∧ ∀ p, p ≠ o → (s.frameSent o f).outlet p = s.outlet p := by
  have against : ∀ ev, Near s (s.showAgainstCue o ev) ∧ (s.showAgainstCue o ev).outlet o = (s.outlet o).againstShow ev
      ∧ ∀ p, p ≠ o → (s.showAgainstCue o ev).outlet p = s.outlet p := by
    intro ev
    simp only [State.showAgainstCue, Outlet.againstShow]
    cases hc : (s.outlet o).cued with
    | none => exact ⟨Same.refl _, rfl, fun _ _ => rfl⟩
    | some c =>
      simp only
      split_ifs
      · exact ⟨(State.same_loseCue o s).near, State.loseCue_outlet o s, fun p hp => State.outlet_loseCue_other o p hp s⟩
      · exact ⟨(State.same_loseCue o s).near.trans (State.near_onOutlet _ _ _), State.relist_outlet o c s,
          fun p hp => State.relist_outlet_other o p hp c s⟩
      · exact ⟨Same.refl _, rfl, fun _ _ => rfl⟩
  simp only [State.frameSent, Outlet.sentBy]
  split
  · obtain ⟨a, b, c⟩ := against f.event
    exact ⟨a.trans (State.near_onOutlet _ _ _), by simp only [State.outlet_onOutlet, if_pos, *],
      fun p hp => by rw [State.outlet_onOutlet_other o p hp, c p hp]⟩
  · exact ⟨State.near_onOutlet _ _ _, by simp only [State.outlet_onOutlet, if_pos, *],
      fun p hp => State.outlet_onOutlet_other o p hp _ s⟩
  · next h1 h2 => exact ⟨Same.refl _, by first | rfl | (split <;> simp_all), fun _ _ => rfl⟩

theorem State.outlets_judgeEnd (s : State) : s.judgeEnd.outlets = s.outlets := by
  simp only [State.judgeEnd, State.requestTake]; split <;> [split; skip] <;> rfl

theorem State.outlets_markDegraded (k : Nat) (s : State) : (s.markDegraded k).outlets = s.outlets := by
  simp only [State.markDegraded]
  split
  · rfl
  · split <;> rfl

theorem State.outlets_raiseVector (v : FaultVector) (s : State) : (s.raiseVector v).outlets = s.outlets := by
  simp only [State.raiseVector]
  split
  · rfl
  · split
    · rfl
    · split <;> rfl

theorem State.outlets_leadLost (s : State) : s.leadLost.outlets = s.outlets := by
  simp only [State.leadLost]
  split
  · rfl
  · split
    · rw [State.outlets_markDegraded]; rfl
    · rw [State.outlets_raiseVector, State.outlets_markDegraded]; rfl

/-- A lead report leaves every outlet as it is. -/
theorem State.outlets_leadReport (r : LeadReport) (s : State) : (s.leadReport r).outlets = s.outlets := by
  simp only [State.leadReport]
  split <;> first | rfl | (rw [State.outlets_judgeEnd]; first | rfl | exact State.outlets_leadLost s)

theorem State.leadSent_spec (o : Fin 8) (f : Frame) (s : State) : Same s (s.leadSent o f) ∧ (s.leadSent o f).outlets = s.outlets := by
  simp only [State.leadSent]
  split
  · split
    · split
      · exact ⟨(State.same_watch s _).trans (State.same_leadReport _ _), State.outlets_leadReport _ _⟩
      · exact ⟨State.same_watch s _, rfl⟩
    · exact ⟨.refl s, rfl⟩
  · exact ⟨.refl s, rfl⟩

theorem OutletOk.rest {x : Outlet} (h : OutletOk x) {f : Frame} {rest : List Frame} (hq : x.queue = f :: rest)
    {m : Option LinkRate} (hm : m.isSome = true ↔ rest ≠ []) : OutletOk { x with queue := rest, sending := m } :=
  h.of_eq (by have := h.queue; rw [hq] at this; simp at this; show rest.length ≤ 8; omega) rfl hm (.inl rfl) fun ho => by
    have := h.off ((Outlet.off_iff x).2 ho)
    refine ⟨this.1, this.2.1, .inl ?_⟩
    rcases this.2.2 with e | e <;> rw [hq] at e
    · cases e
    · exact (List.cons.inj e).2

theorem OutletOk.againstShow {x : Outlet} (h : OutletOk x) (ev : Option EventRef) : OutletOk (x.againstShow ev) := by
  simp only [Outlet.againstShow]
  split
  · exact h
  · next c hc =>
    split_ifs
    · exact h.noCue
    · exact h.relisted hc
    · exact h

theorem Outlet.againstShow_fields (x : Outlet) (ev : Option EventRef) : (x.againstShow ev).queue = x.queue
    ∧ (x.againstShow ev).sending = x.sending ∧ (x.againstShow ev).enabled = x.enabled ∧ (x.againstShow ev).ready = x.ready
    ∧ (x.againstShow ev).resetHold = x.resetHold ∧ (x.againstShow ev).rate = x.rate := by
  simp only [Outlet.againstShow]
  split
  · exact ⟨rfl, rfl, rfl, rfl, rfl, rfl⟩
  · split_ifs <;> exact ⟨rfl, rfl, rfl, rfl, rfl, rfl⟩

/-- The record after its head frame is sent and the next has started is within its bounds. -/
theorem OutletOk.sent {x : Outlet} (h : OutletOk x) {f : Frame} {rest : List Frame} (hq : x.queue = f :: rest) :
    OutletOk (({ x with queue := rest, sending := none } : Outlet).sentBy f).sendStart := by
  have start : ∀ y : Outlet, y.queue = rest → y.sending = none → (∀ m, (m.isSome = true ↔ rest ≠ []) →
      OutletOk { y with sending := m }) → OutletOk y.sendStart := by
    intro y yq ys ok
    simp only [Outlet.sendStart]
    split
    · next hs => exact ok _ (by simp; exact fun e => hs.2 (yq.trans e))
    · next hs =>
      have nil : rest = [] := by
        by_contra hn
        exact hs ⟨ys, fun e => hn (yq ▸ e)⟩
      have := ok none (by simp [nil])
      rwa [show ({ y with sending := none } : Outlet) = y by cases y; simp_all] at this
  have base : ∀ m : Option LinkRate, (m.isSome = true ↔ rest ≠ []) → OutletOk { x with queue := rest, sending := m } :=
    fun m hm => h.rest hq hm
  simp only [Outlet.sentBy]
  split
  · next hc =>
    have fl := Outlet.againstShow_fields { x with queue := rest, sending := none } f.event
    refine start _ fl.1 fl.2.1 fun m hm => ?_
    have ok := (base m hm).againstShow f.event
    have fl2 := Outlet.againstShow_fields { x with queue := rest, sending := m } f.event
    have same : ({ x with queue := rest, sending := m } : Outlet).againstShow f.event
        = { ({ x with queue := rest, sending := none } : Outlet).againstShow f.event with sending := m } := by
      simp only [Outlet.againstShow]
      cases x.cued with
      | none => rfl
      | some c => simp only; split_ifs <;> rfl
    rw [same] at ok
    have on : ¬(x.enabled = false ∨ x.ready = false ∨ x.resetHold = true) := fun ho => by
      rcases (h.off ((Outlet.off_iff x).2 ho)).2.2 with e | e <;> rw [hq] at e
      · cases e
      · rw [(List.cons.inj e).1] at hc; cases hc
    refine ok.of_eq ok.queue rfl ok.sending (.inl rfl) fun ho => absurd ?_ on
    have ho' : (({ x with queue := rest, sending := none } : Outlet).againstShow f.event).enabled = false
        ∨ (({ x with queue := rest, sending := none } : Outlet).againstShow f.event).ready = false
        ∨ (({ x with queue := rest, sending := none } : Outlet).againstShow f.event).resetHold = true := ho
    rwa [fl.2.2.1, fl.2.2.2.1, fl.2.2.2.2.1] at ho'
  · refine start _ rfl rfl fun m hm => (base m hm).of_eq (base m hm).queue rfl (base m hm).sending (.inl rfl) fun ho => ?_
    have := (base m hm).off ((Outlet.off_iff _).2 ho)
    exact ⟨this.1, rfl, this.2.2⟩
  · exact start _ rfl rfl base

/-- The frame sent, as far as the start of the next frame: the outlet's record, and nothing else of the outlets. -/
def State.sentStart (o : Fin 8) (f : Frame) (rest : List Frame) (s : State) : State :=
  (((s.onOutlet o fun x => { x with queue := rest, sending := none }).frameSent o f).leadSent o f).onOutlet o Outlet.sendStart

theorem State.sentStart_spec (o : Fin 8) (f : Frame) (rest : List Frame) (s : State) :
    Near s (s.sentStart o f rest)
      ∧ (s.sentStart o f rest).outlet o = (({ s.outlet o with queue := rest, sending := none } : Outlet).sentBy f).sendStart
      ∧ ∀ p, p ≠ o → (s.sentStart o f rest).outlet p = s.outlet p := by
  simp only [State.sentStart]
  have h1 := State.near_onOutlet o (fun x => { x with queue := rest, sending := none }) s
  have e1 : (s.onOutlet o fun x => { x with queue := rest, sending := none }).outlet o = { s.outlet o with queue := rest, sending := none } := by
    rw [State.outlet_onOutlet, if_pos rfl]
  have e2 : ∀ p, p ≠ o → (s.onOutlet o fun x => { x with queue := rest, sending := none }).outlet p = s.outlet p :=
    fun p hp => State.outlet_onOutlet_other o p hp _ s
  generalize (s.onOutlet o fun x => { x with queue := rest, sending := none }) = s1 at h1 e1 e2
  have h2 := State.frameSent_spec o f s1
  generalize s1.frameSent o f = s2 at h2
  have h3 := State.leadSent_spec o f s2
  generalize s2.leadSent o f = s3 at h3
  have e3 : ∀ p, s3.outlet p = s2.outlet p := fun p => by simp only [State.outlet, h3.2]
  refine ⟨((h1.trans h2.1).trans h3.1.near).trans (State.near_onOutlet _ _ _), ?_, fun p hp => ?_⟩
  · rw [State.outlet_onOutlet, if_pos rfl, e3, h2.2.1, e1]
  · rw [State.outlet_onOutlet_other o p hp, e3, h2.2.2 p hp, e2 p hp]

theorem State.same_sendComplete (o : Fin 8) (s : State) : Same s (s.sendComplete o) := by
  simp only [State.sendComplete]
  split
  · next m f rest hs hq =>
    have sp := State.sentStart_spec o f rest s
    refine Same.trans (t := s.sentStart o f rest) (sp.1.same fun ok p => ?_) (State.same_serveHead none o _)
    by_cases hp : p = o
    · subst hp; rw [sp.2.1]; exact (ok p).sent hq
    · rw [sp.2.2 p hp]; exact ok p
  · exact .refl s

/-! ## READY and TALLY -/

theorem OutletOk.flush {x : Outlet} (h : OutletOk x) : OutletOk x.flush where
  queue := Nat.zero_le _
  waiting := h.waiting
  nodup := h.nodup
  sending := by simp [Outlet.flush]
  held := h.held
  off ho := ⟨(h.off ((Outlet.off_iff x).2 ((Outlet.off_iff x.flush).1 ho))).1,
    (h.off ((Outlet.off_iff x).2 ((Outlet.off_iff x.flush).1 ho))).2.1, .inl rfl⟩

/-- The fall of READY on an enabled outlet out of its reset hold: its record, nothing queued, cued or playing (R131). -/
def Outlet.fallen (x : Outlet) : Outlet :=
  { (match x.flush.cued with | some c => x.flush.relisted c | none => x.flush) with playing := none }

theorem State.outletFell_spec (o : Fin 8) (s : State) :
    Near s (s.outletFell o) ∧ (s.outletFell o).outlet o = (s.outlet o).fallen
      ∧ ∀ p, p ≠ o → (s.outletFell o).outlet p = s.outlet p := by
  simp only [State.outletFell]
  have h1 := State.near_onOutlet o Outlet.flush s
  have e1 : (s.onOutlet o Outlet.flush).outlet o = (s.outlet o).flush := by rw [State.outlet_onOutlet, if_pos rfl]
  have e2 : ∀ p, p ≠ o → (s.onOutlet o Outlet.flush).outlet p = s.outlet p := fun p hp => State.outlet_onOutlet_other o p hp _ s
  generalize s.onOutlet o Outlet.flush = s1 at h1 e1 e2
  have wl : ∀ u : State, Same u (u.watchLost o) ∧ (u.watchLost o).outlets = u.outlets := by
    intro u
    refine ⟨State.same_watchLost o u, ?_⟩
    simp only [State.watchLost]
    split
    · split
      · rw [State.outlets_leadReport]
      · rfl
    · rfl
  have fin : ∀ s2 : State, Near s s2 → (∀ p, p ≠ o → s2.outlet p = s.outlet p) →
      Near s ((s2.onOutlet o fun x => { x with playing := none }).watchLost o)
      ∧ ((s2.onOutlet o fun x => { x with playing := none }).watchLost o).outlet o = { s2.outlet o with playing := none }
      ∧ ∀ p, p ≠ o → ((s2.onOutlet o fun x => { x with playing := none }).watchLost o).outlet p = s.outlet p := by
    intro s2 n2 r2
    have w := wl (s2.onOutlet o fun x => { x with playing := none })
    refine ⟨(n2.trans (State.near_onOutlet _ _ _)).trans w.1.near, ?_, fun p hp => ?_⟩
    · simp only [State.outlet, w.2]; exact Bank.get_modify_same _ _ _
    · simp only [State.outlet, w.2]
      exact (Bank.get_modify_other _ hp _).trans (r2 p hp)
  rw [e1]
  simp only [Outlet.fallen]
  cases hc : (s.outlet o).flush.cued with
  | none =>
    have := fin s1 h1 e2
    rw [e1] at this
    exact this
  | some c =>
    have := fin ((s1.loseCue o).relist o c)
      (h1.trans ((State.same_loseCue o s1).near.trans (State.near_onOutlet _ _ _)))
      fun p hp => (State.relist_outlet_other o p hp c s1).trans (e2 p hp)
    rw [State.relist_outlet, e1] at this
    exact this

theorem State.same_readyFell (o : Fin 8) (s : State) : Same s (s.readyFell o) := by
  have lt := (State.near_onOutlet o (fun x => { x with ready := false, readyChanged := true }) s).trans
    (State.same_raise classOutlet (s.onOutlet o fun x => { x with ready := false, readyChanged := true })).near
  have e1 : (s.latchReady o false).outlet o = { s.outlet o with ready := false, readyChanged := true } :=
    (State.outlet_onOutlet _ _ _ _).trans (if_pos rfl)
  have e2 : ∀ p, p ≠ o → (s.latchReady o false).outlet p = s.outlet p := fun p hp => State.outlet_onOutlet_other o p hp _ s
  simp only [State.readyFell]
  split
  · exact .refl s
  · split
    · exact State.same_onOutlet o s fun _ => OutletOk.reset _ _
    · split
      · have sp := State.outletFell_spec o (s.latchReady o false)
        refine (Near.trans lt sp.1).same fun ok p => ?_
        by_cases hp : p = o
        · subst hp
          rw [sp.2.1, e1]
          have fl := (ok p).flush
          have fin : ∀ y : Outlet, OutletOk y → y.cued = none → y.queue = [] → ∀ z : Outlet, z.queue = y.queue →
              z.waiting = y.waiting → z.sending = y.sending → z.cued = none → z.playing = none → OutletOk z := by
            intro y hy _ q z zq zw zs zc zp
            exact hy.of_eq (by rw [zq]; exact hy.queue) zw (by rw [zq, zs]; exact hy.sending) (.inr zc)
              fun _ => ⟨zc, zp, .inl (zq.trans q)⟩
          cases hc : (s.outlet p).cued with
          | none =>
            refine fin (s.outlet p).flush fl hc rfl _ ?_ ?_ ?_ ?_ rfl <;> simp [Outlet.fallen, Outlet.flush, hc]
          | some c =>
            refine fin ((s.outlet p).flush.relisted c) (fl.relisted hc) rfl rfl _ ?_ ?_ ?_ ?_ rfl <;>
              simp [Outlet.fallen, Outlet.flush, Outlet.relisted, Outlet.dropCue, hc]
        · rw [sp.2.2 p hp, e2 p hp]; exact ok p
      · next hr hi hc =>
        refine Near.same lt fun ok p => ?_
        by_cases hp : p = o
        · subst hp
          have off := (ok p).off ((Outlet.off_iff _).2 (by
            cases he : (s.outlet p).enabled with
            | false => exact .inl rfl
            | true =>
              cases hh : (s.outlet p).resetHold with
              | true => exact .inr (.inr rfl)
              | false => exact absurd ⟨he, hh⟩ hc))
          show OutletOk ((s.latchReady p false).outlet p)
          rw [e1]
          exact (ok p).of_eq (ok p).queue rfl (ok p).sending (.inl rfl) fun _ => off
        · show OutletOk ((s.latchReady o false).outlet p)
          rw [e2 p hp]; exact ok p

theorem State.same_readyRose (o : Fin 8) (s : State) : Same s (s.readyRose o) := by
  simp only [State.readyRose]
  split
  · exact .refl s
  · split
    · exact State.same_onOutlet o s fun _ => OutletOk.reset _ _
    · refine ((State.same_onOutlet o s fun ok => ?_).trans (State.same_raise classOutlet _)).trans (State.same_serveHead none o _)
      next hr _ =>
      have off := (ok o).off ((Outlet.off_iff _).2 (.inr (.inl (by simpa using hr))))
      exact (ok o).of_eq (ok o).queue rfl (ok o).sending (.inl rfl) fun _ => off

theorem State.same_latchTally (o : Fin 8) (v : Bool) (s : State) : Same s (s.latchTally o v) :=
  (State.same_onOutlet o s fun ok => (ok o).latches rfl rfl rfl rfl rfl rfl rfl rfl).trans (State.same_raise classOutlet _)

theorem State.same_leadRose (o : Fin 8) (s : State) : Same s (s.leadRose o) := by
  simp only [State.leadRose]
  split
  · exact Same.ite ((State.same_watch s _).trans (State.same_leadReport _ _)) (.refl s)
  · exact .refl s

theorem State.same_leadFell (o : Fin 8) (s : State) : Same s (s.leadFell o) := by
  simp only [State.leadFell]
  split
  · exact Same.ite ((State.same_watch s _).trans (State.same_leadReport _ _)) (.refl s)
  · exact .refl s

theorem State.same_tallyRose (o : Fin 8) (s : State) : Same s (s.tallyRose o) := by
  simp only [State.tallyRose]
  refine Same.ite (.refl s) (Same.ite (State.same_onOutlet o s fun _ => OutletOk.reset _ _) ?_)
  exact Same.ite ((State.same_latchTally o _ s).trans (State.same_leadRose o _)) (State.same_latchTally o _ s)

theorem State.same_tallyFell (o : Fin 8) (s : State) : Same s (s.tallyFell o) := by
  simp only [State.tallyFell]
  refine Same.ite (.refl s) (Same.ite (State.same_onOutlet o s fun _ => OutletOk.reset _ _) ?_)
  have h := (State.same_latchTally o false s).trans (State.same_leadFell o _)
  exact Same.ite (Same.ite (h.trans (State.same_serveHead none o _)) h) (State.same_latchTally o _ s)

/-! ## The panel lines, the boundaries and the pulses -/

theorem State.sound_panelLine (n : Fin 4) (v : Bool) (s : State) : Sound s (s.panelLine n v) := by
  simp only [State.panelLine]
  refine Sound.ite (.refl s) (Sound.ite (State.sound_onInput n s fun _ =>
    ⟨by simp [Input.reset], by simp [Input.reset], by simp [Input.reset], by simp [Input.reset]⟩) ?_)
  have h := State.sound_onInput (f := fun x => { x with line := v }) n s fun ok =>
    ⟨(ok n).mode, (ok n).trap, (ok n).quiet, (ok n).next⟩
  exact Sound.ite (h.trans (State.sound_takeLevel n _)) h

theorem State.sound_beforeBoundary (s : State) : Sound s s.beforeBoundary :=
  (State.sound_takeInHand s).trans (State.sound_settle _)

theorem State.sound_frameBoundary (early : List BoundaryPart) (s : State) : Sound s (s.frameBoundary early) := by
  simp only [State.frameBoundary]
  exact Sound.ite (.refl s) ((State.sound_beforeBoundary s).trans (State.sound_boundary _ _ _))

theorem State.sound_syncPulse (gap : Nat) (early : List BoundaryPart) (s : State) : Sound s (s.syncPulse gap early) := by
  simp only [State.syncPulse]
  refine Sound.ite (.refl s) ((State.sound_beforeBoundary s).trans ?_)
  generalize s.beforeBoundary = u
  refine Sound.trans ?_ (State.sound_judgePulse _ _ _)
  exact State.sound_onTb (f := fun t => { t with now := t.now + gap }) u fun h =>
    ⟨h.house, h.load, h.both, h.trim, h.count, h.free, h.glitches, h.measured⟩

theorem State.sound_lossLimit (early : List BoundaryPart) (s : State) : Sound s (s.lossLimit early) := by
  simp only [State.lossLimit]
  refine Sound.ite (.refl s) ((State.sound_beforeBoundary s).trans ?_)
  generalize s.beforeBoundary = u
  refine Sound.trans (Sound.trans ?_ (State.sound_raise classTimebase _)) (State.sound_boundary _ _ _)
  exact State.sound_onTb (f := fun t => { t with ref := .holdover, runPeriod := t.measured }) u fun h =>
    ⟨h.house, h.load, h.both, h.trim, h.count, by simp, h.glitches, h.measured⟩

theorem State.sound_displaySent (s : State) : Sound s (s.onCue CueUnit.sendComplete) :=
  State.sound_onCue s fun h => h.sendComplete

theorem State.sound_idle (s : State) : Sound s s.idle := by
  simp only [State.idle]
  split
  · exact State.sound_takeInHand s
  · exact Sound.ite (.refl s) (State.sound_settle s)

end Sys2Proof.Machine
end

