-- ==== Sys2Proof/Laws/LinksCtl.lean ====
section
/-! SUPPORT. The operations on cues and links leave the whole of the Show Controller's state as it was; what moving NEXT, opening and
closing do to it, exactly. -/
namespace Sys2Proof.Machine

theorem ctl_foldl {α : Type} {f : State → α → State} (h : ∀ s a, (f s a).ctl = s.ctl) (l : List α) (s : State) :
    (l.foldl f s).ctl = s.ctl := by
  induction l generalizing s with
  | nil => rfl
  | cons a l ih => exact (ih _).trans (h s a)

theorem State.ctl_firingAction {f : State → State} (k : Nat) (s : State) (h : (f s).ctl = s.ctl) :
    (s.firingAction k f).ctl = s.ctl := by
  simp only [State.firingAction]; split
  · exact h
  · exact h

theorem State.ctl_queueFrame (o : Fin 8) (f : Frame) (s : State) : (s.queueFrame o f).ctl = s.ctl := by
  simp only [State.queueFrame]; split <;> rfl

theorem State.ctl_holdCue (o : Fin 8) (w : Waiting) (s : State) : (s.holdCue o w).ctl = s.ctl := by
  simp only [State.holdCue]
  exact State.ctl_queueFrame _ _ _

theorem State.ctl_serveHead (own : Option Nat) (o : Fin 8) (s : State) : (s.serveHead own o).ctl = s.ctl := by
  simp only [State.serveHead]
  split
  · split
    · rfl
    · split
      · exact State.ctl_holdCue _ _ _
      · exact State.ctl_firingAction _ _ (State.ctl_holdCue _ _ _)
  · rfl

theorem State.ctl_serveAll (s : State) : s.serveAll.ctl = s.ctl :=
  ctl_foldl (fun s o => State.ctl_serveHead none o s) _ s

theorem State.ctl_cueRequest (own : Option Nat) (r : EventRef) (o : Fin 8) (k : Nat) (s : State) :
    (s.cueRequest own r o k).ctl = s.ctl := by
  simp only [State.cueRequest]
  split
  · rfl
  · split
    · exact State.ctl_holdCue _ _ _
    · split
      · exact State.ctl_serveHead _ _ _
      · rfl

theorem State.ctl_uncue (o : Fin 8) (c : CuedRef) (s : State) : (s.uncue o c).ctl = s.ctl := State.ctl_queueFrame _ _ _

theorem State.ctl_withdrawAt (r : EventRef) (s : State) (o : Fin 8) : (s.withdrawAt r o).ctl = s.ctl := by
  simp only [State.withdrawAt]
  split
  · split
    · exact State.ctl_uncue _ _ _
    · rfl
  · rfl

theorem State.ctl_withdrawCue (r : EventRef) (s : State) : (s.withdrawCue r).ctl = s.ctl :=
  ctl_foldl (State.ctl_withdrawAt r) _ s

theorem State.ctl_releaseCue (r : EventRef) (s : State) : (s.releaseCue r).ctl = s.ctl :=
  (State.ctl_serveAll _).trans (State.ctl_withdrawCue r s)

theorem State.ctl_releaseAction (r : EventRef) (s : State) : (s.releaseAction r).ctl = s.ctl :=
  (State.ctl_serveAll _).trans (State.ctl_firingAction _ _ (State.ctl_withdrawCue _ _))

theorem State.ctl_releaseStandbys (k : Nat) (s : State) : (s.releaseStandbys k).ctl = s.ctl :=
  ctl_foldl (fun s r => State.ctl_releaseAction r s) _ (s.unlistItem k)

theorem State.ctl_requestStandby (r : EventRef) (s : State) : (s.requestStandby r).ctl = s.ctl := by
  simp only [State.requestStandby]
  split
  · rfl
  · split
    · exact State.ctl_firingAction _ _ (State.ctl_cueRequest _ _ _ _ _)
    · rfl

theorem State.ctl_requestStandbys (k : Nat) (s : State) : (s.requestStandbys k).ctl = s.ctl :=
  ctl_foldl (fun s r => State.ctl_requestStandby r s) _ s

theorem State.ctl_dropCuesAt (b : Bool) (s : State) (o : Fin 8) : (s.dropCuesAt b o).ctl = s.ctl := by
  simp only [State.dropCuesAt]
  split
  · rfl
  · refine (State.ctl_firingAction _ _ rfl).trans ?_
    split
    · exact (congrArg State.ctl rfl).trans (State.ctl_queueFrame _ _ _)
    · rfl

theorem State.ctl_dropCues (b : Bool) (s : State) : (s.dropCues b).ctl = s.ctl := ctl_foldl (State.ctl_dropCuesAt b) _ s

/-- Moving NEXT writes NEXT and the pin alone (R57). -/
theorem State.ctl_moveNext (n : Option Nat) (pin : Bool) (taken : Option Nat) (s : State) :
    (s.moveNext n pin taken).ctl = { s.ctl with next := n, pinned := pin } := by
  simp only [State.moveNext]
  have step : ∀ u : State, u.ctl = { s.ctl with next := n, pinned := pin } →
      (match n with | some k => u.requestStandbys k | none => u).ctl = { s.ctl with next := n, pinned := pin } := by
    intro u h
    split
    · exact (State.ctl_requestStandbys _ _).trans h
    · exact h
  split
  · rfl
  · refine step _ ?_
    split
    · split
      · rfl
      · exact State.ctl_releaseStandbys _ _
    · rfl

/-- Deriving NEXT writes NEXT and the pin alone (R56). -/
theorem State.ctl_derived (taken : Option Nat) (s : State) :
    (s.deriveNext taken).ctl = { s.ctl with next := s.derivedNext.1, pinned := s.derivedNext.2 } := State.ctl_moveNext _ _ _ s

/-- Entering CLOSED empties the Show Controller's records (R53). -/
theorem State.ctl_enterClosed (s : State) : s.enterClosed.ctl = { s.ctl.emptied with state := .closed, onAir := none } := by
  rw [State.enterClosed, State.raise_ctl, State.ctl_dropCues, State.onCtl_ctl]

end Sys2Proof.Machine
end

