-- ==== Sys2Proof/Laws/Boundary.lean ====
section
/-! SUPPORT. What the parts of a boundary, and the boundary itself, leave as they were. -/
namespace Sys2Proof.Machine

/-- The Timebase, the staging area, the port and the queue of commands have not moved. -/
structure Steady (s t : State) : Prop where
  tb : t.tb = s.tb
  batch : t.batch = s.batch
  port : t.port = s.port
  discard : t.discard = s.discard
  out : t.dataOut = s.dataOut
  reset : t.inReset = s.inReset
  free : t.freeIndex = s.freeIndex
  queue : t.pending = s.pending
  enables : t.notices.enables = s.notices.enables

theorem Steady.refl (s : State) : Steady s s := ⟨rfl, rfl, rfl, rfl, rfl, rfl, rfl, rfl, rfl⟩
theorem Steady.trans {s t u : State} (a : Steady s t) (b : Steady t u) : Steady s u :=
  ⟨b.tb.trans a.tb, b.batch.trans a.batch, b.port.trans a.port, b.discard.trans a.discard, b.out.trans a.out,
    b.reset.trans a.reset, b.free.trans a.free, b.queue.trans a.queue, b.enables.trans a.enables⟩

theorem Steady.ite {s a b : State} {c : Prop} [Decidable c] (ha : Steady s a) (hb : Steady s b) : Steady s (if c then a else b) := by
  split
  · exact ha
  · exact hb

theorem Steady.foldl {α : Type} {f : State → α → State} (h : ∀ s a, Steady s (f s a)) (l : List α) (s : State) :
    Steady s (l.foldl f s) := by
  induction l generalizing s with
  | nil => exact .refl s
  | cons a l ih => exact (h s a).trans (ih _)

theorem Still.steady {s t : State} (h : Still s t) : Steady s t :=
  ⟨h.tb, h.batch, h.port, h.discard, h.out, h.reset, h.free, h.queue, h.enables⟩
theorem Same.steady {s t : State} (h : Same s t) : Steady s t := h.toStill.steady

theorem Shows.steady {s t : State} (h : Shows s t) : Steady s t := by
  rw [h.rest]; exact ⟨rfl, rfl, rfl, rfl, rfl, rfl, rfl, rfl, rfl⟩

theorem State.steady_applyChanges (cs : List StoreChange) (s : State) : Steady s (s.applyChanges cs) := by
  obtain ⟨u, st, -, -, -, -, -, -, sh⟩ := State.applyChanges_spec cs s
  exact Steady.trans (t := u) ⟨st.tb, st.batch, st.port, st.discard, st.out, st.reset, st.free, st.queue, st.enables⟩ sh.steady

theorem State.steady_toggleHeld (s : State) : Steady s s.toggleHeld := by
  simp only [State.toggleHeld]
  split
  · next i _ =>
    simp only [State.setHeld]
    have h : Steady s (s.onItem i.key fun j => ({ j with held := !i.held } : Item).bump) := (State.still_onItem _ _ s).steady
    exact Steady.ite h (h.trans (State.same_judgeEnd _).steady)
  · exact .refl s

theorem State.steady_panelAction (n : Fin 4) (s : State) : Steady s (s.panelAction n) := by
  simp only [State.panelAction]
  split
  · simp only [State.panelTake]; exact Steady.ite (State.still_noteTake _ s).steady (State.same_requestTake _ s).steady
  · exact State.steady_toggleHeld s
  · simp only [State.panelSkip]
    split
    · exact Steady.ite ((State.steady_applyChanges _ s).trans (State.same_raise _ _).steady) (.refl s)
    · exact .refl s
  · exact (Same.foldl State.same_clearGfxOn _ s).steady

theorem State.steady_onInput (n : Fin 4) (f : Input → Input) (s : State) : Steady s (s.onInput n f) :=
  ⟨rfl, rfl, rfl, rfl, rfl, rfl, rfl, rfl, rfl⟩

theorem State.steady_settlePress (n : Fin 4) (s : State) : Steady s (s.settlePress n) := by
  simp only [State.settlePress]
  split
  · exact State.steady_panelAction n s
  · exact ⟨rfl, rfl, rfl, rfl, rfl, rfl, rfl, rfl, rfl⟩
  · split
    · exact ⟨rfl, rfl, rfl, rfl, rfl, rfl, rfl, rfl, rfl⟩
    · exact (State.steady_onInput n _ s).trans (State.same_raise _ _).steady

theorem State.steady_takeLevel (n : Fin 4) (s : State) : Steady s (s.takeLevel n) := by
  simp only [State.takeLevel]
  refine Steady.ite (.refl s) (Steady.ite (Steady.trans (State.steady_onInput n _ s) (State.steady_settlePress n _))
    (State.steady_onInput n _ s))

theorem State.steady_partEffect (left : Option Int) (p : BoundaryPart) (s : State) : Steady s (s.partEffect left p) := by
  cases p with
  | sheet => exact (State.shows_formSheet s).steady
  | wheelSlot => exact (State.same_slotFire s).steady.trans (State.shows_reportOwn State.shows_formSheet _ _).steady
  | horizon => exact (State.same_horizonArm s).steady.trans (State.shows_reportOwn State.shows_formSheet _ _).steady
  | leadTimeout =>
    simp only [State.partEffect]
    refine Steady.trans ?_ (State.shows_reportOwn State.shows_formSheet _ _).steady
    simp only [State.expireLead]
    split
    · exact Steady.ite ((State.same_watch s none).trans (State.same_leadReport _ _)).steady (.refl s)
    · exact .refl s
  | resetHold o =>
    simp only [State.partEffect, State.endHold]
    split
    · exact Steady.trans (t := s.onOutlet o fun x => { x with resetHold := false }) ⟨rfl, rfl, rfl, rfl, rfl, rfl, rfl, rfl, rfl⟩
        (State.same_serveHead none o _).steady
    · exact .refl s
  | overReached => exact (State.same_judgeOver s).steady
  | hail q => exact (State.shows_hailCount left q s).steady
  | lampStep q => exact (State.shows_lampAdvance q s).steady
  | quiet n =>
    simp only [State.partEffect, State.quietCount]
    exact Steady.ite (.refl s) (Steady.ite ((State.steady_onInput n _ s).trans (State.steady_takeLevel n _)) (State.steady_onInput n _ s))
  | trapWait n =>
    simp only [State.partEffect, State.trapCount]
    split
    · exact .refl s
    · next t _ =>
      refine Steady.ite (State.steady_onInput n _ s) ?_
      have e : ∀ c, Steady s (s.endTrap n t c) := fun c => (State.steady_onInput n _ s).trans (State.same_raise _ _).steady
      simp only [State.lapsePress]
      split
      · exact (e _).trans (State.steady_panelAction n _)
      · exact e _

theorem State.steady_takePartFrom (left : Option Int) (p : BoundaryPart) (s : State) : Steady s (s.takePartFrom left p) := by
  simp only [State.takePartFrom]
  exact Steady.ite (Steady.trans (t := { s with owed := s.owed.erase p }) ⟨rfl, rfl, rfl, rfl, rfl, rfl, rfl, rfl, rfl⟩
    (State.steady_partEffect left p _)) (.refl s)

theorem State.steady_takePart (p : BoundaryPart) (s : State) : Steady s (s.takePart p) := State.steady_takePartFrom _ p s

/-- Settling what a boundary left owed moves neither the Timebase nor the port. -/
theorem State.steady_settle (s : State) : Steady s s.settle :=
  (Steady.foldl (fun s p => State.steady_takePart p s) _ s).trans (State.shows_displayStart _).steady

theorem State.steady_takeOwed (p : BoundaryPart) (s : State) : Steady s (s.takeOwed p) := by
  simp only [State.takeOwed]
  exact Steady.ite ((State.steady_takePart p s).trans (State.shows_displayStart _).steady) (.refl s)

theorem State.steady_showBoundary (s : State) : Steady s s.showBoundary := by
  simp only [State.showBoundary]
  have h := (State.takeOk_judgeTakes s).still.steady
  exact (Steady.ite (h.trans (State.shows_formSheet _).steady) h).trans (State.same_judgeEnd _).steady

/-- A boundary moves the Timebase by its own rule alone, and neither the port nor the staging area (R44). -/
theorem State.boundary_tb (n : Nat) (early : List BoundaryPart) (s : State) :
    (s.boundary n early).tb = s.tb.boundary n ∧ Steady { s with tb := s.tb.boundary n } (s.boundary n early) := by
  have h0 : Steady { s with tb := s.tb.boundary n } (s.openBoundary n) := ⟨rfl, rfl, rfl, rfl, rfl, rfl, rfl, rfl, rfl⟩
  have h : Steady { s with tb := s.tb.boundary n } (s.boundary n early) := by
    have early_ : ∀ old s, Steady s (State.takeEarly old early s) := fun old s =>
      Steady.foldl (fun s p => Steady.ite (.refl s)
        ((State.steady_takePartFrom _ p s).trans (State.shows_displayStart _).steady)) early s
    have counts : ∀ s, Steady s s.takeCounts := fun s => by
      simp only [State.takeCounts]
      exact Steady.foldl (fun s p => Steady.ite (.refl s) (State.steady_takePart p s)) s.owed s
    simp only [State.boundary]
    exact ((((h0.trans (early_ _ _)).trans (State.steady_showBoundary _)).trans (counts _)).trans
      (State.shows_fillTod _).steady).trans (State.shows_displayStart _).steady
  exact ⟨h.tb, h⟩

/-- With no request in hand, the work before a boundary moves neither the Timebase nor the port. -/
theorem State.steady_beforeBoundary {s : State} (h : ∀ i, s.port ≠ .working i) : Steady s s.beforeBoundary := by
  have : s.takeInHand = s := by
    simp only [State.takeInHand]
  simp only [State.beforeBoundary, this]
  exact State.steady_settle s

end Sys2Proof.Machine
end

