-- ==== Sys2Proof/Laws/Display.lean ====
section
/-! SUPPORT. The display line is never left free with a slot filled (R155): every operation of a command keeps it so. -/
namespace Sys2Proof.Machine

/-- The display clause is kept. -/
def Lit (s t : State) : Prop := DisplayOk s → DisplayOk t

theorem Lit.refl (s : State) : Lit s s := id
theorem Lit.trans {s t u : State} (a : Lit s t) (b : Lit t u) : Lit s u := b ∘ a

theorem Lit.of_cue {s t : State} (c : t.cue = s.cue) (r : t.inReset = s.inReset) : Lit s t := by
  intro h hr hs a
  rw [c] at hs ⊢
  exact h (r ▸ hr) hs a

theorem Still.lit {s t : State} (h : Still s t) : Lit s t := .of_cue h.cue h.reset
theorem Same.lit {s t : State} (h : Same s t) : Lit s t := h.toStill.lit
theorem Lit.started (s t : State) : Lit s t.displayStart := fun _ => State.display_started t
theorem Lit.formed (s t : State) : Lit s t.formSheetNow := Lit.started s _

theorem Lit.reported (before s : State) : Lit s (State.reportOwn State.formSheetNow before s) := by
  simp only [State.reportOwn]
  split
  · exact .refl s
  · exact Lit.formed s s

theorem Lit.ite {s a b : State} {c : Prop} [Decidable c] (ha : Lit s a) (hb : Lit s b) : Lit s (if c then a else b) := by
  split
  · exact ha
  · exact hb

theorem State.lit_applyChanges (cs : List StoreChange) (s t : State) : Lit s (t.applyChanges cs) := Lit.formed _ _

theorem State.lit_toggleHeld (s : State) : Lit s s.toggleHeld := by
  simp only [State.toggleHeld]
  split
  · next i _ =>
    simp only [State.setHeld]
    have h : Lit s (s.onItem i.key fun j => ({ j with held := !i.held } : Item).bump) := .of_cue rfl rfl
    exact Lit.ite h (h.trans (State.same_judgeEnd _).lit)
  · exact .refl s

theorem State.lit_panelAction (n : Fin 4) (s : State) : Lit s (s.panelAction n) := by
  simp only [State.panelAction]
  split
  · simp only [State.panelTake]; exact Lit.ite (State.still_noteTake _ s).lit (State.same_requestTake _ s).lit
  · exact State.lit_toggleHeld s
  · simp only [State.panelSkip]
    split
    · exact Lit.ite ((State.lit_applyChanges _ s s).trans (State.same_raise _ _).lit) (.refl s)
    · exact .refl s
  · exact (Same.foldl State.same_clearGfxOn _ s).lit

theorem State.lit_takeLevel (n : Fin 4) (s : State) : Lit s (s.takeLevel n) := by
  simp only [State.takeLevel]
  refine Lit.ite (.refl s) ?_
  refine Lit.ite (Lit.trans (t := s.onInput n fun x => { x with accepted := x.line, quiet := 3 }) (.of_cue rfl rfl) ?_) (.of_cue rfl rfl)
  simp only [State.settlePress]
  split
  · exact State.lit_panelAction n _
  · exact .of_cue rfl rfl
  · split
    · exact .of_cue rfl rfl
    · exact .of_cue rfl rfl

theorem lit_takenRequest {i : Instr} {f : State → State × Response} {s : State} (h : Lit s (f s).1) :
    Lit s (takenRequest i f s) := by
  simp only [takenRequest]
  exact Lit.ite (h.trans (.of_cue rfl rfl)) (.of_cue rfl rfl)

theorem lit_request {i : Instr} {f : State → State × Response} {s : State} (h : Lit s (f s).1) : Lit s (request i f s) := by
  simp only [request]
  refine Lit.ite (.refl s) ?_
  split
  · exact lit_takenRequest h
  · exact Lit.ite (lit_takenRequest h) (.of_cue rfl rfl)
  · exact .of_cue rfl rfl

theorem State.lit_storeRequest (c : StoreChange) (s : State) : Lit s (s.storeRequest c).1 := by
  simp only [State.storeRequest]
  split
  · simp only [State.stageChange]
    split
    · exact .refl s
    · split
      · exact .refl s
      · exact .of_cue rfl rfl
  · simp only [State.applyNow]
    split
    · exact .refl s
    · exact State.lit_applyChanges _ s s

theorem State.lit_sheetForNext (s t : State) (h : Lit s t) : Lit s (State.sheetForNext s t) := by
  simp only [State.sheetForNext]
  exact Lit.ite h (Lit.formed _ _)

theorem State.lit_setNext (k : Option Nat) (s : State) : Lit s (s.setNext k) := by
  simp only [State.setNext]
  refine State.lit_sheetForNext s _ ?_
  split
  · exact (State.keeps_moveNext _ _ _ s).1.toStill.lit
  · exact ((State.still_onCtl _ s).trans (State.keeps_deriveNext _ _).toStill).lit

theorem State.lit_resetFrom (s t : State) : Lit s t.resetFrom := fun _ _ h => by
  have : t.resetFrom.cue.sending = some (0, .blank) := rfl
  rw [this] at h; exact absurd h (by simp)

/-- Every request's answer keeps the display clause. -/
theorem lit_requestAnswer {i : Instr} {f : State → State × Response} (h : requestAnswer i = some f) (s : State) :
    Lit s (f s).1 := by
  have cue : ∀ t : State, t.cue = s.cue → t.inReset = s.inReset → Lit s t := fun t a b => .of_cue a b
  cases i <;> simp only [requestAnswer, Option.some.injEq, reduceCtorEq] at h <;> subst h
  case getItem => simp only [answerGetItem]; split <;> [exact .refl s; (split <;> exact .refl s)]
  case getItemAt => simp only [answerGetItemAt]; split <;> exact .refl s
  case walk =>
    simp only [answerWalk]
    split
    · exact .refl s
    · split <;> [exact .refl s; exact cue _ rfl rfl]
    · split <;> [exact cue _ rfl rfl; exact .refl s]
  case seek =>
    simp only [answerSeek]
    split_ifs
    · exact cue _ rfl rfl
    · exact .refl s
    · split <;> [exact cue _ rfl rfl; exact .refl s]
    · split <;> [exact cue _ rfl rfl; exact .refl s]
    · exact .refl s
  case getEvents => simp only [answerGetEvents]; split <;> [exact .refl s; (split <;> exact .refl s)]
  case insertItem => exact State.lit_storeRequest _ s
  case modifyItem => exact State.lit_storeRequest _ s
  case moveItem => exact State.lit_storeRequest _ s
  case markItem => exact State.lit_storeRequest _ s
  case addEvent => exact State.lit_storeRequest _ s
  case modifyEvent => exact State.lit_storeRequest _ s
  case removeEvent => exact State.lit_storeRequest _ s
  case retireItem => exact State.lit_storeRequest _ s
  case clearRundown =>
    simp only [answerClearRundown]
    split_ifs <;> [exact .refl s; exact .refl s; exact Lit.formed _ _]
  case recycle =>
    simp only [answerRecycle]
    split
    · exact .refl s
    · split
      · exact .refl s
      · split <;> [exact .refl s; exact Lit.formed _ _]
  case openBatch => simp only [answerOpenBatch]; split <;> [exact .refl s; exact cue _ rfl rfl]
  case commitBatch =>
    simp only [answerCommitBatch]
    split
    · exact .refl s
    · exact cue _ rfl rfl
    · split <;> [exact cue _ rfl rfl; exact State.lit_applyChanges _ _ _]
  case abandonBatch => simp only [answerAbandonBatch]; split <;> [exact .refl s; exact cue _ rfl rfl]
  case openShow => simp only [answerOpenShow]; split <;> [exact Lit.formed _ _; exact .refl s]
  case take => simp only [answerTake]; split_ifs <;> [exact .refl s; exact .refl s; exact (State.same_requestTake _ s).lit]
  case setNext =>
    simp only [answerSetNext]
    split_ifs
    · exact .refl s
    · exact .refl s
    · exact State.lit_setNext _ s
    · split
      · exact .refl s
      · split <;> [exact State.lit_setNext _ s; exact .refl s]
  case hold => simp only [answerHold]; split <;> [exact State.lit_toggleHeld s; exact .refl s]
  case closeShow =>
    simp only [answerCloseShow]
    split <;> [exact Lit.formed _ _; exact Lit.formed _ _; exact .refl s]
  case abortShow => simp only [answerAbortShow]; split <;> [exact .refl s; exact Lit.formed _ _]
  case setVector => simp only [answerSetVector]; split <;> [exact .refl s; (split <;> [exact .refl s; exact cue _ rfl rfl])]
  case setShowEnd =>
    have g : ∀ t, Lit s (s.setShowEnd t) := by
      intro t
      simp only [State.setShowEnd]
      exact Lit.ite (cue _ rfl rfl) (Lit.formed _ _)
    simp only [answerSetShowEnd]
    split_ifs <;> [exact g _; exact .refl s; exact g _; exact .refl s]
  case setWrap => exact Lit.started _ _
  case getShow => exact cue _ rfl rfl
  case getSheet => exact .refl s
  case configureOutlet =>
    simp only [answerConfigureOutlet]
    split <;> [exact (State.same_configureOutlet _ _ _ _ _ s).lit.trans (Lit.reported _ _); exact .refl s]
  case resetOutlet =>
    simp only [answerResetOutlet]
    split
    · refine Lit.trans ?_ (Lit.reported _ _)
      simp only [State.resetOutlet]
      refine Lit.trans ?_ (State.same_raise classOutlet _).lit
      refine Lit.trans ?_ (State.same_watchLost _ _).lit
      exact (State.same_loseCue _ s).lit.trans (.of_cue rfl rfl)
    · exact .refl s
  case ackOutlet => simp only [answerAckOutlet]; split <;> [exact .refl s; (split <;> [exact .refl s; exact cue _ rfl rfl])]
  case getOutlet => simp only [answerGetOutlet]; split <;> exact .refl s
  case setPattern =>
    simp only [answerSetPattern]
    split
    · exact .refl s
    · exact fun ok => ok
  case hailPresenter => simp only [answerHailPresenter]; split <;> [exact Lit.started _ _; exact .refl s]
  case getPresenter => simp only [answerGetPresenter]; split <;> [exact cue _ rfl rfl; exact .refl s]
  case setPanelMode =>
    simp only [answerSetPanelMode]
    split
    · simp only [State.setPanelMode]
      split
      · split <;> exact cue _ rfl rfl
      · exact cue _ rfl rfl
    · exact .refl s
  case verdict =>
    simp only [answerVerdict]
    split
    · split_ifs
      · exact .refl s
      · simp only [State.settleVerdict]
        refine Lit.trans ?_ (t := State.settleVerdict _ _ s) (.of_cue rfl rfl)
        simp only [State.settleVerdict]
        exact Lit.ite (Lit.trans (t := s.onInput _ fun x => { x with trap := none }) (cue _ rfl rfl) (State.lit_panelAction _ _))
          (cue _ rfl rfl)
      · exact .refl s
      · exact .refl s
    · exact .refl s
  case setStandard => simp only [answerSetStandard]; split <;> [exact .refl s; (split <;> [exact .refl s; exact cue _ rfl rfl])]
  case setTime => simp only [answerSetTime]; split_ifs <;> [exact .refl s; exact .refl s; exact cue _ rfl rfl]
  case setTrim => exact cue _ rfl rfl
  case setReference => simp only [answerSetReference]; split <;> [exact cue _ rfl rfl; exact .refl s]
  case getTimebase => exact .refl s
  case readNotices => simp only [answerReadNotices]; split <;> [exact cue _ rfl rfl; exact cue _ rfl rfl; exact .refl s]
  case ackNotices => simp only [answerAckNotices]; split <;> [exact .refl s; exact cue _ rfl rfl]
  case setNoticeEnables => exact cue _ rfl rfl
  case restart => exact State.lit_resetFrom s s

/-! ## The other rows -/

theorem State.lit_takeInHand (s : State) : Lit s s.takeInHand := by
  simp only [State.takeInHand]
  split
  · split
    · next f h => exact lit_takenRequest (lit_requestAnswer h s)
    · exact .refl s
  · exact .refl s

theorem State.lit_endWrite (b : List Byte) (s : State) : Lit s (s.endWrite b) := by
  simp only [State.endWrite]
  split
  · split <;> exact .of_cue rfl rfl
  · exact .of_cue rfl rfl

theorem State.lit_endRead (n : Nat) (s : State) : Lit s (s.endRead n) := by
  simp only [State.endRead]
  split
  · split <;> exact .of_cue rfl rfl
  · exact .of_cue rfl rfl

theorem State.lit_transact (b : List Byte) (s : State) : Lit s (s.transact b) := by
  simp only [State.transact]
  split
  · exact .refl s
  · exact Lit.ite (.of_cue rfl rfl) (Lit.ite (State.lit_endRead _ s) (State.lit_endWrite _ s))

theorem State.lit_passTime (gap : Nat) (s : State) : Lit s (s.passTime gap) := by
  simp only [State.passTime]
  exact Lit.ite (.refl s) (.of_cue rfl rfl)

theorem State.lit_assertReset (s : State) : Lit s s.assertReset := fun _ hr => absurd hr (by simp [State.assertReset])

theorem State.lit_releaseReset (s : State) : Lit s s.releaseReset := Lit.ite (Lit.started _ _) (.refl s)

theorem State.lit_boundary (n : Nat) (early : List BoundaryPart) (s t : State) : Lit s (t.boundary n early) := Lit.started _ _

theorem State.lit_before (s : State) : Lit s s.beforeBoundary := Lit.started _ _

theorem State.lit_frameBoundary (early : List BoundaryPart) (s : State) : Lit s (s.frameBoundary early) := by
  simp only [State.frameBoundary]
  exact Lit.ite (.refl s) (State.lit_boundary _ _ _ _)

theorem State.lit_lossLimit (early : List BoundaryPart) (s : State) : Lit s (s.lossLimit early) := by
  simp only [State.lossLimit]
  exact Lit.ite (.refl s) (State.lit_boundary _ _ _ _)

theorem State.lit_syncPulse (gap : Nat) (early : List BoundaryPart) (s : State) : Lit s (s.syncPulse gap early) := by
  simp only [State.syncPulse]
  refine Lit.ite (.refl s) ((State.lit_before s).trans ?_)
  generalize s.beforeBoundary = u
  refine Lit.trans (t := u.onTb fun t => { t with now := t.now + gap }) (.of_cue rfl rfl) ?_
  simp only [State.judgePulse]
  split
  · exact .refl _
  · simp only [State.acquirePulse]
    split
    · split
      · exact .of_cue rfl rfl
      · exact State.lit_boundary _ _ _ _
    · exact .of_cue rfl rfl
  · simp only [State.lockedPulse]
    exact Lit.ite (.of_cue rfl rfl) (State.lit_boundary _ _ _ _)
  · exact .of_cue rfl rfl

theorem State.lit_takeOwed (p : BoundaryPart) (s : State) : Lit s (s.takeOwed p) := Lit.ite (Lit.started _ _) (.refl s)

theorem State.lit_displaySent (s : State) : Lit s (s.onCue CueUnit.sendComplete) := by
  intro ok hr
  simp only [State.onCue, CueUnit.sendComplete]
  cases hs : s.cue.sending with
  | none => intro _ a; exact ok hr hs a
  | some x => intro h a; exact CueUnit.sendStart_free h a

theorem State.lit_panelLine (n : Fin 4) (v : Bool) (s : State) : Lit s (s.panelLine n v) := by
  simp only [State.panelLine]
  refine Lit.ite (.refl s) (Lit.ite (.of_cue rfl rfl) ?_)
  exact Lit.ite (Lit.trans (t := s.onInput n fun x => { x with line := v }) (.of_cue rfl rfl) (State.lit_takeLevel n _)) (.of_cue rfl rfl)

theorem State.lit_idle (s : State) : Lit s s.idle := by
  simp only [State.idle]
  split
  · exact State.lit_takeInHand s
  · exact Lit.ite (.refl s) (Lit.started _ _)

end Sys2Proof.Machine
end

