-- ==== Sys2Proof/Laws/PerInstr.lean ====
section
/-! SUPPORT. A fact of every command, one lemma a constructor: a well-formed request's body fits a request frame (R177). -/
namespace Sys2Proof.Laws

/-- The body of a well-formed request has at most 250 bytes. -/
def BodyFits.Statement (i : Instr) : Prop :=
  ∀ c body, encodeBody i = some (c, body) → i.wellFormed = true → body.length ≤ 250

/-- A body written out has its length. -/
theorem bodyFits_of_body {i : Instr} {c : Byte} {body : List Byte} (h : encodeBody i = some (c, body))
    (fits : i.wellFormed = true → body.length ≤ 250) : BodyFits.Statement i := by
  intro c' b' e w
  rw [h] at e
  cases e
  exact fits w

/-- A command that is no request has no body. -/
theorem bodyFits_of_none {i : Instr} (h : encodeBody i = none) : BodyFits.Statement i := by
  intro c b e
  rw [h] at e
  cases e

theorem length_keys (keys : List Half) : (keys.flatMap halfBytes).length = 2 * keys.length := by
  induction keys with
  | nil => rfl
  | cons k keys ih => rw [List.flatMap_cons, List.length_append, ih, List.length_cons]; simp only [halfBytes, List.length_cons, List.length_nil]; omega

theorem BodyFits.writeTransaction (w : Write) : Statement (.writeTransaction w) := bodyFits_of_none rfl
theorem BodyFits.readTransaction (clocked : Nat) : Statement (.readTransaction clocked) := bodyFits_of_none rfl
theorem BodyFits.getItem (key : Half) : Statement (.getItem key) := bodyFits_of_body rfl fun _ => by simp [halfBytes]
theorem BodyFits.getItemAt (position : Half) : Statement (.getItemAt position) :=
  bodyFits_of_body rfl fun _ => by simp [halfBytes]
theorem BodyFits.walk : Statement .walk := bodyFits_of_body rfl fun _ => by decide
theorem BodyFits.seek (selector : Byte) (value : Half) : Statement (.seek selector value) :=
  bodyFits_of_body rfl fun _ => by simp [halfBytes]
theorem BodyFits.getEvents (key : Half) : Statement (.getEvents key) :=
  bodyFits_of_body rfl fun _ => by simp [halfBytes]
theorem BodyFits.insertItem (b : InsertBody) : Statement (.insertItem b) := by
  refine bodyFits_of_body rfl fun w => ?_
  have w : _ ≤ 250 := of_decide_eq_true w
  simp only [halfBytes, triBytes, List.length_append, List.length_cons, List.length_nil]
  omega
theorem BodyFits.modifyItem (b : ModifyBody) : Statement (.modifyItem b) := by
  refine bodyFits_of_body rfl fun w => ?_
  have w : _ ≤ 250 := of_decide_eq_true w
  simp only [halfBytes, triBytes, List.length_append, List.length_cons, List.length_nil]
  omega
theorem BodyFits.moveItem (key : Half) (after : Half) : Statement (.moveItem key after) :=
  bodyFits_of_body rfl fun _ => by simp [halfBytes]
theorem BodyFits.markItem (key : Half) (mask : Byte) (selector : Byte) : Statement (.markItem key mask selector) :=
  bodyFits_of_body rfl fun _ => by simp [halfBytes]
theorem BodyFits.addEvent (b : AddEventBody) : Statement (.addEvent b) :=
  bodyFits_of_body rfl fun _ => by simp [halfBytes]
theorem BodyFits.modifyEvent (b : ModifyEventBody) : Statement (.modifyEvent b) :=
  bodyFits_of_body rfl fun _ => by simp [halfBytes]
theorem BodyFits.removeEvent (owner : Half) (number : Byte) : Statement (.removeEvent owner number) :=
  bodyFits_of_body rfl fun _ => by simp [halfBytes]
theorem BodyFits.retireItem (key : Half) : Statement (.retireItem key) :=
  bodyFits_of_body rfl fun _ => by simp [halfBytes]
theorem BodyFits.clearRundown : Statement .clearRundown := bodyFits_of_body rfl fun _ => by decide
theorem BodyFits.recycle (adopt : Byte) (keys : List Half) : Statement (.recycle adopt keys) := by
  refine bodyFits_of_body rfl fun w => ?_
  simp only [Instr.wellFormed, Bool.and_eq_true, decide_eq_true_eq] at w
  simp only [List.length_cons, length_keys]
  omega
theorem BodyFits.openBatch : Statement .openBatch := bodyFits_of_body rfl fun _ => by decide
theorem BodyFits.commitBatch : Statement .commitBatch := bodyFits_of_body rfl fun _ => by decide
theorem BodyFits.abandonBatch : Statement .abandonBatch := bodyFits_of_body rfl fun _ => by decide
theorem BodyFits.openShow : Statement .openShow := bodyFits_of_body rfl fun _ => by decide
theorem BodyFits.take : Statement .take := bodyFits_of_body rfl fun _ => by decide
theorem BodyFits.setNext (key : Half) : Statement (.setNext key) := bodyFits_of_body rfl fun _ => by simp [halfBytes]
theorem BodyFits.hold : Statement .hold := bodyFits_of_body rfl fun _ => by decide
theorem BodyFits.closeShow : Statement .closeShow := bodyFits_of_body rfl fun _ => by decide
theorem BodyFits.abortShow : Statement .abortShow := bodyFits_of_body rfl fun _ => by decide
theorem BodyFits.setVector (vector : Byte) (key : Half) : Statement (.setVector vector key) :=
  bodyFits_of_body rfl fun _ => by simp [halfBytes]
theorem BodyFits.setShowEnd (indication : Byte) (time : Tri) : Statement (.setShowEnd indication time) :=
  bodyFits_of_body rfl fun _ => by simp [triBytes]
theorem BodyFits.setWrap (seconds : Byte) : Statement (.setWrap seconds) := bodyFits_of_body rfl fun _ => by simp
theorem BodyFits.getShow : Statement .getShow := bodyFits_of_body rfl fun _ => by decide
theorem BodyFits.getSheet (page : Byte) : Statement (.getSheet page) := bodyFits_of_body rfl fun _ => by simp
theorem BodyFits.configureOutlet (outlet : Byte) (kind : Byte) (enabled : Byte) (preRoll : Half) (rate : Byte)
    : Statement (.configureOutlet outlet kind enabled preRoll rate) := bodyFits_of_body rfl fun _ => by simp [halfBytes]
theorem BodyFits.resetOutlet (outlet : Byte) : Statement (.resetOutlet outlet) := bodyFits_of_body rfl fun _ => by simp
theorem BodyFits.ackOutlet (outlet : Byte) (mask : Byte) : Statement (.ackOutlet outlet mask) :=
  bodyFits_of_body rfl fun _ => by simp
theorem BodyFits.getOutlet (outlet : Byte) : Statement (.getOutlet outlet) := bodyFits_of_body rfl fun _ => by simp
theorem BodyFits.setPattern (lamp : Byte) (pattern : Half) (stepLength : Byte)
    : Statement (.setPattern lamp pattern stepLength) := bodyFits_of_body rfl fun _ => by simp [halfBytes]
theorem BodyFits.hailPresenter (position : Byte) (length : Half) : Statement (.hailPresenter position length) :=
  bodyFits_of_body rfl fun _ => by simp [halfBytes]
theorem BodyFits.getPresenter (position : Byte) : Statement (.getPresenter position) := bodyFits_of_body rfl fun _ => by simp
theorem BodyFits.setPanelMode (input : Byte) (mode : Byte) (lapse : Byte)
    : Statement (.setPanelMode input mode lapse) := bodyFits_of_body rfl fun _ => by simp
theorem BodyFits.verdict (input : Byte) (trap : Byte) (decision : Byte) : Statement (.verdict input trap decision) :=
  bodyFits_of_body rfl fun _ => by simp
theorem BodyFits.setStandard (standard : Byte) : Statement (.setStandard standard) := bodyFits_of_body rfl fun _ => by simp
theorem BodyFits.setTime (frames : Tri) : Statement (.setTime frames) :=
  bodyFits_of_body rfl fun _ => by simp [triBytes]
theorem BodyFits.setTrim (trim : Half) : Statement (.setTrim trim) := bodyFits_of_body rfl fun _ => by simp [halfBytes]
theorem BodyFits.setReference (selection : Byte) : Statement (.setReference selection) := bodyFits_of_body rfl fun _ => by simp
theorem BodyFits.getTimebase : Statement .getTimebase := bodyFits_of_body rfl fun _ => by decide
theorem BodyFits.readNotices (selector : Byte) : Statement (.readNotices selector) := bodyFits_of_body rfl fun _ => by simp
theorem BodyFits.ackNotices (classes : Byte) : Statement (.ackNotices classes) := bodyFits_of_body rfl fun _ => by simp
theorem BodyFits.setNoticeEnables (classes : Byte) : Statement (.setNoticeEnables classes) :=
  bodyFits_of_body rfl fun _ => by simp
theorem BodyFits.restart : Statement .restart := bodyFits_of_body rfl fun _ => by decide
theorem BodyFits.resetAsserted : Statement .resetAsserted := bodyFits_of_none rfl
theorem BodyFits.resetReleased : Statement .resetReleased := bodyFits_of_none rfl
theorem BodyFits.frameBoundary (early : List BoundaryPart) : Statement (.frameBoundary early) := bodyFits_of_none rfl
theorem BodyFits.houseSyncPulse (gap : Nat) (early : List BoundaryPart) : Statement (.houseSyncPulse gap early) :=
  bodyFits_of_none rfl
theorem BodyFits.lossLimit (early : List BoundaryPart) : Statement (.lossLimit early) := bodyFits_of_none rfl
theorem BodyFits.overReached : Statement .overReached := bodyFits_of_none rfl
theorem BodyFits.horizonArming : Statement .horizonArming := bodyFits_of_none rfl
theorem BodyFits.wheelSlotFiring : Statement .wheelSlotFiring := bodyFits_of_none rfl
theorem BodyFits.lampStepAdvance (position : Fin 4) : Statement (.lampStepAdvance position) := bodyFits_of_none rfl
theorem BodyFits.hailRunOut (position : Fin 4) : Statement (.hailRunOut position) := bodyFits_of_none rfl
theorem BodyFits.displaySendCompletion : Statement .displaySendCompletion := bodyFits_of_none rfl
theorem BodyFits.sendCompletion (outlet : Fin 8) : Statement (.sendCompletion outlet) := bodyFits_of_none rfl
theorem BodyFits.readyFall (outlet : Fin 8) : Statement (.readyFall outlet) := bodyFits_of_none rfl
theorem BodyFits.readyRise (outlet : Fin 8) : Statement (.readyRise outlet) := bodyFits_of_none rfl
theorem BodyFits.tallyRise (outlet : Fin 8) : Statement (.tallyRise outlet) := bodyFits_of_none rfl
theorem BodyFits.tallyFall (outlet : Fin 8) : Statement (.tallyFall outlet) := bodyFits_of_none rfl
theorem BodyFits.leadStartTimeout : Statement .leadStartTimeout := bodyFits_of_none rfl
theorem BodyFits.resetHoldEnd (outlet : Fin 8) : Statement (.resetHoldEnd outlet) := bodyFits_of_none rfl
theorem BodyFits.panelLineChange (input : Fin 4) (level : Bool) : Statement (.panelLineChange input level) := bodyFits_of_none rfl
theorem BodyFits.quietExpiry (input : Fin 4) : Statement (.quietExpiry input) := bodyFits_of_none rfl
theorem BodyFits.lapse (input : Fin 4) : Statement (.lapse input) := bodyFits_of_none rfl

end Sys2Proof.Laws
end

