-- ==== Sys2Proof/Tests/Slice0.lean ====
section
/-! SUPPORT. The model's own tests: ill-formed terms, frames written out from 11.1, values of the manual's tables, one step of each
command, and for each statement a state and operands that meet its hypotheses. Expected values come from the rules or the worked tables
of spec/, computed by hand. -/
namespace Sys2Proof.Tests
open Sys2Proof Sys2Proof.Machine

/-! ## Ill-formed terms (R177, R192, 11.1) -/

def newItem (slug : List Byte) : InsertBody := ⟨5, 0xFFFF, 1, 3, 500, 1, 100, 0, slug⟩
def newText (slug : List Byte) : ModifyBody := ⟨2, 1, 1, 0, 0, 0, 0, 0, 700, 0, 0, 0, 0, 0, slug⟩

theorem insert_fits (l : List Byte) : (Instr.insertItem (newItem l)).wellFormed = decide (17 + l.length ≤ 250) := rfl
theorem modify_fits (l : List Byte) : (Instr.modifyItem (newText l)).wellFormed = decide (22 + l.length ≤ 250) := rfl

theorem test_ill_formed_insert_slug : (Instr.insertItem (newItem (List.replicate 234 0x41))).wellFormed = false := by
  rw [insert_fits, List.length_replicate]; decide
theorem test_ill_formed_modify_slug : (Instr.modifyItem (newText (List.replicate 229 0x41))).wellFormed = false := by
  rw [modify_fits, List.length_replicate]; decide
theorem test_ill_formed_recycle_no_key : (Instr.recycle 0 []).wellFormed = false := by decide
theorem test_ill_formed_recycle_33_keys : (Instr.recycle 0 (List.replicate 33 1)).wellFormed = false := by decide
theorem test_well_formed_bounds :
    (Instr.insertItem (newItem (List.replicate 233 0x41))).wellFormed = true
    ∧ (Instr.modifyItem (newText (List.replicate 228 0x41))).wellFormed = true
    ∧ (Instr.recycle 1 [7]).wellFormed = true ∧ (Instr.recycle 1 (List.replicate 32 7)).wellFormed = true := by
  rw [insert_fits, modify_fits, List.length_replicate, List.length_replicate]; decide

/-! ## Frames written out from the tables of 11.1 -/

theorem test_frame_lookups :
    decodeFrame [0x01, 0x10, 0x02, 0x00, 0x2A] = some (.getItem 42)
    ∧ decodeFrame [0x01, 0x13, 0x03, 0x02, 0x01, 0x00] = some (.seek 2 256) := by decide
theorem test_frame_insert :
    decodeFrame [0x01, 0x20, 0x12, 0x00, 0x05, 0xFF, 0xFF, 0x01, 0x03, 0x00, 0x01, 0xF4, 0x01, 0x00, 0x00, 0x64, 0x00, 0x00,
      0x00, 0x01, 0x41] = some (.insertItem ⟨5, 0xFFFF, 1, 3, 500, 1, 100, 0, [0x41]⟩) := by decide
theorem test_frame_add_event :
    decodeFrame [0x01, 0x24, 0x0B, 0x00, 0x05, 0x02, 0x07, 0x00, 0x01, 0x01, 0x2C, 0x12, 0x34, 0x03]
      = some (.addEvent ⟨5, 2, 7, 0, 1, 300, 0x1234, 3⟩) := by decide
theorem test_frame_store :
    decodeFrame [0x01, 0x29, 0x05, 0x01, 0x00, 0x05, 0x00, 0x06] = some (.recycle 1 [5, 6])
    ∧ decodeFrame [0x01, 0x2D, 0x00] = some .commitBatch := by decide
theorem test_frame_show :
    decodeFrame [0x01, 0x31, 0x00] = some .take
    ∧ decodeFrame [0x01, 0x36, 0x03, 0x02, 0x01, 0x02] = some (.setVector 2 0x0102) := by decide
theorem test_frame_outlet :
    decodeFrame [0x01, 0x50, 0x06, 0x02, 0x01, 0x01, 0x00, 0xFA, 0x02] = some (.configureOutlet 2 1 1 250 2) := by decide
theorem test_frame_presenter : decodeFrame [0x01, 0x61, 0x03, 0x03, 0x00, 0x19] = some (.hailPresenter 3 25) := by decide
theorem test_frame_panel : decodeFrame [0x01, 0x71, 0x03, 0x02, 0x01, 0x00] = some (.verdict 2 1 0) := by decide
theorem test_frame_timebase : decodeFrame [0x01, 0x81, 0x03, 0x20, 0xF5, 0x80] = some (.setTime 0x20F580) := by decide
theorem test_frame_notices :
    decodeFrame [0x01, 0x91, 0x01, 0x80] = some (.ackNotices 0x80) ∧ decodeFrame [0x01, 0x9F, 0x00] = some .restart := by decide
/-- Malformed frames (R177): a first byte of neither kind, too few bytes, an unknown code, a length that is not the body's, a body of a
length the layout does not permit. -/
theorem test_frame_malformed :
    decodeFrame [0x03, 0x31, 0x00] = none ∧ decodeFrame [0x01, 0x30] = none ∧ decodeFrame [0x01, 0x15, 0x00] = none
    ∧ decodeFrame [0x01, 0x31, 0x01] = none ∧ decodeFrame [0x01, 0x31, 0x01, 0x00] = none := by decide
theorem test_no_table_word (n w : Nat) : decodeTableWord n w = none := rfl

/-! ## Values of the manual's tables -/

/-- R47's examples and the rows of R48's table. -/
theorem test_timecode :
    timecode .s25 987000 = ⟨10, 58, 0, 0⟩ ∧ timecode .s25 990000 = ⟨11, 0, 0, 0⟩ ∧ timecode .s25 2159999 = ⟨23, 59, 59, 24⟩
    ∧ timecode .s30D 1799 = ⟨0, 0, 59, 29⟩ ∧ timecode .s30D 1800 = ⟨0, 1, 0, 2⟩ ∧ timecode .s30D 17982 = ⟨0, 10, 0, 0⟩
    ∧ timecode .s30D 107892 = ⟨1, 0, 0, 0⟩ ∧ timecode .s30D 2589407 = ⟨23, 59, 59, 29⟩ := by decide
/-- The rows of R91's and R92's tables. -/
theorem test_seconds :
    countdownSeconds .s25 1500 = 60 ∧ countdownSeconds .s25 1501 = 61 ∧ countdownSeconds .s25 1 = 1
    ∧ countdownSeconds .s30 1500 = 50 ∧ countdownSeconds .s30D 1500 = 51 ∧ countdownSeconds .s30D 450 = 16
    ∧ floorSeconds .s25 24 = 0 ∧ floorSeconds .s25 25 = 1 ∧ floorSeconds .s30D 29 = 0 ∧ floorSeconds .s30D 30 = 1
    ∧ floorSeconds .s30D 2997 = 99 := by decide
/-- R84: half a day away is ahead, one frame more is behind; a junction at midnight lies 40 seconds ahead of 23:59:20:00. -/
theorem test_mark_offset :
    markOffset 2160000 0 1080000 = 1080000 ∧ markOffset 2160000 0 1080001 = -1079999 ∧ markOffset 2160000 2159000 0 = 1000 := by decide
/-- R33's windows. -/
theorem test_windows :
    Standard.s25.half = 540000 ∧ Standard.s30.lossLimit = 1350000 ∧ Standard.s30D.half = 450450
    ∧ Standard.s30D.inWindow 891891 = true ∧ Standard.s30D.inWindow 891890 = false ∧ Standard.s25.inWindow 1090800 = true
    ∧ Standard.s25.inWindow 1090801 = false := by decide

/-! ## Small states -/

/-- The state a command answers. -/
def after (c : Instr) (s : State) : State := match exec c s with | .next t => t | _ => s
/-- The result code the port holds. -/
def code (s : State) : Option ResultCode := match s.port with | .ready r => some r.code | _ => none
/-- The body the port holds. -/
def body (s : State) : List Byte := match s.port with | .ready r => r.body | _ => []

def event (num : Fin 16) (outlet : Fin 8) (offset : Nat) (state : EventState) : Event where
  num := num
  outlet := outlet
  action := .showFrame
  anchor := .start
  offset := offset
  payload := 0x1111
  clearAtEnd := false
  required := true
  state := state
  cued := false
  due := if state = .idle then none else some (100 + offset)
  lateness := 0

def item (key p : Nat) (airing : Airing) (events : List Event) : Item where
  key := key
  slug := [0x41]
  p := p
  l := none
  lead := none
  endAction := .auto
  hard := none
  presenters := 1
  floated := false
  airing := airing
  degraded := false
  held := false
  airCount := 0
  revision := 3
  events := events

def onAir : Item := item 1 500 (.onAir 100) [event 0 0 0 .fired, event 1 1 40 .armed, event 2 1 200 .pending]
def upNext : Item := item 2 250 .pending [event 0 0 10 .idle]
def gone : Item := item 3 75 (.done 20 80 .take) []
def mark : Item := { item 4 300 .pending [] with hard := some 5000 }

/-- A clip player that plays event 0 of item 1, a graphics renderer that plays nothing, six outlets as at reset. -/
def clip : Outlet := { Outlet.reset true true with enabled := true, preRoll := 30, playing := some ⟨1, 0⟩ }
def graphics : Outlet := { Outlet.reset true false with kind := .graphics, enabled := true }
def idleOutlet : Outlet := Outlet.reset false false
def outletBank (x y : Outlet) : Bank 8 Outlet :=
  ⟨[x, y, idleOutlet, idleOutlet, idleOutlet, idleOutlet, idleOutlet, idleOutlet], rfl⟩

/-- LIVE at house time 110: item 1 on air since 100, item 2 NEXT, item 3 DONE, item 4 with a hard time. -/
def live : State := { State.reset with
  items := [onAir, upNext, gone, mark]
  tb := { Timebase.reset with houseTime := 110 }
  ctl := { ShowCtl.reset with state := .live, onAir := some 1, next := some 2, anchor := some 1 }
  wheel := [⟨⟨1, 1⟩, .fire, 140, 140, 0⟩]
  planned := [⟨⟨1, 2⟩, .fire, 200⟩]
  outlets := outletBank clip graphics }

/-- The same show ARMED, nothing on air. -/
def armed : State := { State.reset with
  items := [upNext, gone, mark]
  ctl := { ShowCtl.reset with state := .armed, next := some 2 }
  outlets := outletBank { clip with playing := none } graphics }

/-- The show LAST: item 1 on air, nothing to follow. -/
def closing : State := { live with ctl := { live.ctl with state := .last, next := none } }
/-- CLOSED, with the items of the show. -/
def closed : State := { State.reset with items := [upNext, gone, mark] }

/-! ## The states are sound -/

theorem live_show : ShowOk live ∧ NextOk live := by
  refine ⟨⟨by decide, by decide, by decide, ?_⟩, ⟨by decide, by decide, by decide⟩⟩
  intro k h
  cases h
  decide

theorem live_store : StoreOk live.items ∧ RecordsOk live.items := by
  refine ⟨⟨by decide, by decide, by decide, by decide, by decide, by decide⟩, ?_⟩
  intro i h
  simp only [live, List.mem_cons, List.not_mem_nil, or_false] at h
  rcases h with rfl | rfl | rfl | rfl
  all_goals
    refine ⟨by decide, by decide, by decide, ?_, by decide, ?_⟩
    · intro n h; cases h
    · intro t a why h; cases h <;> decide

theorem outlet_ok {x : Outlet} (q : x.queue = []) (w : x.waiting = []) (s : x.sending = none) (c : x.cued = none)
    (off : x.enabled = true ∧ x.ready = true ∧ x.resetHold = false ∨ x.playing = none) : OutletOk x := by
  refine ⟨by simp [q], by simp [w], by simp [w], by simp [q, s], by simp [c], ?_⟩
  intro h
  refine ⟨c, ?_, Or.inl q⟩
  rcases off with ⟨e, r, d⟩ | p
  · simp only [Outlet.state, e, r, d] at h
    split_ifs at h <;> simp_all
  · exact p

theorem live_outlets : OutletsOk live := by
  intro o
  fin_cases o <;> exact outlet_ok rfl rfl rfl rfl (by decide)

theorem live_display : DisplayOk live := by
  intro _ h
  cases h

theorem live_units :
    OutletsOk live ∧ (∀ n, n < 64 → (live.wheel.filter fun w => w.fireFrame % 64 == n).length ≤ 2) ∧ PanelOk live
    ∧ TimebaseOk live.tb ∧ BatchOk live ∧ CountersOk live.notices ∧ CueOk live.cue ∧ DisplayOk live := by
  refine ⟨live_outlets, by decide, ?_, ?_, ?_, ⟨by decide, by decide, by decide, by decide, by decide⟩, ?_, live_display⟩
  · intro n
    fin_cases n <;> exact ⟨by decide, (fun _ h => by cases h), by decide, by decide⟩
  · exact ⟨by decide, (fun _ h => by cases h), by decide, by decide, by decide, by decide, by decide, by decide⟩
  · intro _ h
    cases h
  · refine ⟨fun p => ?_, fun l => ?_, fun l p h => ?_⟩
    · fin_cases p <;> exact ⟨by decide, by decide⟩
    · fin_cases l <;> decide
    · fin_cases l <;> cases h

/-- The events of the store with their names. -/
def namedEvents (s : State) : List (EventRef × Event) := s.items.flatMap fun i => i.events.map fun e => (⟨i.key, e.num⟩, e)
theorem named_mem {s : State} {r : EventRef} {e : Event} (h : s.event r = some e) : (r, e) ∈ namedEvents s := by
  simp only [State.event, State.item, findItem, Option.bind_eq_some_iff, Item.event] at h
  obtain ⟨i, hi, he⟩ := h
  have k := List.find?_some hi
  have n := List.find?_some he
  simp only [beq_iff_eq] at k n
  exact List.mem_flatMap.mpr ⟨i, List.mem_of_find?_eq_some hi, List.mem_map.mpr ⟨e, List.mem_of_find?_eq_some he, by rw [k, n]⟩⟩

theorem live_counts : (∀ i ∈ live.items, CountsOk i) ∧ ∀ w ∈ live.wheel, w.spill ≤ 4 := by
  refine ⟨?_, by decide⟩
  intro i h
  simp only [live, List.mem_cons, List.not_mem_nil, or_false] at h
  rcases h with rfl | rfl | rfl | rfl <;> exact ⟨by decide, by decide, by decide⟩

theorem live_wheel : WheelOk live := by
  refine ⟨by decide, by decide, ?_, by decide, by decide, ?_, ?_, ?_, by decide, ?_⟩
  · exact fun r e h => (show ∀ x ∈ namedEvents live, x.2.state = .armed → x.1 ∈ live.wheel.map WheelEntry.ref by decide) _ (named_mem h)
  · exact fun r e h => (show ∀ x ∈ namedEvents live, x.2.state = .pending → x.1 ∈ live.planned.map Planned.ref by decide) _ (named_mem h)
  · exact fun r e h => (show ∀ x ∈ namedEvents live, (x.2.due.isSome = true ↔ live.ctl.onAir = some x.1.owner) by decide) _ (named_mem h)
  · exact fun r e h => (show ∀ x ∈ namedEvents live, live.ctl.onAir = some x.1.owner → x.2.state ≠ .idle by decide) _ (named_mem h)
  · exact fun r e h => (show ∀ x ∈ namedEvents live, x.2.state ≠ .fired → x.2.lateness = 0 by decide) _ (named_mem h)

theorem live_cues : CuesOk live := by
  have quiet : ∀ o, (live.outlet o).cued = none ∧ (live.outlet o).waiting = [] := by decide
  refine ⟨fun o c h => ?_, fun o w h => ?_, fun r e h c => ?_, fun _ => quiet, fun h => by cases h⟩
  · rw [(quiet o).1] at h; cases h
  · rw [(quiet o).2] at h; cases h
  · exact absurd c ((show ∀ x ∈ namedEvents live, x.2.cued ≠ true by decide) _ (named_mem h))

set_option maxRecDepth 20000
/-! ## One step of each command -/

def keys (s : State) : List Nat := s.items.map Item.key
def due (s : State) (house : Nat) (p : BoundaryPart) : State := { s with tb := { s.tb with houseTime := house }, owed := [p] }
def holding (r : Response) : State := { State.reset with port := .ready r }

theorem test_write_transaction :
    (after (.writeTransaction ⟨0, [0x01, 0x12, 0x00]⟩) .reset).port = .working .walk
    ∧ (after (.writeTransaction ⟨0, [0x01, 0x12, 0x00]⟩) .reset).dataOut.head? = some 0x20 := by decide
theorem test_write_discarded : (after (.writeTransaction ⟨0, [0x01, 0x12, 0x00]⟩) (holding ⟨.ok, [], []⟩)).discard = true := by decide
theorem test_read_transaction :
    (after (.readTransaction 6) (holding ⟨.badField, [], []⟩)).dataOut = [0x22, 0, 0x02, 0, 0, 0]
    ∧ (after (.readTransaction 5) (holding ⟨.ok, [], []⟩)).port = .idle
    ∧ (after (.readTransaction 4) (holding ⟨.ok, [], []⟩)).port = .ready ⟨.ok, [], []⟩ := by decide

theorem test_get_item :
    (body (after (.getItem 3) live)).length = 48 ∧ (body (after (.getItem 3) live)).take 4 = [0, 3, 0, 3]
    ∧ code (after (.getItem 9) live) = some .noSuchItem := by decide
theorem test_get_item_at :
    (body (after (.getItemAt 4) live)).take 4 = [0, 4, 0, 4] ∧ code (after (.getItemAt 5) live) = some .noSuchItem := by decide
theorem test_walk :
    (body (after .walk live)).take 2 = [0, 1] ∧ (after .walk live).cursor = .item 2
    ∧ body (after .walk .reset) = [0xFF, 0xFF] := by decide
theorem test_seek : (after (.seek 2 3) live).cursor = .item 3 ∧ code (after (.seek 3 0) live) = some .badField := by decide
theorem test_get_events :
    (body (after (.getEvents 1) live)).length = 53 ∧ body (after (.getEvents 4) live) = [0, 4, 0, 3, 0] := by decide

theorem test_insert_item :
    keys (after (.insertItem (newItem [0x41])) live) = [5, 1, 2, 3, 4] ∧ (after (.insertItem (newItem [0x41])) live).ctl.next = some 2
    ∧ code (after (.insertItem { newItem [] with key := 2 }) live) = some .duplicateKey := by decide
theorem test_modify_item : (after (.modifyItem (newText [0x42])) live).items.map Item.p = [500, 700, 75, 300] := by decide
theorem test_move_item : keys (after (.moveItem 4 1) live) = [1, 4, 2, 3] ∧ (after (.moveItem 4 1) live).ctl.next = some 4 := by decide
theorem test_mark_item :
    (after (.markItem 2 1 1) live).ctl.next = some 4 ∧ code (after (.markItem 1 1 1) live) = some .onAir := by decide
theorem test_add_event :
    (after (.addEvent ⟨2, 3, 7, 0, 1, 30, 0x1234, 3⟩) live).items.map (fun i => i.events.map Event.num) = [[0, 1, 2], [0, 3], [], []]
    ∧ code (after (.addEvent ⟨2, 0, 7, 0, 1, 30, 0x1234, 3⟩) live) = some .duplicateEvent := by decide
/-- R108: NEXT's event is judged again by the standby test on a change of its offset, not on a change of its payload. R119: the edit, the
release of event 0's cue and the cue report of event 1, which waited, are three changes. -/
theorem test_modify_event :
    let cued : State := { live with
      items := [onAir, item 2 250 .pending [{ event 0 1 10 .idle with cued := true }, event 1 1 12 .idle], gone, mark]
      outlets := outletBank clip { graphics with preRoll := 30, cued := some ⟨⟨2, 0⟩, 490, 0x1111⟩, waiting := [⟨⟨2, 1⟩, 490⟩] } }
    let released := after (.modifyEvent ⟨2, 0, 8, 0, 0, 0, 300, 0, 0⟩) cued
    let edit := fun mask offset payload => after (.modifyEvent ⟨2, 0, mask, 0, 0, 0, offset, payload, 0⟩) live
    ((edit 8 300 0).event ⟨2, 0⟩).map Event.offset = some 300
    ∧ ((edit 8 20 0).outlet 0).waiting.length = 1
    ∧ ((edit 16 0 0x2222).event ⟨2, 0⟩).map Event.payload = some 0x2222 ∧ ((edit 16 0 0x2222).outlet 0).waiting = []
    ∧ (released.outlet 1).cued.map CuedRef.ref = some ⟨2, 1⟩ ∧ (released.item 2).map Item.revision = some 6 := by decide
/-- R107 at house time 120, 20 frames into item 1: a due moved 12 frames into the past fires late, one of 13 is a counted skip that
degrades nothing. -/
theorem test_modify_event_past :
    let past := fun off : Half => after (.modifyEvent ⟨1, 1, 8, 0, 0, 0, off, 0, 0⟩) { live with tb := { live.tb with houseTime := 120 } }
    ((past 8).event ⟨1, 1⟩).map (fun e => (e.state, e.lateness)) = some (.fired, 12)
    ∧ ((past 7).event ⟨1, 1⟩).map (fun e => (e.state, e.lateness)) = some (.skipped, 0)
    ∧ ((past 7).item 1).map Item.degraded = some false ∧ (past 7).notices.skipped = 1 := by decide
theorem test_remove_event :
    (after (.removeEvent 1 2) live).planned = [] ∧ ((after (.removeEvent 1 2) live).event ⟨1, 2⟩) = none := by decide
theorem test_retire_item : keys (after (.retireItem 2) live) = [1, 3, 4] ∧ (after (.retireItem 2) live).ctl.next = some 4 := by decide
theorem test_clear_rundown : (after .clearRundown closed).items = [] ∧ body (after .clearRundown closed) = [0, 3] := by decide
theorem test_recycle :
    (after (.recycle 1 [3]) live).items.map Item.p = [500, 250, 80, 300]
    ∧ after (.recycle 1 [3, 2]) live = live.answered ⟨.notDone, [1], []⟩ := by decide

theorem test_open_batch : (after .openBatch live).batch = some [] := by decide
theorem test_staged_change : (after (.markItem 2 1 1) { live with batch := some [] }).batch = some [.markItem 2 1 1] := by decide
/-- The last two lines, R59 and R173: of the order 2, 3, 4 with anchor 4 a batch retires 4, then 3; the anchor is 2, and 3 where the
batch inserts 3 again. -/
theorem test_commit_batch :
    let anchored := fun l => after .commitBatch { live with
      ctl := { live.ctl with anchor := some 4 }, batch := some ([.retireItem 4, .retireItem 3] ++ l) }
    (after .commitBatch { live with batch := some [.markItem 2 1 1] }).ctl.next = some 4
    ∧ body (after .commitBatch { live with batch := some [.markItem 2 1 1, .retireItem 1] }) = [1, 0x0A]
    ∧ (anchored []).ctl.anchor = some 2
    ∧ (anchored [.insertItem ⟨3, 2, 0, 0, 90, 0, 0, 0, [0x41]⟩]).ctl.anchor = some 3 := by decide
/-- R173: a batch that moves event 0 of item 2 to outlet 1 and makes item 2 NEXT queues one CUE there, and raises its revision by one
for each of its two changes and one for the cue. -/
theorem test_commit_batch_one_cue :
    let s : State := { live with
      items := [onAir, mark, upNext, gone], ctl := { live.ctl with next := some 4 }
      outlets := outletBank clip { graphics with preRoll := 30 }
      batch := some [.modifyEvent ⟨2, 0, 1, 1, 0, 0, 0, 0, 0⟩, .moveItem 2 1] }
    ((after .commitBatch s).outlet 1).queue = [⟨.cue, 0x1111, some ⟨2, 0⟩, false⟩]
    ∧ ((after .commitBatch s).item 2).map Item.revision = some 6 ∧ (after .commitBatch s).ctl.next = some 2 := by decide
theorem test_abandon_batch : body (after .abandonBatch { live with batch := some [.retireItem 4] }) = [1] := by decide

theorem test_open_show : (after .openShow closed).ctl.state = .armed ∧ body (after .openShow closed) = [0, 2] := by decide
theorem test_take :
    (after .take live).ctl.ordinary = some .manual ∧ body (after .take live) = [0, 2, 0] ∧ code (after .take .reset) = some .showState := by
  decide
theorem test_set_next : (after (.setNext 4) live).ctl.next = some 4 ∧ code (after (.setNext 3) live) = some .badField := by decide
theorem test_hold : body (after .hold live) = [1] ∧ code (after .hold armed) = some .showState := by decide
theorem test_close_show : (after .closeShow live).ctl.state = .last ∧ (after .closeShow armed).ctl.state = .closed := by decide
theorem test_abort_show :
    ((after .abortShow live).item 1).map Item.airing = some (.done 100 10 .aborted) ∧ body (after .abortShow live) = [0, 1] := by decide
theorem test_set_vector : body (after (.setVector 1 4) live) = [0, 4, 0, 0] ∧ code (after (.setVector 0 4) live) = some .badField := by decide
theorem test_set_show_end : body (after (.setShowEnd 1 35000) live) = [0, 0x88, 0xB8] ∧ body (after (.setShowEnd 2 0) live) = [0xFF, 0xFF, 0xFF] := by
  decide
theorem test_set_wrap : body (after (.setWrap 99) live) = [60] := by decide
theorem test_get_show : (body (after .getShow live)).length = 29 ∧ (body (after .getShow live)).take 6 = [2, 0, 1, 0, 0, 100] := by decide
/-- The list is items 2 and 4; item 2 starts at r = 490. -/
theorem test_get_sheet :
    (body (after (.getSheet 0) live)).length = 88 ∧ live.sheetEntries.map SheetEntry.front = [490, 740]
    ∧ (match (after (.getSheet 0) live).port with | .ready r => r.starts | _ => []) = [⟨0, 0, 24, 0⟩, ⟨0, 0, 34, 0⟩] := by decide

/-- R82: house time 110 and offsets 490 and 740 give the starts 600 and 850, at 25 frames a second 24 s and 34 s. -/
theorem test_estimated_start :
    live.sheetEntries.map live.estimatedStart = [600, 850]
    ∧ live.sheetEntries.map live.startTimecode = [⟨0, 0, 24, 0⟩, ⟨0, 0, 34, 0⟩] := by decide

theorem test_configure_outlet : ((after (.configureOutlet 2 1 1 300 2) live).outlet 2).preRoll = 250 := by decide
theorem test_reset_outlet :
    ((after (.resetOutlet 0) live).outlet 0).queue = [clearFrame] ∧ ((after (.resetOutlet 0) live).outlet 0).playing = none := by decide
theorem test_ack_outlet :
    ((after (.ackOutlet 0 2) { live with outlets := outletBank { clip with tallyChanged := true, overflow := true } graphics }).outlet 0).tallyChanged
      = false ∧ code (after (.ackOutlet 0 0) live) = some .badField := by decide
theorem test_get_outlet :
    (body (after (.getOutlet 0) live)).length = 47 ∧ (body (after (.getOutlet 0) live)).take 7 = [0, 0, 1, 30, 1, 3, 4] := by decide

theorem test_set_pattern : (after (.setPattern 2 0xFF00 0) live).cue.pendingPatterns.get 2 = some ⟨0xFF00, 1⟩ := by decide
theorem test_hail_presenter :
    body (after (.hailPresenter 3 2000) live) = [3, 0xE8] ∧ ((after (.hailPresenter 3 2000) live).cue.presenters.get 3).lamp = .hailed := by decide
theorem test_get_presenter : (body (after (.getPresenter 1) live)).length = 36 := by decide

def pressed_ (trap : Option Trap) (ended : Option (Nat × EndedCause)) : State := { live with
  panel := live.panel.set 0 { Input.reset false with mode := .trap, lapse := .drop, trap := trap, ended := ended } }

theorem test_set_panel_mode :
    ((after (.setPanelMode 0 0 0) (pressed_ (some ⟨7, 105, 2⟩) none)).panel.get 0).ended = some (7, .withdrawn)
    ∧ (body (after (.setPanelMode 0 0 0) live)).length = 52 := by decide
theorem test_verdict :
    (after (.verdict 0 7 0) (pressed_ (some ⟨7, 105, 2⟩) none)).ctl.ordinary = some .manual
    ∧ code (after (.verdict 0 7 0) (pressed_ none (some (7, .lapsedDrop)))) = some .tooLate
    ∧ code (after (.verdict 0 6 0) (pressed_ none (some (7, .lapsedDrop)))) = some .nothingTrapped := by decide

theorem test_set_standard : (after (.setStandard 1) .reset).tb.load = some 0 ∧ code (after (.setStandard 1) live) = some .showState := by decide
theorem test_set_time :
    (after (.setTime 2159999) .reset).tb.load = some 2159999 ∧ code (after (.setTime 2160000) .reset) = some .badField := by decide
theorem test_set_trim : body (after (.setTrim 0x0100) .reset) = [127] ∧ body (after (.setTrim 0xFF00) .reset) = [0x81] := by decide
theorem test_set_reference : (after (.setReference 1) .reset).tb.ref = .acquiring := by decide
theorem test_get_timebase : (body (after .getTimebase .reset)).take 11 = [0, 0, 0, 0xFF, 0, 0, 0, 0, 0, 0, 0] := by decide

def noticed : State := { live with notices := { Notices.reset with pending := 0x0F, late := 3 } }
theorem test_read_notices : (after (.readNotices 1) noticed).notices.late = 0 ∧ (body (after (.readNotices 1) noticed)).length = 68 := by decide
theorem test_ack_notices : body (after (.ackNotices 0x03) noticed) = [0x0C, 0xFF] := by decide
theorem test_set_notice_enables : (after (.setNoticeEnables 0xF0) noticed).attention = false ∧ noticed.attention = true := by decide

theorem test_restart : (after .restart live).items = [] ∧ (after .restart live).port = .ready ⟨.ok, [], []⟩ := by decide
theorem test_reset_asserted : (after .resetAsserted noticed).attention = false ∧ (after .resetAsserted live).inReset = true := by decide
theorem test_reset_released : (after .resetReleased (after .resetAsserted live)).inReset = false := by decide

/-! ## Boundaries and events -/

def taking : State := { live with ctl := { live.ctl with ordinary := some .manual } }
/-- The last two lines, R101 with R67 and R61: the arriving AUTO item of one frame has its lead fired and a required event skipped. The skip
requests the end on E; the lead report, made at the arrival's end, and the boundary's judging are two further requests. -/
theorem test_frame_boundary :
    let arrived := after (.frameBoundary []) { taking with
      items := [onAir, { item 2 1 .pending [event 0 1 0 .idle, event 1 5 0 .idle] with lead := some 0 }, gone, mark] }
    (after (.frameBoundary []) taking).notices.lastTake = ⟨some .taken, some 111, 2, 1, some .take⟩
    ∧ (after (.frameBoundary []) taking).ctl.onAir = some 2
    ∧ arrived.ctl.phase = .shown ∧ arrived.ctl.ordinary = some .automatic ∧ (arrived.item 2).map Item.degraded = some true
    ∧ arrived.notices.coalesced = 2 := by decide

/-- R144: item 1 has 476 frames left when the boundary opens, 475 after it. A hail that runs out before the boundary's sheet sends
the previous sheet's 20 seconds and leaves the new sheet's 19 in the slot; one that runs out after it gives 19 alone. -/
theorem test_frame_boundary_hail :
    let s : State := { live with
      tb := { live.tb with houseTime := 124 }
      cue := { live.cue with
        presenters := live.cue.presenters.set 0 { Presenter.reset with lamp := .hailed, hail := 1 }
        slots := .replicate 6 none, sending := none } }
    let line := fun early => (after (.frameBoundary early) s).cue
    (line [.hail 0]).sending = some (0, secondsShown .countdown 20)
    ∧ (line [.hail 0]).slots.get 0 = some (secondsShown .countdown 19)
    ∧ (line [.sheet, .hail 0]).slots.get 0 = some (secondsShown .countdown 19) := by decide

/-- The last row of the manual's absorbing example before the lock, and of its loss example. -/
def acquiring : State := { State.reset with
  tb := { Timebase.reset with
    ref := .acquiring, now := 3240000, lastBoundary := 3240000, acqPulse := some 2420000, acqCount := 2, houseTime := 1003 } }
def locked : State := { State.reset with
  tb := { Timebase.reset with
    ref := .locked, now := 5019950, lastBoundary := 5019950, lastAccepted := some 5019950, measured := 1079950, houseTime := 1005 } }
/-- R36: FREE that arrives 1,080,001 ticks after the last boundary, one after the free-running period, has its boundary at once; one that
arrives at 1,000,000 has it at 1,080,000. -/
theorem test_set_reference_free :
    let free := fun gap => (after (.frameBoundary []) (after (.setReference 0) (after (.writeTransaction ⟨gap, [0x01, 0x83, 0x01, 0x00]⟩) locked))).tb
    ((free 1080001).lastBoundary = 6099951 ∧ (free 1000000).lastBoundary = 6099950 ∧ (free 1080001).ref = .freeRun) := by decide

theorem test_house_sync_pulse_locks :
    (after (.houseSyncPulse 260000 []) acquiring).tb.ref = .locked ∧ (after (.houseSyncPulse 260000 []) acquiring).tb.houseTime = 1003 := by decide
theorem test_house_sync_pulse_glitch :
    (after (.houseSyncPulse 280050 []) locked).tb.glitches = 1 ∧ (after (.houseSyncPulse 280050 []) locked).tb.houseTime = 1005 := by decide
theorem test_loss_limit :
    (after (.lossLimit []) locked).tb.lastBoundary = 6639950 ∧ (after (.lossLimit []) locked).tb.houseTime = 1006
    ∧ (after (.lossLimit []) locked).tb.ref = .holdover := by decide

theorem test_over_reached : (after .overReached (due live 600 .overReached)).notices.pending = 0x80 := by decide
theorem test_horizon_arming : ((after .horizonArming (due live 237 .horizon)).event ⟨1, 2⟩).map Event.state = some .armed := by decide
theorem test_wheel_slot_firing :
    ((after .wheelSlotFiring (due live 140 .wheelSlot)).event ⟨1, 1⟩).map Event.state = some .fired
    ∧ ((after .wheelSlotFiring (due live 140 .wheelSlot)).outlet 1).queue = [⟨.showFrame, 0x1111, some ⟨1, 1⟩, false⟩] := by decide

def lit (x : Presenter) : State := { live with cue := { live.cue with presenters := live.cue.presenters.set 1 x } }
theorem test_lamp_step_advance :
    ((after (.lampStepAdvance 1) (due (lit { Presenter.reset with lamp := .standby, frames := 3 }) 110 (.lampStep 1))).cue.presenters.get 1).step = 1 := by
  decide
theorem test_hail_run_out :
    ((after (.hailRunOut 1) (due (lit { Presenter.reset with lamp := .hailed, hail := 1 }) 110 (.hail 1))).cue.presenters.get 1).lamp = .dark := by
  decide
theorem test_display_send_completion :
    (after .displaySendCompletion live).cue.sending = some (1, ⟨.blank, 0, 0, 0, 0⟩) := by decide

def sending (x : Outlet) (f : Frame) : State :=
  { live with outlets := outletBank { x with queue := [f], sending := some x.rate } graphics }
theorem test_send_completion :
    ((after (.sendCompletion 0) (sending clip ⟨.showFrame, 9, some ⟨1, 2⟩, false⟩)).outlet 0).playing = some ⟨1, 2⟩
    ∧ ((after (.sendCompletion 0) (sending clip clearFrame)).outlet 0).playing = none := by decide
theorem test_ready_fall :
    ((after (.readyFall 0) live).outlet 0).playing = none ∧ (after (.readyFall 0) live).notices.pending = 0x04 := by decide
theorem test_ready_rise : ((after (.readyRise 2) live).outlet 2).readyChanged = true := by decide
theorem test_tally_rise : ((after (.tallyRise 1) live).outlet 1).tally = true := by decide
theorem test_tally_fall : ((after (.tallyFall 0) live).outlet 0).tallyChanged = true := by decide

def led (stage : WatchStage) (left : Nat) : State := { live with
  items := [{ onAir with lead := some 0 }, upNext, gone, mark]
  ctl := { live.ctl with phase := .shown, leadLostKey := some 4 }
  watch := some ⟨0, ⟨1, 0⟩, stage, left⟩ }
theorem test_lead_start_timeout :
    (after .leadStartTimeout (due (led .sent 0) 110 .leadTimeout)).ctl.phase = .lost
    ∧ (after .leadStartTimeout (due (led .sent 0) 110 .leadTimeout)).ctl.cover = some ⟨.leadLost, 4⟩ := by decide
/-- R67, R136, R169: a lead lost by READY_FALL on item 1 past its P (600 = 100 + 500) is judged once and forms the sheet once. -/
theorem test_ready_fall_lead :
    let s := after (.readyFall 0) { led .sent 9 with tb := { live.tb with houseTime := 600 } }
    s.ctl.phase = .lost ∧ s.ctl.ordinary = some .automatic ∧ s.notices.coalesced = 0 ∧ s.sheetCount = 1 := by decide
def heldOutlet (x : Outlet) : State := { live with outlets := outletBank { x with resetHold := true } graphics }
theorem test_reset_hold_end :
    ((after (.resetHoldEnd 0) (due (heldOutlet { clip with playing := none }) 110 (.resetHold 0))).outlet 0).resetHold = false := by decide

theorem test_panel_line_change :
    (after (.panelLineChange 0 true) live).ctl.ordinary = some .manual ∧ ((after (.panelLineChange 0 true) live).panel.get 0).quiet = 3
    ∧ (after (.panelLineChange 2 true) live).ctl.next = some 4 := by decide
def settling (quiet : Nat) (accepted line : Bool) : State :=
  { live with panel := live.panel.set 0 { Input.reset line with accepted := accepted, quiet := quiet } }
theorem test_quiet_expiry :
    ((after (.quietExpiry 0) (due (settling 1 true false) 110 (.quiet 0))).panel.get 0).quiet = 3
    ∧ ((after (.quietExpiry 0) (due (settling 1 true true) 110 (.quiet 0))).panel.get 0).quiet = 0 := by decide
theorem test_lapse :
    ((after (.lapse 0) (due (pressed_ (some ⟨7, 98, 11⟩) none) 110 (.trapWait 0))).panel.get 0).ended = some (7, .lapsedDrop) := by decide

/-- 11.3: a SHOW with payload 0x1234, and address 0's blank frame. -/
theorem test_wires :
    (sending clip ⟨.showFrame, 0x1234, none, false⟩).outletWire 0 = [0xA5, 2, 0x12, 0x34] ∧ live.outletWire 0 = []
    ∧ State.reset.displayWire = [0x5A, 0, 0, 0, 0, 0, 0] ∧ displayBytes 5 ⟨.tod, 10, 58, 59, 24⟩ = [0x5A, 5, 7, 10, 58, 59, 24]
    ∧ (lineBits [0xA5, 2, 0x12, 0x34]).length = 40 ∧ charBits 0x02 = [false, false, true, false, false, false, false, false, false, true] := by
  decide

/-! ## Witnesses: for each statement with hypotheses, states and operands that meet them, clause by clause, at the ends of ranges -/

def working (i : Instr) (s : State) : State := { s with port := .working i }
def asserted : State := { live with inReset := true }
def atHouse (h : Nat) (s : State) : State := { s with tb := { s.tb with houseTime := h } }
def withCtl (f : ShowCtl → ShowCtl) (s : State) : State := { s with ctl := f s.ctl }
def withClip (f : Outlet → Outlet) (s : State) : State := { s with outlets := s.outlets.modify 0 f }
def withGraphics (f : Outlet → Outlet) (s : State) : State := { s with outlets := s.outlets.modify 1 f }
def sixteen : List Event := (List.finRange 16).map fun n => event n 0 0 .idle
def eventful : State := { live with items := [onAir, { upNext with events := sixteen }, gone, mark] }
def poolFull : State := { live with items := (List.range 64).map (fun k => item (k + 10) 1 .pending sixteen) ++ [upNext] }
def tableFull : State := { live with items := List.replicate 256 gone }

theorem not_working {s : State} (h : s.port = .idle) (i : Instr) : s.port ≠ .working i := by rw [h]; exact fun x => by cases x

theorem witness_WriteTransaction :
    ([0x01, 0x31, 0x00] : List Byte) ≠ [] ∧ ([0x01, 0x31, 0x00] : List Byte).head? ≠ some 0x02 ∧ live.inReset = false
    ∧ live.port = .idle ∧ decodeFrame [0x01, 0x31, 0x00] = some .take ∧ decodeFrame [0x01] = none
    ∧ (holding ⟨.ok, [], []⟩).port ≠ .idle ∧ (working .take live).port ≠ .idle ∧ asserted.inReset = true := by decide
theorem witness_ReadTransaction :
    asserted.inReset = true ∧ live.inReset = false ∧ (∀ r, live.port ≠ .ready r) ∧ (holding ⟨.ok, [7], []⟩).port = .ready ⟨.ok, [7], []⟩
    ∧ 1 ≤ 5 ∧ 5 < 5 + ([7] : List Byte).length ∧ 5 + ([7] : List Byte).length ≤ 6 :=
  ⟨rfl, rfl, (fun _ h => by cases h), rfl, by decide⟩
theorem witness_FrameExact :
    encodeFrame .take = some [0x01, 0x31, 0x00] ∧ decodeFrame [0x01, 0x31, 0x00] = some .take ∧ Instr.take.wellFormed = true := by decide
theorem witness_RequestPort :
    (∃ f, requestAnswer .take = some f) ∧ asserted.inReset = true ∧ (holding ⟨.ok, [], []⟩).port = .ready ⟨.ok, [], []⟩
    ∧ (working .hold live).port = .working .hold ∧ Instr.hold ≠ .take ∧ live.takes .take ∧ (working .take live).takes .take
    ∧ Instr.take.wellFormed = true ∧ (∃ f, requestAnswer (.recycle 0 []) = some f) ∧ (Instr.recycle 0 []).wellFormed = false :=
  ⟨⟨_, rfl⟩, rfl, rfl, rfl, by decide, by decide, by decide, rfl, ⟨_, rfl⟩, rfl⟩

theorem witness_LookUps :
    live.takes (.getItem 0) ∧ live.takes (.getItemAt 5) ∧ live.takes (.getEvents 4)
    ∧ (∀ i ∈ live.items, i.key ≠ (9 : Half).toNat) ∧ live.items = [] ++ onAir :: [upNext, gone, mark]
    ∧ onAir.key = (1 : Half).toNat ∧ live.items.length < (5 : Half).toNat
    ∧ live.items = [onAir, upNext, gone] ++ mark :: [] ∧ (4 : Half).toNat = [onAir, upNext, gone].length + 1
    ∧ StoreOk live.items ∧ mark ∈ live.items ∧ mark.key = (4 : Half).toNat ∧ RecordOk mark ∧ (∀ j ∈ [onAir, upNext, gone], j.key ≠ mark.key) :=
  ⟨by decide, by decide, by decide, by decide, rfl, rfl, by decide, rfl, rfl, live_store.1, by decide, rfl,
    live_store.2 mark (by decide), by decide⟩
theorem witness_WalkAndSeek :
    live.takes .walk ∧ live.cursor = .top ∧ (live.items.map Item.key).Nodup ∧ live.items = [] ++ onAir :: [upNext, gone, mark]
    ∧ ({ live with cursor := .item 4 } : State).cursor = .item mark.key ∧ live.items = [onAir, upNext, gone] ++ mark :: []
    ∧ State.reset.takes .walk ∧ State.reset.cursor = .top ∧ State.reset.items = [] ∧ ({ live with cursor := .finish } : State).cursor = .finish
    ∧ live.takes (.seek 3 0) ∧ (∀ i ∈ live.items, i.key ≠ (9 : Half).toNat) ∧ live.items.length < (5 : Half).toNat
    ∧ 2 < (3 : Byte).toNat ∧ mark.key = (4 : Half).toNat ∧ (4 : Half).toNat = [onAir, upNext, gone].length + 1
    ∧ (1 : Half).toNat = ([] : List Item).length + 1 := by decide

/-- The new item's key, and its after-key, at their ends. -/
def inserted (key after : Half) : InsertBody := { newItem [] with key := key, after := after }
theorem place_top : PlaceAfter 0xFFFF [] := .inl ⟨rfl, rfl⟩
def InsertFields (b : InsertBody) : Bool :=
  decide (b.key ≠ 0 ∧ b.key ≠ 0xFFFF ∧ b.after ≠ 0 ∧ b.endAction.toNat ≤ 1 ∧ b.presenters.toNat ≤ 15
        ∧ b.presence.toNat ≤ 3 ∧ (b.presence.getLsbD 1 = true → b.hard.toNat < live.day))
theorem witness_InsertItem :
    live.takes (.insertItem (inserted 5 0xFFFF)) ∧ (inserted 5 0xFFFF).slug.length ≤ 233 ∧ live.batch = none
    ∧ (¬InsertFields (inserted 0 1) ∧ ¬InsertFields (inserted 5 0) ∧ ¬InsertFields { inserted 5 1 with presence := 2, hard := 2160000 }
      ∧ InsertFields (inserted 0xFFFE 9) ∧ ¬live.has (9 : Half) ∧ InsertFields (inserted 5 3) ∧ tableFull.has (3 : Half) ∧ 256 ≤ tableFull.items.length
      ∧ live.has (4 : Half) ∧ InsertFields (inserted 4 4) ∧ InsertFields (inserted 5 0xFFFF) ∧ InsertFields { inserted 5 4 with presence := 2, hard := 2159999 })
    ∧ ¬live.has (5 : Half) ∧ live.items.length < 256 ∧ PlaceAfter 0xFFFF [] ∧ PlaceAfter 4 live.items := by
  refine ⟨by decide, by decide, by decide, by decide, by decide, by decide, place_top, .inr ⟨by decide, [onAir, upNext, gone], mark, rfl, rfl, by decide⟩⟩

def unlead : ModifyBody := { newText [] with indLead := 1, lead := 0 }
def ModifyFields (b : ModifyBody) : Bool :=
  decide (b.key ≠ 0 ∧ b.key ≠ 0xFFFF ∧ b.indSlug.toNat ≤ 1 ∧ b.indP.toNat ≤ 1 ∧ b.indL.toNat ≤ 2
        ∧ b.indLead.toNat ≤ 2 ∧ b.indEnd.toNat ≤ 1 ∧ b.indHard.toNat ≤ 2 ∧ b.indPresenters.toNat ≤ 1
        ∧ (b.indLead = 1 → b.lead.toNat ≤ 15) ∧ (b.indEnd = 1 → b.endAction.toNat ≤ 1)
        ∧ (b.indHard = 1 → b.hard.toNat < live.day) ∧ (b.indPresenters = 1 → b.presenters.toNat ≤ 15))
theorem witness_ModifyItem :
    live.takes (.modifyItem unlead) ∧ unlead.slug.length ≤ 228 ∧ live.batch = none
    ∧ (¬ModifyFields { unlead with key := 0 } ∧ ¬ModifyFields { unlead with lead := 16 } ∧ ¬ModifyFields { unlead with indHard := 1, hard := 2160000 }
      ∧ ModifyFields { unlead with key := 9 } ∧ ModifyFields { unlead with lead := 15 } ∧ ModifyFields { unlead with indHard := 1, hard := 2159999 }
      ∧ ModifyFields unlead)
    ∧ ¬live.has (9 : Half) ∧ (live.items.map Item.key).Nodup ∧ live.items = [onAir] ++ upNext :: [gone, mark] ∧ upNext.key = unlead.key.toNat
    ∧ (∀ e ∈ upNext.events, e.num.val ≠ (15 : Byte).toNat)
    ∧ ({ upNext with events := [{ event 0 0 10 .idle with action := .clearFrame }] } : Item).event 0
        = some { event 0 0 10 .idle with action := .clearFrame }
    ∧ unlead.lead.toNat = (0 : Fin 16).val ∧ upNext.event 0 = some (event 0 0 10 .idle) ∧ (event 0 0 10 .idle).action = .showFrame := by decide
theorem witness_MoveItem :
    live.takes (.moveItem 4 1) ∧ live.batch = none ∧ ¬((4 : Half) ≠ 0 ∧ (4 : Half) ≠ 0xFFFF ∧ (4 : Half) ≠ 0 ∧ (4 : Half) ≠ 4)
    ∧ ¬live.has (9 : Half) ∧ (live.items.map Item.key).Nodup ∧ live.items = [] ++ onAir :: [upNext, gone, mark]
    ∧ onAir.key = (1 : Half).toNat ∧ onAir.isOnAir = true ∧ live.has (4 : Half) ∧ live.items = [onAir, upNext, gone] ++ mark :: []
    ∧ mark.key = (4 : Half).toNat ∧ mark.isOnAir = false
    ∧ [onAir, upNext, gone] ++ ([] : List Item) = [onAir] ++ [upNext, gone] ∧ PlaceAfter 1 [onAir] ∧ PlaceAfter 0xFFFF [] := by
  refine ⟨by decide, by decide, by decide, by decide, by decide, by decide, by decide, by decide, by decide, by decide, by decide, by decide,
    by decide, .inr ⟨by decide, [], onAir, rfl, rfl, by decide⟩, place_top⟩
def MarkFields (key : Half) (mask selector : Byte) : Bool :=
  decide (key ≠ 0 ∧ key ≠ 0xFFFF ∧ mask ≠ 0 ∧ mask.toNat ≤ 7 ∧ selector.toNat ≤ 1)
theorem witness_MarkItem :
    live.takes (.markItem 2 1 1) ∧ live.batch = none
    ∧ (¬MarkFields 2 0 1 ∧ ¬MarkFields 2 8 1 ∧ ¬MarkFields 2 1 2 ∧ MarkFields 9 1 1 ∧ MarkFields 1 1 1 ∧ MarkFields 1 4 0 ∧ MarkFields 2 6 1 ∧ MarkFields 1 6 1 ∧ MarkFields 2 1 0)
    ∧ ¬live.has (9 : Half) ∧ (live.items.map Item.key).Nodup ∧ live.items = [] ++ onAir :: [upNext, gone, mark] ∧ onAir.isOnAir = true
    ∧ live.items = [onAir] ++ upNext :: [gone, mark] ∧ upNext.isOnAir = false
    ∧ (1 : Byte).getLsbD 0 = true ∧ (4 : Byte).getLsbD 2 = true ∧ (6 : Byte).getLsbD 0 = false ∧ (1 : Byte).getLsbD 1 = false
    ∧ (1 : Byte).getLsbD 2 = false := by decide

def added (owner : Half) (number : Byte) : AddEventBody := ⟨owner, number, 7, 1, 1, 30, 0x1234, 3⟩
def AddFields (b : AddEventBody) : Bool :=
  decide (b.owner ≠ 0 ∧ b.owner ≠ 0xFFFF ∧ b.number.toNat ≤ 15 ∧ b.outlet.toNat ≤ 7 ∧ b.action.toNat ≤ 1
        ∧ b.anchor.toNat ≤ 1 ∧ b.flags.toNat ≤ 3)
theorem witness_AddEvent :
    live.takes (.addEvent (added 2 3)) ∧ live.batch = none
    ∧ (¬AddFields (added 2 16) ∧ ¬AddFields { added 2 3 with outlet := 8 } ∧ AddFields (added 9 15) ∧ AddFields (added 2 15) ∧ AddFields (added 2 0))
    ∧ ¬live.has (9 : Half) ∧ (live.items.map Item.key).Nodup ∧ live.items = [onAir] ++ upNext :: [gone, mark] ∧ upNext.key = (2 : Half).toNat
    ∧ eventful.items = [onAir] ++ { upNext with events := sixteen } :: [gone, mark] ∧ 16 ≤ sixteen.length
    ∧ 1024 ≤ (poolFull.items.map fun i => i.events.length).sum ∧ upNext.events.length < 16
    ∧ (live.items.map fun i => i.events.length).sum < 1024 ∧ (∃ e ∈ upNext.events, e.num.val = (0 : Byte).toNat)
    ∧ upNext.events = upNext.events ++ [] ∧ (∀ e ∈ upNext.events, e.num < 15) := by decide
theorem witness_AddEvent_pool :
    (poolFull.items.map Item.key).Nodup
    ∧ poolFull.items = (List.range 64).map (fun k => item (k + 10) 1 .pending sixteen) ++ upNext :: [] := ⟨by decide, rfl⟩
def ModEventFields (b : ModifyEventBody) : Bool :=
  decide (b.owner ≠ 0 ∧ b.owner ≠ 0xFFFF ∧ b.number.toNat ≤ 15 ∧ b.setMask.toNat ≤ 127
      ∧ (b.setMask.getLsbD 0 = true → b.outlet.toNat ≤ 7) ∧ (b.setMask.getLsbD 1 = true → b.action.toNat ≤ 1)
      ∧ (b.setMask.getLsbD 2 = true → b.anchor.toNat ≤ 1) ∧ (b.setMask.getLsbD 5 = true ∨ b.setMask.getLsbD 6 = true → b.flags.toNat ≤ 3))
theorem witness_ModifyEvent :
    let b : ModifyEventBody := ⟨2, 0, 0x7F, 7, 1, 1, 300, 5, 3⟩
    let leading : Item := { upNext with lead := some 0 }
    live.takes (.modifyEvent b) ∧ live.batch = none ∧ ModEventFields b ∧ ¬ModEventFields { b with setMask := 0x80 } ∧ ¬ModEventFields { b with outlet := 8 }
    ∧ ModEventFields { b with owner := 9 } ∧ ¬live.has (9 : Half) ∧ (live.items.map Item.key).Nodup
    ∧ live.items = [onAir] ++ upNext :: [gone, mark] ∧ upNext.key = b.owner.toNat ∧ ModEventFields { b with number := 15 }
    ∧ (∀ e ∈ upNext.events, e.num.val ≠ (15 : Byte).toNat) ∧ (0 : Fin 16).val = b.number.toNat ∧ (7 : Fin 8).val = b.outlet.toNat
    ∧ (∃ e ∈ upNext.events, e.num = 0) ∧ upNext.lead ≠ some 0
    ∧ leading.lead = some 0 ∧ b.setMask.getLsbD 1 = true ∧ b.action = 1 := by decide
theorem witness_RemoveEvent :
    live.takes (.removeEvent 2 0) ∧ live.batch = none ∧ ¬((16 : Byte).toNat ≤ 15) ∧ (15 : Byte).toNat ≤ 15 ∧ ¬live.has (9 : Half)
    ∧ (live.items.map Item.key).Nodup ∧ live.items = [onAir] ++ upNext :: [gone, mark] ∧ upNext.key = (2 : Half).toNat
    ∧ (∀ e ∈ upNext.events, e.num.val ≠ (15 : Byte).toNat) ∧ (0 : Fin 16).val = (0 : Byte).toNat
    ∧ upNext.event 0 = some (event 0 0 10 .idle) := by decide
theorem witness_RetireItem :
    live.takes (.retireItem 2) ∧ live.batch = none ∧ ¬live.has (9 : Half) ∧ (live.items.map Item.key).Nodup
    ∧ live.items = [] ++ onAir :: [upNext, gone, mark] ∧ onAir.key = (1 : Half).toNat ∧ onAir.isOnAir = true
    ∧ live.items = [onAir] ++ upNext :: [gone, mark] ∧ upNext.key = (2 : Half).toNat ∧ upNext.isOnAir = false := by decide
theorem witness_EraseEvent :
    let cuedOn := fun (n : Nat) => withGraphics (fun x => { x with cued := some ⟨⟨2, 0⟩, 5, 0x1111⟩, queue := List.replicate n ⟨.clear, 0, some ⟨2, 0⟩, false⟩ }) live
    (∀ n ∈ [0, 7, 8], let s := cuedOn n
      (s.outlet 1).cued = some ⟨⟨2, 0⟩, 5, 0x1111⟩ ∧ (s.outlet 1).queue.length = n ∧ s.takes (.removeEvent 2 0) ∧ s.takes (.retireItem 2)
      ∧ s.batch = none ∧ upNext ∈ s.items ∧ s.items = live.items)
    ∧ StoreOk live.items ∧ event 0 0 10 .idle ∈ upNext.events ∧ upNext.key = (2 : Half).toNat ∧ (event 0 0 10 .idle).num.val = (0 : Byte).toNat
    ∧ upNext.isOnAir = false ∧ (live.outlet 0).cued = none ∧ (live.outlet 0).playing ≠ some ⟨2, 0⟩ :=
  ⟨by decide, live_store.1, by decide, by decide, by decide, by decide, by decide, by decide⟩
theorem ok_of {x : Except ResultCode (List Item)} (h : x.toOption.isSome = true) : ∃ l, x = .ok l := by
  cases x with
  | ok l => exact ⟨l, rfl⟩
  | error e => cases h
def keysAfter (c : StoreChange) : Option (List Nat) := (applyChange live.day c live.items).toOption.map fun l => l.map Item.key
theorem witness_RevisionRule_move : (live.items.map Item.key).Nodup ∧ keysAfter (.moveItem 4 1) = some [1, 4, 2, 3] := by decide
theorem witness_RevisionRule_insert : keysAfter (.insertItem (inserted 5 0xFFFF)) = some [5, 1, 2, 3, 4] := by decide
theorem witness_RevisionRule_mark : keysAfter (.markItem 2 1 1) = some [1, 2, 3, 4] := by decide
theorem witness_ClearRundown :
    live.takes .clearRundown ∧ ({ live with batch := some [] } : State).batch.isSome = true ∧ live.batch = none ∧ live.ctl.state ≠ .closed
    ∧ closed.takes .clearRundown ∧ closed.batch = none ∧ closed.ctl.state = .closed := by decide
def isDone (k : Half) : Bool := live.items.any fun i => decide (i.key = k.toNat) && i.isDone
theorem witness_Recycle :
    live.takes (.recycle 1 [3]) ∧ (2 : Byte).toNat = 2 ∧ live.batch = none ∧ (live.items.map Item.key).Nodup
    ∧ ([3, 2] : List Half)[1]? = some 2 ∧ isDone 2 = false ∧ isDone 3 = true ∧ (1 : Byte).toNat ≤ 1
    ∧ (List.replicate 32 (3 : Half)).all isDone = true
    ∧ (ShowOk live ∧ CuesOk live) ∧ (after (.recycle 1 [3]) live).ctl.next ≠ some (3 : Half).toNat := by
  refine ⟨by decide, by decide, by decide, by decide, by decide, by decide, by decide, by decide, by decide, ⟨live_show.1, live_cues⟩, by decide⟩
def staging (n : Nat) : State := { live with batch := some (List.replicate n (.retireItem 2)) }
theorem witness_StagedChange :
    (requestOf (.markItem 4 1 1)).wellFormed = true ∧ (staging 32).takes (.markItem 4 1 1) ∧ (staging 1).takes (.markItem 4 1 1)
    ∧ (staging 32).batch = some (List.replicate 32 (.retireItem 2)) ∧ 32 ≤ (List.replicate 32 (.retireItem 2 : StoreChange)).length
    ∧ (staging 1).batch = some [.retireItem 2] := by decide
theorem witness_StagedChange_judged :
    (∃ l, applyChange live.day (.markItem 4 1 1) (stagedView live.day live.items [.retireItem 2]) = .ok l)
    ∧ (applyChange live.day (.markItem 2 1 1) (stagedView live.day live.items [.retireItem 2])).toOption = none :=
  ⟨ok_of (by decide), by decide⟩
theorem witness_Batches :
    live.takes .openBatch ∧ live.batch = none ∧ (staging 0).takes .openBatch ∧ (staging 0).takes .commitBatch ∧ (staging 0).batch = some []
    ∧ live.takes .commitBatch ∧ live.takes .abandonBatch ∧ (staging 32).takes .abandonBatch ∧ (staging 1).takes .commitBatch := by decide
/-- A batch that passes, and one whose second change fails after its first passes. -/
theorem witness_Batches_judged :
    (∃ l, applyChange live.day (.retireItem 2) (stagedView live.day live.items []) = .ok l)
    ∧ (applyChange live.day (.retireItem 2) (stagedView live.day live.items [.retireItem 2])).toOption = none
    ∧ ∀ n c, ([.retireItem 2] : List StoreChange)[n]? = some c →
        ∃ l, applyChange live.day c (stagedView live.day live.items (([.retireItem 2] : List StoreChange).take n)) = .ok l := by
  refine ⟨ok_of (by decide), by decide, fun n c h => ?_⟩
  match n with
  | 0 => cases h; exact ok_of (by decide)
  | n + 1 => simp at h

/-- A batch that retires the anchor and the item of a vector: the anchor has moved before it, the vector's item is gone. -/
def retiring : State := { staging 0 with
  batch := some [.retireItem 3], cursor := .item 3, ctl := { live.ctl with anchor := some 3, leadLostKey := some 3, underrunKey := some 9 } }
theorem witness_Batches_pointers :
    retiring.takes .commitBatch ∧ retiring.batch = some [.retireItem 3] ∧ retiring.ctl.anchor = some 3 ∧ retiring.ctl.leadLostKey = some 3
    ∧ (∃ i ∈ retiring.items, i.key = 3) ∧ (∀ i ∈ stagedView live.day live.items [.retireItem 3], i.key ≠ 3)
    ∧ (∃ i ∈ stagedView live.day live.items [.retireItem 3], i.key = 1) ∧ live.ctl.anchor = some 1 ∧ armed.ctl.anchor = none := by decide

def nextCued (n : Nat) (s : State) : State :=
  withGraphics (fun x => { x with cued := some ⟨⟨2, 0⟩, 5, 0x1111⟩, queue := List.replicate n clearFrame, sending := none }) s
theorem witness_OpenCloseAbort :
    live.takes .openShow ∧ live.ctl.state ≠ .closed ∧ closed.takes .openShow ∧ closed.ctl.state = .closed
    ∧ follow closed.items none = some 2
    ∧ (∀ i ∈ closed.items, some i.key = follow closed.items none → ∀ e ∈ i.events,
        ¬(e.action = .showFrame ∧ e.anchor = .start ∧ e.offset < (closed.outlet e.outlet).preRoll))
    ∧ closing.takes .closeShow ∧ closing.ctl.state = .last
    ∧ (∀ n ∈ [0, 7, 8],
        ((nextCued n live).takes .closeShow ∧ (nextCued n live).ctl.state = .live ∧ (nextCued n live).ctl.next = some 2 ∧ (nextCued n live).item 2 = some upNext
          ∧ ((nextCued n live).outlet 1).cued = some ⟨⟨2, 0⟩, 5, 0x1111⟩ ∧ ⟨2, 0⟩ ∈ upNext.refs ∧ ((nextCued n live).outlet 1).queue.length = n)
        ∧ ((nextCued n armed).takes .closeShow ∧ (nextCued n armed).ctl.state = .armed
          ∧ ((nextCued n armed).outlet 1).cued = some ⟨⟨2, 0⟩, 5, 0x1111⟩ ∧ ((nextCued n armed).outlet 1).queue.length = n)
        ∧ ((nextCued n live).takes .abortShow ∧ (nextCued n live).ctl.state ≠ .closed ∧ ((nextCued n live).outlet 1).state = .cued
          ∧ ((nextCued n live).outlet 1).waiting = [] ∧ (nextCued n live).ctl.onAir ≠ some 2))
    ∧ (live.outlet 0).cued = none ∧ (live.outlet 0).state = .playing ∧ (live.outlet 2).state = .disabled
    ∧ (∀ w ∈ live.wheel, live.ctl.onAir ≠ some w.ref.owner ∨ w.fireFrame ≠ live.house) ∧ closed.takes .abortShow := by decide
theorem witness_TakeRequest :
    closed.takes .take ∧ closed.ctl.state = .closed
    ∧ (let s := withCtl (fun c => { c with next := none }) live; s.takes .take ∧ s.ctl.state = .live ∧ s.ctl.next = none)
    ∧ closing.takes .take ∧ closing.ctl.state = .last ∧ live.takes .take ∧ live.ctl.next.isSome = true := by decide
theorem witness_SetNext :
    live.takes (.setNext 4) ∧ closed.takes (.setNext 4) ∧ ¬(closed.ctl.state = .armed ∨ closed.ctl.state = .live) ∧ live.ctl.state = .live
    ∧ ¬live.has (9 : Half) ∧ (live.items.map Item.key).Nodup ∧ gone ∈ live.items ∧ gone.key = (3 : Half).toNat ∧ gone.airing ≠ .pending
    ∧ mark ∈ live.items ∧ mark.key = (4 : Half).toNat ∧ mark.airing = .pending ∧ mark.floated = false := by decide

/-- Item 1 held on air; at house time 599 its end condition is met (R67: 500 frames from 100), at 598 not. -/
def held : State := { live with items := [{ onAir with held := true }, upNext, gone, mark] }
theorem ends {s : State} {i : Item} (p : s.ctl.phase = .none) (t : i.airing = .onAir 100) (e : i.lead = none) (h : i.p ≤ subMod s.day (s.house + 1) 100) :
    s.EndCondition i := by
  unfold State.EndCondition
  rw [if_neg (by rw [p]; simp)]
  exact ⟨100, by simp [Item.takeFrame, t], by rw [e]; exact h⟩
theorem goes_on {s : State} {i : Item} (p : s.ctl.phase = .none) (t : i.airing = .onAir 100) (e : i.lead = none)
    (h : ¬i.p ≤ subMod s.day (s.house + 1) 100) : ¬s.EndCondition i := by
  unfold State.EndCondition
  rw [if_neg (by rw [p]; simp)]
  rintro ⟨k, a, b⟩
  simp only [Item.takeFrame, t, Option.some.injEq] at a
  subst a
  rw [e] at b
  exact h b
theorem witness_HoldRequest :
    armed.takes .hold ∧ armed.ctl.onAir = none ∧ live.takes .hold ∧ live.ctl.onAir = some onAir.key ∧ (live.items.map Item.key).Nodup
    ∧ live.items = [] ++ onAir :: [upNext, gone, mark] ∧ onAir.held = false
    ∧ (atHouse 598 held).takes .hold ∧ held.items = [] ++ { onAir with held := true } :: [upNext, gone, mark]
    ∧ ¬(atHouse 598 held).EndCondition { onAir with held := true } ∧ onAir.endAction = .auto
    ∧ (atHouse 599 held).EndCondition { onAir with held := true } :=
  ⟨by decide, rfl, by decide, rfl, by decide, rfl, rfl, by decide, rfl, goes_on rfl rfl rfl (by decide), rfl, ends rfl rfl rfl (by decide)⟩
theorem witness_VectorsAndSettings :
    live.takes (.setVector 1 0) ∧ ((3 : Byte) ≠ 1 ∧ (3 : Byte) ≠ 2) ∧ (0xFFFE : Half) ≠ 0xFFFF ∧ live.takes (.setVector 2 0xFFFE)
    ∧ live.takes (.setShowEnd 1 2160000) ∧ live.day ≤ (2160000 : Tri).toNat ∧ (2159999 : Tri).toNat < live.day
    ∧ live.takes (.setShowEnd 2 0) ∧ live.takes (.setWrap 61) := by decide

theorem show_of {s : State} (keys : (s.items.map Item.key).Nodup) (one : s.airing = s.ctl.onAir.toList)
    (on : s.ctl.onAir.isSome = true ↔ s.ctl.state = .live ∨ s.ctl.state = .last)
    (next : s.ctl.next.all (fun k => decide ((s.ctl.state = .armed ∨ s.ctl.state = .live) ∧ s.eligibleKey k = true)) = true) : ShowOk s :=
  ⟨keys, one, on, fun k h => by rw [h] at next; exact of_decide_eq_true next⟩
def manual (s : State) : State := withCtl (fun c => { c with ordinary := some .manual }) s
def coverWith (key : Nat) : State := withCtl (fun c => { c with cover := some ⟨.underrun, key⟩ }) live
def automatic (s : State) : State := withCtl (fun c => { c with ordinary := some .automatic }) s
def onClock (tb : Timebase) (s : State) : State := { s with tb := tb }
theorem at_rest {s : State} (r : s.inReset = false) (p : s.port = .idle) (o : s.owed = []) : s.atRest := ⟨r, not_working p, o⟩
theorem no_cover {s : State} (h : s.ctl.cover = none) : s.coverVoid := fun cp e => by rw [h] at e; cases e

/-- The four ways a boundary is made, on the Timebases of the manual's examples. -/
theorem witness_MakesBoundary :
    live.MakesBoundary (.frameBoundary []) 1080000 live.tb
    ∧ (onClock locked.tb live).MakesBoundary (.lossLimit []) 6639950 { locked.tb with ref := .holdover, runPeriod := 1079950 }
    ∧ (onClock { acquiring.tb with lastBoundary := 2700000 } live).MakesBoundary (.houseSyncPulse 260000 []) 3500000
        { acquiring.tb with
          lastBoundary := 2700000, now := 3500000, ref := .locked, acqCount := 0, acqPulse := none, measured := 1080000
          lastAccepted := some 3500000 }
    ∧ (onClock locked.tb live).MakesBoundary (.houseSyncPulse 540000 []) 5559950
        { locked.tb with now := 5559950, lastAccepted := some 5559950 } :=
  ⟨.internal (by decide), .lost 5019950 rfl rfl, .locking 260000 2420000 rfl rfl (by decide) rfl (by decide),
    .accepted 540000 5019950 rfl rfl (by decide)⟩

/-- The states the clauses on takes speak of: at house time 598 the next boundary, 599, meets item 1's end condition. -/
def last598 : State := atHouse 598 (automatic closing)
def live598 : State := atHouse 598 (automatic live)
/-- Item 1 planned for 600 frames, its lead ended at once: at 201 it has run 101, which is early. -/
def earlyAir : Item := { onAir with l := some 600 }
def early : State := atHouse 200 (automatic (withCtl (fun c => { c with phase := .ended }) { live with items := [earlyAir, upNext, gone, mark] }))
def boundaryOf (s : State) : State := { s with tb := s.tb.boundary 1080000 }
def invalid (s : State) : State := withCtl (fun c => { c with cover := some ⟨.underrun, 9⟩ }) s
theorem invalid_void {s : State} (h : ∀ i ∈ s.items, i.key ≠ 9) : (invalid s).coverVoid := fun cp e => by cases e; exact .inr h
theorem lead_ended {s : State} {i : Item} (p : s.ctl.phase = .ended) (d : i.degraded = false) : s.EndCondition i := by
  unfold State.EndCondition
  rw [if_pos ⟨by rw [p]; simp, d⟩]
  exact p
theorem take_states : ∀ s ∈ [manual armed, manual live, manual closing, coverWith 4, live598, last598, early, invalid (manual live),
      invalid (manual armed)],
    s.MakesBoundary (.frameBoundary []) 1080000 s.tb ∧ s.atRest ∧ ShowOk s := by
  intro s h
  simp only [List.mem_cons, List.not_mem_nil, or_false] at h
  rcases h with rfl | rfl | rfl | rfl | rfl | rfl | rfl | rfl | rfl <;>
    exact ⟨.internal (by decide), at_rest rfl rfl rfl, show_of (by decide) (by decide) (by decide) (by decide)⟩
theorem witness_Takes :
    ((manual armed).ctl.state = .armed ∧ (manual armed).ctl.next = some 2 ∧ (manual armed).coverVoid ∧ (invalid (manual armed)).coverVoid)
    ∧ ((manual live).ctl.state = .live ∧ (manual live).onAirItem = some onAir ∧ (manual live).ctl.next = some 2 ∧ (invalid (manual live)).coverVoid)
    ∧ (live598.onAirItem = some onAir ∧ live598.coverVoid ∧ (boundaryOf live598).AutoDue onAir ∧ onAir.takeFrame = some 100)
    ∧ (early.onAirItem = some earlyAir ∧ early.coverVoid ∧ (boundaryOf early).AutoDue earlyAir ∧ earlyAir.l = some 600 ∧ early.ctl.phase = .ended
      ∧ min (subMod live.day (boundaryOf early).house 100) 1048575 + 25 < 600)
    ∧ ((manual closing).ctl.state = .last ∧ (manual closing).onAirItem = some onAir ∧ (manual closing).coverVoid)
    ∧ (last598.ctl.state = .last ∧ last598.coverVoid ∧ (boundaryOf last598).AutoDue onAir)
    ∧ (coverWith 4).ctl.cover = some ⟨.underrun, 4⟩ ∧ mark ∈ (coverWith 4).items ∧ mark.key = 4 ∧ mark.events = [] ∧ (coverWith 4).ctl.onAir = some 1 :=
  ⟨⟨rfl, rfl, no_cover rfl, invalid_void (by decide)⟩, ⟨rfl, rfl, rfl, invalid_void (by decide)⟩,
    ⟨rfl, no_cover rfl, ⟨rfl, rfl, ends rfl rfl rfl (by decide)⟩, rfl⟩,
    ⟨rfl, no_cover rfl, ⟨rfl, rfl, lead_ended rfl rfl⟩, rfl, rfl, by decide⟩, ⟨rfl, rfl, no_cover rfl⟩,
    ⟨rfl, no_cover rfl, ⟨rfl, rfl, ends rfl rfl rfl (by decide)⟩⟩, rfl, by decide, rfl, rfl, rfl⟩

def underrun (key : Option Nat) : State :=
  atHouse 598 (withCtl (fun c => { c with next := none, ordinary := some .automatic, underrunKey := key }) live)
def alone (s : State) : State := withCtl (fun c => { c with next := none }) s
theorem drop_states : ∀ s ∈ [manual (alone armed), live, invalid live, automatic live, manual (alone live), underrun none, underrun (some 4),
      underrun (some 1), underrun (some 9)],
    s.MakesBoundary (.frameBoundary []) 1080000 s.tb ∧ s.atRest ∧ ShowOk s := by
  intro s h
  simp only [List.mem_cons, List.not_mem_nil, or_false] at h
  rcases h with rfl | rfl | rfl | rfl | rfl | rfl | rfl | rfl | rfl <;>
    exact ⟨.internal (by decide), at_rest rfl rfl rfl, show_of (by decide) (by decide) (by decide) (by decide)⟩
theorem witness_Takes_dropped :
    ((manual (alone armed)).ctl.state = .armed ∧ (manual (alone armed)).ctl.next = none ∧ (manual (alone armed)).coverVoid)
    ∧ (live.ctl.ordinary = none ∧ live.coverVoid ∧ (invalid live).coverVoid ∧ (invalid live).ctl.cover ≠ none)
    ∧ ((automatic live).ctl.ordinary = some .automatic ∧ ¬(boundaryOf (automatic live)).AutoDue onAir)
    ∧ ((manual (alone live)).ctl.state = .live ∧ (manual (alone live)).ctl.next = none ∧ (manual (alone live)).onAirItem = some onAir)
    ∧ (∀ k, (underrun k).ctl.state = .live ∧ (underrun k).ctl.ordinary = some .automatic ∧ (underrun k).onAirItem = some onAir
        ∧ (boundaryOf (underrun k)).AutoDue onAir ∧ (underrun k).ctl.takenByVector = false ∧ (underrun k).ctl.underrunRaised = false
        ∧ (underrun k).ctl.underrunKey = k ∧ (underrun k).coverVoid)
    ∧ (∃ j ∈ live.items, j.key = 4) ∧ ∀ j ∈ live.items, j.key ≠ 9 :=
  ⟨⟨rfl, rfl, no_cover rfl⟩, ⟨rfl, no_cover rfl, invalid_void (by decide), by decide⟩,
    ⟨rfl, fun h => goes_on rfl rfl rfl (by decide) h.2.2⟩, ⟨rfl, rfl, rfl⟩,
    fun k => ⟨rfl, rfl, rfl, ⟨rfl, rfl, ends rfl rfl rfl (by decide : 500 ≤ subMod live.day 600 100)⟩, rfl, rfl, rfl, no_cover rfl⟩,
    by decide, by decide⟩

/-! ## Witnesses: cues, firings, outlets -/

def ref : EventRef := ⟨2, 0⟩
def cued (key : Nat) : CuedRef := ⟨ref, key, 0x1111⟩
def four : List Waiting := [⟨⟨4, 0⟩, 9⟩, ⟨⟨4, 1⟩, 9⟩, ⟨⟨4, 2⟩, 9⟩, ⟨⟨4, 3⟩, 9⟩]
def frames (n : Nat) : List Frame := List.replicate n ⟨.showFrame, 9, none, false⟩
theorem witness_CueHolding :
    live.event ref = some (event 0 0 10 .idle)
    ∧ ref ∈ ((withClip (fun x => { x with waiting := [⟨ref, 5⟩] }) live).outlet 0).waiting.map Waiting.ref
    ∧ (live.outlet 1).cued = none ∧ ref ∉ (live.outlet 1).waiting.map Waiting.ref ∧ (live.outlet 1).Holds ∧ (live.outlet 1).waiting = []
    ∧ ((withGraphics (fun x => { x with queue := frames 7, sending := some .b9600 }) live).outlet 1).Holds
    ∧ ref ∉ (live.outlet 0).waiting.map Waiting.ref ∧ ¬(live.outlet 0).Holds ∧ (live.outlet 0).waiting.length < 4
    ∧ (let x := (withClip (fun x => { x with waiting := four }) live).outlet 0; ref ∉ x.waiting.map Waiting.ref ∧ ¬x.Holds ∧ 4 ≤ x.waiting.length)
    ∧ (let x := (withGraphics (fun x => { x with waiting := four }) live).outlet 1; x.Holds ∧ x.waiting ≠ [] ∧ (x.waiting.map Waiting.ref).Nodup) := by
  decide

theorem outlets_of {s : State} (h : s.outlets.data.all fun x => decide (x.queue.length ≤ 8 ∧ x.waiting.length ≤ 4
      ∧ (x.waiting.map Waiting.ref).Nodup ∧ (x.sending.isSome = true ↔ x.queue ≠ []) ∧ (x.cued.all fun c => decide (c.ref ∉ x.waiting.map Waiting.ref)) = true
      ∧ (x.state = .disabled ∨ x.state = .offline → x.cued = none ∧ x.playing = none ∧ (x.queue = [] ∨ x.queue = [clearFrame])))) : OutletsOk s := by
  intro o
  have m : s.outlet o ∈ s.outlets.data := by simp [State.outlet, Bank.get]
  have k := of_decide_eq_true (List.all_eq_true.mp h _ m)
  refine ⟨k.1, k.2.1, k.2.2.1, k.2.2.2.1, fun c e => ?_, k.2.2.2.2.2⟩
  have l := k.2.2.2.2.1
  rw [e] at l
  exact of_decide_eq_true l
def firing (x : Outlet) : State := due { live with outlets := outletBank clip x } 140 .wheelSlot
def busy (n : Nat) : Outlet := { graphics with queue := frames n, sending := some .b38400 }
theorem witness_WheelSlotFiring :
    (∀ x ∈ [graphics, busy 7, busy 8, { graphics with enabled := false }], OutletsOk (firing x))
    ∧ (firing graphics).owed.contains .wheelSlot = true ∧ (firing graphics).ctl.onAir = some 1
    ∧ (firing graphics).wheel.filter (fun v => v.fireFrame == (firing graphics).house) = [⟨⟨1, 1⟩, .fire, 140, 140, 0⟩]
    ∧ (firing graphics).event ⟨1, 1⟩ = some (event 1 1 40 .armed) ∧ (event 1 1 40 .armed).required = true
    ∧ ¬(graphics.enabled = false ∨ graphics.ready = false ∨ graphics.resetHold = true) ∧ (busy 7).queue.length < 8 ∧ (busy 8).queue.length = 8 := by
  refine ⟨fun x h => ?_, by decide⟩
  simp only [List.mem_cons, List.not_mem_nil, or_false] at h
  rcases h with rfl | rfl | rfl | rfl <;> exact outlets_of (by decide)
/-- Event 2 of item 1 has its due 200 frames after the take: at house time 236 it lies 64 frames ahead, at 237 it lies 63 ahead. -/
def cueing (house : Nat) : State := due { live with wheel := [⟨⟨1, 2⟩, .cue, house, house, 0⟩], planned := [] } house .wheelSlot
theorem witness_CueEntryActs :
    ∀ h ∈ [236, 237, 299], let s := cueing h
      s.owed.contains .wheelSlot = true ∧ s.ctl.onAir = some onAir.key ∧ s.item onAir.key = some onAir
      ∧ s.wheel.filter (fun v => v.fireFrame == s.house) = [⟨⟨1, 2⟩, .cue, h, h, 0⟩]
      ∧ s.event ⟨1, 2⟩ = some (event 2 1 200 .pending) ∧ subMod s.day s.house 100 < 200 ∧ (s.outlet 1).Holds ∧ (s.outlet 1).waiting = []
      ∧ (s.wheel.filter fun v => v.fireFrame != s.house) = [] := by decide
def arming : State := due live 237 .horizon
/-- The slots of frames 300 to 304 hold two entries each. -/
def crowded : State := { live with wheel := (List.range 5).flatMap fun k => [⟨⟨4, 0⟩, .fire, 300 + k, 300 + k, 0⟩, ⟨⟨4, 1⟩, .fire, 300 + k, 300 + k, 0⟩] }
theorem witness_HorizonArming :
    arming.owed.contains .horizon = true ∧ arming.ctl.onAir = some onAir.key ∧ arming.item onAir.key = some onAir
    ∧ onAir.event 2 = some (event 2 1 200 .pending) ∧ subMod arming.day arming.house 100 = 137
    ∧ arming.planned.filter (fun v => decide (v.distance - 137 ≤ 63) && v.ref.owner == onAir.key) = [⟨⟨1, 2⟩, .fire, 200⟩]
    ∧ (arming.wheel.filter fun v => v.ref != ⟨1, 2⟩ && v.fireFrame % 64 == 300 % 64).length < 2
    ∧ (∀ k ∈ [0, 1, 2, 3, 4], ¬(crowded.wheel.filter fun v => v.fireFrame % 64 == (300 + k) % 64).length < 2)
    ∧ (crowded.wheel.filter fun v => v.fireFrame % 64 == 305 % 64).length < 2 := by decide

/-- The first take of item 2 with one event `off` frames after its take, on a clip player; no other item has an event. -/
def arriving (off : Nat) (x : Outlet) : State :=
  manual { armed with items := [{ upNext with events := [event 0 0 off .idle] }, gone, mark], outlets := outletBank x graphics }
theorem arriving_ready (off : Nat) (x : Outlet) :
    (∃ n, (arriving off x).MakesBoundary (.frameBoundary []) n (arriving off x).tb) ∧ (arriving off x).atRest ∧ ShowOk (arriving off x) :=
  ⟨⟨_, .internal (show RefState.freeRun ≠ .locked by decide)⟩, at_rest rfl rfl rfl,
    show_of (show ([2, 3, 4] : List Nat).Nodup by decide) rfl ⟨(fun h => by cases h), (fun h => by rcases h with h | h <;> cases h)⟩ rfl⟩
/-- Item 1 at its end, with an event that clears at end playing on outlet 0 behind `n` queued frames. -/
def clearing : Item := { onAir with events := [{ event 0 0 0 .fired with clearAtEnd := true }, event 1 1 40 .armed] }
def ending (n : Nat) : State := manual { closing with
  items := [clearing, upNext, gone, mark]
  outlets := outletBank { clip with queue := frames n, sending := some .b9600, playing := some ⟨1, 0⟩ } { graphics with cued := some ⟨⟨1, 1⟩, 5, 0x1111⟩ } }
def endFrame : State := manual { closing with wheel := [⟨⟨1, 1⟩, .fire, 111, 111, 0⟩] }
theorem witness_ArrivalAndEnd :
    (∀ off ∈ [0, 10, 63, 64], let s := arriving off clip
      s.ctl.state = .armed ∧ s.ctl.next = some 2 ∧ s.ctl.ordinary = some .manual ∧ s.ctl.cover = none
      ∧ ({ upNext with events := [event 0 0 off .idle] } : Item) ∈ s.items ∧ (event 0 0 off .idle).due = none
      ∧ ∀ j ∈ s.items, j.key ≠ 2 → j.events = [])
    ∧ (clip.On ∧ clip.queue.length < 8 ∧ ¬Outlet.On { clip with ready := false } ∧ (frames 8).length = 8)
    ∧ (¬clip.Holds ∧ Outlet.Holds { clip with tally := false } ∧ clip.waiting = [] ∧ clip.cued = none ∧ clip.preRoll = 30)
    ∧ (∀ s ∈ [manual closing, endFrame], s.ctl.state = .last ∧ s.onAirItem = some onAir ∧ s.ctl.cover = none)
    ∧ (∀ n ∈ [0, 7, 8], (ending n).onAirItem = some clearing ∧ ((ending n).outlet 0).queue.length = n ∧ ((ending n).outlet 0).waiting = []
        ∧ ((ending n).outlet 0).playing = some ⟨1, 0⟩ ∧ ((ending n).outlet 1).cued = some ⟨⟨1, 1⟩, 5, 0x1111⟩)
    ∧ (manual closing).wheel.filter (fun w => w.ref.owner == 1 && w.fireFrame == 111) = []
    ∧ endFrame.wheel.filter (fun w => w.ref.owner == 1 && w.fireFrame == 111) = [⟨⟨1, 1⟩, .fire, 111, 111, 0⟩]
    ∧ event 1 1 40 .armed ∈ onAir.events ∧ graphics.On ∧ graphics.queue.length < 8 := by decide
theorem witness_ArrivalAndEnd_shows : ∀ n, ((ending n).outlet 0).Shows clearing ∧ ¬((ending n).outlet 2).Shows clearing :=
  fun _ => ⟨⟨{ event 0 0 0 .fired with clearAtEnd := true }, by decide, rfl, .inl rfl⟩, by
    rintro ⟨e, _, _, h | ⟨f, h, _⟩⟩
    · cases h
    · cases h⟩
theorem witness_ArrivalAndEnd_ready :
    (∀ s ∈ [manual closing, endFrame], s.MakesBoundary (.frameBoundary []) 1080000 s.tb ∧ s.atRest ∧ ShowOk s) ∧ StoreOk (manual closing).items := by
  refine ⟨fun s h => ?_, live_store.1⟩
  simp only [List.mem_cons, List.not_mem_nil, or_false] at h
  rcases h with rfl | rfl <;>
    exact ⟨.internal (by decide), at_rest rfl rfl rfl, show_of (by decide) (by decide) (by decide) (by decide)⟩

/-- Item 1 on air since 100 with one event of offset 40, at house time 120. -/
def one (anchor : EventAnchor) (st : EventState) : Event := { event 1 1 40 st with anchor := anchor }
def editedItem (e : Event) : Item := { onAir with events := [e] }
def edited (e : Event) : State := atHouse 120 { live with
  items := [editedItem e, { upNext with events := [] }, gone, mark]
  wheel := if e.state = .armed then [⟨⟨1, 1⟩, .fire, 140, 140, 0⟩] else [], planned := [] }
def toOffset (off : Half) : ModifyEventBody := ⟨1, 1, 8, 0, 0, 0, off, 0, 0⟩
def toLength (p : Tri) : ModifyBody := ⟨1, 0, 1, 0, 0, 0, 0, 0, p, 0, 0, 0, 0, 0, []⟩
theorem edited_sound (anchor : EventAnchor) (st : EventState) :
    StoreOk (edited (one anchor st)).items ∧ ShowOk (edited (one anchor st)) := by
  refine ⟨⟨Nat.le_of_ble_eq_true rfl, (show ([1, 2, 3, 4] : List Nat).Nodup by decide), ?_, ?_, ?_, Nat.le_of_ble_eq_true rfl⟩,
    show_of (show ([1, 2, 3, 4] : List Nat).Nodup by decide) rfl ⟨fun _ => .inl rfl, fun _ => rfl⟩ rfl⟩
  all_goals
    intro i h
    simp only [edited, atHouse, List.mem_cons, List.not_mem_nil, or_false] at h
  · rcases h with rfl | rfl | rfl | rfl <;> exact ⟨Nat.le_of_ble_eq_true rfl, Nat.le_of_ble_eq_true rfl⟩
  · rcases h with rfl | rfl | rfl | rfl <;> exact ⟨Nat.le_of_ble_eq_true rfl, rfl⟩
  · rcases h with rfl | rfl | rfl | rfl <;> rfl
theorem edited_ready (anchor : EventAnchor) (st : EventState) :
    let s := edited (one anchor st)
    s.takes (.modifyEvent (toOffset 20)) ∧ s.takes (.modifyItem (toLength 60)) ∧ s.batch = none ∧ s.onAirItem = some (editedItem (one anchor st))
    ∧ (∀ o, (s.outlet o).waiting = []) ∧ (one anchor st).cued = false :=
  ⟨⟨rfl, .inl rfl⟩, ⟨rfl, .inl rfl⟩, rfl, rfl, (fun o => by fin_cases o <;> rfl), rfl⟩
theorem edited_alone (anchor : EventAnchor) (st : EventState) : ∀ j ∈ (edited (one anchor st)).items, j.key ≠ 1 → j.events = [] := by
  intro j h k
  simp only [edited, atHouse, List.mem_cons, List.not_mem_nil, or_false] at h
  rcases h with rfl | rfl | rfl | rfl
  · exact absurd rfl k
  all_goals rfl
theorem witness_AirEdits :
    ((21 : Half).toNat ≠ 40 ∧ (20 : Half).toNat ≠ 40 ∧ (8 : Half).toNat ≠ 40 ∧ (7 : Half).toNat ≠ 40) ∧ onAir.lead = none
    ∧ ((61 : Tri).toNat = 21 + 40 ∧ (60 : Tri).toNat = 20 + 40 ∧ (48 : Tri).toNat = 8 + 40 ∧ (47 : Tri).toNat = 7 + 40) ∧ onAir.p = 500 := by decide
theorem witness_AirEdits_bodies (off : Half) (p : Tri) :
    (toOffset off).owner.toNat = 1 ∧ (toOffset off).number.toNat = 1 ∧ (toOffset off).setMask = 8
    ∧ (toLength p).key.toNat = 1 ∧ (toLength p).slug = [] ∧ (toLength p).indP = 1 := ⟨rfl, rfl, rfl, rfl, rfl, rfl⟩
theorem witness_AirEdits_times : subMod live.day 120 100 = 20 ∧ 20 - 8 = 12 ∧ 20 - 7 = 13 ∧ onAir.airing = .onAir 100 := by decide
theorem witness_AirEdits_held :
    held.takes (.markItem 1 2 0) ∧ held.batch = none ∧ StoreOk held.items ∧ ShowOk held ∧ held.onAirItem = some { onAir with held := true }
    ∧ ({ onAir with held := true } : Item).key = (1 : Half).toNat ∧ ({ onAir with held := true } : Item).endAction = .auto
    ∧ (atHouse 599 held).EndCondition { onAir with held := true } ∧ ¬(atHouse 598 held).EndCondition { onAir with held := true } :=
  ⟨by decide, rfl, ⟨by decide, by decide, by decide, by decide, by decide, by decide⟩, show_of (by decide) (by decide) (by decide) (by decide),
    rfl, rfl, rfl, ends rfl rfl rfl (by decide), goes_on rfl rfl rfl (by decide)⟩

def sends (x : Outlet) (e : EventRef) (rest : List Frame) : State :=
  { live with outlets := outletBank { x with queue := ⟨.showFrame, 9, some e, true⟩ :: rest, sending := some x.rate } graphics }
def watching (stage : WatchStage) (left : Nat) (s : State) : State := { s with watch := some ⟨0, ⟨1, 0⟩, stage, left⟩ }
theorem witness_SendCompletion :
    (live.outlet 0).sending = none
    ∧ (∀ x ∈ [clip, { clip with tally := false }, { graphics with cued := some (cued 5) }, { clip with cued := some (cued 5) }],
        ((sends x ref []).outlet 0).sending.isSome = true ∧ ((sends x ref (frames 7)).outlet 0).queue = ⟨.showFrame, 9, some ref, true⟩ :: frames 7
        ∧ ((sends x ref []).outlet 0).waiting = [])
    ∧ (∀ r ∈ [ref, ⟨1, 1⟩], ((sends { clip with cued := some (cued 5) } r []).outlet 0).cued = some (cued 5))
    ∧ clip.tally = true ∧ clip.kind = .clip ∧ graphics.kind = .graphics
    ∧ (watching .queued 25 (sends clip ⟨1, 0⟩ [])).watch = some ⟨0, ⟨1, 0⟩, .queued, 25⟩ := by decide
/-- A cue lost by a foreign SHOW, joining a list of three and dropped by a list of four; a list served by an outlet that becomes able. -/
theorem witness_SendCompletion_list :
    (∀ ws ∈ [four.take 3, four], OutletsOk (sends { clip with cued := some (cued 5), waiting := ws } ⟨1, 1⟩ []))
    ∧ ((⟨1, 1⟩ : EventRef) ≠ ref ∧ (four.take 3).length < 4 ∧ four.length = 4)
    ∧ (∀ x ∈ [{ graphics with waiting := four }, { clip with tally := false, waiting := four }],
        (sends x ⟨1, 1⟩ []).outlet 0 = { x with queue := [⟨.showFrame, 9, some ⟨1, 1⟩, true⟩], sending := some x.rate }
        ∧ x.waiting ≠ [] ∧ Outlet.Holds { x with queue := [], sending := none, playing := some ⟨1, 1⟩ }) := by
  refine ⟨fun ws h => ?_, by decide⟩
  simp only [List.mem_cons, List.not_mem_nil, or_false] at h
  rcases h with rfl | rfl <;> exact outlets_of (by decide)
theorem witness_ReturnLines :
    (live.inReset = false ∧ (live.outlet 2).ready = false ∧ (live.outlet 0).ready = true
      ∧ (let x := (withClip (fun x => { x with enabled := false }) live).outlet 0; x.ready = true ∧ x.enabled = false)
      ∧ (live.outlet 0).enabled = true ∧ (live.outlet 0).resetHold = false
      ∧ (let x := (withGraphics (fun x => { x with ready := false, waiting := four }) live).outlet 1
         x.ready = false ∧ x.waiting ≠ [] ∧ ({ x with ready := true } : Outlet).Holds)
      ∧ (let s := led .sent 5; s.watch = some ⟨0, ⟨1, 0⟩, .sent, 5⟩ ∧ s.ctl.phase = .shown ∧ s.onAirItem = some { onAir with lead := some 0 }))
    ∧ (live.outlet 0).tally = true ∧ (live.outlet 1).tally = false
    ∧ (let s := withClip (fun x => { x with tally := false }) (led .sent 0)
       (s.outlet 0).tally = false ∧ s.watch = some ⟨0, ⟨1, 0⟩, .sent, 0⟩ ∧ (s.outlet 0).On ∧ s.ctl.phase = .shown)
    ∧ (let s := withCtl (fun c => { c with phase := .running }) (led .running 0)
       s.watch = some ⟨0, ⟨1, 0⟩, .running, 0⟩ ∧ (s.outlet 0).On ∧ s.ctl.phase = .running) ∧ live.watch = none
    ∧ (let x := (withClip (fun x => { x with waiting := four }) live).outlet 0
       x.tally = true ∧ x.kind = .clip ∧ x.waiting ≠ [] ∧ ({ x with tally := false } : Outlet).Holds) := by decide
theorem witness_ConfigureOutlet :
    live.takes (.configureOutlet 8 0 0 0 0) ∧ 8 ≤ (8 : Byte).toNat ∧ live.takes (.configureOutlet 7 1 1 251 2) ∧ (7 : Fin 8).val = (7 : Byte).toNat
    ∧ (live.outlet 0).enabled = decide ((1 : Byte) = 1) ∧ (live.outlet 7).enabled = decide ((0 : Byte) = 1)
    ∧ (live.outlet 0).enabled = true ∧ (live.outlet 7).enabled = false ∧ (live.outlet 7).waiting = []
    ∧ (let x := (withGraphics (fun x => { x with enabled := false, waiting := four }) live).outlet 1
       x.enabled = false ∧ ({ x with enabled := true } : Outlet).Holds ∧ x.waiting ≠ []) := by decide
def holdEnding (x : Outlet) : State := due (heldOutlet x) 110 (.resetHold 0)
theorem witness_ResetOutlet :
    live.takes (.resetOutlet 8) ∧ live.takes (.resetOutlet 7) ∧ (7 : Fin 8).val = (7 : Byte).toNat
    ∧ live.owed.contains (.resetHold 0) = false ∧ (holdEnding clip).owed.contains (.resetHold 0) = true
    ∧ ((holdEnding { clip with ready := false }).outlet 0).ready = false
    ∧ (let x := (holdEnding { clip with playing := none }).outlet 0; x.resetHold = true ∧ x.queue = [] ∧ x.ready = true ∧ x.waiting = [])
    ∧ (let x := (holdEnding { clip with playing := none, tally := false, waiting := four }).outlet 0
       x.waiting ≠ [] ∧ ({ x with resetHold := false } : Outlet).Holds) := by decide
theorem witness_AckOutlet :
    live.takes (.ackOutlet 8 1) ∧ live.takes (.ackOutlet 0 0) ∧ live.takes (.ackOutlet 0 8) ∧ live.takes (.ackOutlet 7 7)
    ∧ (7 : Fin 8).val = (7 : Byte).toNat ∧ (7 : Byte) ≠ 0 ∧ (7 : Byte).toNat ≤ 7 ∧ (live.outlet 0).ready = true ∧ (live.outlet 7).ready = false
    ∧ (live.outlet 7).tally = false ∧ (live.outlet 0).tally = true := by decide
/-- The watch at its last boundary and one before; the vector entry names item 4, the item itself, or nothing in the store. -/
def losing (key : Option Nat) (left : Nat) (cover : Option CoverPart) : State :=
  withCtl (fun c => { c with leadLostKey := key, cover := cover }) (due (led .sent left) 110 .leadTimeout)
theorem witness_LeadTimeoutAndOver :
    (∀ k ∈ [none, some 4, some 1, some 9], ∀ n ∈ [0, 1], ∀ c ∈ [none, some ⟨.underrun, 2⟩], let s := losing k n c
      s.owed.contains .leadTimeout = true ∧ s.watch = some ⟨0, ⟨1, 0⟩, .sent, n⟩ ∧ s.ctl.onAir = some 1
      ∧ s.item 1 = some { onAir with lead := some 0 } ∧ s.ctl.phase = .shown ∧ s.ctl.takenByVector = false ∧ s.ctl.leadLostKey = k
      ∧ s.ctl.cover = c)
    ∧ ({ onAir with lead := some 0 } : Item).isOnAir = true ∧ (live.item 4 = some mark ∧ mark.isOnAir = false)
    ∧ (live.item 9).all Item.isOnAir = true
    ∧ (∀ h ∈ [599, 600], let s := due live h .overReached
        s.owed.contains .overReached = true ∧ s.inReset = false ∧ s.cue.sending ≠ none ∧ s.ctl.onAir.isSome = true ∧ s.ctl.overReached = false)
    ∧ (due live 599 .overReached).remaining = some 1 ∧ (due live 600 .overReached).remaining = some 0 := by decide

/-- Event 1 of item 1, its lead, fires at house time 140; a watch at each end of its count on a part at rest. -/
def leadFiring (n : Nat) : State := withCtl (fun c => { c with phase := .waiting }) { firing (busy n) with items := [{ onAir with lead := some 1 }, upNext, gone, mark] }
theorem witness_LeadTimeoutAndOver_watch :
    (∀ n ∈ [0, 7], let s := leadFiring n
      s.owed.contains .wheelSlot = true ∧ s.onAirItem = some { onAir with lead := some 1 }
      ∧ s.wheel.filter (fun v => v.fireFrame == s.house) = [⟨⟨1, 1⟩, .fire, 140, 140, 0⟩]
      ∧ ({ onAir with lead := some 1 } : Item).event 1 = some (event 1 1 40 .armed) ∧ (event 1 1 40 .armed).action = .showFrame
      ∧ (s.outlet 1).On ∧ (s.outlet 1).queue.length < 8 ∧ s.ctl.phase = .waiting)
    ∧ ∀ n ∈ [1, 2, 25], (led .queued n).watch = some ⟨0, ⟨1, 0⟩, .queued, n⟩ ∧ (led .queued n).ctl.ordinary = none
        ∧ (led .queued n).ctl.cover = none := by decide
theorem witness_LeadTimeoutAndOver_boundary (n : Nat) :
    (∃ k, (led .queued n).MakesBoundary (.frameBoundary []) k (led .queued n).tb) ∧ (led .queued n).atRest :=
  ⟨⟨_, .internal (show RefState.freeRun ≠ .locked by decide)⟩, at_rest rfl rfl rfl⟩

/-! ## Witnesses: presenters, panel, Timebase, notices, readings -/

theorem display_of {s : State} (h : s.cue.sending ≠ none) : DisplayOk s := fun _ n => absurd n h
theorem witness_CueRequests :
    live.takes (.setPattern 6 0 0) ∧ 6 ≤ (6 : Byte).toNat ∧ live.takes (.setPattern 5 0xFFFF 16) ∧ (5 : Fin 6).val = (5 : Byte).toNat
    ∧ live.takes (.setPattern 0 0 0) ∧ live.takes (.hailPresenter 4 1) ∧ live.takes (.hailPresenter 3 1001)
    ∧ (3 : Fin 4).val = (3 : Byte).toNat ∧ live.takes (.hailPresenter 0 0) := by decide
theorem witness_Lamps :
    State.reset.headline.1 = none ∧ live.headline.1 = some (-4150) ∧ live.takes (.setWrap 255) ∧ live.remaining = some 490
    ∧ (4 : Fin 6).val ≠ (3 : Fin 4).val ∧ (3 : Fin 6).val = (3 : Fin 4).val := by decide
theorem witness_LampBoundary :
    live.inReset = false ∧ DisplayOk live ∧ live.owed.contains (.lampStep 1) = false ∧ live.owed.contains (.hail 1) = false
    ∧ (∀ n ∈ [2, 3], (lit { Presenter.reset with lamp := .standby, frames := n }).cue.sending ≠ none)
    ∧ (due (lit { Presenter.reset with lamp := .standby, frames := 2 }) 110 (.lampStep 1)).owed.contains (.lampStep 1) = true
    ∧ (Pattern.table.get 1).length = 4
    ∧ ({ Presenter.reset with restartMark := some 110 } : Presenter).restartMark = some live.house
    ∧ (∀ n ∈ [0, 1, 2], let s := due (lit { Presenter.reset with lamp := .hailed, hail := n }) 110 (.hail 1)
        s.owed.contains (.hail 1) = true ∧ s.cue.sending ≠ none ∧ (s.cue.presenters.get 1).hail = n) := by
  refine ⟨rfl, live_display, ?_⟩
  decide
def lastSlot : State := { live with cue := { live.cue with slots := (Bank.replicate 6 none).set 5 (some ⟨.tod, 1, 2, 3, 4⟩) } }
theorem witness_DisplayCompletion :
    ({ live with cue := CueUnit.reset } : State).cue.sending = none ∧ live.cue.sending.isSome = true
    ∧ (∀ a, ({ live with cue := { live.cue with slots := .replicate 6 none } } : State).cue.slots.get a = none)
    ∧ lastSlot.cue.sending.isSome = true ∧ lastSlot.cue.slots.get 5 = some ⟨.tod, 1, 2, 3, 4⟩ ∧ (∀ b, b < 5 → lastSlot.cue.slots.get b = none)
    ∧ live.cue.slots.get 1 = some Shown.blank ∧ (∀ b, b < 1 → live.cue.slots.get b = none) := by decide
theorem witness_PanelRequests :
    live.takes (.setPanelMode 4 0 0) ∧ live.takes (.setPanelMode 0 3 0) ∧ live.takes (.setPanelMode 0 0 2) ∧ live.takes (.setPanelMode 3 2 1)
    ∧ (3 : Fin 4).val = (3 : Byte).toNat ∧ (live.panel.get 3).trap = none
    ∧ (pressed_ (some ⟨7, 105, 2⟩) none).takes (.setPanelMode 0 0 0) ∧ ((pressed_ (some ⟨7, 105, 2⟩) none).panel.get 0).trap = some ⟨7, 105, 2⟩
    ∧ live.takes (.verdict 0 0 0) ∧ (pressed_ (some ⟨7, 105, 2⟩) (some (6, .withdrawn))).takes (.verdict 0 7 1)
    ∧ (7 : Nat) = (7 : Byte).toNat ∧ ((pressed_ (some ⟨7, 105, 2⟩) (some (6, .withdrawn))).panel.get 0).ended = some ((6 : Byte).toNat, .withdrawn)
    ∧ (7 : Nat) ≠ (6 : Byte).toNat ∧ ((pressed_ (some ⟨7, 105, 2⟩) none).panel.get 0).ended = none := by decide
theorem witness_PanelPresses :
    live.inReset = false ∧ (live.panel.get 0).line = false ∧ (live.panel.get 0).quiet = 0 ∧ (live.panel.get 0).accepted = false
    ∧ (let x := (settling 3 true true).panel.get 0; x.line = true ∧ x.quiet ≠ 0)
    ∧ (let x := (settling 0 true true).panel.get 0; x.line = true ∧ x.quiet = 0 ∧ x.accepted = true)
    ∧ (settling 1 true true).cue.sending ≠ none ∧ live.owed.contains (.quiet 0) = false
    ∧ (due (settling 2 true true) 110 (.quiet 0)).owed.contains (.quiet 0) = true ∧ ((settling 2 true true).panel.get 0).quiet ≠ 1
    ∧ (let x := (settling 1 true true).panel.get 0; x.quiet = 1 ∧ x.line = x.accepted)
    ∧ (let x := (settling 1 true false).panel.get 0; x.quiet = 1 ∧ x.line = false ∧ x.accepted = true)
    ∧ (let x := (settling 1 false true).panel.get 0; x.quiet = 1 ∧ x.line = true ∧ x.accepted = false)
    ∧ live.owed.contains (.trapWait 0) = false ∧ (due live 110 (.trapWait 0)).owed.contains (.trapWait 0) = true ∧ (live.panel.get 0).trap = none
    ∧ (∀ n ∈ [10, 11], let x := (due (pressed_ (some ⟨7, 98, n⟩) none) 110 (.trapWait 0)).panel.get 0; x.trap = some ⟨7, 98, n⟩ ∧ x.lapse = .drop) := by
  decide
theorem witness_PanelActions :
    closed.ctl.state = .closed ∧ live.ctl.state ≠ .closed ∧ closed.ctl.onAir = none ∧ live.ctl.onAir = some onAir.key
    ∧ (live.items.map Item.key).Nodup ∧ live.items = [] ++ onAir :: [upNext, gone, mark] ∧ onAir.held = false
    ∧ (atHouse 599 held).EndCondition { onAir with held := true } ∧ held.ctl.onAir = some ({ onAir with held := true } : Item).key
    ∧ closed.ctl.next = none ∧ ShowOk live ∧ live.items = [onAir] ++ upNext :: [gone, mark] ∧ live.ctl.next = some upNext.key
    ∧ (∀ o, ¬((live.outlet o).kind = .graphics ∧ (live.outlet o).playing.isSome = true))
    ∧ (∀ n ∈ [7, 8], let x : Outlet := { busy n with playing := some ref }
        x.kind = .graphics ∧ x.enabled = true ∧ x.playing.isSome = true ∧ x.queue.length = n) := by
  refine ⟨rfl, by decide, rfl, rfl, by decide, rfl, rfl, ends rfl rfl rfl (by decide), rfl, rfl, live_show.1, rfl, rfl, by decide, by decide⟩
theorem witness_TimebaseRequests :
    closed.takes (.setStandard 3) ∧ live.takes (.setStandard 2) ∧ (2 : Byte).toNat ≤ 2 ∧ live.ctl.state ≠ .closed ∧ closed.takes (.setStandard 2)
    ∧ closed.ctl.state = .closed ∧ closed.tb.standard.day = 2160000 ∧ (2160000 : Tri).toNat = 2160000 ∧ (2159999 : Tri).toNat < 2160000
    ∧ live.takes (.setTrim 0x8000) ∧ live.takes (.setReference 2) ∧ live.tb.ref = .freeRun ∧ locked.takes (.setReference 1)
    ∧ locked.tb.ref ≠ .freeRun := by decide
theorem witness_Boundaries :
    live.inReset = false ∧ (∀ i, live.port ≠ .working i) ∧ live.tb.ref ≠ .locked ∧ live.owed = [] ∧ live.ctl.ordinary = none
    ∧ live.ctl.cover = none ∧ locked.inReset = false ∧ (∀ i, locked.port ≠ .working i) ∧ locked.tb.ref = .locked
    ∧ locked.tb.lastAccepted = some 5019950 :=
  ⟨rfl, not_working rfl, by decide, rfl, rfl, rfl, rfl, not_working rfl, rfl, rfl⟩
/-- Gaps at the ends of the ranges of R37, R40 and R41: half a nominal, and the window of 1,069,200 to 1,090,800 ticks. -/
theorem witness_HouseSyncPulse :
    let period := fun gap : Nat => locked.tb.now + gap - 5019950
    (∀ s ∈ [live, locked, acquiring], s.inReset = false ∧ s.owed = [] ∧ s.cue.sending ≠ none ∧ s.port = .idle)
    ∧ live.tb.ref = .freeRun ∧ locked.tb.ref = .locked ∧ locked.tb.lastAccepted = some 5019950 ∧ locked.tb.standard.nominal = 1080000
    ∧ period 539999 < 540000 ∧ 540000 ≤ period 540000 ∧ period 1069200 = 1069200 ∧ period 1090800 = 1090800 ∧ period 1090801 = 1090801
    ∧ acquiring.tb.ref = .acquiring ∧ acquiring.tb.acqPulse = some 2420000 ∧ acquiring.tb.acqCount = 2
    ∧ acquiring.tb.now + 260000 - 2420000 = 1080000 ∧ acquiring.tb.now + 260000 - acquiring.tb.lastBoundary < 540000
    ∧ 540000 ≤ ({ acquiring.tb with lastBoundary := 2700000 } : Timebase).now + 260000 - 2700000
    ∧ ({ State.reset with tb := { Timebase.reset with ref := .holdover } } : State).tb.ref = .holdover
    ∧ ({ acquiring.tb with acqPulse := none } : Timebase).acqPulse = none ∧ acquiring.tb.now + 249199 - 2420000 = 1069199 := by decide
theorem witness_NoticeSets :
    live.takes (.setNoticeEnables 0) ∧ live.takes (.ackNotices 0) ∧ noticed.takes (.ackNotices 0xFF) ∧ (0xFF : Byte) ≠ 0
    ∧ (0x80 : Byte) &&& 0xFF = 0x80 := by decide
theorem witness_Resets :
    live.takes .restart ∧ live.inReset = false ∧ asserted.inReset = true ∧ (asserted.outlet 0).ready = true ∧ (asserted.outlet 2).ready = false
    ∧ (asserted.outlet 1).tally = false ∧ (asserted.outlet 0).tally = true ∧ (asserted.panel.get 3).line ≠ true := by decide
theorem witness_ReadShow : live.takes .getShow ∧ live.onAirItem = some onAir ∧ State.reset.takes .getShow ∧ live.takes (.getSheet 255) := by decide
theorem witness_ReadUnits :
    live.takes (.getOutlet 8) ∧ live.takes (.getOutlet 7) ∧ (7 : Fin 8).val = (7 : Byte).toNat ∧ OutletsOk live ∧ live.takes (.getPresenter 4)
    ∧ live.takes (.getPresenter 3) ∧ (3 : Fin 4).val = (3 : Byte).toNat ∧ (3 : Fin 6).val = (3 : Fin 4).val ∧ live.takes .getTimebase
    ∧ live.takes (.readNotices 2) ∧ live.takes (.readNotices 1)
    ∧ ((pressed_ (some ⟨7, 105, 2⟩) none).panel.get 0).trap = some ⟨7, 105, 2⟩ := by
  refine ⟨by decide, by decide, by decide, live_outlets, ?_⟩
  decide
theorem witness_Sheet :
    0 < 2160000 ∧ 2160000 % 2 = 0 ∧ 2159999 < 2160000 ∧ closed.ctl.state = .closed ∧ armed.ctl.state = .armed ∧ live.ctl.state = .live
    ∧ live.onAirItem = some onAir ∧ onAir.airing = .onAir 100 ∧ closing.ctl.next = none ∧ live.timingList = [upNext] ++ mark :: []
    ∧ mark.hard = some 5000 ∧ 5000 < live.day ∧ (∀ j ∈ [upNext], j.hard = none) ∧ armed.timingList = [] ++ upNext :: [mark] := by decide

/-- Steps the four invariants speak of: each starts in a sound state and answers a next state. -/
theorem witness_StepsKeep :
    (∃ t, step { live with pending := [.take] } = .next t)
    ∧ ((StoreOk live.items ∧ RecordsOk live.items) ∧ (∀ i ∈ live.items, CountsOk i) ∧ ∀ w ∈ live.wheel, w.spill ≤ 4)
    ∧ (ShowOk live ∧ NextOk live) ∧ (WheelOk live ∧ CuesOk live)
    ∧ OutletsOk live ∧ PanelOk live ∧ TimebaseOk live.tb ∧ BatchOk live ∧ CountersOk live.notices ∧ CueOk live.cue ∧ DisplayOk live
    ∧ (∀ n, n < 64 → (live.wheel.filter fun w => w.fireFrame % 64 == n).length ≤ 2) :=
  have u := live_units
  ⟨⟨_, rfl⟩, ⟨live_store, live_counts⟩, live_show, ⟨live_wheel, live_cues⟩, u.1, u.2.2.1, u.2.2.2.1, u.2.2.2.2.1, u.2.2.2.2.2.1, u.2.2.2.2.2.2.1,
    u.2.2.2.2.2.2.2, u.2.1⟩

end Sys2Proof.Tests
end

section
/-! SUPPORT. One rule each for the request port, for the running order around one item, and for the bytes of the blocks. -/
namespace Sys2Proof.Machine

/-! ## A request taken by the port (R176, R180) -/

/-- Every request's row is the port in front of the owner's answer. -/
theorem exec_eq_request {i : Instr} {f : State → State × Response} (hf : requestAnswer i = some f) (s : State) :
    exec i s = .next (request i f s) := by
  cases i <;> cases hf <;> rfl

theorem request_of_takes {i : Instr} {s : State} (h : s.takes i) (f : State → State × Response) :
    request i f s = takenRequest i f s := by
  obtain ⟨reset, idle | hand⟩ := h
  · simp [request, reset, idle]
  · simp [request, reset, hand]

/-- A well-formed request the port takes ends as its owner leaves it, with the owner's response held. -/
theorem exec_of_takes {i : Instr} {f : State → State × Response} {s t : State} {r : Response} (h : s.takes i)
    (hf : requestAnswer i = some f) (wf : i.wellFormed = true) (answer : f s = (t, r)) : exec i s = .next (t.answered r) := by
  rw [exec_eq_request hf, request_of_takes h, takenRequest, if_pos wf, answer, State.answered]

/-! ## The running order around one item (R9, R10) -/

theorem findItem_split {before after : List Item} {i : Item} (first : ∀ j ∈ before, j.key ≠ i.key) :
    findItem (before ++ i :: after) i.key = some i := by
  rw [findItem, List.find?_eq_some_iff_append]
  exact ⟨by simp, before, after, rfl, by simpa using first⟩

theorem findItem_absent {l : List Item} {k : Nat} (absent : ∀ i ∈ l, i.key ≠ k) : findItem l k = none := by
  simpa [findItem, List.find?_eq_none] using absent

theorem itemAt_split (before after : List Item) (i : Item) : itemAt (before ++ i :: after) (before.length + 1) = some i := by
  simp [itemAt]

theorem itemAt_outside {l : List Item} {pos : Half} (h : pos = 0 ∨ l.length < pos.toNat) : itemAt l pos.toNat = none := by
  obtain rfl | past := h
  · rfl
  · rw [itemAt, if_neg (by omega)]
    exact List.getElem?_eq_none (by omega)

theorem positionIn_split {before after : List Item} {i : Item} (first : ∀ j ∈ before, j.key ≠ i.key) :
    positionIn (before ++ i :: after) i.key = before.length + 1 := by
  induction before with
  | nil => simp [positionIn]
  | cons b before ih =>
    obtain ⟨hb, rest⟩ := List.forall_mem_cons.1 first
    simp [positionIn, hb, ih rest]

theorem successor_split {before after : List Item} {i : Item} (first : ∀ j ∈ before, j.key ≠ i.key) :
    successor i.key (before ++ i :: after) = after.head?.map Item.key := by
  induction before with
  | nil => cases after <;> simp [successor]
  | cons b before ih =>
    obtain ⟨hb, rest⟩ := List.forall_mem_cons.1 first
    rw [← ih rest]
    cases before <;> simp [successor, hb]

theorem cursorPast_split {before after : List Item} {i : Item} (first : ∀ j ∈ before, j.key ≠ i.key) :
    cursorPast (before ++ i :: after) i.key = after.head?.elim .finish fun n => .item n.key := by
  rw [cursorPast, successor_split first]
  cases after <;> rfl

theorem key_ne_of_nodup {before after : List Item} {i : Item} (nd : ((before ++ i :: after).map Item.key).Nodup) :
    ∀ j ∈ before, j.key ≠ i.key := by
  intro j hj
  rw [List.map_append, List.nodup_append] at nd
  exact nd.2.2 _ (List.mem_map_of_mem hj) _ (by simp)

/-! ## Keys in a request's fields (11.1) -/

theorem validKey_eq_false {k : Half} (h : k = 0 ∨ k = 0xFFFF) : validKey k = false := by
  obtain rfl | rfl := h <;> rfl

theorem validKey_eq_true {k : Half} (zero : k ≠ 0) (top : k ≠ 0xFFFF) : validKey k = true := by
  rw [validKey, Bool.and_eq_true, bne_iff_ne, bne_iff_ne]
  exact ⟨zero, top⟩

/-! ## The bytes of the blocks (11.2) -/

theorem bitsByte_three (a b c : Bool) :
    bitsByte [a, b, c] = u8 ((if a then 1 else 0) + (if b then 2 else 0) + (if c then 4 else 0)) := by
  cases a <;> cases b <;> cases c <;> rfl

theorem eventBlock_length (owner : Nat) (e : Event) : (eventBlock owner e).length = 16 := rfl

theorem EventAction.code_eq (a : EventAction) : a.code = if a = .showFrame then 0 else 1 := by cases a <;> rfl

theorem EventAnchor.code_eq (a : EventAnchor) : a.code = if a = .start then 0 else 1 := by cases a <;> rfl

theorem EndAction.code_eq (a : EndAction) : a.code = if a = .auto then 1 else 0 := by cases a <;> rfl

theorem itemBlock_length {i : Item} (items : List Item) (slug : i.slug.length ≤ 16) : (itemBlock items i).length = 48 := by
  simp only [itemBlock, frameField, numField, reasonField, bitsByte, u8, u16, u24, List.length_append, List.length_cons,
    List.length_nil, List.length_replicate]
  omega

/-! ## The walk cursor (R30, R31) -/

/-- WALK at an item of the running order (R30). -/
theorem answerWalk_split {s : State} {before after : List Item} {i : Item} (nd : (s.items.map Item.key).Nodup)
    (order : s.items = before ++ i :: after) (here : s.cursor = .item i.key ∨ (s.cursor = .top ∧ before = [])) :
    answerWalk s
      = ({ s with cursor := after.head?.elim .finish fun n => .item n.key }, okBody (itemBlock s.items i)) := by
  have at_item : answerWalk s = s.walkFrom i := by
    obtain cursor | ⟨cursor, rfl⟩ := here
    · have found : s.item i.key = some i := findItem_of_mem nd (by simp [order])
      simp only [answerWalk, cursor, found]
    · simp only [answerWalk, cursor, order, List.nil_append]
  have past : cursorPast s.items i.key = after.head?.elim .finish fun n => .item n.key := by
    rw [order, cursorPast_split (key_ne_of_nodup (order ▸ nd))]
  rw [at_item, State.walkFrom, past, State.itemAnswer]

/-- SEEK by key or by position, to an item of the running order (R31). -/
theorem answerSeek_split {selector : Byte} {value : Half} {s : State} {before after : List Item} {i : Item}
    (nd : (s.items.map Item.key).Nodup) (order : s.items = before ++ i :: after)
    (named : (selector = 1 ∧ value ≠ 0 ∧ value ≠ 0xFFFF ∧ i.key = value.toNat)
      ∨ (selector = 2 ∧ value.toNat = before.length + 1)) :
    answerSeek selector value s = ({ s with cursor := .item i.key }, okBody (itemBlock s.items i)) := by
  obtain ⟨rfl, zero, top, key⟩ | ⟨rfl, place⟩ := named
  · have found : s.item value.toNat = some i := key ▸ findItem_of_mem nd (by simp [order])
    simp [answerSeek, validKey_eq_true zero top, found, State.seekTo, State.itemAnswer]
  · have found : itemAt s.items value.toNat = some i := by rw [order, place, itemAt_split]
    simp [answerSeek, found, State.seekTo, State.itemAnswer]

end Sys2Proof.Machine
end

section
/-! The obligations on the look-ups and the walk cursor (1.6). -/
namespace Sys2Proof.Machine

/-- Settles O6: each clause is one branch of its owner's answer, taken through the port by `exec_of_takes`; the item block follows
from the position of the first item with its key, field by field and airing by airing. -/
theorem lookUps : Obligations.LookUps := by
  unfold Obligations.LookUps
  refine ⟨fun key s h => ⟨fun bad => ?itemBadKey, fun zero top absent => ?itemAbsent,
      fun i before after zero top order named first => ?itemFound⟩,
    fun position s h => ⟨fun outside => ?positionOutside, fun i before after order place => ?positionFound⟩,
    fun key s h => ⟨fun bad => ?eventsBadKey, fun zero top absent => ?eventsAbsent,
      fun i ok zero top stored named => ?eventsFound⟩,
    fun owner e => ?eventBytes,
    fun items before after i ok order first => ⟨itemBlock_length items ok.slug, ?itemBytes⟩⟩
  case itemBadKey =>
    exact exec_of_takes h rfl rfl (by simp [answerGetItem, validKey_eq_false bad])
  case itemAbsent =>
    exact exec_of_takes h rfl rfl (by simp [answerGetItem, validKey_eq_true zero top, State.item, findItem_absent absent])
  case itemFound =>
    have found : s.item key.toNat = some i := by
      rw [State.item, order, ← named]
      exact findItem_split (named ▸ first)
    exact exec_of_takes h rfl rfl (by simp [answerGetItem, validKey_eq_true zero top, found, State.itemAnswer])
  case positionOutside =>
    exact exec_of_takes h rfl rfl (by simp [answerGetItemAt, itemAt_outside outside])
  case positionFound =>
    exact exec_of_takes h rfl rfl (by simp [answerGetItemAt, place, order, itemAt_split, State.itemAnswer])
  case eventsBadKey =>
    exact exec_of_takes h rfl rfl (by simp [answerGetEvents, validKey_eq_false bad])
  case eventsAbsent =>
    exact exec_of_takes h rfl rfl (by simp [answerGetEvents, validKey_eq_true zero top, State.item, findItem_absent absent])
  case eventsFound =>
    have found : s.item key.toNat = some i := named ▸ findItem_of_mem ok.keys stored
    refine ⟨exec_of_takes h rfl rfl ?_, (ok.lists i stored).1, ?_, fun e _ => eventBlock_length i.key e⟩
    · simp [answerGetEvents, validKey_eq_true zero top, found, eventsBody, List.flatMap_def]
    · exact List.pairwise_map.2 ((ascending_iff _).1 (ok.lists i stored).2)
  case eventBytes =>
    rw [eventBlock, bitsByte_three, EventAction.code_eq, EventAnchor.code_eq]
    rfl
  case itemBytes =>
    subst order
    have lead : numField i.lead = u8 (match i.lead with | some n => n.val | none => 0xFF) := by cases i.lead <;> rfl
    rw [itemBlock, positionIn_split first, bitsByte_three, EndAction.code_eq, lead, Item.takeFrame]
    cases i.airing with
    | pending => simp only [List.append_assoc]; rfl
    | onAir t => simp only [List.append_assoc]; rfl
    | done t a why => cases why <;> simp only [List.append_assoc] <;> rfl

/-- Settles O7: the first item with a key and the item at a position are the one item of the running order's split, and the cursor
an accepted SEEK leaves is one WALK reads from. -/
theorem walkAndSeek : Obligations.WalkAndSeek := by
  unfold Obligations.WalkAndSeek
  refine ⟨fun s h => ⟨fun i before after nd order here => ?walkItem, fun top empty => ?walkEmpty, fun finish => ?walkFinished⟩,
    fun selector value s h => ⟨fun sel => ?seekTop, fun sel bad => ?seekBadKey, fun sel zero top absent => ?seekAbsent,
      fun sel outside => ?seekOutside, fun sel => ?seekBadSelector,
      fun i before after nd order named => ⟨?seekItem, ?walkAfterSeek⟩⟩⟩
  case walkItem =>
    have walked := exec_of_takes h rfl rfl (answerWalk_split nd order here)
    cases after <;> exact walked
  case walkEmpty =>
    exact exec_of_takes h rfl rfl (by simp only [answerWalk, top, empty]; rfl)
  case walkFinished =>
    exact exec_of_takes h rfl rfl (by simp only [answerWalk, finish]; rfl)
  case seekTop =>
    exact exec_of_takes h rfl rfl (by rw [answerSeek, if_pos sel]; rfl)
  case seekBadKey =>
    exact exec_of_takes h rfl rfl (by simp [answerSeek, sel, validKey_eq_false bad])
  case seekAbsent =>
    exact exec_of_takes h rfl rfl (by simp [answerSeek, sel, validKey_eq_true zero top, State.item, findItem_absent absent])
  case seekOutside =>
    exact exec_of_takes h rfl rfl (by simp [answerSeek, sel, itemAt_outside outside])
  case seekBadSelector =>
    have other : ∀ n : Byte, n.toNat ≤ 2 → selector ≠ n := fun n small e => by rw [e] at sel; omega
    exact exec_of_takes h rfl rfl (by
      rw [answerSeek, if_neg (other 0 (by decide)), if_neg (other 1 (by decide)), if_neg (other 2 (by decide))])
  case seekItem =>
    exact exec_of_takes h rfl rfl (answerSeek_split nd order named)
  case walkAfterSeek =>
    exact ⟨_, exec_of_takes (s := { s with cursor := .item i.key, port := .idle }) ⟨h.1, .inl rfl⟩ rfl rfl
      (answerWalk_split nd order (.inl rfl))⟩

end Sys2Proof.Machine
end

section
/-! SUPPORT. The setup of an outlet (R121): what the cue operations and the lead reports leave of it, and what a change of a return
line writes of it. -/
namespace Sys2Proof.Machine

/-! ## Operations that leave every outlet as it is -/

theorem State.outlet_of_outlets {s t : State} (h : t.outlets = s.outlets) (p : Fin 8) : t.outlet p = s.outlet p := by
  rw [State.outlet, h, State.outlet]

theorem State.outlets_firingAction (k : Nat) (f : State → State) (s : State) : (s.firingAction k f).outlets = (f s).outlets := by
  simp only [State.firingAction]
  split
  · rfl
  · exact State.bump_outlets _ _

theorem Shows.outlets {s t : State} (h : Shows s t) : t.outlets = s.outlets := by rw [h.rest]

/-- The part's own change report leaves every outlet as it is (R169). -/
theorem State.outlets_reportOwn (before s : State) : (State.reportOwn State.formSheetNow before s).outlets = s.outlets :=
  (State.shows_reportOwn State.shows_formSheetNow before s).outlets

theorem State.outlets_leadRose (o : Fin 8) (s : State) : (s.leadRose o).outlets = s.outlets := by
  simp only [State.leadRose]
  split
  · split
    · exact State.outlets_leadReport _ _
    · rfl
  · rfl

theorem State.outlets_leadFell (o : Fin 8) (s : State) : (s.leadFell o).outlets = s.outlets := by
  simp only [State.leadFell]
  split
  · split
    · exact State.outlets_leadReport _ _
    · rfl
  · rfl

/-! ## Operations that leave an outlet's setup as it is -/

theorem Outlet.setup_sendStart (x : Outlet) : x.sendStart.setup = x.setup := by
  simp only [Outlet.sendStart]
  split <;> rfl

theorem Outlet.setup_fallen (x : Outlet) : x.fallen.setup = x.setup := by
  simp only [Outlet.fallen]
  split <;> rfl

theorem State.setup_onOutlet {f : Outlet → Outlet} (kept : ∀ x, (f x).setup = x.setup) (o p : Fin 8) (s : State) :
    ((s.onOutlet o f).outlet p).setup = (s.outlet p).setup := by
  rw [State.outlet_onOutlet]
  split
  · exact kept _
  · rfl

theorem State.setup_queueFrame (o p : Fin 8) (f : Frame) (s : State) :
    ((s.queueFrame o f).outlet p).setup = (s.outlet p).setup := by
  simp only [State.queueFrame]
  split
  · exact State.setup_onOutlet (f := fun x => { x with overflow := true }) (fun _ => rfl) o p s
  · exact State.setup_onOutlet (fun x => Outlet.setup_sendStart { x with queue := x.queue ++ [f] }) o p s

theorem State.setup_holdCue (o p : Fin 8) (w : Waiting) (s : State) : ((s.holdCue o w).outlet p).setup = (s.outlet p).setup := by
  rw [State.holdCue, State.outlet_of_outlets (State.onEvent_outlets _ _ _), State.setup_onOutlet, State.setup_queueFrame]
  exact fun _ => rfl

theorem State.setup_serveHead (own : Option Nat) (o p : Fin 8) (s : State) :
    ((s.serveHead own o).outlet p).setup = (s.outlet p).setup := by
  have cued (w : Waiting) :
      (((s.onOutlet o fun x => { x with waiting := dropWaiting w.ref x.waiting }).holdCue o w).outlet p).setup
        = (s.outlet p).setup := by
    rw [State.setup_holdCue, State.setup_onOutlet]
    exact fun _ => rfl
  simp only [State.serveHead]
  split
  · split
    · rfl
    · split
      · exact cued _
      · rw [State.outlet_of_outlets (State.outlets_firingAction _ _ _)]
        exact cued _
  · rfl

/-! ## The latches of the return lines (R123) -/

theorem State.setup_latchReady (o : Fin 8) (v : Bool) (s : State) :
    ((s.latchReady o v).outlet o).setup = { (s.outlet o).setup with ready := v, readyChanged := true } :=
  congrArg Outlet.setup (State.outlet_onOutlet_same s o _)

theorem State.setup_latchTally (o : Fin 8) (v : Bool) (s : State) :
    ((s.latchTally o v).outlet o).setup = { (s.outlet o).setup with tally := v, tallyChanged := true } :=
  congrArg Outlet.setup (State.outlet_onOutlet_same s o _)

/-- A fall of READY sets its latch, whatever it then loses the outlet (R123, R131). -/
theorem State.setup_readyFell {o : Fin 8} {s : State} (high : (s.outlet o).ready = true) (run : s.inReset = false) :
    ((s.readyFell o).outlet o).setup = { (s.outlet o).setup with ready := false, readyChanged := true } := by
  rw [State.readyFell, if_neg (by simp [high]), if_neg (by simp [run])]
  split
  · rw [(State.outletFell_spec o _).2.1, Outlet.setup_fallen, State.setup_latchReady]
  · rw [State.setup_latchReady]

/-- A rise of READY sets its latch, whatever cue it then brings (R123, R132). -/
theorem State.setup_readyRose {o : Fin 8} {s : State} (low : (s.outlet o).ready = false) (run : s.inReset = false) :
    ((s.readyRose o).outlet o).setup = { (s.outlet o).setup with ready := true, readyChanged := true } := by
  rw [State.readyRose, if_neg (by simp [low]), if_neg (by simp [run]), State.setup_serveHead, State.setup_latchReady]

/-- A rise of TALLY sets its latch, whatever the lead watch makes of it (R123, R134). -/
theorem State.setup_tallyRose {o : Fin 8} {s : State} (low : (s.outlet o).tally = false) (run : s.inReset = false) :
    ((s.tallyRose o).outlet o).setup = { (s.outlet o).setup with tally := true, tallyChanged := true } := by
  rw [State.tallyRose, if_neg (by simp [low]), if_neg (by simp [run])]
  split
  · rw [State.outlet_of_outlets (State.outlets_leadRose o _), State.setup_latchTally]
  · rw [State.setup_latchTally]

/-- A fall of TALLY sets its latch, whatever the lead watch makes of it and whatever cue it then brings (R123, R133, R134). -/
theorem State.setup_tallyFell {o : Fin 8} {s : State} (high : (s.outlet o).tally = true) (run : s.inReset = false) :
    ((s.tallyFell o).outlet o).setup = { (s.outlet o).setup with tally := false, tallyChanged := true } := by
  have fell : (((s.latchTally o false).leadFell o).outlet o).setup
      = { (s.outlet o).setup with tally := false, tallyChanged := true } := by
    rw [State.outlet_of_outlets (State.outlets_leadFell o _), State.setup_latchTally]
  rw [State.tallyFell, if_neg (by simp [high]), if_neg (by simp [run])]
  split
  · simp only
    split
    · rw [State.setup_serveHead, fell]
    · exact fell
  · rw [State.setup_latchTally]

/-- Every change of a return line, taken by `exec` out of reset, sets the latch of its line (R123). -/
theorem latch_of_lineChange {o : Fin 8} {s u : State} (run : s.inReset = false) :
    ((s.outlet o).ready = true → exec (.readyFall o) s = .next u → (u.outlet o).readyChanged = true)
    ∧ ((s.outlet o).ready = false → exec (.readyRise o) s = .next u → (u.outlet o).readyChanged = true)
    ∧ ((s.outlet o).tally = false → exec (.tallyRise o) s = .next u → (u.outlet o).tallyChanged = true)
    ∧ ((s.outlet o).tally = true → exec (.tallyFall o) s = .next u → (u.outlet o).tallyChanged = true) := by
  refine ⟨fun high taken => ?readyFall, fun low taken => ?readyRise, fun low taken => ?tallyRise, fun high taken => ?tallyFall⟩
    <;> obtain rfl := Host.Outcome.next.inj taken
  case readyFall =>
    rw [State.outlet_of_outlets (State.outlets_reportOwn s _)]
    exact congrArg OutletSetup.readyChanged (State.setup_readyFell high run)
  case readyRise => exact congrArg OutletSetup.readyChanged (State.setup_readyRose low run)
  case tallyRise => exact congrArg OutletSetup.tallyChanged (State.setup_tallyRose low run)
  case tallyFall => exact congrArg OutletSetup.tallyChanged (State.setup_tallyFell high run)

/-! ## An outlet's number and ACK_OUTLET (R139) -/

theorem outletOf_eq_none {b : Byte} (h : 8 ≤ b.toNat) : outletOf b = none := dif_neg (by omega)

theorem outletOf_eq_some {b : Byte} {o : Fin 8} (h : o.val = b.toNat) : outletOf b = some o := by
  have named : (⟨b.toNat, h ▸ o.isLt⟩ : Fin 8) = o := Fin.ext h.symm
  rw [outletOf, dif_pos (h ▸ o.isLt), named]

/-- A latch named in the mask is cleared, one not named is kept. -/
theorem Outlet.ack_eq (mask : Byte) (x : Outlet) : x.ack mask = { x with
    readyChanged := if mask.getLsbD 0 then false else x.readyChanged
    tallyChanged := if mask.getLsbD 1 then false else x.tallyChanged
    overflow := if mask.getLsbD 2 then false else x.overflow } := by
  have cleared (named latch : Bool) : (latch && !named) = if named then false else latch := by
    cases named <;> simp
  simp only [Outlet.ack, cleared]

/-- A refused ACK_OUTLET moves nothing. -/
theorem answerAckOutlet_refused {outlet mask : Byte} (bad : 8 ≤ outlet.toNat ∨ mask = 0 ∨ 8 ≤ mask.toNat) (s : State) :
    answerAckOutlet outlet mask s = (s, refusal .badField) := by
  by_cases off : 8 ≤ outlet.toNat
  · rw [answerAckOutlet, outletOf_eq_none off]
  · have named : outletOf outlet = some ⟨outlet.toNat, by omega⟩ := outletOf_eq_some rfl
    rw [answerAckOutlet, named]
    exact if_pos (bad.resolve_left off)

theorem answerAckOutlet_accepted {outlet mask : Byte} {o : Fin 8} (named : o.val = outlet.toNat) (nonempty : mask ≠ 0)
    (fits : mask.toNat ≤ 7) (s : State) :
    answerAckOutlet outlet mask s
      = (s.onOutlet o (Outlet.ack mask), okBody ((s.onOutlet o (Outlet.ack mask)).outletBlock o)) := by
  rw [answerAckOutlet, outletOf_eq_some named]
  exact if_neg fun bad => bad.elim nonempty (by omega)

end Sys2Proof.Machine
end

section
/-! The obligation on ACK_OUTLET (R139). -/
namespace Sys2Proof.Machine

/-- Settles O38: the refused and the accepted branch of the owner's answer, taken through the port by `exec_of_takes`. The clearing
leaves the line levels as they are, so a line change after it sets its latch by `latch_of_lineChange`. -/
theorem ackOutlet : Obligations.AckOutlet := by
  unfold Obligations.AckOutlet
  refine fun outlet mask s h => ⟨fun bad => ?refused, fun o named nonempty fits => ?accepted⟩
  case refused => exact exec_of_takes h rfl rfl (answerAckOutlet_refused bad s)
  case accepted =>
    intro x t
    have cleared : s.onOutlet o (Outlet.ack mask) = t := by
      rw [State.onOutlet, Bank.modify, Outlet.ack_eq]
      rfl
    have same : t.outlet o = x.ack mask := cleared ▸ State.outlet_onOutlet_same s o _
    refine ⟨exec_of_takes h rfl rfl (cleared ▸ answerAckOutlet_accepted named nonempty fits s), fun u => ?_⟩
    have ready : (t.outlet o).ready = x.ready := by rw [same, Outlet.ack]
    have tally : (t.outlet o).tally = x.tally := by rw [same, Outlet.ack]
    rw [← ready, ← tally]
    exact latch_of_lineChange h.1

end Sys2Proof.Machine
end

section
/-! SUPPORT. The sets over the notice classes, bit by bit (R182 to R185): the attention line, and what an acknowledgement leaves
pending. -/
namespace Sys2Proof.Machine

/-! ## A set over the eight classes as a byte -/

theorem and_ne_zero_iff_common_bit {x y : Byte} : x &&& y ≠ 0 ↔ ∃ n, n < 8 ∧ x.getLsbD n = true ∧ y.getLsbD n = true := by
  have empty : x &&& y = 0 ↔ ∀ n < 8, x.getLsbD n = true → y.getLsbD n = false := by
    simp [BitVec.eq_of_getLsbD_eq_iff]
  rw [ne_eq, empty]
  push Not
  simp

theorem getLsbD_and_not (x y : Byte) (n : Nat) : (x &&& ~~~y).getLsbD n = (x.getLsbD n && !y.getLsbD n) := by
  by_cases inside : n < 8
  · simp [inside]
  · simp [BitVec.getLsbD_of_ge x n (by omega)]

/-- Classes added before a removal that names them all leave no trace of themselves. -/
theorem or_and_not_of_subset {x cls classes : Byte} (named : cls &&& classes = cls) :
    (x ||| cls) &&& ~~~classes = x &&& ~~~classes := by
  have gone : cls &&& ~~~classes = 0#8 := by
    rw [← named, BitVec.and_assoc, BitVec.and_not_self]
    exact BitVec.and_zero
  rw [BitVec.and_or_distrib_right, gone, BitVec.or_zero]

/-! ## The attention line and the notice requests (R183 to R185) -/

/-- Out of reset the attention line is asserted exactly while some class is both pending and enabled (R184). -/
theorem State.attention_iff {s : State} (run : s.inReset = false) :
    s.attention = true ↔ ∃ n, n < 8 ∧ s.notices.pending.getLsbD n = true ∧ s.notices.enables.getLsbD n = true := by
  rw [State.attention, run, ← and_ne_zero_iff_common_bit, Bool.not_false, Bool.true_and, bne_iff_ne]

theorem State.getLsbD_raise (cls : Byte) (s : State) (n : Nat) :
    (s.raise cls).notices.pending.getLsbD n = (s.notices.pending.getLsbD n || cls.getLsbD n) := BitVec.getLsbD_or

theorem answerAckNotices_empty (s : State) : answerAckNotices 0 s = (s, refusal .badField) := if_pos rfl

theorem answerAckNotices_nonempty {classes left : Byte} {s : State} (nonempty : classes ≠ 0)
    (kept : s.notices.pending &&& ~~~classes = left) :
    answerAckNotices classes s
      = ({ s with notices := { s.notices with pending := left } }, okBody [left, s.notices.enables]) := by
  subst kept
  exact if_neg nonempty

/-- An occurrence the acknowledgement names, taken before it, is cleared with it (R185). -/
theorem answerAckNotices_raise {classes cls : Byte} (nonempty : classes ≠ 0) (named : cls &&& classes = cls) (s : State) :
    answerAckNotices classes (s.raise cls) = answerAckNotices classes s := by
  rw [answerAckNotices_nonempty (s := s) nonempty rfl,
    answerAckNotices_nonempty (s := s.raise cls) nonempty (or_and_not_of_subset named)]
  rfl

end Sys2Proof.Machine
end

section
/-! The obligation on SET_NOTICE_ENABLES and ACK_NOTICES (R183, R185). -/
namespace Sys2Proof.Machine

/-- Settles O50: each request's answer is taken through the port by `exec_of_takes`, and the attention line of the state it leaves is
read off its two sets by `State.attention_iff`. -/
theorem noticeSets : Obligations.NoticeSets := by
  unfold Obligations.NoticeSets
  refine ⟨rfl, fun classes s h => ?enables, fun classes s h => ⟨fun empty => ?refused, fun nonempty => ?acknowledged⟩⟩
  case enables => exact ⟨exec_of_takes h rfl rfl rfl, State.attention_iff h.1⟩
  case refused =>
    subst empty
    exact exec_of_takes h rfl rfl (answerAckNotices_empty s)
  case acknowledged =>
    have answer := answerAckNotices_nonempty (s := s) nonempty rfl
    refine ⟨s.notices.pending &&& ~~~classes, getLsbD_and_not _ _, exec_of_takes h rfl rfl answer, State.attention_iff h.1,
      fun cls => ⟨State.getLsbD_raise cls _, fun named => ?_⟩⟩
    have first : (s.raise cls).takes (.ackNotices classes) := h
    exact exec_of_takes first rfl rfl ((answerAckNotices_raise nonempty named s).trans answer)

end Sys2Proof.Machine
end
